-- ==== Sys2Proof/Word.lean ====
section
/-! DEFINITION. The word types of the Corzan and their plainest arithmetic. -/

namespace Sys2Proof

/-- One byte (R3). -/
abbrev Byte := BitVec 8

/-- A 32-bit word: an instruction word, a special register. -/
abbrev Word32 := BitVec 32

/-- A 64-bit word: a g register, a control-thread register, an entry of a table in memory. -/
abbrev Word64 := BitVec 64

/-- A whole vector register, 512 bytes; byte `i` is bits `[8i+7 : 8i]` (R3, R48). -/
abbrev VReg := BitVec 4096

/-- A mask register, one bit for each element (R254). -/
abbrev KReg := BitVec 512

/-- The data of one 128-byte line; byte `i` is bits `[8i+7 : 8i]` (R60). -/
abbrev LineData := BitVec 1024

/-- One bit for each byte of a 128-byte line (R61). -/
abbrev LineMask := BitVec 128

/-- A sparse table: pairs of key and value, keys strictly rising, no value equal to the table's default. -/
abbrev Tab (β : Type) := List (Nat × β)

end Sys2Proof
end

