-- ==== Sys2Proof/Fields.lean ====
section
/-! DEFINITION. The operand kinds of the micro-thread words: register names, types, conditions, scopes (R203 to R206). -/

namespace Sys2Proof

/-- The name of a vector register, v0 to v127; v0 is the chain register (R164, R203). -/
abbrev VName := BitVec 7
/-- The name of a g register, g0 to g63 (R203). -/
abbrev GName := BitVec 6
/-- The name of a mask register, k0 to k23; 24 to 31 are ill formed (R203). -/
abbrev KName := BitVec 5
/-- The name of an accumulator tile, z0 to z15 (R203). -/
abbrev ZName := BitVec 4
/-- A tensor identifier, t0 to t63 (R203). -/
abbrev TName := BitVec 6
/-- The name of an engine queue, q0 to q5; 6 and 7 are ill formed (R203). -/
abbrev QName := BitVec 3
/-- The name of a control-thread register x0 to x31 or f0 to f31. -/
abbrev XName := BitVec 5

/-- SZ: the integer element sizes (R205). -/
inductive Size where
  | b8 | b16 | b32 | b64
  deriving DecidableEq, Repr

/-- FT: the float types of registers (R205). -/
inductive FType where
  | f32 | bf16 | f16
  deriving DecidableEq, Repr

/-- XT: the cross-lane types (R205). -/
inductive XType where
  | i8 | i16 | i32 | i64 | n8 | n16 | n32 | n64 | f32 | bf16 | f16
  deriving DecidableEq, Repr

/-- RT: the reversible types (R205). -/
inductive RType where
  | i8 | i16 | i32 | n8 | n16 | n32 | f32 | bf16
  deriving DecidableEq, Repr

/-- The scopes, coded as SCOPE of R184. -/
inductive Scope where
  | mt | core | die | part | dev | dom | sys
  deriving DecidableEq, Repr

/-- The conditions of `kcmp` (R217). -/
inductive ICond where
  | eq | ne | lt | le | ltn | len
  deriving DecidableEq, Repr

/-- The conditions of `kfcmp` (R217). -/
inductive FCond where
  | eq | lt | le | un
  deriving DecidableEq, Repr

/-- The conditions of `bcc` (R222). -/
inductive GCond where
  | eqz | nez | ltz | gez | gtz | lez
  deriving DecidableEq, Repr

/-- The T choice of tensor forms and `mmac` (R219). -/
inductive TChoice where
  | dflt | t0 | t1
  deriving DecidableEq, Repr

/-- The operations of the atomics (R219, R304). -/
inductive AmoOp where
  | add | min | max | minn | maxn | and | or | swap
  deriving DecidableEq, Repr

/-- The rounding modes of the rounding prefix (R206) and of FST.RM (R236). -/
inductive RMode where
  | rne | rtz | rdn | rup | rna | sto
  deriving DecidableEq, Repr

/-- The causes of an illegal encoding (R212). -/
inductive Cause where
  | opc | rsv | reg | cvy | pfx | ovr | btg
  deriving DecidableEq, Repr

/-- An agent of a core (R98). -/
inductive Agent where
  | mt (i : Nat)
  | ct
  deriving DecidableEq, Repr

/-- A request that arrives from another fabric node or the host (R129, R130, R122): a read, a write, an integer atomic, a row of
atomics on consecutive elements (an operand and its random bits for each; float ones where `ft` is given), a remote-reduce packet
(byte offset in the line, F32 value, random bits; the sums are BF16 where `bf`), with the partition, queue and index of its launch
where that is deterministic (R127; 32768 and the gang tag of a launch over several devices), and a write that carries poison (R391). -/
inductive FabReq where
  | read (n : Nat)
  | write (bytes : List Byte)
  | amo (size : Size) (op : AmoOp) (x : Word64)
  | amoRow (size : Size) (ft : Option FType) (op : AmoOp) (rm : RMode) (xs : List (Nat × Nat))
  | reduce (sid : Nat) (bf : Bool) (rm : RMode) (elems : List (Nat × Nat × Nat)) (det : Option (Nat × Nat × Nat))
  | poisoned (bytes : List Byte)
  deriving DecidableEq, Repr

/-- A place that holds ECC granules (R388, R391): the address is a PA, or a byte offset. -/
inductive Place where
  | l1 (core pa : Nat)
  | slice (pa : Nat)
  | array (pa : Nat)
  | reg (core mt p word : Nat)
  | scratch (core a : Nat)
  | acc (core a : Nat)
  | talus (core mt a : Nat)
  | link (core mt a : Nat)
  | lodeLine (core pa : Nat)
  | span (die ctx idx : Nat)
  deriving DecidableEq, Repr

/-- The unit a step acts at: its core; its micro-thread, lane, queue, slot, bank, die, port, partition or group; a second
index (a barrier level, a launch queue); and a physical address, a line or a region. `arrived` says of a flit that it came before, and waited
for the debugger (R409). -/
structure Here where
  core : Nat := 0
  idx : Nat := 0
  sub : Nat := 0
  pa : Nat := 0
  arrived : Bool := false
  deriving DecidableEq, Repr

end Sys2Proof
end

