-- ==== Sys2Proof/Config.lean ====
section
/-! DEFINITION. What the spec leaves open: free values, which nothing in Lean can evaluate (log 7), and what an implementation
fixes without the spec giving it. A statement about a free value holds for every value of it. -/

namespace Sys2Proof.Config

/-- The free value drawn at a count: what another fabric node or a host returns, and what the spec leaves undefined (log 7, log 10). -/
opaque freeWord : Nat → Word64

/-- How many cycles a step takes on a die's clock, drawn at a count (R369, log 8). -/
opaque cycles : Nat → Word64

/-- Which line of a full L1 set makes room, drawn at a count (R65, log 11). -/
opaque victim : Nat → Nat

/-- The index that gives a line its set among the 2,048 of a home slice's data store, and among the 256 of its directory (R66, R67, log 51). -/
opaque sliceSet : Nat → Nat
opaque dirSet : Nat → Nat

/-- Whether a device number names a host rather than a Corzan; the spec fixes no host's number (R397, log 10). -/
opaque isHost : Nat → Bool

/-- Whether another node answers an access with an access error, drawn at a count (R14, log 10). -/
opaque accessError : Nat → Bool

/-- Whether what another node returns carries poison, drawn at a count (R391, log 10). -/
opaque remotePoison : Nat → Bool

/-- The device number of the link partner on a port (R411, log 12). -/
opaque linkPartner : Nat → Nat

/-- The number by which a record names a poisoned granule of a link FIFO, by core, micro-thread and offset (R382, log 7). -/
opaque linkGranule : Nat → Nat → Nat → Word64

/-- The identification CSRs of the control thread, by CSR number (R144, log 9). -/
opaque implId : Nat → Word64

/-- The SHA-384 digest of the firmware image and of the configuration record in flash (R411, R413, log 12). -/
opaque firmwareHash : List Byte
opaque configHash : List Byte

/-- The signature of the device key over a report: r then s, 48 bytes each (R412, R413, log 12). -/
opaque signature : List Byte → List Byte

/-- The device certificate in flash (R412, log 12). -/
opaque certificate : List Byte

end Sys2Proof.Config
end

