-- ==== Sys2Proof/Riscv.lean ====
section
/-! DEFINITION. The control thread's RISC-V words as data: RV64IMAFDC with Zicsr, Zifencei, Zba and Zbb (R144).
PRESUMED: the instruction set is the RISC-V unprivileged and privileged manuals' (log 9). -/

namespace Sys2Proof

/-- How a control-thread instruction stood in memory: 32 bits, or as the 16-bit word of the C extension. -/
inductive RvLen where
  | full
  | comp (h : BitVec 16)
  deriving DecidableEq, Repr

/-- Branch conditions. -/
inductive RvBr where
  | eq | ne | lt | ge | ltu | geu
  deriving DecidableEq, Repr

/-- Register and immediate arithmetic of RV64I. -/
inductive RvAlu where
  | add | sub | sll | slt | sltu | xor | srl | sra | or | and
  deriving DecidableEq, Repr

/-- The M extension. -/
inductive RvMul where
  | mul | mulh | mulhsu | mulhu | div | divu | rem | remu
  deriving DecidableEq, Repr

/-- Two-source forms of Zba and Zbb. -/
inductive RvB2 where
  | addUw | sh1add | sh2add | sh3add | sh1addUw | sh2addUw | sh3addUw
  | andn | orn | xnor | max | maxu | min | minu | rol | ror | rolw | rorw
  deriving DecidableEq, Repr

/-- One-source forms of Zbb. -/
inductive RvB1 where
  | clz | ctz | cpop | clzw | ctzw | cpopw | sextB | sextH | zextH | orcB | rev8
  deriving DecidableEq, Repr

/-- Forms of Zba and Zbb with a shift amount. -/
inductive RvBi where
  | slliUw | rori | roriw
  deriving DecidableEq, Repr

/-- Zicsr: write, set or clear. -/
inductive RvCsr where
  | rw | rs | rc
  deriving DecidableEq, Repr

/-- Loads and stores, integer and float. -/
inductive RvMem where
  | lb | lh | lw | ld | lbu | lhu | lwu | sb | sh | sw | sd | flw | fld | fsw | fsd
  deriving DecidableEq, Repr

/-- The AMO operations of the A extension. -/
inductive RvAmo where
  | swap | add | xor | and | or | min | max | minu | maxu
  deriving DecidableEq, Repr

/-- Three-source float forms. -/
inductive RvFma where
  | madd | msub | nmsub | nmadd
  deriving DecidableEq, Repr

/-- Float forms that round: two sources, or one for the square root. -/
inductive RvFop where
  | add | sub | mul | div | sqrt
  deriving DecidableEq, Repr

/-- Float forms without rounding, two sources to a float. -/
inductive RvFsel where
  | sgnj | sgnjn | sgnjx | min | max
  deriving DecidableEq, Repr

/-- Float comparisons. -/
inductive RvFcmp where
  | le | lt | eq
  deriving DecidableEq, Repr

/-- The integer types of float conversions. -/
inductive RvInt where
  | w | wu | l | lu
  deriving DecidableEq, Repr

/-- The control thread's instructions outside the forms that have rows of their own. A `Bool` named `w`
is the 32-bit form, one named `dbl` the double-precision form; `rm` is the word's rounding field. -/
inductive RvOp where
  | lui (rd : XName) (imm : BitVec 20)
  | auipc (rd : XName) (imm : BitVec 20)
  | jal (rd : XName) (imm : BitVec 20)
  | jalr (rd rs1 : XName) (imm : BitVec 12)
  | branch (c : RvBr) (rs1 rs2 : XName) (imm : BitVec 12)
  | aluImm (op : RvAlu) (w : Bool) (rd rs1 : XName) (imm : BitVec 12)
  | shiftImm (op : RvAlu) (w : Bool) (rd rs1 : XName) (sh : BitVec 6)
  | alu (op : RvAlu) (w : Bool) (rd rs1 rs2 : XName)
  | mul (op : RvMul) (w : Bool) (rd rs1 rs2 : XName)
  | b2 (op : RvB2) (rd rs1 rs2 : XName)
  | b1 (op : RvB1) (rd rs1 : XName)
  | bi (op : RvBi) (rd rs1 : XName) (sh : BitVec 6)
  | csr (op : RvCsr) (imm : Bool) (rd rs1 : XName) (num : BitVec 12)
  | ebreak
  | mret
  | wfi
  | fma (op : RvFma) (dbl : Bool) (rd rs1 rs2 rs3 : XName) (rm : BitVec 3)
  | fop (op : RvFop) (dbl : Bool) (rd rs1 rs2 : XName) (rm : BitVec 3)
  | fsel (op : RvFsel) (dbl : Bool) (rd rs1 rs2 : XName)
  | fcmp (op : RvFcmp) (dbl : Bool) (rd rs1 rs2 : XName)
  | fclass (dbl : Bool) (rd rs1 : XName)
  | fcvtToInt (t : RvInt) (dbl : Bool) (rd rs1 : XName) (rm : BitVec 3)
  | fcvtFromInt (t : RvInt) (dbl : Bool) (rd rs1 : XName) (rm : BitVec 3)
  | fcvtSD (rd rs1 : XName) (rm : BitVec 3)
  | fcvtDS (rd rs1 : XName) (rm : BitVec 3)
  | fmvToX (dbl : Bool) (rd rs1 : XName)
  | fmvFromX (dbl : Bool) (rd rs1 : XName)
  | illegal (word : Word32)
  deriving DecidableEq, Repr

end Sys2Proof
end

