-- ==== Sys2Proof/Syntax.lean ====
section
/-! DEFINITION. The instructions and operations of the Corzan: one constructor for each row of spec/opcode_table.json.
`c` is the C bit of a micro-thread word (R202); d, a, b are its register fields. Rows without an encoding are the steps of
engines, memory, scheduler and system software: the unit that acts (a core, a micro-thread, a queue, an address) is named by the
state's field `here`, and what arrives from outside is an operand. The constructors without an operand stand last. -/

namespace Sys2Proof

inductive Instr where
  /-- R246. Adds two vector integer sources element by element, saturating under SAT. -/
  | vadd (c : Bool) (d a b : VName) (sz : Size)
  /-- R246. Subtracts vector integer elements, saturating under SAT. -/
  | vsub (c : Bool) (d a b : VName) (sz : Size)
  /-- R246. Keeps the low w bits of the product of vector integer elements. -/
  | vmul (c : Bool) (d a b : VName) (sz : Size)
  /-- R246. Keeps the high w bits of the signed product. -/
  | vmulh (c : Bool) (d a b : VName) (sz : Size)
  /-- R246. Keeps the high w bits of the unsigned product. -/
  | vmulhn (c : Bool) (d a b : VName) (sz : Size)
  /-- R246. Takes the signed minimum of each element pair. -/
  | vmin (c : Bool) (d a b : VName) (sz : Size)
  /-- R246. Takes the signed maximum of each element pair. -/
  | vmax (c : Bool) (d a b : VName) (sz : Size)
  /-- R246. Takes the unsigned minimum of each element pair. -/
  | vminn (c : Bool) (d a b : VName) (sz : Size)
  /-- R246. Takes the unsigned maximum of each element pair. -/
  | vmaxn (c : Bool) (d a b : VName) (sz : Size)
  /-- R247. Writes the absolute value of each element, saturating under SAT. -/
  | vabs (c : Bool) (d a : VName) (sz : Size)
  /-- R247. Writes 0 minus each element, saturating under SAT. -/
  | vneg (c : Bool) (d a : VName) (sz : Size)
  /-- R246. Bitwise AND of each element pair. -/
  | vand (c : Bool) (d a b : VName) (sz : Size)
  /-- R246. Bitwise OR of each element pair. -/
  | vor (c : Bool) (d a b : VName) (sz : Size)
  /-- R246. Bitwise XOR of each element pair. -/
  | vxor (c : Bool) (d a b : VName) (sz : Size)
  /-- R246. Computes a AND NOT b for each element pair. -/
  | vandn (c : Bool) (d a b : VName) (sz : Size)
  /-- R246. Shifts each element left by a count, saturating under SAT. -/
  | vshl (c : Bool) (d a b : VName) (sz : Size)
  /-- R246. Shifts each element logically right. -/
  | vshr (c : Bool) (d a b : VName) (sz : Size)
  /-- R246. Shifts each element arithmetically right. -/
  | vsra (c : Bool) (d a b : VName) (sz : Size)
  /-- R246. Rotates each element left by the count mod w. -/
  | vrot (c : Bool) (d a b : VName) (sz : Size)
  /-- R248. Funnel-shifts the concatenation of va and vd right. -/
  | vfsh (c : Bool) (d a b : VName) (sz : Size)
  /-- R248. Extracts a bit field from each element. -/
  | vbext (c : Bool) (d a b : VName) (sz : Size)
  /-- R248. Inserts a bit field into each element of vd. -/
  | vbins (c : Bool) (d a b : VName) (sz : Size)
  /-- R247. Counts leading zero bits of each element. -/
  | vclz (c : Bool) (d a : VName) (sz : Size)
  /-- R247. Counts set bits of each element. -/
  | vpopc (c : Bool) (d a : VName) (sz : Size)
  /-- R247. Copies each active element. -/
  | vmv (c : Bool) (d a : VName) (sz : Size)
  /-- R249. Selects each element from va or vb by the governing mask. -/
  | vsel (c : Bool) (d a b : VName) (sz : Size)
  /-- R250. Converts integer elements between widths and packed formats. -/
  | vcvt (c : Bool) (d a : VName) (sz : Size)
  /-- R249. Writes each element's own index. -/
  | vidx (c : Bool) (d : VName) (sz : Size)
  /-- R251. Adds a signed immediate to each element. -/
  | vaddi (c : Bool) (d a : VName) (sz : Size) (i : BitVec 6)
  /-- R251. ANDs each element with an immediate. -/
  | vandi (c : Bool) (d a : VName) (sz : Size) (i : BitVec 6)
  /-- R251. ORs each element with an immediate. -/
  | vori (c : Bool) (d a : VName) (sz : Size) (i : BitVec 6)
  /-- R251. XORs each element with an immediate. -/
  | vxori (c : Bool) (d a : VName) (sz : Size) (i : BitVec 6)
  /-- R251. Shifts each element left by an immediate count. -/
  | vshli (c : Bool) (d a : VName) (sz : Size) (i : BitVec 6)
  /-- R251. Shifts each element logically right by an immediate count. -/
  | vshri (c : Bool) (d a : VName) (sz : Size) (i : BitVec 6)
  /-- R251. Shifts each element arithmetically right by an immediate count. -/
  | vsrai (c : Bool) (d a : VName) (sz : Size) (i : BitVec 6)
  /-- R251. Writes a signed immediate to each active element. -/
  | vmvi (c : Bool) (d : VName) (sz : Size) (i : BitVec 6)
  /-- R252. Adds two g registers modulo 2^64. -/
  | gadd (c : Bool) (d a b : GName)
  /-- R252. Subtracts two g registers modulo 2^64. -/
  | gsub (c : Bool) (d a b : GName)
  /-- R252. Keeps the low 64 bits of a g-register product. -/
  | gmul (c : Bool) (d a b : GName)
  /-- R252. Bitwise AND of two g registers. -/
  | gand (c : Bool) (d a b : GName)
  /-- R252. Bitwise OR of two g registers. -/
  | gor (c : Bool) (d a b : GName)
  /-- R252. Bitwise XOR of two g registers. -/
  | gxor (c : Bool) (d a b : GName)
  /-- R252. Shifts a g register left by gb[5:0]. -/
  | gshl (c : Bool) (d a b : GName)
  /-- R252. Shifts a g register logically right. -/
  | gshr (c : Bool) (d a b : GName)
  /-- R252. Shifts a g register arithmetically right. -/
  | gsra (c : Bool) (d a b : GName)
  /-- R252. Copies one g register to another. -/
  | gmv (c : Bool) (d a : GName)
  /-- R253. Adds a signed immediate to a g register. -/
  | gaddi (c : Bool) (d a : GName) (i : BitVec 11)
  /-- R253. ANDs a g register with a signed immediate. -/
  | gandi (c : Bool) (d a : GName) (i : BitVec 11)
  /-- R253. Shifts a g register left by an immediate count. -/
  | gshli (c : Bool) (d a : GName) (i : BitVec 6)
  /-- R253. Loads a signed 17-bit immediate times 4,096 into a g register. -/
  | glui (c : Bool) (d : GName) (i : BitVec 17)
  /-- R264. Adds float elements with one rounding. -/
  | vfadd (c : Bool) (d a b : VName) (ft : FType)
  /-- R264. Subtracts float elements with one rounding. -/
  | vfsub (c : Bool) (d a b : VName) (ft : FType)
  /-- R264. Multiplies float elements with one rounding. -/
  | vfmul (c : Bool) (d a b : VName) (ft : FType)
  /-- R264. Divides float elements with one rounding. -/
  | vfdiv (c : Bool) (d a b : VName) (ft : FType)
  /-- R264. Fused multiply-add a×b+c rounded once. -/
  | vfma (c : Bool) (d a b : VName) (ft : FType)
  /-- R264. Fused multiply-subtract a×b−c rounded once. -/
  | vfms (c : Bool) (d a b : VName) (ft : FType)
  /-- R264. Fused −(a×b)−c rounded once. -/
  | vfnma (c : Bool) (d a b : VName) (ft : FType)
  /-- R264. Fused −(a×b)+c rounded once. -/
  | vfnms (c : Bool) (d a b : VName) (ft : FType)
  /-- R265. Takes the lesser float, preferring the non-NaN operand. -/
  | vfmin (c : Bool) (d a b : VName) (ft : FType)
  /-- R265. Takes the greater float, preferring the non-NaN operand. -/
  | vfmax (c : Bool) (d a b : VName) (ft : FType)
  /-- R265. Writes the magnitude of each float element. -/
  | vfabs (c : Bool) (d a : VName) (ft : FType)
  /-- R265. Negates each float element. -/
  | vfneg (c : Bool) (d a : VName) (ft : FType)
  /-- R265. Gives a's magnitude the sign bit of b. -/
  | vfsgn (c : Bool) (d a b : VName) (ft : FType)
  /-- R267. Correctly rounded square root. -/
  | vfsqrt (c : Bool) (d a : VName) (ft : FType)
  /-- R267. Correctly rounded reciprocal. -/
  | vfrcp (c : Bool) (d a : VName) (ft : FType)
  /-- R267. Correctly rounded reciprocal square root. -/
  | vfrsq (c : Bool) (d a : VName) (ft : FType)
  /-- R267. Correctly rounded 2^a. -/
  | vfexp2 (c : Bool) (d a : VName) (ft : FType)
  /-- R267. Correctly rounded log2 a. -/
  | vflog2 (c : Bool) (d a : VName) (ft : FType)
  /-- R267. Correctly rounded tanh a. -/
  | vftanh (c : Bool) (d a : VName) (ft : FType)
  /-- R267. Correctly rounded logistic sigmoid. -/
  | vfsigm (c : Bool) (d a : VName) (ft : FType)
  /-- R266. Writes a one-hot class word for each float element. -/
  | vfcls (c : Bool) (d a : VName) (ft : FType)
  /-- R268. Writes a × 2^n rounded once. -/
  | vfscale (c : Bool) (d a b : VName) (ft : FType)
  /-- R271. Converts with stochastic rounding using random bits from vb. -/
  | vsrnd (c : Bool) (d a b : VName) (ft : FType)
  /-- R269. Converts elements between float, narrow and integer formats. -/
  | vfcvt (c : Bool) (d a : VName) (f : BitVec 4)
  /-- R275. Packs register values into a block format, choosing scales. -/
  | vfcvtiInto (c : Bool) (d a : VName) (t : TName) (ft : FType)
  /-- R274. Unpacks a block-format register pair into floats. -/
  | vfcvtiOut (c : Bool) (d a : VName) (t : TName) (ft : FType)
  /-- R279. Draws random bytes from the core's counter-mode generator. -/
  | vrng (c : Bool) (d : VName) (sz : Size)
  /-- R259. Sets mask bits i with ga+i < gb and writes GRC. -/
  | kwhilelt (c : Bool) (d : KName) (a b : GName) (sz : Size)
  /-- R259. Sets mask bits i with ga+i ≤ gb and writes GRC. -/
  | kwhilele (c : Bool) (d : KName) (a b : GName) (sz : Size)
  /-- R254. Compares 8- or 16-bit integer elements into a mask. -/
  | kcmp816 (c : Bool) (d : KName) (a b : VName) (cond : ICond) (wide : Bool)
  /-- R254. Compares 32- or 64-bit integer elements into a mask. -/
  | kcmp3264 (c : Bool) (d : KName) (a b : VName) (cond : ICond) (wide : Bool)
  /-- R255. Compares float elements into a mask. -/
  | kfcmp (c : Bool) (d : KName) (a b : VName) (cond : FCond) (ft : FType)
  /-- R256. ANDs two whole mask registers. -/
  | kand (c : Bool) (d a b : KName)
  /-- R256. ORs two whole mask registers. -/
  | kor (c : Bool) (d a b : KName)
  /-- R256. XORs two whole mask registers. -/
  | kxor (c : Bool) (d a b : KName)
  /-- R256. Computes ka AND NOT kb. -/
  | kandn (c : Bool) (d a b : KName)
  /-- R256. Inverts a mask register. -/
  | knot (c : Bool) (d a : KName)
  /-- R256. Copies a mask register. -/
  | kmv (c : Bool) (d a : KName)
  /-- R256. Counts set bits of a mask into a g register. -/
  | kpop (c : Bool) (d : GName) (a : KName)
  /-- R256. Writes the index of the lowest set mask bit, or −1. -/
  | kfirst (c : Bool) (d : GName) (a : KName)
  /-- R256. Sets mask bits 0–63 from a g register and clears the rest. -/
  | kset (c : Bool) (d : KName) (a : GName)
  /-- R257. Loads a mask register from memory as eight 64-bit elements. -/
  | kld (c : Bool) (d : KName) (a : GName)
  /-- R257. Stores a mask register to memory as eight 64-bit elements. -/
  | kst (c : Bool) (d : KName) (a : GName)
  /-- R261. Sets SHP from immediate rows and columns for later convoys. -/
  | vshapeImm (c : Bool) (rows cols : BitVec 7)
  /-- R261. Sets SHP from g registers, faulting on an illegal shape. -/
  | vshapeReg (c : Bool) (a b : GName)
  /-- R262. Collapses dense inner dimensions of a tensor descriptor. -/
  | tcoll (c : Bool) (d : GName) (t : TName)
  /-- R260. Subtracts GRC from ga and branches while the result is positive. -/
  | gsubbr (a : GName) (disp : BitVec 18)
  /-- R284. Permutes elements of va by indices in vb. -/
  | vperm (c : Bool) (d a b : VName) (sz : Size)
  /-- R287. Interleaves elements of va and vb. -/
  | vzip (c : Bool) (d a b : VName) (sz : Size)
  /-- R287. De-interleaves even and odd elements of va. -/
  | vunzip (c : Bool) (d a : VName) (sz : Size)
  /-- R284. Slides elements up by gb positions. -/
  | vslup (c : Bool) (d a : VName) (b : GName) (sz : Size)
  /-- R284. Slides elements down by gb positions. -/
  | vsldn (c : Bool) (d a : VName) (b : GName) (sz : Size)
  /-- R284. Broadcasts element gb of va. -/
  | vbcast (c : Bool) (d a : VName) (b : GName) (sz : Size)
  /-- R285. Transposes the SHP tile of va. -/
  | vtrans (c : Bool) (d a : VName) (sz : Size)
  /-- R286. Compresses mask-selected elements to the lowest positions. -/
  | vcomp (c : Bool) (d a : VName) (sz : Size)
  /-- R288. Sums active elements by the fixed pairwise tree. -/
  | vrsum (c : Bool) (d a : VName) (xt : XType)
  /-- R288. Reduces active elements to their maximum. -/
  | vrmax (c : Bool) (d a : VName) (xt : XType)
  /-- R288. Reduces active elements to their minimum. -/
  | vrmin (c : Bool) (d a : VName) (xt : XType)
  /-- R288. Reduces active elements by bitwise AND. -/
  | vrand (c : Bool) (d a : VName) (xt : XType)
  /-- R288. Reduces active elements by bitwise OR. -/
  | vror (c : Bool) (d a : VName) (xt : XType)
  /-- R289. Writes an inclusive running sum of active elements. -/
  | vscan (c : Bool) (d a : VName) (xt : XType)
  /-- R286. Expands consecutive elements of va to active positions. -/
  | vexpd (c : Bool) (d a : VName) (xt : XType)
  /-- R290. Sends a whole register into the next micro-thread's link FIFO. -/
  | vlsnd (c : Bool) (a : VName)
  /-- R291. Receives the oldest link FIFO entry, or zero with LNK when the predecessor is idle. -/
  | vlrcv (c : Bool) (d : VName)
  /-- R296. Loads contiguous vector elements. -/
  | vld (c : Bool) (d : VName) (a : GName) (sz : Size) (off : BitVec 8)
  /-- R296. Stores contiguous vector elements at retirement. -/
  | vst (c : Bool) (d : VName) (a : GName) (sz : Size) (off : BitVec 8)
  /-- R296. Loads elements with a row stride. -/
  | vlds (c : Bool) (d : VName) (a b : GName) (sz : Size)
  /-- R296. Stores elements with a row stride. -/
  | vsts (c : Bool) (d : VName) (a b : GName) (sz : Size)
  /-- R296. Gathers elements by an index register. -/
  | vldx (c : Bool) (d : VName) (a : GName) (b : VName) (sz : Size)
  /-- R296. Scatters elements by an index register. -/
  | vstx (c : Bool) (d : VName) (a : GName) (b : VName) (sz : Size)
  /-- R297. Loads a fault-free prefix of active elements and writes FFI. -/
  | vldff (c : Bool) (d : VName) (a : GName) (sz : Size) (off : BitVec 8)
  /-- R299. Loads each SHP row atomically at its home slice. -/
  | vldra (c : Bool) (d : VName) (a : GName) (sz : Size) (off : BitVec 8)
  /-- R301. Loads a tile through a tensor descriptor. -/
  | vldt (c : Bool) (d : VName) (t : TName) (b : GName) (tc : TChoice)
  /-- R301. Stores a tile through a tensor descriptor. -/
  | vstt (c : Bool) (d : VName) (t : TName) (b : GName) (tc : TChoice)
  /-- R302. Tag-checked scratchpad tile load that waits for its sequence tag. -/
  | vldtag (c : Bool) (d : VName) (t : TName) (b : GName) (tc : TChoice)
  /-- R303. Scalar page-path load into a g register. -/
  | gld (c : Bool) (d a : GName) (sext : Bool) (sz : Size) (off : BitVec 8)
  /-- R303. Scalar page-path store from a g register. -/
  | gst (c : Bool) (d a : GName) (sz : Size) (off : BitVec 8)
  /-- R305. Performs an element-wise atomic at home slices, returning old values. -/
  | vamo (c : Bool) (d : VName) (a : GName) (b : VName) (op : AmoOp)
  /-- R305. Performs a row-indivisible atomic add, min or max per SHP row. -/
  | vamoRow (c : Bool) (d : VName) (a : GName) (b : VName) (op : AmoOp)
  /-- R306. Performs a scalar atomic at the home slice through pages. -/
  | gamo (c : Bool) (d a b : GName) (dbl : Bool) (op : AmoOp)
  /-- R308. Sends remote-reduce additions to home slices. -/
  | vrst (c : Bool) (d : VName) (a : GName) (b : VName) (bf : Bool)
  /-- R310. Asks the L1 to prefetch the line holding gA, never faulting. -/
  | pref (c : Bool) (a : GName)
  /-- R311. Orders named access kinds at a scope, writing back at DIE or wider. -/
  | fence (c : Bool) (scope : Scope) (el es ll ls : Bool)
  /-- R314. Writes dirty L1 bytes of a range to their home slices. -/
  | clean (c : Bool) (a b : GName)
  /-- R314. Writes back and drops L1 lines of a range. -/
  | inval (c : Bool) (a b : GName)
  /-- R316. Enqueues a settle of a region on q5. -/
  | settle (c : Bool) (a : GName)
  /-- R316. Enqueues a renew of a region at a scope on q5. -/
  | renew (c : Bool) (a : GName) (scope : Scope)
  /-- R317. Reads a region's settle count and acts as an acquire. -/
  | setlc (c : Bool) (d a : GName) (scope : Scope)
  /-- R317. Reads a region's in-place write count. -/
  | iwc (c : Bool) (d a : GName)
  /-- R325. Reversible multiply that pushes its remainders as a talus frame. -/
  | rmul (c : Bool) (d a b : VName) (rt : RType)
  /-- R328. Pops an rmul frame and restores the multiplicand. -/
  | umul (c : Bool) (d a b : VName) (rt : RType)
  /-- R325. Reversible add that pushes carries or float remainders. -/
  | radd (c : Bool) (d a b : VName) (rt : RType)
  /-- R328. Pops a radd frame and restores va. -/
  | uadd (c : Bool) (d a b : VName) (rt : RType)
  /-- R325. Reversible fused multiply-add into vd. -/
  | rfma (c : Bool) (d a b : VName) (rt : RType)
  /-- R328. Pops an rfma frame and restores the addend in vd. -/
  | ufma (c : Bool) (d a b : VName) (rt : RType)
  /-- R325. Reversible narrowing conversion. -/
  | rnarrow (c : Bool) (d a : VName) (rt : RType)
  /-- R328. Pops an rnarrow frame and restores the wide source. -/
  | unarrow (c : Bool) (d a : VName) (rt : RType)
  /-- R325. Reversible right shift keeping shifted-out bits. -/
  | rshr (c : Bool) (d a : VName) (b : GName) (rt : RType)
  /-- R328. Pops an rshr frame and restores the source. -/
  | ushr (c : Bool) (d a : VName) (b : GName) (rt : RType)
  /-- R325. Reversible float scaling by 2^n. -/
  | rscale (c : Bool) (d a : VName) (b : GName) (bf : Bool)
  /-- R328. Pops an rscale frame and restores the source. -/
  | uscale (c : Bool) (d a : VName) (b : GName) (bf : Bool)
  /-- R325. Reversible leaky ReLU with slope 2^−k. -/
  | rlrelu (c : Bool) (d a : VName) (rt : RType) (k : BitVec 5)
  /-- R328. Pops an rlrelu frame and restores the source. -/
  | ulrelu (c : Bool) (d a : VName) (rt : RType) (k : BitVec 5)
  /-- R336. Spills the talus stack and writes a talus descriptor. -/
  | tsave (c : Bool) (a : GName)
  /-- R337. Restores a talus stack from a descriptor. -/
  | trest (c : Bool) (a : GName)
  /-- R338. Reads TSD into a g register. -/
  | tmark (c : Bool) (d : GName)
  /-- R338. Faults with talus order when ga differs from TSD. -/
  | tchk (c : Bool) (a : GName)
  /-- R338. Reads the talus frame count into a g register. -/
  | tdepth (c : Bool) (d : GName)
  /-- R348. Requests matrix-engine slab rows, raising MGR at retirement. -/
  | mattach (c : Bool) (a : GName)
  /-- R349. Sets MGR to 0 and frees the slabs once its q1 entry completes. -/
  | mdetach (c : Bool)
  /-- R353. Enqueues zeroing of an accumulator tile on q1. -/
  | mzero (c : Bool) (z : ZName)
  /-- R346. Loads a 32-byte descriptor into a tensor identifier. -/
  | tdef (c : Bool) (t : TName) (a : GName)
  /-- R347. Reads one descriptor word of a tensor identifier. -/
  | tget (c : Bool) (d : GName) (t : TName) (w : BitVec 2)
  /-- R361. Places markers in a set of queues. -/
  | qfence (c : Bool) (set : BitVec 6)
  /-- R362. Waits until a queue's completion count reaches a value, then acquires. -/
  | qwait (c : Bool) (q : QName) (a : GName)
  /-- R362. Reads a queue's completion count and acquires the completions it includes. -/
  | qcnt (c : Bool) (d : GName) (q : QName)
  /-- R351. Enqueues a matrix multiply-accumulate into accumulator tiles. -/
  | mmac (c : Bool) (z : ZName) (ta tb : TName) (idx : Bool) (tc : TChoice) (sat : Bool)
  /-- R354. Reads half a row of an accumulator tile into a vector. -/
  | vzrd (c : Bool) (v : VName) (z : ZName) (b : GName) (hi : Bool)
  /-- R354. Writes half a row of an accumulator tile from a vector. -/
  | vzwr (c : Bool) (v : VName) (z : ZName) (b : GName) (hi : Bool)
  /-- R354. Reads a column of an accumulator tile into a vector. -/
  | vzcrd (c : Bool) (v : VName) (z : ZName) (b : GName)
  /-- R354. Writes a column of an accumulator tile from a vector. -/
  | vzcwr (c : Bool) (v : VName) (z : ZName) (b : GName)
  /-- R355. Enqueues a tensor copy on q0, optionally setting sequence tags. -/
  | cpy (c : Bool) (d a : TName) (b : GName)
  /-- R356. Enqueues a row gather by index list on q2. -/
  | gath (c : Bool) (d a : TName) (b : GName)
  /-- R356. Enqueues a row scatter by index list on q2. -/
  | scat (c : Bool) (d a : TName) (b : GName)
  /-- R357. Enqueues a collective of a group on q3. -/
  | coll (c : Bool) (d a : TName) (b : GName)
  /-- R358. Enqueues an in-place postfix bank command on q4. -/
  | bank (c : Bool) (a b : GName)
  /-- R364. Branches unconditionally by a displacement. -/
  | br (disp : BitVec 18)
  /-- R364. Branches and writes the return address to gA. -/
  | jal (a : GName) (disp : BitVec 18)
  /-- R364. Branches on a signed condition of gA. -/
  | bcc (a : GName) (cond : GCond) (disp : BitVec 15)
  /-- R364. Branches when any or none of a mask's bits is set. -/
  | bk (k : KName) (inv : Bool) (disp : BitVec 15)
  /-- R366. Does nothing. -/
  | nop (c : Bool)
  /-- R155. Releases the micro-thread's accesses and returns it to its lode queue. -/
  | stop (c : Bool)
  /-- R366. Lets other ready micro-threads of the lane issue first. -/
  | yield (c : Bool)
  /-- R171. Arrives at a barrier instance of a level and waits for its completion. -/
  | bar (c : Bool) (level : BitVec 3)
  /-- R364. Jumps to the address in gA. -/
  | jr (c : Bool) (a : GName)
  /-- R364. Self-fetches the lode at gA and starts at its word 0. -/
  | lfetch (c : Bool) (a : GName)
  /-- R368. Reads a special register into a g register. -/
  | sread (c : Bool) (d : GName) (num : BitVec 11)
  /-- R368. Writes a special register from a g register, with per-register checks. -/
  | swrite (c : Bool) (d : GName) (num : BitVec 11)
  /-- R373. Retires and then faults the micro-thread with a software trap. -/
  | trap (c : Bool) (code : BitVec 11)
  /-- R373. Halts the core or faults the micro-thread with a breakpoint. -/
  | brk (c : Bool) (code : BitVec 11)
  /-- R372. Sets the register window base for later convoys. -/
  | wbase (c : Bool) (n : BitVec 11)
  /-- R371. Clears selected FST flags. -/
  | fclr (c : Bool) (flags : BitVec 7)
  /-- R374. Writes one fact about the launch into a g register. -/
  | poolq (c : Bool) (d : GName) (query : BitVec 11)
  /-- R206. Prefix naming the governing mask of the next word. -/
  | maskSelect (inv : Bool) (k : KName)
  /-- R206. Prefix setting the rounding mode and random-bits register. -/
  | rounding (v : VName) (mode : RMode)
  /-- R206. Prefix setting saturation, zeroing and signedness. -/
  | saturateAndZeroing (sgn zero sat : Bool)
  /-- R206. Prefix supplying high immediate bits or the mmac operand block. -/
  | immediateExtension (imm : BitVec 21)
  /-- R206. Prefix supplying a second format code. -/
  | secondType (code : BitVec 5)
  /-- R152. Places one lode in the lode queues of masked micro-threads. -/
  | mtBcast (rs1 rs2 : XName)
  /-- R152. Places one lode with an argument in one micro-thread's queue. -/
  | mtSend (rs1 rs2 : XName) (m : BitVec 5)
  /-- R108. Waits until masked micro-threads are idle, then acquires. -/
  | mtWait (rs1 : XName)
  /-- R377. Reads a g register of a micro-thread at a convoy boundary. -/
  | mtGet (rd rs1 : XName) (n : BitVec 6)
  /-- R377. Writes a g register of a micro-thread at a convoy boundary. -/
  | mtPut (rs1 : XName) (n : BitVec 6) (rs2 : XName)
  /-- R156. Stops masked micro-threads at their next convoy boundary. -/
  | mtStop (rs1 : XName)
  /-- R378. Reads the state codes of sixteen micro-thread contexts. -/
  | mtStat (rd : XName) (h : Bool)
  /-- R378. Reads one word of a micro-thread's fault record. -/
  | mtFlt (rd rs1 rs2 : XName)
  /-- R169. Waits for all micro-threads idle, empties FIFOs and sets the link topology. -/
  | mtLnk (pairs : Bool)
  /-- R172. Waits until the core's micro-threads completed m barrier instances of a level. -/
  | mtBar (rs1 : XName) (level : BitVec 3)
  /-- R379. Enqueues one engine command for the core from the control thread. -/
  | mtEng (rs1 rs2 : XName)
  /-- R109. Control-thread fence or fence.tso ordering at the xbscope scope. -/
  | ctFence (tso : Bool) (pred succ : BitVec 4) (rd rs1 : XName)
  /-- R109. Orders earlier control-thread stores before later instruction fetches. -/
  | ctFenceI (rd rs1 : XName) (imm : BitVec 12)
  /-- R23. Control-thread load or store, translated in U mode and untranslated in M mode. -/
  | ctLoadStore (op : RvMem) (r rs1 : XName) (imm : BitVec 12) (len : RvLen)
  /-- R122. Control-thread AMO performed indivisibly at the home slice. -/
  | ctAmo (op : RvAmo) (dbl aq rl : Bool) (rd rs1 rs2 : XName)
  /-- R124. Places a reservation on a 32-byte sector at the home slice. -/
  | ctLr (dbl aq rl : Bool) (rd rs1 : XName)
  /-- R124. Stores conditionally on the reservation surviving. -/
  | ctSc (dbl aq rl : Bool) (rd rs1 rs2 : XName)
  /-- R41. A U-mode page fault of cause INV checkpoints and starts run-ahead before the trap. -/
  | ctPageFault (va : Word64) (kind : BitVec 2)
  /-- R380. Sets the scope used by control-thread fences and aq/rl bits. -/
  | xbscopeWrite (op : RvCsr) (imm : Bool) (rd rs1 : XName)
  /-- R387. Resumes, or skips the brk of, faulted micro-threads named by the masks. -/
  | xbresumeWrite (op : RvCsr) (imm : Bool) (rd rs1 : XName)
  /-- R388. A convoy that consumed a corrected error value is rolled back and re-issued once. -/
  | convoyReissue (mirror : Bool) (member : BitVec 2) (group : BitVec 3)
  /-- R24. The walker reads page-table levels from home slices and fills the TLB. -/
  | pageWalk (ctx : BitVec 4) (va : Word64)
  /-- R62. A sector fetch arrives from the home slice and merges under the dirty mask. -/
  | l1Fill (victim : Option Nat)
  /-- R67. A write arrives at its home slice and is performed once other L1 copies drop. -/
  | homeSliceWrite (line : Nat) (mask : LineMask) (data : LineData)
  /-- R68. A home slice serves an L1 fill, filling from the arrays on a miss. -/
  | homeSliceFill (evict : Option Nat) (serves : Bool)
  /-- R122. An atomic request is read, combined and written indivisibly at its home slice. -/
  | atomicAtSlice (size : Size) (op : AmoOp) (x : Word64)
  /-- R129. A request arriving over the fabric is performed at the node's home slice. -/
  | fabricRequest (src addr : Nat) (req : FabReq)
  /-- R14. A node returns an access error, reported as cause ABS or as a reliability event. -/
  | accessErrorResponse (dev : Nat) (va : Word64)
  /-- R33. A write of SPDAT starts a span update on every die through die 0's sequencer. -/
  | spanUpdate (value : Word64)
  /-- R32. Write to a management register that has no behaviour row of its own. -/
  | registerWrite (pa : Nat) (value : Word64)
  /-- R176. A QMAP write is held while its quad is occupied or its partition has saved launches. -/
  | qmapWrite (quad : Nat) (value : Word64)
  /-- R181. Writing a launch queue descriptor; setting EN clears ERR and performs held writes. -/
  | lqdWrite (part queue : Nat) (value : Word64)
  /-- R384. A QREL write releases a held queue and clears a q3 timeout. -/
  | queueRelease (value : Word64)
  /-- R392. A convoy reads a poisoned granule and the micro-thread enters poisoned-stop. -/
  | poisonConsume (loc : Place)
  /-- R389. A detected double-bit error refetches a redundant copy or makes poison. -/
  | doubleBitError (loc : Place)
  /-- R409. A marker flit arrives and the device records its dump or closes a channel. -/
  | markerFlit (port : Nat) (pool : Bool)
  /-- R414. Power or temperature crosses a limit and the clock steps by 50 MHz. -/
  | clockThrottle (down : Bool)
  /-- R411. Boot ROM verifies firmware and configuration and sets the device identity. -/
  | deviceStartup (status : BitVec 2) (dev : BitVec 11) (share : BitVec 7) (ports : BitVec 18) (fw : Word64)
  /-- R143. A member device receives another member's debug-halt or halt-release notice and freezes or resumes its collective watchdogs. -/
  | watchdogHaltNotice (dev : Nat) (halted : Bool)
  /-- R118. A fabric node's reply arrives at the requester: data for a remote load or atomic, or the acknowledgement that a posted write is performed. -/
  | fabricResponse (dev : Nat) (error : Bool)
  /-- R144. The control thread executes an RV64IMAFDC instruction outside the listed forms: arithmetic, branch, CSR access, mret, ebreak, or an unassigned custom encoding that raises illegal-instruction. -/
  | ctRiscvInstruction (op : RvOp) (len : RvLen)
  /-- R159. Empties the core's lode cache. -/
  | mtSync
  /-- R192. ecall with a7 = 0 ends the core's part once its micro-threads are idle and queues empty. -/
  | ecallEndPart
  /-- R385. Control thread takes machine interrupt 16 while xbfltp is nonzero. -/
  | faultInterrupt
  /-- R193. A lane issues the least recently issued ready micro-thread's convoy, after decode checks. -/
  | convoyIssue
  /-- R165. All results of a convoy take effect together in one cycle. -/
  | convoyRetire
  /-- R381. A convoy fails a check, writes the fault record and enters the faulted state. -/
  | convoyFault
  /-- R153. An idle micro-thread takes the head of its lode queue and begins word 0. -/
  | lodeTake
  /-- R158. A lode cache miss completes and the die fetch agent multicasts the line. -/
  | lodeFill
  /-- R377. A pending mt.put is applied at the micro-thread's convoy boundary. -/
  | mtPutApply
  /-- R377. A pending mt.get reads the register at the micro-thread's convoy boundary. -/
  | mtGetSample
  /-- R156. A named micro-thread empties its queue, drops its lode and becomes idle. -/
  | mtStopApply
  /-- R171. A barrier instance completes once every member arrived and released. -/
  | barrierComplete
  /-- R168. A waiting link convoy becomes ready when a value or room arrives or the predecessor goes idle. -/
  | linkWaitEnd
  /-- R64. A sector's 4,096-cycle timer expires and its dirty bytes are written back. -/
  | sectorTimerExpiry
  /-- R126. A remote-reduce packet is added into the line at its home slice. -/
  | vrstPacket
  /-- R71. A prefetcher makes a fill of its own choosing. -/
  | hwPrefetch
  /-- R398. A link's retry fails, its port goes down and traffic reroutes. -/
  | portDown
  /-- R80. The settle engine drains the L1, takes a ticket and sends start notices. -/
  | settleEntry
  /-- R80. A home slice takes the carried set of a region in ticket order. -/
  | settleStartNotice
  /-- R80. A carried sector write arrives at the arrays. -/
  | settleSectorWrite
  /-- R82. The settle engine renews selected L1s and the region's home slices. -/
  | renewEntry
  /-- R360. The bank dispatcher reads the command block, checks it and translates streams. -/
  | bankEntry
  /-- R85. The streams' die dispatcher accepts the command, starting in-flight. -/
  | bankAccept
  /-- R87. A bank engine reads, computes and commits one array tile. -/
  | tileStep
  /-- R88. A count notice arrives at a core or home slice. -/
  | countNotice
  /-- R355. The copy engine starts a copy entry. -/
  | cpyEntry
  /-- R55. A slot's part of a cpy completes and the slot takes its tag, waking tag waits. -/
  | tagSet
  /-- R356. The gather-scatter engine starts a gath or scat entry. -/
  | gathScatEntry
  /-- R351. The matrix engine starts an mmac entry. -/
  | mmacEntry
  /-- R353. The matrix engine zeroes a tile. -/
  | mzeroEntry
  /-- R357. A member's collective entry starts. -/
  | collEntry
  /-- R138. All members' k-th entries have started and the collective is matched or mismatched. -/
  | collectiveMatch
  /-- R143. A collective's watchdog expires and the member completes with timeout. -/
  | collWatchdogTimeout
  /-- R132. All markers of a qfence complete together. -/
  | qfenceMarkerComplete
  /-- R133. An engine entry completes, counting and recording status. -/
  | entryComplete
  /-- R34. A span update completes and SPCTL.BUSY clears. -/
  | spanUpdateComplete
  /-- R36. Invalidates TLB entries holding a VA and walk-cache entries of a context. -/
  | tlbinvPage
  /-- R36. Invalidates every entry of one context. -/
  | tlbinvContext
  /-- R36. Invalidates every entry of every context. -/
  | tlbinvAll
  /-- R36. An invalidation completes and GO/BUSY reads 0. -/
  | tlbinvComplete
  /-- R176. A held QMAP write takes effect. -/
  | qmapTakesEffect
  /-- R180. A producer's TAIL increment performed at its home slice is observed by the scheduler. -/
  | tailWrite
  /-- R190. The 1 ms tick expires and triggers an admission pass. -/
  | admissionTick
  /-- R190. The scheduler orders candidates and admits, blocks or pre-empts. -/
  | admissionPass
  /-- R194. Stops, drains, writes back and saves a pre-emptible launch. -/
  | preemption
  /-- R194. A launch's save completes and its cores are released. -/
  | preemptSaveComplete
  /-- R192. A core's part ends once its micro-threads are idle and queues drained. -/
  | corePartEnd
  /-- R393. Every member of the launch stops, drains and is saved, and the gang record is written. -/
  | gangStop
  /-- R394. GACT value 1 resumes a saved gang launch from the save area. -/
  | gangResume
  /-- R394. GACT value 2 aborts the launch with STATUS CODE 3. -/
  | gangAbort
  /-- R402. Mailbox command writing a summary of device state. -/
  | syncState
  /-- R401. Mailbox command pre-empting running pre-emptible launches of a partition. -/
  | preempt
  /-- R404. Mailbox command arranging hashes of a launch's regions at admission. -/
  | record
  /-- R409. Mailbox command recording a consistent cut across devices. -/
  | dump
  /-- R413. Mailbox command writing a signed attestation report. -/
  | attest
  /-- R401. A mailbox command completes, its writes performed, and BUSY clears. -/
  | mailboxComplete
  /-- R142. Setting HALT stops issue of the core's agents at boundaries. -/
  | debugHalt
  /-- R142. Clearing HALT lets held entries and agents resume. -/
  | debugRelease
  /-- R408. A sampling counter passes its period and a sample event is written. -/
  | sample
  /-- R397. A flit that arrives with a bad CRC makes the link layer retry it until it arrives whole. -/
  | flitCrcRetry
  deriving DecidableEq, Repr

end Sys2Proof
end

