-- ==== Sys2Proof/Decode.lean ====
section
/-! DEFINITION. Decoding of micro-thread words (R201 to R222), of Xbamroth words (R375), of the control thread's RISC-V words
(PRESUMED: the RISC-V manuals, log 9), and the encoder of the words the spec lays out. A word that fails a check of R212 that
needs no machine state is refused with the lowest cause that applies to it. -/

namespace Sys2Proof

/-! ## Code sets of R205, R206, R217, R219, R222 -/

def Size.code : Size → BitVec 2
  | .b8 => 0 | .b16 => 1 | .b32 => 2 | .b64 => 3

def Size.ofCode (x : BitVec 2) : Size :=
  match x.toNat with
  | 0 => .b8 | 1 => .b16 | 2 => .b32 | _ => .b64

def FType.code : FType → BitVec 2
  | .f32 => 0 | .bf16 => 1 | .f16 => 2

/-- Code 3 is unassigned; the decoder refuses it first. -/
def FType.ofCode (x : BitVec 2) : FType :=
  match x.toNat with
  | 0 => .f32 | 1 => .bf16 | _ => .f16

def XType.code : XType → BitVec 4
  | .i8 => 0 | .i16 => 1 | .i32 => 2 | .i64 => 3 | .n8 => 4 | .n16 => 5 | .n32 => 6 | .n64 => 7
  | .f32 => 8 | .bf16 => 9 | .f16 => 10

/-- Codes 11 to 15 are unassigned; the decoder refuses them first. -/
def XType.ofCode (x : BitVec 4) : XType :=
  match x.toNat with
  | 0 => .i8 | 1 => .i16 | 2 => .i32 | 3 => .i64 | 4 => .n8 | 5 => .n16 | 6 => .n32 | 7 => .n64
  | 8 => .f32 | 9 => .bf16 | _ => .f16

def RType.code : RType → BitVec 3
  | .i8 => 0 | .i16 => 1 | .i32 => 2 | .n8 => 3 | .n16 => 4 | .n32 => 5 | .f32 => 6 | .bf16 => 7

def RType.ofCode (x : BitVec 3) : RType :=
  match x.toNat with
  | 0 => .i8 | 1 => .i16 | 2 => .i32 | 3 => .n8 | 4 => .n16 | 5 => .n32 | 6 => .f32 | _ => .bf16

def Scope.code : Scope → BitVec 3
  | .mt => 0 | .core => 1 | .die => 2 | .part => 3 | .dev => 4 | .dom => 5 | .sys => 6

/-- Code 7 is refused first. -/
def Scope.ofCode (x : BitVec 3) : Scope :=
  match x.toNat with
  | 0 => .mt | 1 => .core | 2 => .die | 3 => .part | 4 => .dev | 5 => .dom | _ => .sys

def ICond.code : ICond → BitVec 3
  | .eq => 0 | .ne => 1 | .lt => 2 | .le => 3 | .ltn => 4 | .len => 5

def ICond.ofCode (x : BitVec 3) : ICond :=
  match x.toNat with
  | 0 => .eq | 1 => .ne | 2 => .lt | 3 => .le | 4 => .ltn | _ => .len

def FCond.code : FCond → BitVec 2
  | .eq => 0 | .lt => 1 | .le => 2 | .un => 3

def FCond.ofCode (x : BitVec 2) : FCond :=
  match x.toNat with
  | 0 => .eq | 1 => .lt | 2 => .le | _ => .un

def GCond.code : GCond → BitVec 3
  | .eqz => 0 | .nez => 1 | .ltz => 2 | .gez => 3 | .gtz => 4 | .lez => 5

def GCond.ofCode (x : BitVec 3) : GCond :=
  match x.toNat with
  | 0 => .eqz | 1 => .nez | 2 => .ltz | 3 => .gez | 4 => .gtz | _ => .lez

def TChoice.code : TChoice → BitVec 2
  | .dflt => 0 | .t0 => 2 | .t1 => 3

/-- Code 1 is refused first. -/
def TChoice.ofCode (x : BitVec 2) : TChoice :=
  match x.toNat with
  | 2 => .t0 | 3 => .t1 | _ => .dflt

def AmoOp.code : AmoOp → BitVec 3
  | .add => 0 | .min => 1 | .max => 2 | .minn => 3 | .maxn => 4 | .and => 5 | .or => 6 | .swap => 7

def AmoOp.ofCode (x : BitVec 3) : AmoOp :=
  match x.toNat with
  | 0 => .add | 1 => .min | 2 => .max | 3 => .minn | 4 => .maxn | 5 => .and | 6 => .or | _ => .swap

def RMode.code : RMode → BitVec 3
  | .rne => 0 | .rtz => 1 | .rdn => 2 | .rup => 3 | .rna => 4 | .sto => 5

/-- Codes 6 and 7 are refused first. -/
def RMode.ofCode (x : BitVec 3) : RMode :=
  match x.toNat with
  | 0 => .rne | 1 => .rtz | 2 => .rdn | 3 => .rup | 4 => .rna | _ => .sto

/-- The code of a cause in a fault record (R212). -/
def Cause.code : Cause → Nat
  | .opc => 0 | .rsv => 1 | .reg => 2 | .cvy => 3 | .pfx => 4 | .ovr => 5 | .btg => 6

/-- The bytes of an element size. -/
def Size.bytes : Size → Nat
  | .b8 => 1 | .b16 => 2 | .b32 => 4 | .b64 => 8

def Size.bits (s : Size) : Nat := 8 * s.bytes

/-! ## Field layouts (R201) -/

def g7 (x : GName) : BitVec 7 := x.setWidth 7
def k7 (x : KName) : BitVec 7 := x.setWidth 7
def z7 (x : ZName) : BitVec 7 := x.setWidth 7
def q7 (x : QName) : BitVec 7 := x.setWidth 7

/-- The R format: C, OP, D, A, B, F. -/
def encR (c : Bool) (op : BitVec 6) (d a b : BitVec 7) (f : BitVec 4) : Word32 :=
  BitVec.ofBool c ++ op ++ d ++ a ++ b ++ f

/-- The I, M and S formats: the low eleven bits are B and F of the R format together. -/
def encI (c : Bool) (op : BitVec 6) (d a : BitVec 7) (imm : BitVec 11) : Word32 :=
  encR c op d a (imm.extractLsb' 4 7) (imm.extractLsb' 0 4)

/-- The J format, with C = 0. -/
def encJ (op : BitVec 6) (a : BitVec 7) (disp : BitVec 18) : Word32 :=
  encR false op a (disp.extractLsb' 11 7) (disp.extractLsb' 4 7) (disp.extractLsb' 0 4)

/-- The P format, with C = 0. -/
def encP (pk : BitVec 4) (payload : BitVec 21) : Word32 :=
  encR false 0x3F (pk ++ payload.extractLsb' 18 3) (payload.extractLsb' 11 7)
    (payload.extractLsb' 4 7) (payload.extractLsb' 0 4)

/-- The RISC-V R-type layout of R375. -/
def encX (opcode : BitVec 7) (funct3 : BitVec 3) (funct7 : BitVec 7) (rs2 rs1 rd : BitVec 5) : Word32 :=
  funct7 ++ rs2 ++ rs1 ++ funct3 ++ rd ++ opcode

/-! ## Micro-thread words -/

/-- What a decoder finds: the instruction, or the lowest cause that the word alone shows, with the form it names where its
selectors name one. -/
abbrev Dec := Except (Cause × Option Instr) Instr

/-- The lowest cause that applies, or the instruction (R212). -/
def checked (opc rsv reg : Bool) (i : Instr) : Dec :=
  if opc then .error (.opc, none) else if rsv then .error (.rsv, some i) else if reg then .error (.reg, some i) else .ok i

/-- Operand limits of R203, for a seven-bit field. -/
def badG (x : BitVec 7) : Bool := x[6]
def badK (x : BitVec 7) : Bool := decide (24 ≤ x.toNat)
def badZ (x : BitVec 7) : Bool := decide (16 ≤ x.toNat)
def badQ (x : BitVec 7) : Bool := decide (6 ≤ x.toNat)

def gOf (x : BitVec 7) : GName := x.extractLsb' 0 6
def kOf (x : BitVec 7) : KName := x.extractLsb' 0 5
def zOf (x : BitVec 7) : ZName := x.extractLsb' 0 4
def qOf (x : BitVec 7) : QName := x.extractLsb' 0 3

def nz {n : Nat} (x : BitVec n) : Bool := x != 0

/-- The special-register numbers that R368 assigns. -/
def srAssigned (num : BitVec 11) : Bool :=
  let n := num.toNat
  decide (n ≤ 4) || (decide (8 ≤ n) && decide (n ≤ 0xC)) || (decide (0x10 ≤ n) && decide (n ≤ 0x12)) ||
    n == 0x18 || n == 0x19 || (decide (0x20 ≤ n) && decide (n ≤ 0x22)) || (decide (0x28 ≤ n) && decide (n ≤ 0x2B)) ||
    (decide (0x30 ≤ n) && decide (n ≤ 0x35)) || n == 0x40

/-- R214: the vector integer majors 0x00 to 0x06; `m` is 4 × (OP) + F[3:2]. -/
def decInt (m : Nat) (c : Bool) (d a b : BitVec 7) (sz : Size) : Dec :=
  match m with
  | 0 => .ok (.vadd c d a b sz) | 1 => .ok (.vsub c d a b sz) | 2 => .ok (.vmul c d a b sz) | 3 => .ok (.vmulh c d a b sz)
  | 4 => .ok (.vmulhn c d a b sz) | 5 => .ok (.vmin c d a b sz) | 6 => .ok (.vmax c d a b sz) | 7 => .ok (.vminn c d a b sz)
  | 8 => .ok (.vmaxn c d a b sz) | 9 => checked false (nz b) false (.vabs c d a sz)
  | 10 => checked false (nz b) false (.vneg c d a sz) | 11 => .ok (.vand c d a b sz)
  | 12 => .ok (.vor c d a b sz) | 13 => .ok (.vxor c d a b sz) | 14 => .ok (.vandn c d a b sz) | 15 => .ok (.vshl c d a b sz)
  | 16 => .ok (.vshr c d a b sz) | 17 => .ok (.vsra c d a b sz) | 18 => .ok (.vrot c d a b sz) | 19 => .ok (.vfsh c d a b sz)
  | 20 => .ok (.vbext c d a b sz) | 21 => .ok (.vbins c d a b sz)
  | 22 => checked false (nz b) false (.vclz c d a sz) | 23 => checked false (nz b) false (.vpopc c d a sz)
  | 24 => checked false (nz b) false (.vmv c d a sz) | 25 => .ok (.vsel c d a b sz)
  | 26 => checked false (nz b) false (.vcvt c d a sz) | 27 => checked false (nz a || nz b) false (.vidx c d sz)
  | _ => .error (.opc, none)

/-- R214: major 0x07. A shift count at or above the element width is cause RSV. -/
def decIntImm (c : Bool) (d a : BitVec 7) (imm : BitVec 11) : Dec :=
  let sz := Size.ofCode (imm.extractLsb' 9 2)
  let i : BitVec 6 := imm.extractLsb' 0 6
  let big := decide (sz.bits ≤ i.toNat)
  match (imm.extractLsb' 6 3).toNat with
  | 0 => .ok (.vaddi c d a sz i) | 1 => .ok (.vandi c d a sz i) | 2 => .ok (.vori c d a sz i) | 3 => .ok (.vxori c d a sz i)
  | 4 => checked false big false (.vshli c d a sz i)
  | 5 => checked false big false (.vshri c d a sz i)
  | 6 => checked false big false (.vsrai c d a sz i)
  | _ => checked false (nz a) false (.vmvi c d sz i)

/-- R215: major 0x08. -/
def decG (c : Bool) (d a b : BitVec 7) (f : BitVec 4) : Dec :=
  let bad := badG d || badG a || badG b
  match f.toNat with
  | 0 => checked false false bad (.gadd c (gOf d) (gOf a) (gOf b))
  | 1 => checked false false bad (.gsub c (gOf d) (gOf a) (gOf b))
  | 2 => checked false false bad (.gmul c (gOf d) (gOf a) (gOf b))
  | 3 => checked false false bad (.gand c (gOf d) (gOf a) (gOf b))
  | 4 => checked false false bad (.gor c (gOf d) (gOf a) (gOf b))
  | 5 => checked false false bad (.gxor c (gOf d) (gOf a) (gOf b))
  | 6 => checked false false bad (.gshl c (gOf d) (gOf a) (gOf b))
  | 7 => checked false false bad (.gshr c (gOf d) (gOf a) (gOf b))
  | 8 => checked false false bad (.gsra c (gOf d) (gOf a) (gOf b))
  | 9 => checked false (nz b) (badG d || badG a) (.gmv c (gOf d) (gOf a))
  | _ => .error (.opc, none)

/-- R215: major 0x0B. -/
def decGImm (c : Bool) (d a : BitVec 7) (imm : BitVec 11) : Dec :=
  if imm[10] then checked false false (badG d) (.glui c (gOf d) (a ++ imm.extractLsb' 0 10))
  else checked false (nz (imm.extractLsb' 6 4)) (badG d || badG a) (.gshli c (gOf d) (gOf a) (imm.extractLsb' 0 6))

/-- R216: the float majors 0x0C to 0x11; `m` is 4 × (OP − 0x0C) + F[3:2]. -/
def decFp (m : Nat) (c : Bool) (d a b : BitVec 7) (t : BitVec 2) : Dec :=
  let u := t == 3
  let ft := FType.ofCode t
  match m with
  | 0 => checked u false false (.vfadd c d a b ft) | 1 => checked u false false (.vfsub c d a b ft)
  | 2 => checked u false false (.vfmul c d a b ft) | 3 => checked u false false (.vfdiv c d a b ft)
  | 4 => checked u false false (.vfma c d a b ft) | 5 => checked u false false (.vfms c d a b ft)
  | 6 => checked u false false (.vfnma c d a b ft) | 7 => checked u false false (.vfnms c d a b ft)
  | 8 => checked u false false (.vfmin c d a b ft) | 9 => checked u false false (.vfmax c d a b ft)
  | 10 => checked u (nz b) false (.vfabs c d a ft) | 11 => checked u (nz b) false (.vfneg c d a ft)
  | 12 => checked u false false (.vfsgn c d a b ft) | 13 => checked u (nz b) false (.vfsqrt c d a ft)
  | 14 => checked u (nz b) false (.vfrcp c d a ft) | 15 => checked u (nz b) false (.vfrsq c d a ft)
  | 16 => checked u (nz b) false (.vfexp2 c d a ft) | 17 => checked u (nz b) false (.vflog2 c d a ft)
  | 18 => checked u (nz b) false (.vftanh c d a ft) | 19 => checked u (nz b) false (.vfsigm c d a ft)
  | 20 => checked u (nz b) false (.vfcls c d a ft) | 21 => checked u false false (.vfscale c d a b ft)
  | 22 => checked u false false (.vsrnd c d a b ft)
  | _ => .error (.opc, none)

/-- R216: major 0x13; the first register of the pair is v1 to v126 (R272). -/
def decCvti (c : Bool) (d a b : BitVec 7) (f : BitVec 4) : Dec :=
  let t : BitVec 2 := f.extractLsb' 0 2
  let i := if f[3] then Instr.vfcvtiOut c d a (gOf b) (FType.ofCode t) else Instr.vfcvtiInto c d a (gOf b) (FType.ofCode t)
  let p := if f[3] then a else d
  checked (t == 3) f[2] (badG b || p == 0 || p == 127) i

/-- R217: majors 0x18 to 0x1B. -/
def decKwhile (c : Bool) (d a b : BitVec 7) (f : BitVec 4) : Dec :=
  let sz := Size.ofCode (f.extractLsb' 0 2)
  let i := if f[3] then Instr.kwhilele c (kOf d) (gOf a) (gOf b) sz else Instr.kwhilelt c (kOf d) (gOf a) (gOf b) sz
  checked false f[2] (badK d || badG a || badG b) i

def decKcmp (c wide64 : Bool) (d a b : BitVec 7) (f : BitVec 4) : Dec :=
  let cond : BitVec 3 := f.extractLsb' 1 3
  let i := if wide64 then Instr.kcmp3264 c (kOf d) a b (ICond.ofCode cond) f[0]
    else Instr.kcmp816 c (kOf d) a b (ICond.ofCode cond) f[0]
  checked (decide (6 ≤ cond.toNat)) false (badK d) i

def decKfcmp (c : Bool) (d a b : BitVec 7) (f : BitVec 4) : Dec :=
  let t : BitVec 2 := f.extractLsb' 0 2
  checked (t == 3) false (badK d) (.kfcmp c (kOf d) a b (FCond.ofCode (f.extractLsb' 2 2)) (FType.ofCode t))

/-- R217: major 0x1C; R261 for the shape's limits, R262 for tcoll's register. -/
def decMaskMisc (c : Bool) (d a b : BitVec 7) (f : BitVec 4) : Dec :=
  match f.toNat with
  | 0 => checked false false (badK d || badK a || badK b) (.kand c (kOf d) (kOf a) (kOf b))
  | 1 => checked false false (badK d || badK a || badK b) (.kor c (kOf d) (kOf a) (kOf b))
  | 2 => checked false false (badK d || badK a || badK b) (.kxor c (kOf d) (kOf a) (kOf b))
  | 3 => checked false false (badK d || badK a || badK b) (.kandn c (kOf d) (kOf a) (kOf b))
  | 4 => checked false (nz b) (badK d || badK a) (.knot c (kOf d) (kOf a))
  | 5 => checked false (nz b) (badK d || badK a) (.kmv c (kOf d) (kOf a))
  | 6 => checked false (nz b) (badG d || badK a) (.kpop c (gOf d) (kOf a))
  | 7 => checked false (nz b) (badG d || badK a) (.kfirst c (gOf d) (kOf a))
  | 8 => checked false (nz b) (badK d || badG a) (.kset c (kOf d) (gOf a))
  | 9 => checked false (nz b) (badK d || badG a) (.kld c (kOf d) (gOf a))
  | 10 => checked false (nz b) (badK d || badG a) (.kst c (kOf d) (gOf a))
  | 11 => checked false (nz d || decide (512 < (a.toNat + 1) * (b.toNat + 1))) false (.vshapeImm c a b)
  | 12 => checked false (nz d) (badG a || badG b) (.vshapeReg c (gOf a) (gOf b))
  | 13 => checked false (nz b) (badG d || badG a || d == 0 || d == 63) (.tcoll c (gOf d) (gOf a))
  | _ => .error (.opc, none)

/-- R218: majors 0x1E and 0x1F; `m` is 4 × (OP − 0x1E) + F[3:2]. -/
def decXl (m : Nat) (c : Bool) (d a b : BitVec 7) (sz : Size) : Dec :=
  match m with
  | 0 => .ok (.vperm c d a b sz)
  | 1 => .ok (.vzip c d a b sz)
  | 2 => checked false (nz b) false (.vunzip c d a sz)
  | 3 => checked false false (badG b) (.vslup c d a (gOf b) sz)
  | 4 => checked false false (badG b) (.vsldn c d a (gOf b) sz)
  | 5 => checked false false (badG b) (.vbcast c d a (gOf b) sz)
  | 6 => checked false (nz b) false (.vtrans c d a sz)
  | _ => checked false (nz b) false (.vcomp c d a sz)

/-- R218: major 0x20. -/
def decRed (c : Bool) (d a b : BitVec 7) (f : BitVec 4) : Dec :=
  let xt := XType.ofCode f
  let u := decide (11 ≤ f.toNat)
  let fl := decide (8 ≤ f.toNat)
  match b.toNat with
  | 0 => checked u false false (.vrsum c d a xt)
  | 1 => checked u false false (.vrmax c d a xt)
  | 2 => checked u false false (.vrmin c d a xt)
  | 3 => checked fl false false (.vrand c d a xt)
  | 4 => checked fl false false (.vror c d a xt)
  | 5 => checked u false false (.vscan c d a xt)
  | 6 => checked u false false (.vexpd c d a xt)
  | _ => .error (.opc, none)

/-- R218: major 0x21. -/
def decLink (c : Bool) (d a b : BitVec 7) (f : BitVec 4) : Dec :=
  match f.toNat with
  | 0 => checked false (nz d || nz b) false (.vlsnd c a)
  | 1 => checked false (nz a || nz b) false (.vlrcv c d)
  | _ => .error (.opc, none)

/-- R219: the M-format majors 0x24, 0x25, 0x27, 0x29, 0x2A. -/
def decM (m : Nat) (c : Bool) (d a : BitVec 7) (imm : BitVec 11) : Dec :=
  let h := imm[10]
  let sz := Size.ofCode (imm.extractLsb' 8 2)
  let off : BitVec 8 := imm.extractLsb' 0 8
  match m with
  | 0 => checked false h (badG a) (.vld c d (gOf a) sz off)
  | 1 => checked false h (badG a) (.vst c d (gOf a) sz off)
  | 3 => checked false false (badG a) (if h then .vldra c d (gOf a) sz off else .vldff c d (gOf a) sz off)
  | 5 => checked false false (badG d || badG a) (.gld c (gOf d) (gOf a) h sz off)
  | _ => checked false h (badG d || badG a) (.gst c (gOf d) (gOf a) sz off)

/-- R219: major 0x26. -/
def decStride (c : Bool) (d a b : BitVec 7) (f : BitVec 4) : Dec :=
  let sz := Size.ofCode (f.extractLsb' 0 2)
  match (f.extractLsb' 2 2).toNat with
  | 0 => checked false false (badG a || badG b) (.vlds c d (gOf a) (gOf b) sz)
  | 1 => checked false false (badG a || badG b) (.vsts c d (gOf a) (gOf b) sz)
  | 2 => checked false false (badG a) (.vldx c d (gOf a) b sz)
  | _ => checked false false (badG a) (.vstx c d (gOf a) b sz)

/-- R219: major 0x28. -/
def decTensor (c : Bool) (d a b : BitVec 7) (f : BitVec 4) : Dec :=
  let t : BitVec 2 := f.extractLsb' 0 2
  let bad := badG a || badG b
  match (f.extractLsb' 2 2).toNat with
  | 0 => checked false (t == 1) bad (.vldt c d (gOf a) (gOf b) (TChoice.ofCode t))
  | 1 => checked false (t == 1) bad (.vstt c d (gOf a) (gOf b) (TChoice.ofCode t))
  | 2 => checked false (t == 1) bad (.vldtag c d (gOf a) (gOf b) (TChoice.ofCode t))
  | _ => .error (.opc, none)

/-- R219: major 0x2D. A scope code of 7 is cause RSV. -/
def decMemSys (c : Bool) (d a b : BitVec 7) (f : BitVec 4) : Dec :=
  let dsc : BitVec 3 := d.extractLsb' 0 3
  match f.toNat with
  | 0 => checked false false (badG a) (.vrst c d (gOf a) b false)
  | 1 => checked false false (badG a) (.vrst c d (gOf a) b true)
  | 2 => checked false (nz d || nz b) (badG a) (.pref c (gOf a))
  | 3 => checked false (dsc == 7 || !(d[6] || d[5]) || !(d[4] || d[3]) || nz a || nz b) false
      (.fence c (Scope.ofCode dsc) d[6] d[5] d[4] d[3])
  | 4 => checked false (nz d) (badG a || badG b) (.clean c (gOf a) (gOf b))
  | 5 => checked false (nz d) (badG a || badG b) (.inval c (gOf a) (gOf b))
  | 6 => checked false (nz d || nz b) (badG a) (.settle c (gOf a))
  | 7 => checked false (dsc == 7 || nz (d.extractLsb' 3 4) || nz b) (badG a) (.renew c (gOf a) (Scope.ofCode dsc))
  | 8 => checked false (b.extractLsb' 0 3 == 7 || nz (b.extractLsb' 3 4)) (badG d || badG a)
      (.setlc c (gOf d) (gOf a) (Scope.ofCode (b.extractLsb' 0 3)))
  | 9 => checked false (nz b) (badG d || badG a) (.iwc c (gOf d) (gOf a))
  | _ => .error (.opc, none)

/-- R220 and the operand rules of R320: majors 0x2E to 0x32; `m` is OP − 0x2E. -/
def decRev (m : Nat) (c : Bool) (d a b : BitVec 7) (f : BitVec 4) : Dec :=
  let u := f[3]
  let t : BitVec 3 := f.extractLsb' 0 3
  let rt := RType.ofCode t
  match m with
  | 0 => checked false (d == 0 || b == d) false (if u then .umul c d a b rt else .rmul c d a b rt)
  | 1 => checked false (d == 0 || b == d) false (if u then .uadd c d a b rt else .radd c d a b rt)
  | 2 => checked false (d == 0 || a == d || b == d) false (if u then .ufma c d a b rt else .rfma c d a b rt)
  | 3 => checked (t == 0 || t == 3 || t == 7) (d == 0 || nz b) false (if u then .unarrow c d a rt else .rnarrow c d a rt)
  | _ =>
    if 6 ≤ t.toNat then
      checked false (d == 0) (badG b) (if u then .uscale c d a (gOf b) f[0] else .rscale c d a (gOf b) f[0])
    else checked false (d == 0) (badG b) (if u then .ushr c d a (gOf b) rt else .rshr c d a (gOf b) rt)

/-- R220, R320: major 0x33. -/
def decTalus (c : Bool) (d a : BitVec 7) (imm : BitVec 11) : Dec :=
  let rt := RType.ofCode (imm.extractLsb' 5 3)
  let k : BitVec 5 := imm.extractLsb' 0 5
  let low := nz (imm.extractLsb' 0 8)
  match (imm.extractLsb' 8 3).toNat with
  | 0 => checked false (k == 0 || d == 0) false (.rlrelu c d a rt k)
  | 1 => checked false (k == 0 || d == 0) false (.ulrelu c d a rt k)
  | 2 => checked false (nz d || low) (badG a) (.tsave c (gOf a))
  | 3 => checked false (nz d || low) (badG a) (.trest c (gOf a))
  | 4 => checked false (nz a || low) (badG d) (.tmark c (gOf d))
  | 5 => checked false (nz d || low) (badG a) (.tchk c (gOf a))
  | 6 => checked false (nz a || low) (badG d) (.tdepth c (gOf d))
  | _ => .error (.opc, none)

/-- R221: major 0x34. -/
def decEngCtl (c : Bool) (d a b : BitVec 7) (f : BitVec 4) : Dec :=
  match f.toNat with
  | 0 => checked false (nz d || nz b) (badG a) (.mattach c (gOf a))
  | 1 => checked false (nz d || nz a || nz b) false (.mdetach c)
  | 2 => checked false (nz a || nz b) (badZ d) (.mzero c (zOf d))
  | 3 => checked false (nz b) (badG d || badG a) (.tdef c (gOf d) (gOf a))
  | 4 => checked false (nz (b.extractLsb' 2 5)) (badG d || badG a) (.tget c (gOf d) (gOf a) (b.extractLsb' 0 2))
  | 5 => checked false (nz a || nz b || d[6] || !(nz (d.extractLsb' 0 6))) false (.qfence c (d.extractLsb' 0 6))
  | 6 => checked false (nz b) (badQ d || badG a) (.qwait c (qOf d) (gOf a))
  | 7 => checked false (nz b) (badG d || badQ a) (.qcnt c (gOf d) (qOf a))
  | _ => .error (.opc, none)

/-- R221: major 0x35. -/
def decMmac (c : Bool) (d a b : BitVec 7) (f : BitVec 4) : Dec :=
  let t : BitVec 2 := f.extractLsb' 1 2
  checked false (t == 1) (badZ d || badG a || badG b) (.mmac c (zOf d) (gOf a) (gOf b) f[3] (TChoice.ofCode t) f[0])

/-- R221: major 0x36. -/
def decAcc (c : Bool) (d a b : BitVec 7) (f : BitVec 4) : Dec :=
  let bad := badZ a || badG b
  match (f.extractLsb' 2 2).toNat with
  | 0 => checked false f[0] bad (.vzrd c d (zOf a) (gOf b) f[1])
  | 1 => checked false f[0] bad (.vzwr c d (zOf a) (gOf b) f[1])
  | 2 => checked false (f[0] || f[1]) bad (.vzcrd c d (zOf a) (gOf b))
  | _ => checked false (f[0] || f[1]) bad (.vzcwr c d (zOf a) (gOf b))

/-- R221: major 0x37. -/
def decEngCmd (c : Bool) (d a b : BitVec 7) (f : BitVec 4) : Dec :=
  let bad := badG d || badG a || badG b
  match f.toNat with
  | 0 => checked false false bad (.cpy c (gOf d) (gOf a) (gOf b))
  | 1 => checked false false bad (.gath c (gOf d) (gOf a) (gOf b))
  | 2 => checked false false bad (.scat c (gOf d) (gOf a) (gOf b))
  | 3 => checked false false bad (.coll c (gOf d) (gOf a) (gOf b))
  | 4 => checked false (nz d) (badG a || badG b) (.bank c (gOf a) (gOf b))
  | _ => .error (.opc, none)

/-- R222: majors 0x3A and 0x3B and R217: major 0x1D; J format, so C = 1 is cause RSV (R202). -/
def decBr (c : Bool) (a : BitVec 7) (disp : BitVec 18) : Dec :=
  if a = 0 then checked false c false (.br disp) else checked false c (badG a) (.jal (gOf a) disp)

def decBcc (c : Bool) (a : BitVec 7) (disp : BitVec 18) : Dec :=
  let cond : BitVec 3 := disp.extractLsb' 15 3
  if 6 ≤ cond.toNat then checked false c (badK a) (.bk (kOf a) cond[0] (disp.extractLsb' 0 15))
  else checked false c (badG a) (.bcc (gOf a) (GCond.ofCode cond) (disp.extractLsb' 0 15))

/-- R222: major 0x3C. -/
def decCtl (c : Bool) (d a b : BitVec 7) (f : BitVec 4) : Dec :=
  match f.toNat with
  | 0 => checked false (nz d || nz a || nz b) false (.nop c)
  | 1 => checked false (nz d || nz a || nz b) false (.stop c)
  | 2 => checked false (nz d || nz a || nz b) false (.yield c)
  | 3 => checked false (nz (d.extractLsb' 3 4) || nz a || nz b) false (.bar c (d.extractLsb' 0 3))
  | 4 => checked false (nz d || nz b) (badG a) (.jr c (gOf a))
  | 5 => checked false (nz d || nz b) (badG a) (.lfetch c (gOf a))
  | _ => .error (.opc, none)

/-- R222, R367: major 0x3D. -/
def decSys (c : Bool) (d a : BitVec 7) (sf : BitVec 11) : Dec :=
  let low := nz (a.extractLsb' 0 3)
  match (a.extractLsb' 3 4).toNat with
  | 0 => checked false low (badG d || !srAssigned sf) (.sread c (gOf d) sf)
  | 1 => checked false low (badG d || !srAssigned sf) (.swrite c (gOf d) sf)
  | 2 => checked false (low || nz d) false (.trap c sf)
  | 3 => checked false (low || nz d) false (.brk c sf)
  | 4 => checked false (low || nz d) false (.wbase c sf)
  | 5 => checked false (low || nz d || nz (sf.extractLsb' 7 4)) false (.fclr c (sf.extractLsb' 0 7))
  | 6 => checked false (low || decide (13 ≤ sf.toNat)) (badG d) (.poolq c (gOf d) sf)
  | _ => .error (.opc, none)

/-- R206: the prefix words; C = 1 is cause RSV (R202). -/
def decPrefix (c : Bool) (pk : BitVec 4) (p : BitVec 21) : Dec :=
  match pk.toNat with
  | 0 => checked false (c || nz (p.extractLsb' 6 15)) (decide (24 ≤ (p.extractLsb' 0 5).toNat))
      (.maskSelect p[5] (p.extractLsb' 0 5))
  | 1 =>
    let mode : BitVec 3 := p.extractLsb' 0 3
    let v : BitVec 7 := p.extractLsb' 3 7
    checked false (c || nz (p.extractLsb' 10 11) || decide (6 ≤ mode.toNat) || (mode != 5 && nz v)) false
      (.rounding v (RMode.ofCode mode))
  | 2 => checked false (c || nz (p.extractLsb' 3 18) || !(p[0] || p[1]) || (p[2] && !p[0])) false
      (.saturateAndZeroing p[2] p[1] p[0])
  | 3 => checked false c false (.immediateExtension p)
  | 4 => checked false (c || nz (p.extractLsb' 5 16)) false (.secondType (p.extractLsb' 0 5))
  | _ => .error (.rsv, none)

/-- R213: one word, by its fields. -/
def decodeF (c : Bool) (op : BitVec 6) (d a b : BitVec 7) (f : BitVec 4) : Dec :=
  let lo : BitVec 2 := f.extractLsb' 0 2
  let hi := (f.extractLsb' 2 2).toNat
  let sz := Size.ofCode lo
  let imm : BitVec 11 := b ++ f
  let disp : BitVec 18 := a ++ b ++ f
  match op.toNat with
  | 0x00 => decInt hi c d a b sz
  | 0x01 => decInt (4 + hi) c d a b sz
  | 0x02 => decInt (8 + hi) c d a b sz
  | 0x03 => decInt (12 + hi) c d a b sz
  | 0x04 => decInt (16 + hi) c d a b sz
  | 0x05 => decInt (20 + hi) c d a b sz
  | 0x06 => decInt (24 + hi) c d a b sz
  | 0x07 => decIntImm c d a imm
  | 0x08 => decG c d a b f
  | 0x09 => checked false false (badG d || badG a) (.gaddi c (gOf d) (gOf a) imm)
  | 0x0A => checked false false (badG d || badG a) (.gandi c (gOf d) (gOf a) imm)
  | 0x0B => decGImm c d a imm
  | 0x0C => decFp hi c d a b lo
  | 0x0D => decFp (4 + hi) c d a b lo
  | 0x0E => decFp (8 + hi) c d a b lo
  | 0x0F => decFp (12 + hi) c d a b lo
  | 0x10 => decFp (16 + hi) c d a b lo
  | 0x11 => decFp (20 + hi) c d a b lo
  | 0x12 => checked false (nz b) false (.vfcvt c d a f)
  | 0x13 => decCvti c d a b f
  | 0x14 => checked false (nz a || nz b || nz (f.extractLsb' 2 2)) false (.vrng c d sz)
  | 0x18 => decKwhile c d a b f
  | 0x19 => decKcmp c false d a b f
  | 0x1A => decKcmp c true d a b f
  | 0x1B => decKfcmp c d a b f
  | 0x1C => decMaskMisc c d a b f
  | 0x1D => checked false c (badG d) (.gsubbr (gOf d) disp)
  | 0x1E => decXl hi c d a b sz
  | 0x1F => decXl (4 + hi) c d a b sz
  | 0x20 => decRed c d a b f
  | 0x21 => decLink c d a b f
  | 0x24 => decM 0 c d a imm
  | 0x25 => decM 1 c d a imm
  | 0x26 => decStride c d a b f
  | 0x27 => decM 3 c d a imm
  | 0x28 => decTensor c d a b f
  | 0x29 => decM 5 c d a imm
  | 0x2A => decM 6 c d a imm
  | 0x2B => checked false false (badG a)
      (if f[3] then .vamoRow c d (gOf a) b (AmoOp.ofCode (f.extractLsb' 0 3))
        else .vamo c d (gOf a) b (AmoOp.ofCode (f.extractLsb' 0 3)))
  | 0x2C => checked false false (badG d || badG a || badG b)
      (.gamo c (gOf d) (gOf a) (gOf b) f[3] (AmoOp.ofCode (f.extractLsb' 0 3)))
  | 0x2D => decMemSys c d a b f
  | 0x2E => decRev 0 c d a b f
  | 0x2F => decRev 1 c d a b f
  | 0x30 => decRev 2 c d a b f
  | 0x31 => decRev 3 c d a b f
  | 0x32 => decRev 4 c d a b f
  | 0x33 => decTalus c d a imm
  | 0x34 => decEngCtl c d a b f
  | 0x35 => decMmac c d a b f
  | 0x36 => decAcc c d a b f
  | 0x37 => decEngCmd c d a b f
  | 0x3A => decBr c d disp
  | 0x3B => decBcc c d disp
  | 0x3C => decCtl c d a b f
  | 0x3D => decSys c d a imm
  | 0x3F => decPrefix c (d.extractLsb' 3 4) (d.extractLsb' 0 3 ++ a ++ b ++ f)
  | _ => .error (.opc, none)

/-- What the fields of one micro-thread word say. -/
def decodeWord (w : Word32) : Dec :=
  decodeF w[31] (w.extractLsb' 25 6) (w.extractLsb' 18 7) (w.extractLsb' 11 7) (w.extractLsb' 4 7) (w.extractLsb' 0 4)

/-- The instruction of one micro-thread word, or the lowest cause that applies to it (R212). -/
def decodeMt (w : Word32) : Except Cause Instr :=
  match decodeWord w with
  | .ok i => .ok i
  | .error e => .error e.1

/-! ## The control thread -/

def rvF3 (w : Word32) : Nat := (w.extractLsb' 12 3).toNat
def rvF7 (w : Word32) : Nat := (w.extractLsb' 25 7).toNat
def rvRd (w : Word32) : XName := w.extractLsb' 7 5
def rvRs1 (w : Word32) : XName := w.extractLsb' 15 5
def rvRs2 (w : Word32) : XName := w.extractLsb' 20 5
def rvImmI (w : Word32) : BitVec 12 := w.extractLsb' 20 12
def rvImmS (w : Word32) : BitVec 12 := w.extractLsb' 25 7 ++ w.extractLsb' 7 5
/-- Branch displacement divided by 2. -/
def rvImmB (w : Word32) : BitVec 12 :=
  w.extractLsb' 31 1 ++ w.extractLsb' 7 1 ++ w.extractLsb' 25 6 ++ w.extractLsb' 8 4
/-- Jump displacement divided by 2. -/
def rvImmJ (w : Word32) : BitVec 20 :=
  w.extractLsb' 31 1 ++ w.extractLsb' 12 8 ++ w.extractLsb' 20 1 ++ w.extractLsb' 21 10

def rvIll (w : Word32) (len : RvLen) : Instr := .ctRiscvInstruction (.illegal w) len

/-- R375: custom-0 and custom-1. A nonzero field marked 0, or a funct7 bit outside the field shown, is illegal. -/
def decXbam (w : Word32) : Instr :=
  let f7 := rvF7 w
  let rd := rvRd w
  let rs1 := rvRs1 w
  let rs2 := rvRs2 w
  let ok (b : Bool) (i : Instr) : Instr := if b then i else rvIll w .full
  if w.extractLsb' 0 7 = 0x0B then
    match rvF3 w with
    | 0 => ok (f7 == 0 && rd == 0) (.mtBcast rs1 rs2)
    | 1 => ok (decide (f7 < 32) && rd == 0) (.mtSend rs1 rs2 (w.extractLsb' 25 5))
    | 2 => ok (f7 == 0 && rs2 == 0 && rd == 0) (.mtWait rs1)
    | 3 => ok (decide (f7 < 64) && rs2 == 0) (.mtGet rd rs1 (w.extractLsb' 25 6))
    | 4 => ok (decide (f7 < 64) && rd == 0) (.mtPut rs1 (w.extractLsb' 25 6) rs2)
    | 5 => ok (f7 == 0 && rs2 == 0 && rd == 0) (.mtStop rs1)
    | 6 => ok (decide (f7 < 2) && rs1 == 0 && rs2 == 0) (.mtStat rd w[25])
    | _ => ok (f7 == 0) (.mtFlt rd rs1 rs2)
  else
    match rvF3 w with
    | 0 => ok (decide (f7 < 2) && rs1 == 0 && rs2 == 0 && rd == 0) (.mtLnk w[25])
    | 1 => ok (decide (f7 < 8) && rs2 == 0 && rd == 0) (.mtBar rs1 (w.extractLsb' 25 3))
    | 2 => ok (f7 == 0 && rs1 == 0 && rs2 == 0 && rd == 0) .mtSync
    | 3 => ok (f7 == 0 && rd == 0) (.mtEng rs1 rs2)
    | _ => rvIll w .full

def rvAluOf (f3 : Nat) : RvAlu :=
  match f3 with
  | 0 => .add | 1 => .sll | 2 => .slt | 3 => .sltu | 4 => .xor | 5 => .srl | 6 => .or | _ => .and

def rvMulOf (f3 : Nat) : RvMul :=
  match f3 with
  | 0 => .mul | 1 => .mulh | 2 => .mulhsu | 3 => .mulhu | 4 => .div | 5 => .divu | 6 => .rem | _ => .remu

/-- OP-IMM, opcode 0x13. -/
def decOpImm (w : Word32) : Option RvOp :=
  let rd := rvRd w
  let rs1 := rvRs1 w
  let sh : BitVec 6 := w.extractLsb' 20 6
  let f6 := (w.extractLsb' 26 6).toNat
  let i12 := (rvImmI w).toNat
  match rvF3 w with
  | 1 =>
    if f6 = 0 then some (.shiftImm .sll false rd rs1 sh)
    else match i12 with
      | 0x600 => some (.b1 .clz rd rs1) | 0x601 => some (.b1 .ctz rd rs1) | 0x602 => some (.b1 .cpop rd rs1)
      | 0x604 => some (.b1 .sextB rd rs1) | 0x605 => some (.b1 .sextH rd rs1)
      | _ => none
  | 5 =>
    if f6 = 0 then some (.shiftImm .srl false rd rs1 sh)
    else if f6 = 0x10 then some (.shiftImm .sra false rd rs1 sh)
    else if f6 = 0x18 then some (.bi .rori rd rs1 sh)
    else if i12 = 0x287 then some (.b1 .orcB rd rs1)
    else if i12 = 0x6B8 then some (.b1 .rev8 rd rs1)
    else none
  | f3 => some (.aluImm (rvAluOf f3) false rd rs1 (rvImmI w))

/-- OP-IMM-32, opcode 0x1B. -/
def decOpImm32 (w : Word32) : Option RvOp :=
  let rd := rvRd w
  let rs1 := rvRs1 w
  let sh : BitVec 6 := w.extractLsb' 20 6
  let sh5 : BitVec 6 := 0#1 ++ w.extractLsb' 20 5
  let f7 := rvF7 w
  let i12 := (rvImmI w).toNat
  match rvF3 w with
  | 0 => some (.aluImm .add true rd rs1 (rvImmI w))
  | 1 =>
    if f7 = 0 then some (.shiftImm .sll true rd rs1 sh5)
    else if (w.extractLsb' 26 6).toNat = 2 then some (.bi .slliUw rd rs1 sh)
    else match i12 with
      | 0x600 => some (.b1 .clzw rd rs1) | 0x601 => some (.b1 .ctzw rd rs1) | 0x602 => some (.b1 .cpopw rd rs1)
      | _ => none
  | 5 =>
    if f7 = 0 then some (.shiftImm .srl true rd rs1 sh5)
    else if f7 = 0x20 then some (.shiftImm .sra true rd rs1 sh5)
    else if f7 = 0x30 then some (.bi .roriw rd rs1 sh5)
    else none
  | _ => none

/-- OP, opcode 0x33. -/
def decOp (w : Word32) : Option RvOp :=
  let rd := rvRd w
  let rs1 := rvRs1 w
  let rs2 := rvRs2 w
  let f3 := rvF3 w
  let b (o : RvB2) : Option RvOp := some (.b2 o rd rs1 rs2)
  match rvF7 w with
  | 0x00 => some (.alu (rvAluOf f3) false rd rs1 rs2)
  | 0x01 => some (.mul (rvMulOf f3) false rd rs1 rs2)
  | 0x20 => match f3 with
    | 0 => some (.alu .sub false rd rs1 rs2) | 5 => some (.alu .sra false rd rs1 rs2)
    | 4 => b .xnor | 6 => b .orn | 7 => b .andn | _ => none
  | 0x05 => match f3 with
    | 4 => b .min | 5 => b .minu | 6 => b .max | 7 => b .maxu | _ => none
  | 0x10 => match f3 with
    | 2 => b .sh1add | 4 => b .sh2add | 6 => b .sh3add | _ => none
  | 0x30 => match f3 with
    | 1 => b .rol | 5 => b .ror | _ => none
  | _ => none

/-- OP-32, opcode 0x3B. -/
def decOp32 (w : Word32) : Option RvOp :=
  let rd := rvRd w
  let rs1 := rvRs1 w
  let rs2 := rvRs2 w
  let f3 := rvF3 w
  let b (o : RvB2) : Option RvOp := some (.b2 o rd rs1 rs2)
  match rvF7 w with
  | 0x00 => match f3 with
    | 0 => some (.alu .add true rd rs1 rs2) | 1 => some (.alu .sll true rd rs1 rs2)
    | 5 => some (.alu .srl true rd rs1 rs2) | _ => none
  | 0x20 => match f3 with
    | 0 => some (.alu .sub true rd rs1 rs2) | 5 => some (.alu .sra true rd rs1 rs2) | _ => none
  | 0x01 => match f3 with
    | 0 => some (.mul .mul true rd rs1 rs2) | 4 => some (.mul .div true rd rs1 rs2) | 5 => some (.mul .divu true rd rs1 rs2)
    | 6 => some (.mul .rem true rd rs1 rs2) | 7 => some (.mul .remu true rd rs1 rs2) | _ => none
  | 0x04 => match f3 with
    | 0 => b .addUw
    | 4 => if rs2 = 0 then some (.b1 .zextH rd rs1) else none
    | _ => none
  | 0x10 => match f3 with
    | 2 => b .sh1addUw | 4 => b .sh2addUw | 6 => b .sh3addUw | _ => none
  | 0x30 => match f3 with
    | 1 => b .rolw | 5 => b .rorw | _ => none
  | _ => none

/-- SYSTEM, opcode 0x73. -/
def decSystem (w : Word32) (len : RvLen) : Instr :=
  let op (o : RvOp) : Instr := .ctRiscvInstruction o len
  let rd := rvRd w
  let rs1 := rvRs1 w
  let num := rvImmI w
  let csr (o : RvCsr) (imm : Bool) : Instr :=
    if num = 0x800 then .xbscopeWrite o imm rd rs1
    else if num = 0x7C0 then .xbresumeWrite o imm rd rs1
    else op (.csr o imm rd rs1 num)
  match rvF3 w with
  | 0 =>
    if w = 0x00000073 then .ecallEndPart
    else if w = 0x00100073 then op .ebreak
    else if w = 0x30200073 then op .mret
    else if w = 0x10500073 then op .wfi
    else rvIll w len
  | 1 => csr .rw false | 2 => csr .rs false | 3 => csr .rc false
  | 5 => csr .rw true | 6 => csr .rs true | 7 => csr .rc true
  | _ => rvIll w len

/-- AMO, opcode 0x2F. -/
def decAmo (w : Word32) : Option Instr :=
  let rd := rvRd w
  let rs1 := rvRs1 w
  let rs2 := rvRs2 w
  let aq := w[26]
  let rl := w[25]
  let amo (o : RvAmo) (dbl : Bool) : Option Instr := some (.ctAmo o dbl aq rl rd rs1 rs2)
  let go (dbl : Bool) : Option Instr :=
    match (w.extractLsb' 27 5).toNat with
    | 0x02 => if rs2 = 0 then some (.ctLr dbl aq rl rd rs1) else none
    | 0x03 => some (.ctSc dbl aq rl rd rs1 rs2)
    | 0x01 => amo .swap dbl | 0x00 => amo .add dbl | 0x04 => amo .xor dbl | 0x0C => amo .and dbl | 0x08 => amo .or dbl
    | 0x10 => amo .min dbl | 0x14 => amo .max dbl | 0x18 => amo .minu dbl | 0x1C => amo .maxu dbl
    | _ => none
  match rvF3 w with
  | 2 => go false | 3 => go true | _ => none

def rvIntOf (x : Nat) : RvInt :=
  match x with
  | 0 => .w | 1 => .wu | 2 => .l | _ => .lu

/-- OP-FP, opcode 0x53: F and D. Rounding fields 5 and 6 are reserved. -/
def decOpFp (w : Word32) : Option RvOp :=
  let rd := rvRd w
  let rs1 := rvRs1 w
  let rs2 := rvRs2 w
  let rm : BitVec 3 := w.extractLsb' 12 3
  let dbl := w[25]
  let rmOk := rm != 5 && rm != 6
  let r (o : RvOp) : Option RvOp := if rmOk then some o else none
  if w[26] then none else
  match (w.extractLsb' 27 5).toNat with
  | 0x00 => r (.fop .add dbl rd rs1 rs2 rm)
  | 0x01 => r (.fop .sub dbl rd rs1 rs2 rm)
  | 0x02 => r (.fop .mul dbl rd rs1 rs2 rm)
  | 0x03 => r (.fop .div dbl rd rs1 rs2 rm)
  | 0x0B => if rs2 = 0 then r (.fop .sqrt dbl rd rs1 0 rm) else none
  | 0x04 => match rm.toNat with
    | 0 => some (.fsel .sgnj dbl rd rs1 rs2) | 1 => some (.fsel .sgnjn dbl rd rs1 rs2)
    | 2 => some (.fsel .sgnjx dbl rd rs1 rs2) | _ => none
  | 0x05 => match rm.toNat with
    | 0 => some (.fsel .min dbl rd rs1 rs2) | 1 => some (.fsel .max dbl rd rs1 rs2) | _ => none
  | 0x08 =>
    if !dbl && rs2 == 1 then r (.fcvtSD rd rs1 rm)
    else if dbl && rs2 == 0 then r (.fcvtDS rd rs1 rm)
    else none
  | 0x14 => match rm.toNat with
    | 0 => some (.fcmp .le dbl rd rs1 rs2) | 1 => some (.fcmp .lt dbl rd rs1 rs2)
    | 2 => some (.fcmp .eq dbl rd rs1 rs2) | _ => none
  | 0x18 => if rs2.toNat < 4 then r (.fcvtToInt (rvIntOf rs2.toNat) dbl rd rs1 rm) else none
  | 0x1A => if rs2.toNat < 4 then r (.fcvtFromInt (rvIntOf rs2.toNat) dbl rd rs1 rm) else none
  | 0x1C =>
    if rs2 = 0 then match rm.toNat with
      | 0 => some (.fmvToX dbl rd rs1) | 1 => some (.fclass dbl rd rs1) | _ => none
    else none
  | 0x1E => if rs2 = 0 && rm = 0 then some (.fmvFromX dbl rd rs1) else none
  | _ => none

/-- The fused forms, opcodes 0x43, 0x47, 0x4B, 0x4F. -/
def decFma (o : RvFma) (w : Word32) : Option RvOp :=
  let rm : BitVec 3 := w.extractLsb' 12 3
  if w[26] || rm == 5 || rm == 6 then none
  else some (.fma o w[25] (rvRd w) (rvRs1 w) (rvRs2 w) (w.extractLsb' 27 5) rm)

/-- A 32-bit control-thread word; `len` says how it stood in memory. -/
def decRv32 (w : Word32) (len : RvLen) : Instr :=
  let rd := rvRd w
  let rs1 := rvRs1 w
  let rs2 := rvRs2 w
  let op (o : RvOp) : Instr := .ctRiscvInstruction o len
  let opt (o : Option RvOp) : Instr :=
    match o with
    | some x => op x
    | none => rvIll w len
  let ld (o : RvMem) : Instr := .ctLoadStore o rd rs1 (rvImmI w) len
  let st (o : RvMem) : Instr := .ctLoadStore o rs2 rs1 (rvImmS w) len
  let br (c : RvBr) : Instr := op (.branch c rs1 rs2 (rvImmB w))
  match (w.extractLsb' 0 7).toNat with
  | 0x03 => match rvF3 w with
    | 0 => ld .lb | 1 => ld .lh | 2 => ld .lw | 3 => ld .ld | 4 => ld .lbu | 5 => ld .lhu | 6 => ld .lwu | _ => rvIll w len
  | 0x07 => match rvF3 w with
    | 2 => ld .flw | 3 => ld .fld | _ => rvIll w len
  | 0x0B => decXbam w
  | 0x0F => match rvF3 w with
    | 0 =>
      if w.extractLsb' 28 4 = 8 && w.extractLsb' 20 8 = 0x33 then .ctFence true 3 3 rd rs1
      else .ctFence false (w.extractLsb' 24 4) (w.extractLsb' 20 4) rd rs1
    | 1 => .ctFenceI rd rs1 (rvImmI w)
    | _ => rvIll w len
  | 0x13 => opt (decOpImm w)
  | 0x17 => op (.auipc rd (w.extractLsb' 12 20))
  | 0x1B => opt (decOpImm32 w)
  | 0x23 => match rvF3 w with
    | 0 => st .sb | 1 => st .sh | 2 => st .sw | 3 => st .sd | _ => rvIll w len
  | 0x27 => match rvF3 w with
    | 2 => st .fsw | 3 => st .fsd | _ => rvIll w len
  | 0x2B => decXbam w
  | 0x2F => (decAmo w).getD (rvIll w len)
  | 0x33 => opt (decOp w)
  | 0x37 => op (.lui rd (w.extractLsb' 12 20))
  | 0x3B => opt (decOp32 w)
  | 0x43 => opt (decFma .madd w)
  | 0x47 => opt (decFma .msub w)
  | 0x4B => opt (decFma .nmsub w)
  | 0x4F => opt (decFma .nmadd w)
  | 0x53 => opt (decOpFp w)
  | 0x63 => match rvF3 w with
    | 0 => br .eq | 1 => br .ne | 4 => br .lt | 5 => br .ge | 6 => br .ltu | 7 => br .geu | _ => rvIll w len
  | 0x67 => if rvF3 w = 0 then op (.jalr rd rs1 (rvImmI w)) else rvIll w len
  | 0x6F => op (.jal rd (rvImmJ w))
  | 0x73 => decSystem w len
  | _ => rvIll w len

/-- The C extension of RV64: a 16-bit word as the instruction it abbreviates. -/
def decRv16 (h : BitVec 16) : Instr :=
  let len := RvLen.comp h
  let op (o : RvOp) : Instr := .ctRiscvInstruction o len
  let ill : Instr := rvIll (h.setWidth 32) len
  let rd : XName := h.extractLsb' 7 5
  let r2 : XName := h.extractLsb' 2 5
  let rdc : XName := 1#2 ++ h.extractLsb' 7 3
  let r2c : XName := 1#2 ++ h.extractLsb' 2 3
  let imm6 : BitVec 6 := h.extractLsb' 12 1 ++ h.extractLsb' 2 5
  let imm : BitVec 12 := imm6.signExtend 12
  let uW : BitVec 12 := 0#5 ++ h.extractLsb' 5 1 ++ h.extractLsb' 10 3 ++ h.extractLsb' 6 1 ++ 0#2
  let uD : BitVec 12 := 0#4 ++ h.extractLsb' 5 2 ++ h.extractLsb' 10 3 ++ 0#3
  match (h.extractLsb' 0 2).toNat, (h.extractLsb' 13 3).toNat with
  | 0, 0 =>
    let u : BitVec 12 := 0#2 ++ h.extractLsb' 7 4 ++ h.extractLsb' 11 2 ++ h.extractLsb' 5 1 ++ h.extractLsb' 6 1 ++ 0#2
    if u = 0 then ill else op (.aluImm .add false r2c 2 u)
  | 0, 1 => .ctLoadStore .fld r2c rdc uD len
  | 0, 2 => .ctLoadStore .lw r2c rdc uW len
  | 0, 3 => .ctLoadStore .ld r2c rdc uD len
  | 0, 5 => .ctLoadStore .fsd r2c rdc uD len
  | 0, 6 => .ctLoadStore .sw r2c rdc uW len
  | 0, 7 => .ctLoadStore .sd r2c rdc uD len
  | 1, 0 => op (.aluImm .add false rd rd imm)
  | 1, 1 => if rd = 0 then ill else op (.aluImm .add true rd rd imm)
  | 1, 2 => op (.aluImm .add false rd 0 imm)
  | 1, 3 =>
    if imm6 = 0 then ill
    else if rd = 2 then
      op (.aluImm .add false 2 2 ((h.extractLsb' 12 1 ++ h.extractLsb' 3 2 ++ h.extractLsb' 5 1 ++ h.extractLsb' 2 1 ++
        h.extractLsb' 6 1 ++ 0#4 : BitVec 10).signExtend 12))
    else op (.lui rd (imm6.signExtend 20))
  | 1, 4 =>
    match (h.extractLsb' 10 2).toNat with
    | 0 => op (.shiftImm .srl false rdc rdc imm6)
    | 1 => op (.shiftImm .sra false rdc rdc imm6)
    | 2 => op (.aluImm .and false rdc rdc imm)
    | _ =>
      match h[12], (h.extractLsb' 5 2).toNat with
      | false, 0 => op (.alu .sub false rdc rdc r2c)
      | false, 1 => op (.alu .xor false rdc rdc r2c)
      | false, 2 => op (.alu .or false rdc rdc r2c)
      | false, _ => op (.alu .and false rdc rdc r2c)
      | true, 0 => op (.alu .sub true rdc rdc r2c)
      | true, 1 => op (.alu .add true rdc rdc r2c)
      | true, _ => ill
  | 1, 5 =>
    op (.jal 0 ((h.extractLsb' 12 1 ++ h.extractLsb' 8 1 ++ h.extractLsb' 9 2 ++ h.extractLsb' 6 1 ++ h.extractLsb' 7 1 ++
      h.extractLsb' 2 1 ++ h.extractLsb' 11 1 ++ h.extractLsb' 3 3 : BitVec 11).signExtend 20))
  | 1, f =>
    let d : BitVec 12 := (h.extractLsb' 12 1 ++ h.extractLsb' 5 2 ++ h.extractLsb' 2 1 ++ h.extractLsb' 10 2 ++
      h.extractLsb' 3 2 : BitVec 8).signExtend 12
    op (.branch (if f = 6 then .eq else .ne) rdc 0 d)
  | 2, 0 => op (.shiftImm .sll false rd rd imm6)
  | 2, 1 => .ctLoadStore .fld rd 2 (0#3 ++ h.extractLsb' 2 3 ++ h.extractLsb' 12 1 ++ h.extractLsb' 5 2 ++ 0#3) len
  | 2, 2 =>
    if rd = 0 then ill
    else .ctLoadStore .lw rd 2 (0#4 ++ h.extractLsb' 2 2 ++ h.extractLsb' 12 1 ++ h.extractLsb' 4 3 ++ 0#2) len
  | 2, 3 =>
    if rd = 0 then ill
    else .ctLoadStore .ld rd 2 (0#3 ++ h.extractLsb' 2 3 ++ h.extractLsb' 12 1 ++ h.extractLsb' 5 2 ++ 0#3) len
  | 2, 4 =>
    match h[12] with
    | false => if r2 = 0 then (if rd = 0 then ill else op (.jalr 0 rd 0)) else op (.alu .add false rd 0 r2)
    | true => if r2 = 0 then (if rd = 0 then op .ebreak else op (.jalr 1 rd 0)) else op (.alu .add false rd rd r2)
  | 2, 5 => .ctLoadStore .fsd r2 2 (0#3 ++ h.extractLsb' 7 3 ++ h.extractLsb' 10 3 ++ 0#3) len
  | 2, 6 => .ctLoadStore .sw r2 2 (0#4 ++ h.extractLsb' 7 2 ++ h.extractLsb' 9 4 ++ 0#2) len
  | 2, 7 => .ctLoadStore .sd r2 2 (0#3 ++ h.extractLsb' 7 3 ++ h.extractLsb' 10 3 ++ 0#3) len
  | _, _ => ill

/-- The control thread's instruction whose first four bytes are `w`: 16 bits where the low two bits are not 0b11. -/
def decodeCt (w : Word32) : Instr :=
  if w.extractLsb' 0 2 = 3 then decRv32 w .full else decRv16 (w.extractLsb' 0 16)

/-! ## The encoder -/

/-- The word of an instruction that the spec lays out (R201 to R222, R375); an operation without a word has none. -/
def encode (i : Instr) : Option Word32 :=
  match i with
  | .vadd c d a b sz => some (encR c 0x0 d a b (0#2 ++ sz.code))
  | .vsub c d a b sz => some (encR c 0x0 d a b (1#2 ++ sz.code))
  | .vmul c d a b sz => some (encR c 0x0 d a b (2#2 ++ sz.code))
  | .vmulh c d a b sz => some (encR c 0x0 d a b (3#2 ++ sz.code))
  | .vmulhn c d a b sz => some (encR c 0x1 d a b (0#2 ++ sz.code))
  | .vmin c d a b sz => some (encR c 0x1 d a b (1#2 ++ sz.code))
  | .vmax c d a b sz => some (encR c 0x1 d a b (2#2 ++ sz.code))
  | .vminn c d a b sz => some (encR c 0x1 d a b (3#2 ++ sz.code))
  | .vmaxn c d a b sz => some (encR c 0x2 d a b (0#2 ++ sz.code))
  | .vabs c d a sz => some (encR c 0x2 d a 0 (1#2 ++ sz.code))
  | .vneg c d a sz => some (encR c 0x2 d a 0 (2#2 ++ sz.code))
  | .vand c d a b sz => some (encR c 0x2 d a b (3#2 ++ sz.code))
  | .vor c d a b sz => some (encR c 0x3 d a b (0#2 ++ sz.code))
  | .vxor c d a b sz => some (encR c 0x3 d a b (1#2 ++ sz.code))
  | .vandn c d a b sz => some (encR c 0x3 d a b (2#2 ++ sz.code))
  | .vshl c d a b sz => some (encR c 0x3 d a b (3#2 ++ sz.code))
  | .vshr c d a b sz => some (encR c 0x4 d a b (0#2 ++ sz.code))
  | .vsra c d a b sz => some (encR c 0x4 d a b (1#2 ++ sz.code))
  | .vrot c d a b sz => some (encR c 0x4 d a b (2#2 ++ sz.code))
  | .vfsh c d a b sz => some (encR c 0x4 d a b (3#2 ++ sz.code))
  | .vbext c d a b sz => some (encR c 0x5 d a b (0#2 ++ sz.code))
  | .vbins c d a b sz => some (encR c 0x5 d a b (1#2 ++ sz.code))
  | .vclz c d a sz => some (encR c 0x5 d a 0 (2#2 ++ sz.code))
  | .vpopc c d a sz => some (encR c 0x5 d a 0 (3#2 ++ sz.code))
  | .vmv c d a sz => some (encR c 0x6 d a 0 (0#2 ++ sz.code))
  | .vsel c d a b sz => some (encR c 0x6 d a b (1#2 ++ sz.code))
  | .vcvt c d a sz => some (encR c 0x6 d a 0 (2#2 ++ sz.code))
  | .vidx c d sz => some (encR c 0x6 d 0 0 (3#2 ++ sz.code))
  | .vaddi c d a sz i => some (encI c 0x7 d a (sz.code ++ 0#3 ++ i))
  | .vandi c d a sz i => some (encI c 0x7 d a (sz.code ++ 1#3 ++ i))
  | .vori c d a sz i => some (encI c 0x7 d a (sz.code ++ 2#3 ++ i))
  | .vxori c d a sz i => some (encI c 0x7 d a (sz.code ++ 3#3 ++ i))
  | .vshli c d a sz i => some (encI c 0x7 d a (sz.code ++ 4#3 ++ i))
  | .vshri c d a sz i => some (encI c 0x7 d a (sz.code ++ 5#3 ++ i))
  | .vsrai c d a sz i => some (encI c 0x7 d a (sz.code ++ 6#3 ++ i))
  | .vmvi c d sz i => some (encI c 0x7 d 0 (sz.code ++ 7#3 ++ i))
  | .gadd c d a b => some (encR c 0x8 (g7 d) (g7 a) (g7 b) 0)
  | .gsub c d a b => some (encR c 0x8 (g7 d) (g7 a) (g7 b) 1)
  | .gmul c d a b => some (encR c 0x8 (g7 d) (g7 a) (g7 b) 2)
  | .gand c d a b => some (encR c 0x8 (g7 d) (g7 a) (g7 b) 3)
  | .gor c d a b => some (encR c 0x8 (g7 d) (g7 a) (g7 b) 4)
  | .gxor c d a b => some (encR c 0x8 (g7 d) (g7 a) (g7 b) 5)
  | .gshl c d a b => some (encR c 0x8 (g7 d) (g7 a) (g7 b) 6)
  | .gshr c d a b => some (encR c 0x8 (g7 d) (g7 a) (g7 b) 7)
  | .gsra c d a b => some (encR c 0x8 (g7 d) (g7 a) (g7 b) 8)
  | .gmv c d a => some (encR c 0x8 (g7 d) (g7 a) 0 9)
  | .gaddi c d a i => some (encI c 0x9 (g7 d) (g7 a) i)
  | .gandi c d a i => some (encI c 0xa (g7 d) (g7 a) i)
  | .gshli c d a i => some (encI c 0xb (g7 d) (g7 a) (0#5 ++ i))
  | .glui c d i => some (encI c 0xb (g7 d) (i.extractLsb' 10 7) (1#1 ++ i.extractLsb' 0 10))
  | .vfadd c d a b ft => some (encR c 0xc d a b (0#2 ++ ft.code))
  | .vfsub c d a b ft => some (encR c 0xc d a b (1#2 ++ ft.code))
  | .vfmul c d a b ft => some (encR c 0xc d a b (2#2 ++ ft.code))
  | .vfdiv c d a b ft => some (encR c 0xc d a b (3#2 ++ ft.code))
  | .vfma c d a b ft => some (encR c 0xd d a b (0#2 ++ ft.code))
  | .vfms c d a b ft => some (encR c 0xd d a b (1#2 ++ ft.code))
  | .vfnma c d a b ft => some (encR c 0xd d a b (2#2 ++ ft.code))
  | .vfnms c d a b ft => some (encR c 0xd d a b (3#2 ++ ft.code))
  | .vfmin c d a b ft => some (encR c 0xe d a b (0#2 ++ ft.code))
  | .vfmax c d a b ft => some (encR c 0xe d a b (1#2 ++ ft.code))
  | .vfabs c d a ft => some (encR c 0xe d a 0 (2#2 ++ ft.code))
  | .vfneg c d a ft => some (encR c 0xe d a 0 (3#2 ++ ft.code))
  | .vfsgn c d a b ft => some (encR c 0xf d a b (0#2 ++ ft.code))
  | .vfsqrt c d a ft => some (encR c 0xf d a 0 (1#2 ++ ft.code))
  | .vfrcp c d a ft => some (encR c 0xf d a 0 (2#2 ++ ft.code))
  | .vfrsq c d a ft => some (encR c 0xf d a 0 (3#2 ++ ft.code))
  | .vfexp2 c d a ft => some (encR c 0x10 d a 0 (0#2 ++ ft.code))
  | .vflog2 c d a ft => some (encR c 0x10 d a 0 (1#2 ++ ft.code))
  | .vftanh c d a ft => some (encR c 0x10 d a 0 (2#2 ++ ft.code))
  | .vfsigm c d a ft => some (encR c 0x10 d a 0 (3#2 ++ ft.code))
  | .vfcls c d a ft => some (encR c 0x11 d a 0 (0#2 ++ ft.code))
  | .vfscale c d a b ft => some (encR c 0x11 d a b (1#2 ++ ft.code))
  | .vsrnd c d a b ft => some (encR c 0x11 d a b (2#2 ++ ft.code))
  | .vfcvt c d a f => some (encR c 0x12 d a 0 f)
  | .vfcvtiInto c d a t ft => some (encR c 0x13 d a (g7 t) (0#2 ++ ft.code))
  | .vfcvtiOut c d a t ft => some (encR c 0x13 d a (g7 t) (2#2 ++ ft.code))
  | .vrng c d sz => some (encR c 0x14 d 0 0 (0#2 ++ sz.code))
  | .kwhilelt c d a b sz => some (encR c 0x18 (k7 d) (g7 a) (g7 b) (0#2 ++ sz.code))
  | .kwhilele c d a b sz => some (encR c 0x18 (k7 d) (g7 a) (g7 b) (2#2 ++ sz.code))
  | .kcmp816 c d a b cond wide => some (encR c 0x19 (k7 d) a b (cond.code ++ BitVec.ofBool wide))
  | .kcmp3264 c d a b cond wide => some (encR c 0x1a (k7 d) a b (cond.code ++ BitVec.ofBool wide))
  | .kfcmp c d a b cond ft => some (encR c 0x1b (k7 d) a b (cond.code ++ ft.code))
  | .kand c d a b => some (encR c 0x1c (k7 d) (k7 a) (k7 b) 0)
  | .kor c d a b => some (encR c 0x1c (k7 d) (k7 a) (k7 b) 1)
  | .kxor c d a b => some (encR c 0x1c (k7 d) (k7 a) (k7 b) 2)
  | .kandn c d a b => some (encR c 0x1c (k7 d) (k7 a) (k7 b) 3)
  | .knot c d a => some (encR c 0x1c (k7 d) (k7 a) 0 4)
  | .kmv c d a => some (encR c 0x1c (k7 d) (k7 a) 0 5)
  | .kpop c d a => some (encR c 0x1c (g7 d) (k7 a) 0 6)
  | .kfirst c d a => some (encR c 0x1c (g7 d) (k7 a) 0 7)
  | .kset c d a => some (encR c 0x1c (k7 d) (g7 a) 0 8)
  | .kld c d a => some (encR c 0x1c (k7 d) (g7 a) 0 9)
  | .kst c d a => some (encR c 0x1c (k7 d) (g7 a) 0 10)
  | .vshapeImm c rows cols => some (encR c 0x1c 0 rows cols 11)
  | .vshapeReg c a b => some (encR c 0x1c 0 (g7 a) (g7 b) 12)
  | .tcoll c d t => some (encR c 0x1c (g7 d) (g7 t) 0 13)
  | .gsubbr a disp => some (encJ 0x1d (g7 a) disp)
  | .vperm c d a b sz => some (encR c 0x1e d a b (0#2 ++ sz.code))
  | .vzip c d a b sz => some (encR c 0x1e d a b (1#2 ++ sz.code))
  | .vunzip c d a sz => some (encR c 0x1e d a 0 (2#2 ++ sz.code))
  | .vslup c d a b sz => some (encR c 0x1e d a (g7 b) (3#2 ++ sz.code))
  | .vsldn c d a b sz => some (encR c 0x1f d a (g7 b) (0#2 ++ sz.code))
  | .vbcast c d a b sz => some (encR c 0x1f d a (g7 b) (1#2 ++ sz.code))
  | .vtrans c d a sz => some (encR c 0x1f d a 0 (2#2 ++ sz.code))
  | .vcomp c d a sz => some (encR c 0x1f d a 0 (3#2 ++ sz.code))
  | .vrsum c d a xt => some (encR c 0x20 d a 0 xt.code)
  | .vrmax c d a xt => some (encR c 0x20 d a 1 xt.code)
  | .vrmin c d a xt => some (encR c 0x20 d a 2 xt.code)
  | .vrand c d a xt => some (encR c 0x20 d a 3 xt.code)
  | .vror c d a xt => some (encR c 0x20 d a 4 xt.code)
  | .vscan c d a xt => some (encR c 0x20 d a 5 xt.code)
  | .vexpd c d a xt => some (encR c 0x20 d a 6 xt.code)
  | .vlsnd c a => some (encR c 0x21 0 a 0 0)
  | .vlrcv c d => some (encR c 0x21 d 0 0 1)
  | .vld c d a sz off => some (encI c 0x24 d (g7 a) (0#1 ++ sz.code ++ off))
  | .vst c d a sz off => some (encI c 0x25 d (g7 a) (0#1 ++ sz.code ++ off))
  | .vlds c d a b sz => some (encR c 0x26 d (g7 a) (g7 b) (0#2 ++ sz.code))
  | .vsts c d a b sz => some (encR c 0x26 d (g7 a) (g7 b) (1#2 ++ sz.code))
  | .vldx c d a b sz => some (encR c 0x26 d (g7 a) b (2#2 ++ sz.code))
  | .vstx c d a b sz => some (encR c 0x26 d (g7 a) b (3#2 ++ sz.code))
  | .vldff c d a sz off => some (encI c 0x27 d (g7 a) (0#1 ++ sz.code ++ off))
  | .vldra c d a sz off => some (encI c 0x27 d (g7 a) (1#1 ++ sz.code ++ off))
  | .vldt c d t b tc => some (encR c 0x28 d (g7 t) (g7 b) (0#2 ++ tc.code))
  | .vstt c d t b tc => some (encR c 0x28 d (g7 t) (g7 b) (1#2 ++ tc.code))
  | .vldtag c d t b tc => some (encR c 0x28 d (g7 t) (g7 b) (2#2 ++ tc.code))
  | .gld c d a sext sz off => some (encI c 0x29 (g7 d) (g7 a) (BitVec.ofBool sext ++ sz.code ++ off))
  | .gst c d a sz off => some (encI c 0x2a (g7 d) (g7 a) (0#1 ++ sz.code ++ off))
  | .vamo c d a b op => some (encR c 0x2b d (g7 a) b (0#1 ++ op.code))
  | .vamoRow c d a b op => some (encR c 0x2b d (g7 a) b (1#1 ++ op.code))
  | .gamo c d a b dbl op => some (encR c 0x2c (g7 d) (g7 a) (g7 b) (BitVec.ofBool dbl ++ op.code))
  | .vrst c d a b bf => some (encR c 0x2d d (g7 a) b (0#3 ++ BitVec.ofBool bf))
  | .pref c a => some (encR c 0x2d 0 (g7 a) 0 2)
  | .fence c scope el es ll ls => some (encR c 0x2d (BitVec.ofBool el ++ BitVec.ofBool es ++ BitVec.ofBool ll ++ BitVec.ofBool ls ++ scope.code) 0 0 3)
  | .clean c a b => some (encR c 0x2d 0 (g7 a) (g7 b) 4)
  | .inval c a b => some (encR c 0x2d 0 (g7 a) (g7 b) 5)
  | .settle c a => some (encR c 0x2d 0 (g7 a) 0 6)
  | .renew c a scope => some (encR c 0x2d (0#4 ++ scope.code) (g7 a) 0 7)
  | .setlc c d a scope => some (encR c 0x2d (g7 d) (g7 a) (0#4 ++ scope.code) 8)
  | .iwc c d a => some (encR c 0x2d (g7 d) (g7 a) 0 9)
  | .rmul c d a b rt => some (encR c 0x2e d a b (0#1 ++ rt.code))
  | .umul c d a b rt => some (encR c 0x2e d a b (1#1 ++ rt.code))
  | .radd c d a b rt => some (encR c 0x2f d a b (0#1 ++ rt.code))
  | .uadd c d a b rt => some (encR c 0x2f d a b (1#1 ++ rt.code))
  | .rfma c d a b rt => some (encR c 0x30 d a b (0#1 ++ rt.code))
  | .ufma c d a b rt => some (encR c 0x30 d a b (1#1 ++ rt.code))
  | .rnarrow c d a rt => some (encR c 0x31 d a 0 (0#1 ++ rt.code))
  | .unarrow c d a rt => some (encR c 0x31 d a 0 (1#1 ++ rt.code))
  | .rshr c d a b rt => some (encR c 0x32 d a (g7 b) (0#1 ++ rt.code))
  | .ushr c d a b rt => some (encR c 0x32 d a (g7 b) (1#1 ++ rt.code))
  | .rscale c d a b bf => some (encR c 0x32 d a (g7 b) (3#3 ++ BitVec.ofBool bf))
  | .uscale c d a b bf => some (encR c 0x32 d a (g7 b) (7#3 ++ BitVec.ofBool bf))
  | .rlrelu c d a rt k => some (encI c 0x33 d a (0#3 ++ rt.code ++ k))
  | .ulrelu c d a rt k => some (encI c 0x33 d a (1#3 ++ rt.code ++ k))
  | .tsave c a => some (encI c 0x33 0 (g7 a) 0x200)
  | .trest c a => some (encI c 0x33 0 (g7 a) 0x300)
  | .tmark c d => some (encI c 0x33 (g7 d) 0 0x400)
  | .tchk c a => some (encI c 0x33 0 (g7 a) 0x500)
  | .tdepth c d => some (encI c 0x33 (g7 d) 0 0x600)
  | .mattach c a => some (encR c 0x34 0 (g7 a) 0 0)
  | .mdetach c => some (encR c 0x34 0 0 0 1)
  | .mzero c z => some (encR c 0x34 (z7 z) 0 0 2)
  | .tdef c t a => some (encR c 0x34 (g7 t) (g7 a) 0 3)
  | .tget c d t w => some (encR c 0x34 (g7 d) (g7 t) (0#5 ++ w) 4)
  | .qfence c set => some (encR c 0x34 (0#1 ++ set) 0 0 5)
  | .qwait c q a => some (encR c 0x34 (q7 q) (g7 a) 0 6)
  | .qcnt c d q => some (encR c 0x34 (g7 d) (q7 q) 0 7)
  | .mmac c z ta tb idx tc sat => some (encR c 0x35 (z7 z) (g7 ta) (g7 tb) (BitVec.ofBool idx ++ tc.code ++ BitVec.ofBool sat))
  | .vzrd c v z b hi => some (encR c 0x36 v (z7 z) (g7 b) (0#2 ++ BitVec.ofBool hi ++ 0#1))
  | .vzwr c v z b hi => some (encR c 0x36 v (z7 z) (g7 b) (1#2 ++ BitVec.ofBool hi ++ 0#1))
  | .vzcrd c v z b => some (encR c 0x36 v (z7 z) (g7 b) 8)
  | .vzcwr c v z b => some (encR c 0x36 v (z7 z) (g7 b) 12)
  | .cpy c d a b => some (encR c 0x37 (g7 d) (g7 a) (g7 b) 0)
  | .gath c d a b => some (encR c 0x37 (g7 d) (g7 a) (g7 b) 1)
  | .scat c d a b => some (encR c 0x37 (g7 d) (g7 a) (g7 b) 2)
  | .coll c d a b => some (encR c 0x37 (g7 d) (g7 a) (g7 b) 3)
  | .bank c a b => some (encR c 0x37 0 (g7 a) (g7 b) 4)
  | .br disp => some (encJ 0x3a 0 disp)
  | .jal a disp => some (encJ 0x3a (g7 a) disp)
  | .bcc a cond disp => some (encJ 0x3b (g7 a) (cond.code ++ disp))
  | .bk k inv disp => some (encJ 0x3b (k7 k) (3#2 ++ BitVec.ofBool inv ++ disp))
  | .nop c => some (encR c 0x3c 0 0 0 0)
  | .stop c => some (encR c 0x3c 0 0 0 1)
  | .yield c => some (encR c 0x3c 0 0 0 2)
  | .bar c level => some (encR c 0x3c (0#4 ++ level) 0 0 3)
  | .jr c a => some (encR c 0x3c 0 (g7 a) 0 4)
  | .lfetch c a => some (encR c 0x3c 0 (g7 a) 0 5)
  | .sread c d num => some (encI c 0x3d (g7 d) 0 num)
  | .swrite c d num => some (encI c 0x3d (g7 d) 8 num)
  | .trap c code => some (encI c 0x3d 0 16 code)
  | .brk c code => some (encI c 0x3d 0 24 code)
  | .wbase c n => some (encI c 0x3d 0 32 n)
  | .fclr c flags => some (encI c 0x3d 0 40 (0#4 ++ flags))
  | .poolq c d query => some (encI c 0x3d (g7 d) 48 query)
  | .maskSelect inv k => some (encP 0 (0#15 ++ BitVec.ofBool inv ++ k))
  | .rounding v mode => some (encP 1 (0#11 ++ v ++ mode.code))
  | .saturateAndZeroing sgn zero sat => some (encP 2 (0#18 ++ BitVec.ofBool sgn ++ BitVec.ofBool zero ++ BitVec.ofBool sat))
  | .immediateExtension imm => some (encP 3 imm)
  | .secondType code => some (encP 4 (0#16 ++ code))
  | .mtBcast rs1 rs2 => some (encX 0xb 0 0 rs2 rs1 0)
  | .mtSend rs1 rs2 m => some (encX 0xb 1 (0#2 ++ m) rs2 rs1 0)
  | .mtWait rs1 => some (encX 0xb 2 0 0 rs1 0)
  | .mtGet rd rs1 n => some (encX 0xb 3 (0#1 ++ n) 0 rs1 rd)
  | .mtPut rs1 n rs2 => some (encX 0xb 4 (0#1 ++ n) rs2 rs1 0)
  | .mtStop rs1 => some (encX 0xb 5 0 0 rs1 0)
  | .mtStat rd h => some (encX 0xb 6 (0#6 ++ BitVec.ofBool h) 0 0 rd)
  | .mtFlt rd rs1 rs2 => some (encX 0xb 7 0 rs2 rs1 rd)
  | .mtLnk pairs => some (encX 0x2b 0 (0#6 ++ BitVec.ofBool pairs) 0 0 0)
  | .mtBar rs1 level => some (encX 0x2b 1 (0#4 ++ level) 0 rs1 0)
  | .mtSync => some (encX 0x2b 2 0 0 0 0)
  | .mtEng rs1 rs2 => some (encX 0x2b 3 0 rs2 rs1 0)
  | .ecallEndPart => some 0x00000073
  | .ctFence _ _ _ _ _ => none
  | .ctFenceI _ _ _ => none
  | .ctLoadStore _ _ _ _ _ => none
  | .ctAmo _ _ _ _ _ _ _ => none
  | .ctLr _ _ _ _ _ => none
  | .ctSc _ _ _ _ _ _ => none
  | .ctPageFault _ _ => none
  | .xbscopeWrite _ _ _ _ => none
  | .xbresumeWrite _ _ _ _ => none
  | .faultInterrupt => none
  | .convoyIssue => none
  | .convoyRetire => none
  | .convoyFault => none
  | .convoyReissue _ _ _ => none
  | .lodeTake => none
  | .lodeFill => none
  | .mtPutApply => none
  | .mtGetSample => none
  | .mtStopApply => none
  | .barrierComplete => none
  | .linkWaitEnd => none
  | .pageWalk _ _ => none
  | .l1Fill _ => none
  | .sectorTimerExpiry => none
  | .homeSliceWrite _ _ _ => none
  | .homeSliceFill _ _ => none
  | .atomicAtSlice _ _ _ => none
  | .vrstPacket => none
  | .hwPrefetch => none
  | .fabricRequest _ _ _ => none
  | .accessErrorResponse _ _ => none
  | .portDown => none
  | .settleEntry => none
  | .settleStartNotice => none
  | .settleSectorWrite => none
  | .renewEntry => none
  | .bankEntry => none
  | .bankAccept => none
  | .tileStep => none
  | .countNotice => none
  | .cpyEntry => none
  | .tagSet => none
  | .gathScatEntry => none
  | .mmacEntry => none
  | .mzeroEntry => none
  | .collEntry => none
  | .collectiveMatch => none
  | .collWatchdogTimeout => none
  | .qfenceMarkerComplete => none
  | .entryComplete => none
  | .spanUpdate _ => none
  | .spanUpdateComplete => none
  | .tlbinvPage => none
  | .tlbinvContext => none
  | .tlbinvAll => none
  | .tlbinvComplete => none
  | .registerWrite _ _ => none
  | .qmapWrite _ _ => none
  | .qmapTakesEffect => none
  | .lqdWrite _ _ _ => none
  | .tailWrite => none
  | .admissionTick => none
  | .admissionPass => none
  | .preemption => none
  | .preemptSaveComplete => none
  | .corePartEnd => none
  | .queueRelease _ => none
  | .poisonConsume _ => none
  | .gangStop => none
  | .doubleBitError _ => none
  | .gangResume => none
  | .gangAbort => none
  | .syncState => none
  | .preempt => none
  | .record => none
  | .dump => none
  | .attest => none
  | .mailboxComplete => none
  | .markerFlit _ _ => none
  | .debugHalt => none
  | .debugRelease => none
  | .sample => none
  | .clockThrottle _ => none
  | .deviceStartup _ _ _ _ _ => none
  | .watchdogHaltNotice _ _ => none
  | .fabricResponse _ _ => none
  | .flitCrcRetry => none
  | .ctRiscvInstruction _ _ => none

/-- Whether a word is one of the control thread's rows of the opcode table (R375, R192). -/
def isCtWord (w : Word32) : Bool :=
  match decodeCt w with
  | .ctRiscvInstruction _ _ => false
  | i => encode i == some w

/-- The instruction the decoders read from the bits of one row of the opcode table: a control-thread row where the word is
one of those, a micro-thread word otherwise. -/
def decodeTableWord (nbits w : Nat) : Option Instr :=
  let x : Word32 := BitVec.ofNat 32 (w % 2 ^ nbits)
  if isCtWord x then some (decodeCt x)
  else match decodeMt x with
    | .ok i => some i
    | .error _ => none

end Sys2Proof
end

