-- ==== Sys2Proof/Machine/Table.lean ====
section
/-! DEFINITION. Sparse tables: pairs of key and value with keys strictly rising, no value equal to what an unlisted key reads as.
Memory (Host.Cell lists), register files and the caches are such tables, so equal contents are equal data. -/

namespace Sys2Proof.Machine

/-- The value at key `k`; an unlisted key reads `z`. -/
def tget {β : Type} (z : β) : Tab β → Nat → β
  | [], _ => z
  | (k', v) :: t, k => if k' = k then v else if k < k' then z else tget z t k

/-- The table from its first key above `k` on. -/
def tdrop {β : Type} (k : Nat) : Tab β → Tab β
  | [] => []
  | (k', v) :: t => if k' ≤ k then tdrop k t else (k', v) :: t

/-- The table with `v` at key `k`, kept in the canonical form: writing `z` removes the entry. -/
def tset {β : Type} [DecidableEq β] (z : β) (t : Tab β) (k : Nat) (v : β) : Tab β :=
  match t with
  | [] => if v = z then [] else [(k, v)]
  | (k', w) :: t' =>
    if k < k' then (if v = z then (k', w) :: t' else (k, v) :: (k', w) :: t')
    else if k = k' then (if v = z then tdrop k t' else (k, v) :: t')
    else (k', w) :: tset z t' k v

/-- Whether every key is above `lo` and the keys rise strictly, with no listed value equal to `z`. -/
def twfFrom {β : Type} [DecidableEq β] (z : β) : Nat → Tab β → Bool
  | _, [] => true
  | lo, (k, v) :: t => decide (lo ≤ k) && decide (v ≠ z) && twfFrom z (k + 1) t

/-- The canonical form. -/
def twf {β : Type} [DecidableEq β] (z : β) (t : Tab β) : Bool := twfFrom z 0 t

/-- The table with every value changed by `f`, values that became `z` removed. -/
def tmap {β : Type} [DecidableEq β] (z : β) (f : Nat → β → β) : Tab β → Tab β
  | [] => []
  | (k, v) :: t => if f k v = z then tmap z f t else (k, f k v) :: tmap z f t

/-- `n` consecutive values from key `k`, lowest key first. -/
def trange {β : Type} (z : β) (t : Tab β) (k : Nat) : Nat → List β
  | 0 => []
  | n + 1 => tget z t k :: trange z t (k + 1) n

/-- The table with a list of values at consecutive keys from `k`. -/
def tsetRange {β : Type} [DecidableEq β] (z : β) (t : Tab β) (k : Nat) : List β → Tab β
  | [] => t
  | v :: vs => tsetRange z (tset z t k v) (k + 1) vs

/-! ## Bytes -/

/-- The number whose little-endian bytes are the list (R3). -/
def leNat : List Byte → Nat
  | [] => 0
  | b :: bs => b.toNat + 256 * leNat bs

/-- The low `n` bytes of a number, lowest first (R3). -/
def leBytes : Nat → Nat → List Byte
  | 0, _ => []
  | n + 1, x => BitVec.ofNat 8 x :: leBytes n (x / 256)

/-- The numbers 0, 1, …, n − 1. -/
def upto (n : Nat) : List Nat := List.range n

/-- A list without an element's repeats. -/
def insertNew (x : Nat) (l : List Nat) : List Nat := if l.contains x then l else l ++ [x]

/-- A rising list of keys with `x` in it. -/
def keyIn (x : Nat) : List Nat → List Nat
  | [] => [x]
  | y :: l => if x < y then x :: y :: l else if x = y then y :: l else y :: keyIn x l

/-- A list of keys without `x`. -/
def keyOut (x : Nat) (l : List Nat) : List Nat := l.filter (fun y => y != x)

/-- Bits `lo` to `lo + n − 1` of a number. -/
def bits (x lo n : Nat) : Nat := x / 2 ^ lo % 2 ^ n

/-- Bit `i` of a number. -/
def bit (x i : Nat) : Bool := x.testBit i

/-- `n` bytes of a register or line, from byte `i`. -/
def bvBytes {w : Nat} (x : BitVec w) (i n : Nat) : BitVec (8 * n) := x.extractLsb' (8 * i) (8 * n)

/-- The value with the bits of `m` taken from `y` (both at full width) and the others kept. -/
def bvMerge {w : Nat} (x y m : BitVec w) : BitVec w := (x &&& ~~~m) ||| (y &&& m)

/-- Ones in the `n` bits from `lo`. -/
def onesAt (w lo n : Nat) : BitVec w := BitVec.ofNat w (2 ^ n - 1) <<< lo

/-- A mask of bytes as a mask of bits. -/
def byteMask (w n : Nat) (m : Nat) : BitVec w :=
  (upto n).foldl (fun acc i => if m.testBit i then acc ||| (onesAt w (8 * i) 8) else acc) 0

/-- Sign extension of the low `w` bits of a number. -/
def sxt (w x : Nat) : Int := if x % 2 ^ w < 2 ^ (w - 1) then (x % 2 ^ w : Nat) else (x % 2 ^ w : Nat) - (2 ^ w : Nat)

/-- The low `w` bits of an integer. -/
def wrapW (w : Nat) (x : Int) : Nat := (x % ((2 ^ w : Nat) : Int)).toNat

end Sys2Proof.Machine
end

