-- ==== Sys2Proof/Machine/State.lean ====
section
/-! DEFINITION. The state of one CZN-8 device as plain data, why a step can stop, and the state after reset.
Every table is in the canonical form of Table.lean. Fields that no rule names are marked as the model's own. -/

namespace Sys2Proof.Machine

/-- Why a step stops with a fault. No meaning of this model raises one: every fault the spec describes is a next state. -/
inductive Fault where
  /-- Reserved for a machine that cannot go on. No step raises it; safe. -/
  | stuck
  deriving DecidableEq, Repr

/-- Why an instruction has no meaning here. -/
inductive Refusal where
  /-- The dispatcher's answer for an instruction without a meaning; safe, since nothing follows from a refusal. -/
  | notModelled (mnemonic : String)
  deriving DecidableEq, Repr

/-- What the hardware meets by itself, with no row of the opcode table (log 50): a corrected single-bit error (R22, R388); a parity error of
the n-th TLB or walk-cache entry of a core (R27); a walk of a core that reads a CRIT leaf four times without agreement, and the same of
a span entry's two banks (R31); the rewriting of a damaged copy of a span entry from its twin (R22); a second checksum mismatch of a slab
of the `mmac` in flight on a core (R396); and the entry into the L1 of the oldest retired stores that an agent, a micro-thread or 32 for the
control thread, has still to enter (R106). -/
inductive HwEvent where
  | corrected (loc : Place)
  | tlbParity (core n : Nat)
  | walkParity (core n : Nat)
  | leafTorn (core : Nat)
  | spanTorn (die ctx idx : Nat)
  | spanRepair (die ctx idx : Nat)
  | checksum (core slab : Nat)
  | storeEnters (core who : Nat)
  deriving DecidableEq, Repr

/-- A move of an agent or a unit of the device (log 2): an operation at a place; the turn of an agent; a hardware event; the convoy in flight
lets other agents act before its next member (R102); or the next effect that may be late is late: a store's entry into the L1 (R106) or
a prefetch (R72). -/
inductive Move where
  | event (at_ : Here) (i : Instr)
  | run (core : Nat) (who : Agent)
  | hw (e : HwEvent)
  | hold
  | delay
  deriving DecidableEq, Repr

/-- Where an access goes: the PA, another fabric node if any, and the attributes NS and DEVT. -/
structure Xlat where
  pa : Nat
  dev : Option Nat := none
  ns : Bool := false
  devt : Bool := false
  deriving DecidableEq, Repr

/-- A tensor descriptor, or an entry of the tensor-identifier table: four words (R344). -/
structure TDesc where
  w0 : Word64 := 0
  w1 : Word64 := 0
  w2 : Word64 := 0
  w3 : Word64 := 0
  deriving DecidableEq, Repr

/-- What an engine entry asks for (R341, R314, R315). -/
inductive EngCmd where
  | mattach
  | mdetach (slabs : Nat)
  | mzero (z : ZName)
  | mmac (z : ZName) (ta : TName) (a b : TDesc) (idx : Option (List Nat)) (rows kc : Nat) (t sat : Bool) (mgr : Nat)
  | cpy (d a : TDesc)
  | gath (d a : TDesc)
  | scat (d a : TDesc)
  | coll (d a : TDesc)
  | bank (blk count : Word64)
  | settle (va : Word64)
  | renew (va : Word64) (scope : Scope)
  | marker (id set : Nat)
  deriving DecidableEq, Repr

/-- One entry of a queue, or a qfence marker (R131, R132, R383): `who` is the enqueuing agent as in R61; `work` says that a started
entry still has work to do, `tags` the slots whose tags it has still to set (R55), `held` the span entries whose translations it
holds (R34) and `mr`, `mw` those translations, for reads and for writes, `restart` the first row an `mmac` has not accumulated (R200), `rec_`
the record of its error. `rd` and `wr` are the units it has still to read and to write (R135), by address divided by the unit's bytes,
`list` a `gath`'s or `scat`'s index list, `got` the units it has read, each with its poison, `peers` the sources of other
members of a matched collective that no entry holds any more, by member index, `size` how many members it has (R138), `was` the words that a tagged `cpy` has written in slots whose tags it has still to set, as they were (R57);
`pz` is poison of the whole entry, `stales` are the lines read stale so far, `absR` and `absW` the VAs that another node refused. `turn` is
a collective's place among the entries of its member in its group, from 1, and `memb` that member's index (R138, R199). -/
structure Entry where
  cmd : EngCmd
  word : Word32 := 0
  who : Nat := 0
  head : Word64 := 0
  opnd : Word64 := 0
  started : Bool := false
  work : Bool := false
  err : Nat := 0
  flags : BitVec 5 := 0
  tags : List Nat := []
  held : List Nat := []
  mr : List (Nat × Xlat) := []
  mw : List (Nat × Xlat) := []
  restart : Option Nat := none
  rec_ : List Word64 := []
  rd : List Nat := []
  wr : List Nat := []
  list : List Nat := []
  got : Tab (Nat × Bool) := []
  peers : List (Nat × List (Nat × Bool)) := []
  size : Nat := 0
  was : List (Nat × Nat × Bool) := []
  pz : Bool := false
  stales : List Nat := []
  absR : List Nat := []
  absW : List Nat := []
  turn : Nat := 0
  memb : Nat := 0
  deriving DecidableEq, Repr

/-- One engine queue (R131, R342, R343, R383). -/
structure Queue where
  entries : List Entry := []
  count : Word32 := 0
  held : Bool := false
  qst : Word32 := 0
  record : List Word64 := []
  timeout : Bool := false
  deriving DecidableEq, Repr

/-- One line of an L1 (R61): valid sectors, dirty bytes, data, the writer of each sector, the snapshot, poisoned sectors (R391). -/
structure L1Line where
  valid : BitVec 4 := 0
  dirty : LineMask := 0
  data : LineData := 0
  writer : BitVec 24 := 0
  snap : BitVec 4 := 0
  poison : BitVec 4 := 0
  live : Bool := false
  deriving DecidableEq, Repr

/-- One line of a home slice: bytes held, dirty bytes, data, snapshot, bytes protected by R81, poisoned sectors. -/
structure SliceLine where
  held : LineMask := 0
  dirty : LineMask := 0
  data : LineData := 0
  snap : BitVec 4 := 0
  guarded : LineMask := 0
  poison : BitVec 4 := 0
  live : Bool := false
  deriving DecidableEq, Repr

/-- A TLB entry: the context, the virtual page base, the page's bits, and the leaf entry (R15, R27). -/
structure TlbEntry where
  ctx : Nat
  base : Nat
  pbits : Nat
  leaf : Word64
  deriving DecidableEq, Repr

/-- A walk-cache entry: a table entry of level 3 to 1, tagged by context and the VA bits it covers (R27). -/
structure WalkEntry where
  ctx : Nat
  level : Nat
  idx : Nat
  entry : Word64
  deriving DecidableEq, Repr

/-- The registers of one micro-thread (R148, R369). Tables: v by physical register, g by 1 to 63, k by 0 to 23. -/
structure MtRegs where
  v : Tab VReg := []
  g : Tab Word64 := []
  k : Tab KReg := [(0, BitVec.allOnes 512)]
  fst : Word32 := 0
  ffi : Word32 := 0
  grc : Word32 := 0
  shp : Word32 := 0x7F
  wb : Word32 := 0
  eixNv : Word32 := 0
  eixDz : Word32 := 0
  eixOf : Word32 := 0
  eixUf : Word32 := 0
  eixNx : Word32 := 0
  tsd : Word64 := 0
  scb : Word64 := 0
  scl : Word64 := 0
  mgr : Word32 := 0
  mrs : Word32 := 0
  deriving DecidableEq, Repr

/-- A link value: 512 bytes and the poisoned 8-byte words (R168, R391). -/
structure LinkVal where
  val : VReg
  poison : BitVec 64 := 0
  deriving DecidableEq, Repr

/-- The lode buffer: the lode's address and its 32 words (R149). -/
structure Lode where
  va : Word64
  words : List Word32
  deriving DecidableEq, Repr

/-- The prefixes read and not yet bound to a word (R206). -/
structure Pfx where
  mask : Option (KName × Bool) := none
  rm : Option (RMode × VName) := none
  sat : Bool := false
  zero : Bool := false
  sgn : Bool := false
  ext : Option (BitVec 21) := none
  ty : Option (BitVec 5) := none
  deriving DecidableEq, Repr

/-- A store held in the retire buffer: bytes at a PA of a node, the VA it was made at, and whether it is an atomic's write,
which goes to the home slice (R60, R122). `poison` marks bytes that
carry poison (R391). -/
structure Store where
  pa : Nat
  bytes : List Byte
  dev : Option Nat := none
  va : Nat := 0
  atomic : Bool := false
  poison : Bool := false
  deriving DecidableEq, Repr

/-- A number read from a format: NaN, an infinity, or ± m × 2^e. -/
inductive FVal where
  | nan (sig : Bool)
  | inf (neg : Bool)
  | fin (neg : Bool) (m : Nat) (e : Int)
  deriving DecidableEq, Repr

/-- A remote-reduce packet to one line: the sender identifier (R127), the elements as byte offset, exact value and random bits,
the rounding mode, whether it waits in the batch of a deterministic launch, and that launch's partition, queue and index
(R126, R127, R308). -/
structure VrstPkt where
  sid : Nat
  core : Nat
  line : Nat
  bf : Bool
  rm : RMode
  elems : List (Nat × FVal × Nat)
  batch : Bool := false
  lid : Nat × Nat × Nat := (0, 0, 0)
  dev : Option Nat := none
  va : Nat := 0
  deriving DecidableEq, Repr

/-- What a convoy still waits for: `issue` is a wait of R174, for which it has not issued; `member` is a member that holds it
back from retiring and whose turn comes again; the others hold it back after its last member. -/
inductive Wait where
  | none
  | issue
  | member
  | bar (level instance_ : Nat)
  deriving DecidableEq, Repr

/-- Where a micro-thread goes after its convoy retires (R364 to R366, R373). -/
inductive Ctl where
  | seq
  | jump (va : Word64) (word : Word32)
  | lfetch (va : Word64)
  | stop
  | yield
  | trap (code : Nat)
  deriving DecidableEq, Repr

/-- The convoy in flight: its words, the prefixes read, the retire buffer (R161 to R166), and the faults its members found. `tens0` is
the tensor table as it stood when the convoy started (R262) and `span0` the span store (R34), both kept from the first wait on; `hidden` the values that registers of flags read as while this convoy's own flags are still to come (R238, R370); `arrived`
the levels at which this convoy made an arrival. Model's own: `trial` and `final` are the two runs of a convoy that has a
late member (log 28), `reads` the values that its first run has read, by member, in order, `seen` the lines whose requests and stale reads
its first run has counted for an atomic (R91, R422); `counted` says that its lane has counted its issue (R193), `before` what STALE, LREQ,
XREQ and the sampling counter were when it was tried, and `need` the slots and the tag that it waits for (R56). -/
structure Convoy where
  live : Bool := false
  core : Nat := 0
  mt : Nat := 0
  head : Word64 := 0
  words : List Word32 := []
  todo : List Word32 := []
  widx : Nat := 0
  member : Nat := 0
  nmemb : Nat := 0
  shp : Word32 := 0x7F
  wb : Word32 := 0
  chain : VReg := 0
  pfx : Pfx := {}
  work : MtRegs := {}
  tens : List (Nat × TDesc) := []
  talus : List Host.Cell := []
  fifo : List LinkVal := []
  took : Bool := false
  vmask : Tab VReg := []
  stores : List Store := []
  scr : List (Nat × List Byte) := []
  cleans : List (Nat × Nat × Bool) := []
  accw : List (Nat × Word32) := []
  vpk : List VrstPkt := []
  enq : List (Nat × Entry) := []
  send : Option LinkVal := none
  sregs : List (Nat × Word64) := []
  fltGld : List GName := []
  attach : Option Nat := none
  ctl : Ctl := .seq
  wait : Wait := .none
  cands : List (Nat × List Word64) := []
  skipBrk : Bool := false
  brkArmed : Bool := false
  tens0 : Option (Tab TDesc) := none
  span0 : Option (Tab Word64) := none
  hidden : List (Nat × Word32) := []
  arrived : List Nat := []
  trial : Bool := false
  final : Bool := false
  reads : List (Nat × Nat) := []
  seen : List (Nat × Nat) := []
  counted : Bool := true
  before : Option (Word32 × Word64 × Word64 × Nat) := none
  need : Option (List Nat × Nat) := none
  deriving DecidableEq, Repr

/-- One micro-thread context (R147, R151, R168, R381). `parked` is a convoy that issued and waits to retire, `late` are retired stores that
have still to enter the L1 (R106), convoy by convoy, `tagWait` the slots and the tag that the next convoy waits for where it has been tried (R56), `uncounted` names levels
whose pending arrival waits for the `bar` to be re-issued (R197), `yieldAll` the micro-threads that were ready at a yield (model's own), `moves` says that it runs
SAVELODE or RESTLODE (R200). -/
structure Mt where
  regs : MtRegs := {}
  talus : List Host.Cell := []
  code : Nat := 7
  next : Word64 := 0
  lode : Option Lode := none
  lodeq : List (Word64 × Option Word64) := []
  fifo : List LinkVal := []
  record : List Word64 := []
  bars : Tab Nat := []
  pend : BitVec 8 := 0
  slabs : Nat := 0
  yieldLeft : Nat := 0
  yieldFor : List Nat := []
  yieldAll : List Nat := []
  uncounted : BitVec 8 := 0
  late : List (List Store) := []
  tagWait : Option (List Nat × Nat) := none
  retry : Bool := false
  skip : Bool := false
  wasIdle : Bool := false
  moves : Bool := false
  parked : Option Convoy := none
  deriving DecidableEq, Repr

/-- The control thread (R144): RISC-V registers, mode, CSRs and the Xbamroth CSRs of R380 and R385. `late` are stores, one access each, that
have still to enter the L1 (R106), `fetched` an instruction that has been fetched and is not yet done (R376). -/
structure Ct where
  x : Tab Word64 := []
  f : Tab Word64 := []
  pc : Word64 := 0
  machine : Bool := true
  mstatus : Word64 := 0x200002000
  mie : Word64 := 0
  mtvec : Word64 := 0
  mscratch : Word64 := 0
  mepc : Word64 := 0
  mcause : Word64 := 0
  mtval : Word64 := 0
  mcountinhibit : Word64 := 0
  mcycle : Word64 := 0
  minstret : Word64 := 0
  fcsr : Word32 := 0
  xbscope : BitVec 3 := 0
  xbpf : List Word64 := []
  resv : Option Nat := none
  active : Bool := false
  stalled : Bool := false
  ending : Bool := false
  late : List (List Store) := []
  fetched : Option Word32 := none
  deriving DecidableEq, Repr

/-- An admitted launch (R182, R190 to R194): its record, the cores it runs on in member order, those whose part has ended, and whether
it has been chosen to be pre-empted. State.launches has them in the order of their latest admission or resumption. -/
structure Launch where
  part : Nat := 0
  queue : Nat := 0
  index : Nat := 0
  record : List Byte := []
  recVa : Nat := 0
  cores : List Nat := []
  ended : List Nat := []
  chosen : Bool := false
  deriving DecidableEq, Repr

/-- A request that waits for a micro-thread's convoy boundary (R156, R377). -/
inductive Pending where
  | put (mt : Nat) (n : BitVec 6) (x : Word64)
  | get (mt : Nat) (n : BitVec 6) (rd : XName)
  | stop (mt : Nat)
  deriving DecidableEq, Repr

/-- What a core of a launch is given: partition, context, pool word, indices, flags of CTL (R182 to R184, R148). -/
structure CoreLaunch where
  part : Nat := 0
  queue : Nat := 0
  index : Nat := 0
  ctx : Nat := 0
  pool : Word32 := 0
  ctl : Word32 := 0
  levels : List Word32 := []
  n : Nat := 0
  member : Nat := 0
  sav : Word64 := 0
  rest : Word64 := 0
  deriving DecidableEq, Repr

/-- One core. `torn` says that the next walk to a CRIT leaf reads it without agreement (R31, model's own). -/
structure Core where
  launch : Option CoreLaunch := none
  mts : Tab Mt := []
  ct : Ct := {}
  scratch : List Host.Cell := []
  tags : Tab Byte := []
  acc : Tab Word32 := []
  poolPoison : List Nat := []
  tens : Tab TDesc := []
  queues : Tab Queue := []
  l1 : Tab L1Line := []
  lodeCache : List (Nat × List Byte) := []
  tlb : List TlbEntry := []
  walk : List WalkEntry := []
  stale : Word32 := 0
  ictl : Word32 := 0
  rngc0 : Word64 := 0
  rngc1 : Word64 := 0
  rngk0 : Word64 := 0
  rngk1 : Word64 := 0
  pairs : Bool := false
  recency : List Nat := []
  pending : List Pending := []
  got : Option (XName × Word64) := none
  seen : Tab Nat := []
  halted : Bool := false
  stopping : Bool := false
  dbgctl : Word64 := 0
  trbase : Word64 := 0
  trsize : Word64 := 0
  trpos : Word64 := 0
  smpctl : Word64 := 0
  smpcnt : Nat := 0
  torn : Bool := false
  trLast : Word64 := 0
  lreq : Word64 := 0
  xreq : Word64 := 0
  rel : Tab Word64 := []
  deriving DecidableEq, Repr, Inhabited

/-- A settle in flight: region, ticket (none for LPDDR6), slices to start, sector writes on the way with their poison (R80, R391), and the
lines that LATEWB has counted for it (R92). -/
structure Settle where
  core : Nat
  region : Nat
  ticket : Option Nat
  slices : List Nat
  sectors : List (Nat × BitVec 32 × BitVec 256 × Bool)
  late : List Nat := []
  deriving DecidableEq, Repr

/-- A renew in flight: the L1s it selects, and the L1s and home slices that have acted (R82). -/
structure Renew where
  core : Nat
  region : Nat
  scope : Scope
  l1s : List Nat
  slices : List Nat
  deriving DecidableEq, Repr

/-- A bank command (R85 to R88, R358): the block's fields, the streams' VAs with the spans they lie in, the array tiles left, the
regions it writes, and the places its count notices have not reached. -/
structure BankCmd where
  core : Nat
  die : Nat
  rm : Nat
  esz : Nat
  ops : List Nat
  consts : List Nat
  fin : List Nat
  fout : Nat
  ins : List Nat
  out : Nat
  count : Nat
  map : List (Nat × Nat)
  poison : Bool := false
  accepted : Bool := false
  tiles : List Nat := []
  regions : List Nat := []
  flags : BitVec 5 := 0
  notices : List Nat := []
  deriving DecidableEq, Repr

/-- A pre-empted or gang-stopped launch: its cores' saved images in member order with the core each was saved from, and where each
image lies (`none`: that core's shadow slot; `some r`: the share of rank r) (R195, R196), with the count at which the share's bytes were
drawn; whether its save goes on, whether its pool lies in the shares (R393), whether it may be resumed, and the tick its save completed
at. -/
structure Saved where
  launch : Launch
  images : List (Nat × Core)
  places : List (Option Nat)
  seeds : List Nat := []
  at_ : Nat
  saving : Bool
  gang : Bool
  ready : Bool
  deriving DecidableEq, Repr

/-- A gang record (R394). -/
structure Gang where
  state : Nat := 0
  index : Nat := 0
  queue : Nat := 0
  sid : Nat := 0
  more : Bool := false
  ngr : Nat := 0
  granules : List Word64 := []
  deriving DecidableEq, Repr

/-- A launch queue as the scheduler keeps it (R178, R181, R188): the descriptor, the writes that are held, by VA, and the tick at which
the record at HEAD became eligible. -/
structure LQueue where
  lqd : Word64 := 0
  held : List (Nat × Word64) := []
  since : Option Nat := none
  deriving DecidableEq, Repr

/-- A reliability event (R402). -/
structure RelEvent where
  off : Nat
  die : Nat
  core : Nat
  pa : Nat
  cyc : Word64
  deriving DecidableEq, Repr

/-- A RECORD command that waits for its launch (R404). -/
structure RecordReq where
  part : Nat
  queue : Nat
  index : Nat
  arg : Nat
  regions : List (Nat × Nat)
  deriving DecidableEq, Repr

/-- A consistent cut in progress (R409, R410). -/
structure DumpState where
  pool : Bool
  addr : Nat
  open_ : List Nat
  counts : Tab Nat
  entries : Nat
  failed : Bool
  deriving DecidableEq, Repr

/-- The whole device. -/
structure State where
  /-- Model's own: the next step acts here, as `Here` says (log 2). -/
  here : Here
  /-- Model's own: the moves to come (log 2). -/
  sched : List Move
  /-- Model's own: the agent whose turn it is (log 2). -/
  curCore : Nat
  cur : Agent
  /-- Model's own: the counter that free values are drawn at (log 7). -/
  fresh : Nat
  /-- The convoy in flight. -/
  cv : Convoy
  cores : Tab Core
  arrays : List Host.Cell
  arrPoison : List Nat
  slices : Tab SliceLine
  setlc : Tab Word32
  iwc : Tab (BitVec 16)
  settles : List Settle
  renews : List Renew
  banks : List BankCmd
  vrst : List VrstPkt
  span : Tab Word64
  spanErr : Tab Nat
  spidx : Word64
  spBusy : Bool
  spDrop : Bool
  spPend : Option (Nat × Word64)
  ctxd : Tab Word64
  tlbinv : Word64
  tlbBusy : Bool
  /-- Model's own (log 54): the bytes, by core and line, that scalar stores made through an entry the invalidation dropped and that have
  still to reach their home slice; and the devices that such stores were posted to. -/
  tlbWaits : List (Nat × Nat × LineMask)
  tlbPosts : List Nat
  tlbDrop : Bool
  qmap : Tab Word64
  qmapHeld : Tab Word64
  pcfg : Tab Word64
  lq : Tab LQueue
  launches : List Launch
  /-- Model's own (log 24): the partition, queue and index of each launch admitted, up to where HEAD stood when its queue was last enabled. -/
  admitted : List (Nat × Nat × Nat)
  saved : List Saved
  lastq : Tab Nat
  tick : Nat
  cgda : Tab Word64
  cgdb : Tab Word64
  collCount : Tab Nat
  collHalt : List Nat
  mcmd : Word64
  marg : Word64
  mbusy : Bool
  mdrop : Bool
  mdone : Bool
  mresult : BitVec 8
  msaves : List (Nat × Nat × Nat)
  syncs : Word64
  records : List RecordReq
  dump : Option DumpState
  /-- Flits that wait behind the marker of their link for the debugger (R409). -/
  flits : List Move
  gangs : Tab Gang
  rel : Tab Word64
  events : List RelEvent
  latewb : Tab Word32
  cyc : Tab Word64
  clock : Nat
  devnum : BitVec 11
  share : Nat
  ports : BitVec 18
  boot : BitVec 2
  fw : Word64
  /-- The accesses posted to a device that it has still to answer, by core and device: each one's agent and VA (R14, R118). -/
  posted : Tab (List (Nat × Nat))
  /-- Prefetches that are issued and not yet done (R72), by core and line; core 1024 stands for the home slice's prefetcher. -/
  prefs : List (Nat × Nat)
  markers : Nat
  deriving DecidableEq, Repr

/-- The device just after a verified start-up: nothing launched, every register at the value the spec gives, or at the value
that notes/assumptions/3.md and 5.md name. -/
def State.reset : State where
  here := {}
  sched := []
  curCore := 0
  cur := .ct
  fresh := 0
  cv := {}
  cores := []
  arrays := []
  arrPoison := []
  slices := []
  setlc := []
  iwc := []
  settles := []
  renews := []
  banks := []
  vrst := []
  span := []
  spanErr := []
  spidx := 0
  spBusy := false
  spDrop := false
  spPend := none
  ctxd := []
  tlbinv := 0
  tlbBusy := false
  tlbWaits := []
  tlbPosts := []
  tlbDrop := false
  qmap := []
  qmapHeld := []
  pcfg := []
  lq := []
  launches := []
  admitted := []
  saved := []
  lastq := []
  tick := 0
  cgda := []
  cgdb := []
  collCount := []
  collHalt := []
  mcmd := 0
  marg := 0
  mbusy := false
  mdrop := false
  mdone := false
  mresult := 0
  msaves := []
  syncs := 0
  records := []
  dump := none
  flits := []
  gangs := []
  rel := []
  events := []
  latewb := []
  cyc := []
  clock := 1100
  devnum := 0
  share := 16
  ports := BitVec.allOnes 18
  boot := 0
  fw := 0
  posted := []
  prefs := []
  markers := 0

end Sys2Proof.Machine
end

