-- ==== Sys2Proof/Machine/Num.lean ====
section
/-! DEFINITION. Numbers: the float formats of R223 and R225, exact values, and `Round(fmt, x, rm)` of R234 and R235 with the
flags of R237. Exact values are rationals, square roots of rationals, or irrational values given by an enclosure (log 12). -/

namespace Sys2Proof.Machine

/-! ## Flags, as FST and QST number them (R236, R342) -/

def fNX : Nat := 1
def fUF : Nat := 2
def fOF : Nat := 4
def fDZ : Nat := 8
def fNV : Nat := 16
def fSAT : Nat := 32

/-! ## Formats -/

/-- How a float format encodes what is not finite (R225). -/
inductive NanKind where
  | ieee | ones | none
  deriving DecidableEq, Repr

/-- A float format: exponent bits, fraction bits, bias, its special values, and its canonical NaN (R225, R232). -/
structure Fmt where
  eb : Nat
  fb : Nat
  bias : Nat
  kind : NanKind
  signed : Bool
  qnan : Nat
  deriving DecidableEq, Repr

def fmtF32 : Fmt := ⟨8, 23, 127, .ieee, true, 0x7FC00000⟩
def fmtBF16 : Fmt := ⟨8, 7, 127, .ieee, true, 0x7FC0⟩
def fmtF16 : Fmt := ⟨5, 10, 15, .ieee, true, 0x7E00⟩
def fmtE4M3 : Fmt := ⟨4, 3, 7, .ones, true, 0x7F⟩
def fmtE5M2 : Fmt := ⟨5, 2, 15, .ieee, true, 0x7E⟩
def fmtE3M2 : Fmt := ⟨3, 2, 3, .none, true, 0⟩
def fmtE2M3 : Fmt := ⟨2, 3, 1, .none, true, 0⟩
def fmtE2M1 : Fmt := ⟨2, 1, 1, .none, true, 0⟩
def fmtU5M3 : Fmt := ⟨5, 3, 15, .ones, false, 0xFF⟩
/-- The control thread's double precision (R144). -/
def fmtF64 : Fmt := ⟨11, 52, 1023, .ieee, true, 0x7FF8000000000000⟩

def Fmt.width (f : Fmt) : Nat := f.eb + f.fb + (if f.signed then 1 else 0)

/-- The float format of a format code 0 to 7 (R223). -/
def fmtOf (code : Nat) : Option Fmt :=
  match code with
  | 0 => some fmtF32 | 1 => some fmtBF16 | 2 => some fmtF16 | 3 => some fmtE4M3 | 4 => some fmtE5M2
  | 5 => some fmtE3M2 | 6 => some fmtE2M3 | 7 => some fmtE2M1 | _ => none

def ftFmt : FType → Fmt
  | .f32 => fmtF32 | .bf16 => fmtBF16 | .f16 => fmtF16

/-- The value an encoding holds (R225). -/
def Fmt.read (f : Fmt) (x : Nat) : FVal :=
  let frac := bits x 0 f.fb
  let ex := bits x f.fb f.eb
  let neg := f.signed && bit x (f.eb + f.fb)
  let top := 2 ^ f.eb - 1
  let fin : FVal := if ex = 0 then .fin neg frac (1 - (f.bias : Int) - f.fb)
    else .fin neg (frac + 2 ^ f.fb) ((ex : Int) - f.bias - f.fb)
  match f.kind with
  | .ieee =>
    if ex = top then (if frac = 0 then .inf neg else .nan (f.fb != 2 && !bit frac (f.fb - 1))) else fin
  | .ones => if ex = top ∧ frac = 2 ^ f.fb - 1 then .nan false else fin
  | .none => fin

/-- The largest finite significand and its exponent (R225). -/
def Fmt.maxSig (f : Fmt) : Nat :=
  match f.kind with
  | .ones => 2 ^ (f.fb + 1) - 2
  | _ => 2 ^ (f.fb + 1) - 1

def Fmt.maxExp (f : Fmt) : Nat :=
  match f.kind with
  | .ieee => 2 ^ f.eb - 2
  | _ => 2 ^ f.eb - 1

def Fmt.signBit (f : Fmt) (neg : Bool) : Nat := if f.signed && neg then 2 ^ (f.eb + f.fb) else 0

/-- The encoding of ± the largest finite value, and of ± infinity. -/
def Fmt.maxFin (f : Fmt) (neg : Bool) : Nat := f.signBit neg + f.maxExp * 2 ^ f.fb + (f.maxSig - 2 ^ f.fb)
def Fmt.infBits (f : Fmt) (neg : Bool) : Nat := f.signBit neg + (2 ^ f.eb - 1) * 2 ^ f.fb

/-! ## Exact magnitudes -/

/-- The magnitude of a nonzero exact value: n ÷ d; √(n ÷ d); or an irrational value strictly between n × 2^−p and (n + 1) × 2^−p. -/
inductive Mag where
  | rat (n d : Nat)
  | root (n d : Nat)
  | encl (n : Nat) (p : Nat)
  deriving DecidableEq, Repr

/-- The integer square root, by bits from `2^k` down. -/
def isqrtGo (x : Nat) : Nat → Nat → Nat
  | 0, r => r
  | k + 1, r => let c := r + 2 ^ k; isqrtGo x k (if c * c ≤ x then c else r)

def isqrt (x : Nat) : Nat := isqrtGo x (Nat.log2 x / 2 + 1) 0

/-- floor(n × 2^sh ÷ d), and whether something is left over. -/
def scaleDiv (n d : Nat) (sh : Int) : Nat × Bool :=
  let a := n * 2 ^ sh.toNat
  let b := d * 2 ^ (-sh).toNat
  (a / b, a % b != 0)

/-- floor(x × 2^sh), and whether x × 2^sh is not an integer. -/
def Mag.scale (x : Mag) (sh : Int) : Nat × Bool :=
  match x with
  | .rat n d => scaleDiv n d sh
  | .root n d =>
    let (q, r) := scaleDiv n d (2 * sh)
    let t := isqrt q
    (t, r || t * t != q)
  | .encl n p => ((scaleDiv n 1 (sh - p)).1, true)

/-- floor(log2(n ÷ d)). -/
def log2Div (n d : Nat) : Int :=
  let e : Int := (Nat.log2 n : Int) - Nat.log2 d
  if (scaleDiv n d (-e)).1 = 0 then e - 1 else e

def Mag.log2 : Mag → Int
  | .rat n d => log2Div n d
  | .root n d => (log2Div n d).fdiv 2
  | .encl n p => (Nat.log2 n : Int) - p

/-- m × 2^e as a magnitude. -/
def magOf (m : Nat) (e : Int) : Mag := .rat (m * 2 ^ e.toNat) (2 ^ (-e).toNat)

/-! ## Rounding (R234, R235) -/

/-- Whether the significand goes up: `a` is the floor, `rem` the next 17 bits, `more` whether anything lies below them. -/
def goesUp (rm : RMode) (neg : Bool) (a rem : Nat) (more : Bool) (u w : Nat) : Bool :=
  let half := 2 ^ 16
  match rm with
  | .rne => decide (half < rem) || (rem == half && (more || a % 2 == 1))
  | .rtz => false
  | .rdn => neg && (rem != 0 || more)
  | .rup => !neg && (rem != 0 || more)
  | .rna => decide (half ≤ rem)
  | .sto => decide (2 ^ w ≤ rem / 2 ^ (17 - w) + u % 2 ^ w)

/-- The significand at ulp 2^q, and whether it is inexact. -/
def roundAt (x : Mag) (q : Int) (rm : RMode) (neg : Bool) (u w : Nat) : Nat × Bool :=
  let (t, more) := x.scale (17 - q)
  let a := t / 2 ^ 17
  let rem := t % 2 ^ 17
  ((if goesUp rm neg a rem more u w then a + 1 else a), rem != 0 || more)

/-- An encoding and the flags it raises. -/
abbrev Res := Nat × Nat

/-- What an overflow writes (R233, R234). -/
def Fmt.overflow (f : Fmt) (rm : RMode) (neg : Bool) : Nat :=
  match f.kind with
  | .ieee =>
    match rm with
    | .rtz => f.maxFin neg
    | .rdn => if neg then f.infBits neg else f.maxFin neg
    | .rup => if neg then f.maxFin neg else f.infBits neg
    | _ => f.infBits neg
  | _ => f.maxFin neg

/-- Round(fmt, ±x, rm) of a nonzero exact magnitude, with `u` the random bits of STO. -/
def Fmt.round (f : Fmt) (neg : Bool) (x : Mag) (rm : RMode) (u : Nat) : Res :=
  let w := min f.width 16
  let e := x.log2
  let emin : Int := 1 - (f.bias : Int)
  let q := max e emin - f.fb
  let qmin := emin - f.fb
  let (sig, inexact) := roundAt x q rm neg u w
  let qmax : Int := (f.maxExp : Int) - f.bias - f.fb
  let big := decide (qmax < q) || (q == qmax && decide (f.maxSig < sig))
  if big then (f.overflow rm neg, fOF + fNX)
  else
    let (sig', _) := roundAt x (e - f.fb) rm neg u w
    let tiny := decide (e < emin) && !(e == emin - 1 && decide (2 ^ (f.fb + 1) ≤ sig'))
    (f.signBit neg + (q - qmin).toNat * 2 ^ f.fb + sig, (if inexact then fNX else 0) + (if inexact && tiny then fUF else 0))

/-- An exact result before rounding, with the flags that finding it raised. -/
inductive Exact where
  | nan
  | inf (neg : Bool)
  | zero (neg : Bool)
  | mag (neg : Bool) (x : Mag)
  deriving DecidableEq, Repr

/-- An exact result into a float format (R232 to R235). -/
def Fmt.put (f : Fmt) (x : Exact) (rm : RMode) (u : Nat) : Res :=
  match x with
  | .nan => match f.kind with
    | .none => (0, fNV)
    | _ => (f.qnan, 0)
  | .inf neg => match f.kind with
    | .ieee => (f.infBits neg, 0)
    | _ => (f.maxFin neg, fNV)
  | .zero neg => (f.signBit neg, 0)
  | .mag neg m => f.round neg m rm u

/-- An exact finite value: a signed integer times 2^e; zero takes the sign given. -/
def exactOf (v : Int) (e : Int) (zneg : Bool) : Exact :=
  if v = 0 then .zero zneg else .mag (decide (v < 0)) (magOf v.natAbs e)

def FVal.exact : FVal → Exact
  | .nan _ => .nan
  | .inf n => .inf n
  | .fin n m e => if m = 0 then .zero n else .mag n (magOf m e)

/-- NV for a signalling NaN among the operands (R232). -/
def sigNV (xs : List FVal) : Nat := if xs.any (fun x => x == .nan true) then fNV else 0

def isNan : FVal → Bool
  | .nan _ => true
  | _ => false

def sgn (neg : Bool) (m : Nat) : Int := if neg then -(m : Int) else m

/-- The sum of two signed dyadic values, as a signed integer and exponent. -/
def addDy (a : Int) (ea : Int) (b : Int) (eb : Int) : Int × Int :=
  let e := min ea eb
  (a * 2 ^ (ea - e).toNat + b * 2 ^ (eb - e).toNat, e)

/-- a + b (R264); the sign of an exact zero sum is IEEE 754-2019's (R234). -/
def exAdd (a b : FVal) (rm : RMode) : Exact × Nat :=
  match a, b with
  | .nan _, _ => (.nan, sigNV [a, b])
  | _, .nan _ => (.nan, sigNV [a, b])
  | .inf x, .inf y => if x = y then (.inf x, 0) else (.nan, fNV)
  | .inf x, _ => (.inf x, 0)
  | _, .inf y => (.inf y, 0)
  | .fin na ma ea, .fin nb mb eb =>
    if ma = 0 ∧ mb = 0 then (.zero (if na = nb then na else rm == .rdn), 0)
    else let (v, e) := addDy (sgn na ma) ea (sgn nb mb) eb; (exactOf v e (rm == .rdn), 0)

def FVal.neg : FVal → FVal
  | .nan s => .nan s
  | .inf n => .inf (!n)
  | .fin n m e => .fin (!n) m e

def FVal.abs : FVal → FVal
  | .nan s => .nan s
  | .inf _ => .inf false
  | .fin _ m e => .fin false m e

/-- a × b (R264). -/
def exMul (a b : FVal) : Exact × Nat :=
  match a, b with
  | .nan _, _ => (.nan, sigNV [a, b])
  | _, .nan _ => (.nan, sigNV [a, b])
  | .inf x, .inf y => (.inf (x != y), 0)
  | .inf x, .fin y m _ => if m = 0 then (.nan, fNV) else (.inf (x != y), 0)
  | .fin x m _, .inf y => if m = 0 then (.nan, fNV) else (.inf (x != y), 0)
  | .fin na ma ea, .fin nb mb eb =>
    if ma = 0 ∨ mb = 0 then (.zero (na != nb), 0) else (.mag (na != nb) (magOf (ma * mb) (ea + eb)), 0)

/-- A ratio of dyadic values as a magnitude. -/
def magDiv (ma : Nat) (ea : Int) (mb : Nat) (eb : Int) : Mag :=
  let d := ea - eb
  .rat (ma * 2 ^ d.toNat) (mb * 2 ^ (-d).toNat)

/-- a ÷ b (R264). -/
def exDiv (a b : FVal) : Exact × Nat :=
  match a, b with
  | .nan _, _ => (.nan, sigNV [a, b])
  | _, .nan _ => (.nan, sigNV [a, b])
  | .inf _, .inf _ => (.nan, fNV)
  | .inf x, .fin y _ _ => (.inf (x != y), 0)
  | .fin x _ _, .inf y => (.zero (x != y), 0)
  | .fin na ma ea, .fin nb mb eb =>
    if mb = 0 then (if ma = 0 then (.nan, fNV) else (.inf (na != nb), fDZ))
    else if ma = 0 then (.zero (na != nb), 0)
    else (.mag (na != nb) (magDiv ma ea mb eb), 0)

/-- a × b + c with one rounding (R264). NV for 0 × ∞ whatever c holds. -/
def exFma (a b c : FVal) (rm : RMode) : Exact × Nat :=
  let zi := match a, b with
    | .inf _, .fin _ m _ => m == 0
    | .fin _ m _, .inf _ => m == 0
    | _, _ => false
  if zi then (.nan, fNV)
  else if isNan a || isNan b || isNan c then (.nan, sigNV [a, b, c])
  else
    match a, b, c with
    | .fin na ma ea, .fin nb mb eb, .fin nc mc ec =>
      if (ma = 0 ∨ mb = 0) ∧ mc = 0 then (.zero (if (na != nb) = nc then nc else rm == .rdn), 0)
      else let (v, e) := addDy (sgn (na != nb) (ma * mb)) (ea + eb) (sgn nc mc) ec; (exactOf v e (rm == .rdn), 0)
    | .fin _ _ _, .fin _ _ _, c => (c.exact, 0)
    | a, b, c =>
      let pn := match a, b with
        | .inf x, .inf y => x != y
        | .inf x, .fin y _ _ => x != y
        | .fin x _ _, .inf y => x != y
        | _, _ => false
      match c with
      | .inf z => if z = pn then (.inf pn, 0) else (.nan, fNV)
      | _ => (.inf pn, 0)

/-- Whether a < b, neither being NaN; −0 counts as below +0 when `z` is set. -/
def fLess (z : Bool) (a b : FVal) : Bool :=
  match a, b with
  | .nan _, _ => false
  | _, .nan _ => false
  | .inf x, .inf y => x && !y
  | .inf x, _ => x
  | _, .inf y => !y
  | .fin na ma ea, .fin nb mb eb =>
    if ma = 0 ∧ mb = 0 then z && na && !nb
    else decide ((addDy (sgn na ma) ea (-(sgn nb mb)) eb).1 < 0)

def fEqual (a b : FVal) : Bool := !isNan a && !isNan b && !fLess false a b && !fLess false b a

/-- vfmin and vfmax (R265): the non-NaN operand, −0 below +0. -/
def exMinMax (max : Bool) (a b : FVal) : Exact × Nat :=
  let nv := sigNV [a, b]
  match isNan a, isNan b with
  | true, true => (.nan, nv)
  | true, false => (b.exact, nv)
  | false, true => (a.exact, nv)
  | false, false => ((if fLess true a b != max then a else b).exact, nv)

/-! ## The functions of R267 -/

def exSqrt (a : FVal) : Exact × Nat :=
  match a with
  | .nan _ => (.nan, sigNV [a])
  | .inf n => if n then (.nan, fNV) else (.inf false, 0)
  | .fin n m e =>
    if m = 0 then (.zero n, 0) else if n then (.nan, fNV)
    else (.mag false (.root (m * 2 ^ e.toNat) (2 ^ (-e).toNat)), 0)

def exRcp (a : FVal) : Exact × Nat :=
  match a with
  | .nan _ => (.nan, sigNV [a])
  | .inf n => (.zero n, 0)
  | .fin n m e => if m = 0 then (.inf n, fDZ) else (.mag n (magDiv 1 0 m e), 0)

def exRsq (a : FVal) : Exact × Nat :=
  match a with
  | .nan _ => (.nan, sigNV [a])
  | .inf n => if n then (.nan, fNV) else (.zero false, 0)
  | .fin n m e =>
    if m = 0 then (.inf n, fDZ) else if n then (.nan, fNV)
    else (.mag false (.root (2 ^ (-e).toNat) (m * 2 ^ e.toNat)), 0)

/-- The working precision of the enclosures, in bits after the point (log 12). -/
def prec : Nat := 640

/-- Σ y^k ÷ k! in fixed point, by fuel; `t` is the term. -/
def expGo (y : Nat) : Nat → Nat → Nat → Nat → Nat
  | 0, _, _, acc => acc
  | fuel + 1, k, t, acc => let t' := t * y / 2 ^ prec / k; expGo y fuel (k + 1) t' (acc + t')

/-- e^y for a fixed-point y in [0, 1). -/
def expFix (y : Nat) : Nat := expGo y 140 1 (2 ^ prec) (2 ^ prec)

/-- Σ z^(2j+1) ÷ (2j + 1) in fixed point. -/
def atanhGo (z2 : Nat) : Nat → Nat → Nat → Nat → Nat
  | 0, _, _, acc => acc
  | fuel + 1, j, t, acc => atanhGo z2 fuel (j + 2) (t * z2 / 2 ^ prec) (acc + t / j)

/-- ln(a ÷ b) in fixed point, for 1 ≤ a ÷ b < 2. -/
def lnFix (a b : Nat) : Nat :=
  let z := (a - b) * 2 ^ prec / (a + b)
  2 * atanhGo (z * z / 2 ^ prec) 220 1 z 0

/-- ln 2 in fixed point. -/
def ln2Fix : Nat := 2 * atanhGo (2 ^ prec / 9) 220 1 (2 ^ prec / 3) 0

/-- The digits of an enclosure that are kept, below the errors of the series. -/
def keep : Nat := 560

/-- e^y for y = ±m × 2^e with |y| below 2^10, as an enclosure: the value is n × 2^−p, with n short of the working error. -/
def expEncl (neg : Bool) (m : Nat) (e : Int) : Nat × Int :=
  let y := (scaleDiv m 1 (e + prec)).1
  let k := y / ln2Fix
  let r := y % ln2Fix
  if neg then
    if r = 0 then (expFix 0, (prec : Int) + k)
    else (expFix (ln2Fix - r), (prec : Int) + k + 1)
  else (expFix r, (prec : Int) - k)

/-- n × 2^−p as an enclosing magnitude at `keep` more bits than its leading one. -/
def enclOf (n : Nat) (p : Int) : Mag :=
  let cut := Nat.log2 n - keep
  let n' := n / 2 ^ cut
  let p' := p - cut
  .encl (n' * 2 ^ (-p').toNat) p'.toNat

/-- 2^a. -/
def exExp2 (a : FVal) : Exact × Nat :=
  match a with
  | .nan _ => (.nan, sigNV [a])
  | .inf n => if n then (.zero false, 0) else (.inf false, 0)
  | .fin n m e =>
    let (fl, frac) := scaleDiv m 1 e
    if 2000 ≤ fl then (.mag false (if n then .encl 1 2000 else .rat (2 ^ 2000) 1), 0)
    else if !frac then (.mag false (if n then .rat 1 (2 ^ fl) else .rat (2 ^ fl) 1), 0)
    else
      let f := (scaleDiv m 1 (e + prec)).1 % 2 ^ prec
      let f' := if n then 2 ^ prec - f else f
      let v := expFix (f' * ln2Fix / 2 ^ prec)
      (.mag false (enclOf v ((prec : Int) + (if n then (fl : Int) + 1 else -(fl : Int)))), 0)

/-- log2 a. -/
def exLog2 (a : FVal) : Exact × Nat :=
  match a with
  | .nan _ => (.nan, sigNV [a])
  | .inf n => if n then (.nan, fNV) else (.inf false, 0)
  | .fin n m e =>
    if m = 0 then (.inf true, fDZ) else if n then (.nan, fNV)
    else
      let l := Nat.log2 m
      let k : Int := e + l
      if m = 2 ^ l then (exactOf k 0 false, 0)
      else
        let f := lnFix m (2 ^ l) * 2 ^ prec / ln2Fix
        let v : Int := k * 2 ^ prec + f
        if v < 0 then (.mag true (enclOf v.natAbs prec), 0) else (.mag false (enclOf v.natAbs prec), 0)

/-- tanh a: for small a the value lies just below |a|, for large just below 1. -/
def exTanh (a : FVal) : Exact × Nat :=
  match a with
  | .nan _ => (.nan, sigNV [a])
  | .inf n => (.mag n (.rat 1 1), 0)
  | .fin n m e =>
    if m = 0 then (.zero n, 0)
    else
      let k := (magOf m e).log2
      if k < -80 then
        let p : Int := 140 - k
        (.mag n (.encl ((scaleDiv m 1 (e + p)).1 - 1) p.toNat), 0)
      else if 8 ≤ k then (.mag n (.encl (2 ^ keep - 1) keep), 0)
      else
        let (v, p) := expEncl false m (e + 1)
        let one := 2 ^ p.toNat
        let v := v * 2 ^ (-p).toNat
        (.mag n (enclOf ((v - one) * 2 ^ prec / (v + one)) prec), 0)

/-- 1 ÷ (1 + e^−a). -/
def exSigm (a : FVal) : Exact × Nat :=
  match a with
  | .nan _ => (.nan, sigNV [a])
  | .inf n => if n then (.zero false, 0) else (.mag false (.rat 1 1), 0)
  | .fin n m e =>
    if m = 0 then (.mag false (.rat 1 2), 0)
    else
      let k := (magOf m e).log2
      if 8 ≤ k then (.mag false (if n then .encl 1 1000 else .encl (2 ^ keep - 1) keep), 0)
      else
        let (v, p) := expEncl n m e
        let one := 2 ^ p.toNat
        let v := v * 2 ^ (-p).toNat
        (.mag false (enclOf (v * 2 ^ (2 * prec) / (v + one)) (2 * prec)), 0)

/-- a × 2^n (R268). -/
def exScale (a : FVal) (n : Int) : Exact × Nat :=
  match a with
  | .fin s m e => if m = 0 then (.zero s, 0) else (.mag s (magOf m (max (-5000) (min 5000 (e + n)))), 0)
  | a => (a.exact, sigNV [a])

/-- The class word of R266. -/
def classOf (f : Fmt) (x : Nat) : Nat :=
  match f.read x with
  | .nan s => if s then 2 ^ 8 else 2 ^ 9
  | .inf n => if n then 2 ^ 0 else 2 ^ 7
  | .fin n m _ =>
    if m = 0 then (if n then 2 ^ 3 else 2 ^ 4)
    else if m < 2 ^ f.fb then (if n then 2 ^ 2 else 2 ^ 5)
    else (if n then 2 ^ 1 else 2 ^ 6)

/-! ## Integers -/

/-- An exact value rounded to an integer (R270): none for NaN and infinities. -/
def roundInt (x : Exact) (rm : RMode) (u w : Nat) : Option (Int × Bool) :=
  match x with
  | .zero _ => some (0, false)
  | .mag neg m => let (a, i) := roundAt m 0 rm neg u w; some (sgn neg a, i)
  | _ => none

/-- An exact value into an integer range, as R233 and R270 state: the encoding's value and flags. -/
def putInt (x : Exact) (lo hi : Int) (rm : RMode) (u w : Nat) (sat : Bool) : Int × Nat :=
  let out (neg : Bool) : Int × Nat := if sat then ((if neg then lo else hi), fNV + fSAT) else (0, fNV)
  match x with
  | .nan => (0, fNV)
  | .inf neg => out neg
  | _ =>
    match roundInt x rm u w with
    | none => (0, fNV)
    | some (v, i) => if v < lo then out true else if hi < v then out false else (v, if i then fNX else 0)

end Sys2Proof.Machine
end

