-- ==== Sys2Proof/Machine/Mem.lean ====
section
/-! DEFINITION. Memory: the windows of R9 and the home of a PA (R13), the settled image, the home slices (R66 to R68, R90 to R92),
the L1 (R60 to R65), and translation through spans (R17 to R22) and pages (R15, R16, R23 to R27, R37). -/

namespace Sys2Proof.Machine

/-! ## Cores and tables -/

def State.core (s : State) (c : Nat) : Core := tget {} s.cores c
def State.setCore (s : State) (c : Nat) (x : Core) : State := { s with cores := tset {} s.cores c x }
def State.modCore (s : State) (c : Nat) (f : Core → Core) : State := s.setCore c (f (s.core c))
def Core.mt (c : Core) (i : Nat) : Mt := tget {} c.mts i
def Core.setMt (c : Core) (i : Nat) (m : Mt) : Core := { c with mts := tset {} c.mts i m }
def Core.queue (c : Core) (q : Nat) : Queue := tget {} c.queues q
def Core.setQueue (c : Core) (q : Nat) (x : Queue) : Core := { c with queues := tset {} c.queues q x }

/-- The free value at the counter, and the counter advanced (log 7). -/
def State.draw (s : State) : Word64 × State := (Config.freeWord s.fresh, { s with fresh := s.fresh + 1 })

/-- The die of a core (R144). -/
def dieOf (core : Nat) : Nat := core / 64

/-! ## Windows (R9, R10, R13, R14) -/

def giB : Nat := 2 ^ 30
def sramBase : Nat := 0x010000000000
def sramSize : Nat := 2176 * 2 ^ 20
def devBase : Nat := 0x0F0000000000

/-- The window a PA lies in. -/
inductive Window where
  | inter | local_ (die : Nat) | sram (die : Nat) | device | none
  deriving DecidableEq, Repr

/-- The window of a PA and whether it lies within the window's size (R9, R14). -/
def windowOf (s : State) (pa : Nat) : Window :=
  if pa < 0x008000000000 then (if pa < 8 * s.share * giB then .inter else .none)
  else if pa < sramBase then
    let d := (pa - 0x008000000000) / 0x001000000000
    if (pa - 0x008000000000) % 0x001000000000 < (64 - s.share) * giB then .local_ d else .none
  else if pa < sramBase + 8 * 0x000100000000 then
    let d := (pa - sramBase) / 0x000100000000
    if (pa - sramBase) % 0x000100000000 < sramSize then .sram d else .none
  else if devBase ≤ pa ∧ pa < devBase + 2 ^ 40 then .device
  else .none

/-- The home die of a PA (R13). -/
def homeDie (s : State) (pa : Nat) : Nat :=
  match windowOf s pa with
  | .inter => Nat.xor (Nat.xor (bits pa 12 3) (bits pa 21 3)) (bits pa 30 3)
  | .local_ d => d
  | .sram d => d
  | .device => min 7 ((pa - devBase) / 0x01000000)
  | .none => 0

/-- The offset of an interleaved byte within its home die's share (R13). -/
def dieOffset (pa : Nat) : Nat := pa / 32768 * 4096 + pa % 4096

/-- The home slice of a PA within its die (R13). -/
def homeSlice (pa : Nat) : Nat := Nat.xor (bits pa 7 5) (bits pa 15 5)

/-- A slice's number on the device. -/
def sliceNo (s : State) (pa : Nat) : Nat := homeDie s pa * 32 + homeSlice pa

/-- The base of the window a placement field names, and its size; none where the value is reserved (R9). -/
def plWindow (s : State) (pl : Nat) : Option (Nat × Nat) :=
  if pl = 0 then some (0, 8 * s.share * giB)
  else if 8 ≤ pl ∧ pl < 16 then some (0x008000000000 + (pl - 8) * 0x001000000000, (64 - s.share) * giB)
  else if 16 ≤ pl ∧ pl < 24 then some (sramBase + (pl - 16) * 0x000100000000, sramSize)
  else if pl = 24 then some (devBase, 2 ^ 40)
  else none

/-- The settle region of a PA (R73). -/
def regionOf (pa : Nat) : Nat := pa / 65536

def isSram (s : State) (pa : Nat) : Bool :=
  match windowOf s pa with
  | .sram _ => true
  | _ => false

/-! ## The settled image (R69, R74) -/

def State.arrByte (s : State) (pa : Nat) : Byte := tget 0 s.arrays pa

/-- The canonical form of a memory: addresses strictly rising, no byte listed that equals an unlisted one, which reads 0 (log 4). -/
def Memory.wf (m : List Host.Cell) : Bool := twf (0 : Byte) m

/-- The canonical form of the settled image. -/
def State.memWf (s : State) : Bool := Memory.wf s.arrays

/-- 128 bytes of the settled image. -/
def State.arrLine (s : State) (line : Nat) : LineData :=
  BitVec.ofNat 1024 (leNat (trange 0 s.arrays (128 * line) 128))

/-- A write of the bytes of `mask` of a line to the arrays (R74); a sector written whole loses its poison (R391). -/
def State.arrWrite (s : State) (line : Nat) (mask : LineMask) (data : LineData) : State :=
  let arrays := (upto 128).foldl
    (fun m i => if mask.getLsbD i then tset 0 m (128 * line + i) (data.extractLsb' (8 * i) 8) else m) s.arrays
  let pz := s.arrPoison.filter (fun sec =>
    !(sec / 4 == line && mask.extractLsb' (32 * (sec % 4)) 32 == BitVec.allOnes 32))
  { s with arrays := arrays, arrPoison := pz }

/-! ## The counts (R76, R88) -/

/-- The in-place write count in force at a place: the count home's, less the notices still on the way to it. Cores are
places 0 to 511; slice k of die d is place 512 + 32d + k. -/
def countAt (s : State) (pa place : Nat) : Nat :=
  if isSram s pa then
    let late := (s.banks.filter (fun b => b.notices.contains place && b.regions.contains (regionOf pa))).length
    ((tget 0 s.iwc (regionOf pa)).toNat + 65536 - late % 65536) % 65536
  else 0

/-- The low four bits of the count in force at a place. -/
def snapAt (s : State) (pa place : Nat) : BitVec 4 := BitVec.ofNat 4 (countAt s pa place)

def slicePlace (s : State) (pa : Nat) : Nat := 512 + sliceNo s pa

/-! ## Home slices -/

def State.slice (s : State) (line : Nat) : SliceLine := tget {} s.slices line
def State.setSlice (s : State) (line : Nat) (x : SliceLine) : State := { s with slices := tset {} s.slices line x }

/-- The bytes of sectors `secs` of a line. -/
def sectorMask (secs : BitVec 4) : LineMask :=
  (upto 4).foldl (fun m k => if secs.getLsbD k then m ||| onesAt 128 (32 * k) 32 else m) 0

/-- The sectors that the bytes of a mask touch. -/
def sectorsOf (m : LineMask) : BitVec 4 :=
  (upto 4).foldl (fun a k => if m.extractLsb' (32 * k) 32 = 0 then a else a ||| onesAt 4 k 1) 0

/-- Bits of the bytes of a mask. -/
def lineBits (m : LineMask) : LineData := byteMask 1024 128 m.toNat

/-- The bytes of a line from `o`, `n` of them. -/
def lineSpan (o n : Nat) : LineMask := onesAt 128 o n

/-- A slice takes the sectors it does not hold from the arrays; a line it did not hold takes the count in force there as its
snapshot (R68, R90). The line has room. -/
def fillHeld (s : State) (line : Nat) (secs : BitVec 4) : State :=
  let l := s.slice line
  let want := sectorMask secs &&& ~~~l.held
  if want = 0 then s else
  let data := bvMerge l.data (s.arrLine line) (lineBits want)
  let pz := (upto 4).foldl (fun p k =>
    if secs.getLsbD k && s.arrPoison.contains (4 * line + k) && want.extractLsb' (32 * k) 32 != 0 then p ||| onesAt 4 k 1 else p) l.poison
  s.setSlice line { l with
    held := l.held ||| want
    data := data
    snap := if l.live then l.snap else snapAt s (128 * line) (slicePlace s (128 * line))
    poison := pz
    live := true }

/-- Another core's L1 drops the clean bytes of a line; its dirty bytes stay (R67). -/
def dropClean (l : L1Line) : L1Line := if l.dirty = 0 then {} else { l with valid := 0 }

/-- Every L1 but `ex`'s drops the clean bytes of a line, and reservations on the sectors of `mask` are lost
(R67, R110, R124). -/
def dropCopies (s : State) (line : Nat) (mask : LineMask) (ex : Option Nat) : State :=
  let secs := sectorsOf mask
  let f (c : Nat) (k : Core) : Core :=
    let k := if ex = some c then k else { k with l1 := tset {} k.l1 line (dropClean (tget {} k.l1 line)) }
    match k.ct.resv with
    | some sec => if sec / 4 = line && secs.getLsbD (sec % 4) then { k with ct := { k.ct with resv := none } } else k
    | none => k
  { s with cores := tmap {} f s.cores }

/-- Where a write that reaches a slice comes from, for its snapshot (R90). -/
inductive WriteKind where
  | writeBack (snap : BitVec 4) | other
  deriving DecidableEq, Repr

/-- A write is performed at its home slice: the bytes merge, every other L1 drops its clean copy (R67), and the line's snapshot
follows R90. `pz` are the sectors whose poison the write carries (R391). The line has room. -/
def writeHeld (s : State) (line : Nat) (mask : LineMask) (data : LineData) (kind : WriteKind) (pz : BitVec 4)
    (ex : Option Nat) : State :=
  if mask = 0 then s else
  let l := s.slice line
  let now := snapAt s (128 * line) (slicePlace s (128 * line))
  let snap := match kind with
    | .writeBack w => if l.live && l.snap != now then l.snap else w
    | .other => if l.live then l.snap else now
  let whole := (upto 4).foldl (fun a k =>
    if mask.extractLsb' (32 * k) 32 = BitVec.allOnes 32 then a ||| onesAt 4 k 1 else a) (0 : BitVec 4)
  let l' := { l with
    held := l.held ||| mask
    dirty := l.dirty ||| mask
    data := bvMerge l.data data (lineBits mask)
    snap := snap
    poison := (l.poison &&& ~~~whole) ||| (pz &&& sectorsOf mask)
    live := true }
  dropCopies (s.setSlice line l') line mask ex

/-- LATEWB counts a line whose snapshot is not the count in force at its slice (R92); its wrap sets LWSTICKY (R93). -/
def lateCount (s : State) (line : Nat) : State :=
  let l := s.slice line
  let pa := 128 * line
  if l.snap = snapAt s pa (slicePlace s pa) then s else
  let d := homeDie s pa
  let old := tget 0 s.latewb d
  let s := { s with latewb := tset 0 s.latewb d (old + 1) }
  if old = BitVec.allOnes 32 then
    { s with cores := tmap {} (fun c k => if dieOf c = d then { k with ictl := k.ictl ||| 2 } else k) s.cores }
  else s

/-- Bytes of a line written through to the arrays by the slice (R66, R92). -/
def sliceWriteOut (s : State) (line : Nat) (mask : LineMask) : State :=
  let l := s.slice line
  let m := l.dirty &&& mask
  if m = 0 then s else
  let s := (lateCount s line).arrWrite line m l.data
  let pz := (upto 4).foldl (fun p k => if (sectorsOf m &&& l.poison).getLsbD k then keyIn (4 * line + k) p else p) s.arrPoison
  ({ s with arrPoison := pz }).setSlice line { l with dirty := l.dirty &&& ~~~m }

/-! ## Pages and lines of a range -/

/-- The pieces of a byte range that lie in one line each: line, offset in it, length. -/
def pieces : Nat → Nat → Nat → List (Nat × Nat × Nat)
  | 0, _, _ => []
  | fuel + 1, pa, n =>
    if n = 0 then [] else
    let o := pa % 128
    let k := min n (128 - o)
    (pa / 128, o, k) :: pieces fuel (pa + k) (n - k)

/-! ## Remote-reduce packets at a home slice (R126, R127): any access to a line closes its batch -/

/-- One element is added at its home slice (R308); a NaN sum is canonical and no flag is kept. -/
def reduceAt (old : Nat) (bf : Bool) (x : FVal) (rm : RMode) (u : Nat) : Nat :=
  let f := if bf then fmtBF16 else fmtF32
  let (e, _) := exAdd (f.read old) x rm
  (f.put e rm u).1

/-- The sectors that a packet's elements lie in. -/
def VrstPkt.secs (p : VrstPkt) : BitVec 4 := p.elems.foldl (fun a e => a ||| onesAt 4 (e.1 / 32) 1) 0

/-- A core's L1 drops the clean bytes of sectors of a line, and keeps the line's other sectors. -/
def dropSectors (s : State) (core line : Nat) (secs : BitVec 4) : State :=
  s.setCore core (let c := s.core core
    let l := tget {} c.l1 line
    let l' := { l with valid := l.valid &&& ~~~secs }
    { c with l1 := tset {} c.l1 line (if l'.valid = 0 && l'.dirty = 0 then {} else l') })

/-- A packet's elements are added and written together, as one write of its line (R126): every other L1 than its sender's drops the line's
clean bytes (R67), and the sender's those of the covered sectors. The line has room. -/
def addHeld (s : State) (p : VrstPkt) : State :=
  let s := fillHeld s p.line p.secs
  let l := s.slice p.line
  let w := if p.bf then 2 else 4
  let (data, mask) := p.elems.foldl (fun (acc : LineData × LineMask) e =>
    let (o, x, u) := e
    let old := (acc.1.extractLsb' (8 * o) (8 * w)).toNat
    let new := reduceAt old p.bf x p.rm u
    (bvMerge acc.1 (BitVec.ofNat 1024 (new * 2 ^ (8 * o))) (onesAt 1024 (8 * o) (8 * w)), acc.2 ||| lineSpan o w)) (l.data, 0)
  dropSectors (writeHeld s p.line mask data .other l.poison (some p.core)) p.core p.line (sectorsOf mask)

/-- A stable order by sender identifier (R127). -/
def insertSid (p : VrstPkt) : List VrstPkt → List VrstPkt
  | [] => [p]
  | q :: l => if p.sid < q.sid then p :: q :: l else q :: insertSid p l

/-- Whether a packet waits in the batch of a line (R127). -/
def VrstPkt.inBatch (line : Nat) (p : VrstPkt) : Bool := p.dev.isNone && p.batch && p.line == line

/-- The packets of a line's batch in the order they are added in: by ascending sender, those of one sender as they were sent (R127). -/
def batchOf (s : State) (line : Nat) : List VrstPkt := (s.vrst.filter (VrstPkt.inBatch line)).foldl (fun l p => insertSid p l) []

/-- The batch of a line that has room closes (R127). -/
def closeHeld (s : State) (line : Nat) : State :=
  (batchOf s line).foldl addHeld { s with vrst := s.vrst.filter (fun p => !p.inBatch line) }

/-! ## Room at a home slice (R66, R80, R92) -/

/-- A sector of a settle arrives at the arrays: a write covering it whole clears its poison, and poisoned bytes poison it. -/
def arriveSector (s : State) (sec : Nat) (mask : BitVec 32) (data : BitVec 256) (pz : Bool) : State :=
  let line := sec / 4
  let sh := 32 * (sec % 4)
  let s := s.arrWrite line ((mask.setWidth 128) <<< sh) ((data.setWidth 1024) <<< (8 * sh))
  if pz then { s with arrPoison := keyIn sec s.arrPoison } else s

/-- The first write of a settle's bytes of a line that finds the line late counts in LATEWB, once for the settle and the line (R92). -/
def lateOnce (s : State) (n line : Nat) : State :=
  let st := s.settles.getD n ⟨0, 0, none, [], [], []⟩
  if st.late.contains line || (s.slice line).snap == snapAt s (128 * line) (slicePlace s (128 * line)) then s else
  let s := lateCount s line
  { s with settles := s.settles.modify n (fun st => { st with late := line :: st.late }) }

/-- Each settle that has sent bytes of a line and not written them is judged late for it. -/
def lateSettles (s : State) (line : Nat) : State :=
  (upto s.settles.length).foldl (fun s n =>
    if ((s.settles.getD n ⟨0, 0, none, [], [], []⟩).sectors.any (fun e => e.1 / 4 == line && e.2.1 != 0)) then lateOnce s n line else s) s

/-- Writes that settles have sent of a line's sectors are made, in ticket order; what then arrives carries no byte (R80). -/
def sectorsFirst (s : State) (line : Nat) : State :=
  let secs := (s.settles.map (fun st => st.sectors)).flatten.filter (fun e => e.1 / 4 == line)
  if secs.isEmpty then s else
  let s := secs.foldl (fun s e => arriveSector s e.1 e.2.1 e.2.2.1 e.2.2.2) (lateSettles s line)
  { s with settles := s.settles.map (fun st => { st with
      sectors := st.sectors.map (fun e => if e.1 / 4 = line then (e.1, 0, 0, false) else e) }) }

/-- A slice evicts a data line: its batch closes (R127), the writes that settles have sent of its sectors arrive first (R80), its dirty
bytes go to the arrays (R92), and the line is freed; L1 copies stay (R67). -/
def evictSlice (s : State) (line : Nat) : State :=
  (sliceWriteOut (sectorsFirst (closeHeld s line) line) line (BitVec.allOnes 128)).setSlice line {}

/-- The set of a line among the 2,048 of a slice's data store: 3 MiB in twelve ways of 128 bytes (R66, log 51). -/
def sliceSetOf (line : Nat) : Nat := Config.sliceSet line % 2048

/-- The lines that share a slice's data set with a line; none while the slice holds fewer lines than a set has ways
(log 51). -/
def sliceWays (s : State) (line : Nat) : List Nat :=
  let lines := (s.slices.map Prod.fst).filter (fun x => sliceNo s (128 * x) == sliceNo s (128 * line))
  if lines.length < 12 then [] else lines.filter (fun x => sliceSetOf x == sliceSetOf line)

/-- Room for a line in its set of twelve ways; the line that makes room is a free choice (R66, log 11). -/
def sliceRoom (s : State) (line : Nat) : State :=
  if s.slice line ≠ {} then s else
  let ways := sliceWays s line
  if ways.length < 12 then s else
  evictSlice { s with fresh := s.fresh + 1 } (ways.getD (Config.victim s.fresh % ways.length) line)

/-- A slice takes the sectors it does not hold from the arrays (R68). -/
def sliceFill (s : State) (line : Nat) (secs : BitVec 4) : State :=
  if sectorMask secs &&& ~~~(s.slice line).held = 0 then s else fillHeld (sliceRoom s line) line secs

/-- A write is performed at its home slice (R67). -/
def sliceWrite (s : State) (line : Nat) (mask : LineMask) (data : LineData) (kind : WriteKind) (pz : BitVec 4)
    (ex : Option Nat) : State :=
  if mask = 0 then s else writeHeld (sliceRoom s line) line mask data kind pz ex

/-- A packet is performed at its home slice (R126). -/
def applyPacket (s : State) (p : VrstPkt) : State := if sectorMask p.secs = 0 then s else addHeld (sliceRoom s p.line) p

/-- The batch of a line closes (R127). -/
def closeBatch (s : State) (line : Nat) : State :=
  if s.vrst.any (VrstPkt.inBatch line) then
    (batchOf s line).foldl applyPacket { s with vrst := s.vrst.filter (fun p => !p.inBatch line) }
  else s

/-- Packets in no batch on their way to the slice of a line are performed as they were sent, since one agent's packets to a slice keep
their order (R126); each closes the batch of its line. -/
def performSent (s : State) (line : Nat) : State :=
  let mine (p : VrstPkt) : Bool := p.dev.isNone && !p.batch && sliceNo s (128 * p.line) == sliceNo s (128 * line)
  (s.vrst.filter mine).foldl (fun s p => applyPacket (closeBatch s p.line) p) { s with vrst := s.vrst.filter (fun p => !mine p) }

/-- An access to a line: its batch closes, and packets on their way to it are performed: that they come before the access is the
model's choice (R126, R127, log 15). -/
def closeLine (s : State) (line : Nat) : State :=
  let sent := s.vrst.any (fun p => p.dev.isNone && !p.batch && p.line == line)
  let s := closeBatch s line
  if sent then performSent s line else s

/-- The lines of a byte range close their batches (R127). -/
def closeRange (s : State) (pa n : Nat) : State :=
  (pieces (n + 1) pa n).foldl (fun s p => closeLine s p.1) s

/-! ## The L1 -/

def Core.line (c : Core) (line : Nat) : L1Line := tget {} c.l1 line
def Core.setLine (c : Core) (line : Nat) (x : L1Line) : Core := { c with l1 := tset {} c.l1 line x }

/-- The writer of sector `k` (R61). -/
def L1Line.who (l : L1Line) (k : Nat) : Nat := (l.writer.extractLsb' (6 * k) 6).toNat

def setWho (w : BitVec 24) (k who : Nat) : BitVec 24 := bvMerge w (BitVec.ofNat 24 (who * 2 ^ (6 * k))) (onesAt 24 (6 * k) 6)

/-- Events of a kind count for a sampling counter that selects them (R407, R408): 1 retired convoys, 2 stale reads, 3 L1 misses. -/
def Core.sampleCount (c : Core) (evt n : Nat) : Core :=
  if c.dbgctl.getLsbD 3 ∧ bits c.smpctl.toNat 32 4 = evt then { c with smpcnt := c.smpcnt + n } else c

/-- A request to a home slice is counted in LREQ or XREQ of its core (R422). -/
def countReq (s : State) (core pa : Nat) : State :=
  let near := homeDie s pa == dieOf core
  s.modCore core (fun c => if near then { c with lreq := c.lreq + 1 } else { c with xreq := c.xreq + 1 })

/-- A request that leaves for another fabric node (R422). -/
def countXreq (s : State) (core : Nat) : State := s.modCore core (fun c => { c with xreq := c.xreq + 1 })

/-- Dirty bytes of `mask` of a line leave the L1 for the home slice, and their dirty bits clear; the line stays (R64, R78). -/
def writeBack (s : State) (core line : Nat) (mask : LineMask) : State :=
  let l := (s.core core).line line
  let m := l.dirty &&& mask
  if m = 0 then s else
  let s := closeLine (countReq s core (128 * line)) line
  let l := (s.core core).line line
  let s := sliceWrite s line m l.data (.writeBack l.snap) l.poison (some core)
  s.modCore core (fun c => c.setLine line { l with dirty := l.dirty &&& ~~~m })

/-- The line leaves the L1: its dirty bytes are written back, nothing else (R65). -/
def evictLine (s : State) (core line : Nat) : State :=
  (writeBack s core line (BitVec.allOnes 128)).modCore core (fun c => c.setLine line {})

/-- Every dirty byte of an L1 is written back (R118, R192, R194). -/
def writeBackAll (s : State) (core : Nat) : State :=
  ((s.core core).l1.map Prod.fst).foldl (fun s line => writeBack s core line (BitVec.allOnes 128)) s

/-- The lines of an L1 set of a line (R60). -/
def l1Ways (c : Core) (line : Nat) : List Nat := (c.l1.map Prod.fst).filter (fun x => x % 64 == line % 64)

/-- The lines of a slice that some L1 holds: those its directory tracks (R67). -/
def tracked (s : State) (slice : Nat) : List Nat :=
  let lines := (s.cores.map (fun c => c.2.l1.map Prod.fst)).flatten
  (lines.filter (fun l => sliceNo s (128 * l) == slice)).foldl (fun l x => keyIn x l) []

/-- The set of a line among the 256 of a slice's directory: 4,096 entries in sixteen ways (R67, log 51). -/
def dirSetOf (line : Nat) : Nat := Config.dirSet line % 256

/-- The tracked lines that share a directory set with a line; none while the slice tracks fewer lines than a set has
ways (log 51). -/
def dirWays (s : State) (line : Nat) : List Nat :=
  let lines := tracked s (sliceNo s (128 * line))
  if lines.length < 16 then [] else lines.filter (fun x => dirSetOf x == dirSetOf line)

/-- A directory drops an entry: every L1 that holds the line writes back its dirty bytes and drops it (R67). -/
def dropDirectory (s : State) (line : Nat) : State :=
  (s.cores.map Prod.fst).foldl (fun s c => if ((s.core c).line line).live then evictLine s c line else s) s

/-- Room for a line in its directory set of sixteen ways, where no L1 holds it; the line that makes room is a free choice (R67, log 11). -/
def dirRoom (s : State) (line : Nat) : State :=
  let ways := dirWays s line
  if ways.length < 16 || ways.contains line then s else
  dropDirectory { s with fresh := s.fresh + 1 } (ways.getD (Config.victim s.fresh % ways.length) line)

/-- Room for a line in its set of eight ways, and in its directory set; the lines that make room are a free choice (R60, R65, log 11). -/
def makeRoom (s : State) (core line : Nat) : State :=
  let c := s.core core
  if (c.line line).live then s else
  let ways := l1Ways c line
  let s := if ways.length < 8 then s else
    evictLine { s with fresh := s.fresh + 1 } core (ways.getD (Config.victim s.fresh % ways.length) line)
  dirRoom s line

/-- A copy's snapshot and the count in force at its place, when they differ (R91). -/
def staleAt (s : State) (pa place : Nat) (snap : BitVec 4) : Option Nat :=
  if snap = snapAt s pa place then none else some (snap.toNat + countAt s pa place * 65536)

/-- Sectors of a line come from the home slice and merge under the dirty mask (R62); the answer says whether the slice's copy
was stale (R91). A line the L1 did not hold takes the slice line's snapshot (R90). -/
def l1Fetch (s : State) (core line : Nat) (secs : BitVec 4) : Option Nat × State :=
  let s := makeRoom s core line
  let s := sliceFill s line secs
  let sl := s.slice line
  let l := (s.core core).line line
  let take := sectorMask secs &&& ~~~l.dirty
  let l' := { l with
    valid := l.valid ||| secs
    data := bvMerge l.data sl.data (lineBits take)
    snap := if l.live then l.snap else sl.snap
    poison := l.poison ||| (sl.poison &&& secs)
    live := true }
  (staleAt s (128 * line) (slicePlace s (128 * line)) sl.snap, s.modCore core (fun c => c.setLine line l'))

/-- The result of reading bytes of one line: the bytes as a number; for a stale read the copy's snapshot and the count in force
where it sits, as word 3 of a stale-read record (R382); the poisoned sectors read; and whether the L1 missed. -/
structure ReadRes where
  val : Nat
  stale : Option Nat := none
  poison : BitVec 4 := 0
  miss : Bool := false
  deriving DecidableEq, Repr

/-- The bytes of the sectors in which a read of `span` meets bytes that another agent of the core has stored (R63). -/
def L1Line.peer (l : L1Line) (who : Nat) (span : LineMask) : LineMask :=
  (upto 4).foldl (fun m k =>
    if l.who k != who && (l.dirty &&& span).extractLsb' (32 * k) 32 != 0 then m ||| onesAt 128 (32 * k) 32 else m) 0

/-- A load of `n` bytes at offset `o` of a line by agent `who`: peer-dirty bytes are written back first (R63), sectors whose
bytes are not all the agent's own dirty bytes are fetched (R62). -/
def l1Load (s : State) (core who line o n : Nat) : ReadRes × State :=
  let span := lineSpan o n
  let had := (s.core core).line line
  let secs := sectorsOf span
  let s := writeBack s core line (had.peer who span)
  let l := (s.core core).line line
  let need := (upto 4).foldl (fun a k =>
    if secs.getLsbD k && !l.valid.getLsbD k && !((span &&& ~~~l.dirty).extractLsb' (32 * k) 32 == 0) then a ||| onesAt 4 k 1 else a)
    (0 : BitVec 4)
  let (fs, s) := if need = 0 then (none, s) else l1Fetch (s.modCore core (fun c => c.sampleCount 3 1)) core line need
  let l := (s.core core).line line
  let hit := if had.live then staleAt s (128 * line) core had.snap else none
  ({ val := (l.data.extractLsb' (8 * o) (8 * n)).toNat, stale := hit.orElse (fun _ => fs), poison := l.poison &&& secs, miss := need != 0 }, s)

/-- Before one instruction reads bytes of this device, what other agents of the core have stored in the sectors it reads is written back,
line by line (R63, R422). -/
def peersFirst (s : State) (core who : Nat) (rs : List (Nat × Nat)) : State :=
  let cover := rs.foldl (fun (m : Tab LineMask) r => (pieces (r.2 + 1) r.1 r.2).foldl (fun m p =>
    tset 0 m p.1 (tget 0 m p.1 ||| lineSpan p.2.1 p.2.2)) m) []
  cover.foldl (fun s e => writeBack s core e.1 (((s.core core).line e.1).peer who e.2)) s

/-- A store of `n` bytes into the L1 by agent `who` (R62): a miss allocates without fetching, and the writer field follows. -/
def l1Store (s : State) (core who line o : Nat) (bytes : List Byte) : State :=
  let s := if ((s.core core).line line).live then s else s.modCore core (fun c => c.sampleCount 3 1)
  let s := makeRoom s core line
  let l := (s.core core).line line
  let span := lineSpan o bytes.length
  let data : LineData := BitVec.ofNat 1024 (leNat bytes * 2 ^ (8 * o))
  let writer := (upto 4).foldl (fun w k =>
    if span.extractLsb' (32 * k) 32 = 0 then w
    else if l.dirty.extractLsb' (32 * k) 32 = 0 || l.who k == who then setWho w k who else setWho w k 63) l.writer
  let whole := (upto 4).foldl (fun a k =>
    if span.extractLsb' (32 * k) 32 = BitVec.allOnes 32 then a ||| onesAt 4 k 1 else a) (0 : BitVec 4)
  let l' := { l with
    dirty := l.dirty ||| span
    data := bvMerge l.data data (lineBits span)
    writer := writer
    snap := if l.live then l.snap else snapAt s (128 * line) core
    poison := l.poison &&& ~~~whole
    live := true }
  let s := s.modCore core (fun c => c.setLine line l')
  let sec (k : Nat) : Bool := span.extractLsb' (32 * k) 32 != 0
  if who = 32 then s else s.modCore core (fun c =>
    match c.ct.resv with
    | some r => if r / 4 = line && sec (r % 4) then { c with ct := { c.ct with resv := none } } else c
    | none => c)

/-- The dirty bytes of the sectors a range covers are written back, and those sectors dropped (R122, R126). -/
def flushSectors (s : State) (core line : Nat) (mask : LineMask) : State :=
  let secs := sectorsOf mask
  let s := writeBack s core line (sectorMask secs)
  s.modCore core (fun c =>
    let l := c.line line
    let l' := { l with valid := l.valid &&& ~~~secs, poison := l.poison &&& ~~~secs }
    c.setLine line (if l'.valid = 0 && l'.dirty = 0 then {} else l'))

/-- `n` bytes at the home slice, as one line's slice copy holds them after any fill; whether the copy is stale, and poisoned. -/
def sliceLoad (s : State) (line o n : Nat) : ReadRes × State :=
  let s := sliceFill s line (sectorsOf (lineSpan o n))
  let l := s.slice line
  ({ val := (l.data.extractLsb' (8 * o) (8 * n)).toNat, stale := staleAt s (128 * line) (slicePlace s (128 * line)) l.snap,
     poison := l.poison &&& sectorsOf (lineSpan o n) }, s)

/-- A write of bytes at the home slices, line by line, as an engine's, a host's or an atomic's (R67, R90). -/
def homeWrite (s : State) (pa : Nat) (bytes : List Byte) (ex : Option Nat := none) (pz : Bool := false) : State :=
  (pieces (bytes.length + 1) pa bytes.length).foldl (fun s p =>
    let (line, o, k) := p
    let part := (bytes.drop (128 * line + o - pa)).take k
    sliceWrite s line (lineSpan o k) (BitVec.ofNat 1024 (leNat part * 2 ^ (8 * o))) .other (if pz then sectorsOf (lineSpan o k) else 0) ex) s

/-- Bytes read at the home slices: the value, the lines read stale, and whether a sector is poisoned (R96, R91, R391). -/
def homeRead (s : State) (pa n : Nat) : Nat × List Nat × Bool × State :=
  (pieces (n + 1) pa n).foldl (fun acc p =>
    let (v, st, pz, s) := acc
    let (line, o, k) := p
    let (r, s) := sliceLoad s line o k
    (v + r.val * 2 ^ (8 * (128 * line + o - pa)), if r.stale.isSome then insertNew line st else st, pz || r.poison != 0, s)) (0, [], false, s)

/-- A core's STALE counter goes up by a number of lines (R91). -/
def addStale (s : State) (core n : Nat) : State :=
  if n = 0 then s else s.modCore core (fun c => { c with stale := c.stale + BitVec.ofNat 32 n }.sampleCount 2 n)

/-- A reliability event (R402): the latest 64 are kept. -/
def logEvent (s : State) (off die core pa : Nat) : State :=
  let e : RelEvent := ⟨off, die, core, pa, tget 0 s.cyc die⟩
  { s with events := (s.events ++ [e]).drop (s.events.length + 1 - 64) }

/-- A reliability counter of a core goes up, which is a reliability event (R395, R402). -/
def countRel (s : State) (core off : Nat) : State :=
  logEvent (s.modCore core (fun c => { c with rel := tset 0 c.rel off (tget 0 c.rel off + 1) })) (0x900 + off) (dieOf core) core 0

/-- A reliability counter of a die's block goes up. -/
def countDie (s : State) (die off pa : Nat) : State :=
  logEvent { s with rel := tset 0 s.rel (die * 64 + off) (tget 0 s.rel (die * 64 + off) + 1) } (0x3800 + off) die 0 pa

/-! ## Translation through spans -/

/-- The causes of R19. -/
inductive XCause where
  | inv | perm | mal | abs | oor | unst | noctx
  deriving DecidableEq, Repr

def XCause.code : XCause → Nat
  | .inv => 0 | .perm => 1 | .mal => 2 | .abs => 3 | .oor => 4 | .unst => 5 | .noctx => 6

/-- Span lookups of a core that end in UNST, by VA, log a reliability event each; an instruction or command looks up each span once (R21,
R22, R31). -/
def logUnst (s : State) (core : Nat) (bad : List (Nat × XCause)) : State :=
  ((bad.filter (fun b => b.2 == .unst)).map (fun b => b.1 / 2 ^ 25)).eraseDups.foldl (fun s _ => logEvent s 0 (dieOf core) core 0) s

/-- The kinds of access R30 lists: what they need, and whether a span that names another node refuses them (R75, R157). -/
structure Need where
  r : Bool := false
  w : Bool := false
  x : Bool := false
  localOnly : Bool := false
  deriving DecidableEq, Repr

def spanKey (die ctx idx : Nat) : Nat := (die * 16 + ctx) * 65536 + idx

def ctxValid (s : State) (ctx : Nat) : Bool := (tget 0 s.ctxd ctx).getLsbD 0

/-- R18 for a span entry. -/
def spanMalformed (s : State) (e : Nat) : Bool :=
  let pl := bits e 57 5
  bits e 44 1 != 0 || bits e 7 18 != 0 || bits e 1 3 != 0 || (bits e 46 11 != 0 && !bit e 45) || (bit e 5 && !bit e 4) ||
    (plWindow s pl).isNone || pl == 24

/-- One lookup of the span store of a die (R21), its check in the order of R19. -/
def spanXlat (s : State) (die ctx va : Nat) (need : Need) : Except XCause Xlat :=
  if !ctxValid s ctx then .error .noctx
  else if 0x020000000000 ≤ va then .error .oor
  else
    let n := bits va 25 16
    let e := (tget 0 s.span (spanKey die ctx n)).toNat
    let dead := tget 0 s.spanErr (spanKey die ctx n)
    if decide (2 ≤ dead) || (dead == 1 && !bit e 62) then .error .unst
    else if !bit e 0 then .error .inv
    else if spanMalformed s e then .error .mal
    else
      let dev := bits e 46 11
      let remote := bit e 45 && dev != s.devnum.toNat
      let ofs := bits e 25 19 * 2 ^ 25
      match plWindow s (bits e 57 5) with
      | none => .error .mal
      | some (base, size) =>
        if !remote && size ≤ ofs then .error .abs
        else if (need.r && !bit e 4) || (need.w && !bit e 5) || (need.x && !bit e 6) || (need.localOnly && remote) then .error .perm
        else .ok { pa := base + ofs + va % 2 ^ 25, dev := if remote then some dev else none, ns := bit e 63 }

/-! ## Translation through pages -/

/-- R18 for a leaf page entry at a level. -/
def leafMalformed (s : State) (e level : Nat) : Bool :=
  let pl := bits e 57 5
  let sz := bits e 10 2
  let low := match sz with
    | 0 => 0 | 1 => bits e 12 4 | 2 => bits e 12 9 | _ => bits e 12 13
  bits e 44 1 != 0 || bits e 8 2 != 0 || bits e 2 1 != 0 || (bits e 46 11 != 0 && !bit e 45) || (bit e 5 && !bit e 4) ||
    (plWindow s pl).isNone || (bit e 3 && pl != 24) || low != 0 || decide (2 ≤ level) ||
    (level == 1 && decide (sz < 2)) || (level == 0 && decide (2 ≤ sz))

/-- The bits of a leaf's page (R15). -/
def pageBits (e : Nat) : Nat :=
  match bits e 10 2 with
  | 0 => 12 | 1 => 16 | 2 => 21 | _ => 25

/-- R18 for a table entry at a level: a reserved field, or a table at level 0. -/
def tableMalformed (e level : Nat) : Bool := bits e 44 20 != 0 || bits e 2 10 != 0 || level == 0

/-- Whether a table's address is acceptable (R18, R24): MAL in the device window, ABS where there is no memory. -/
def tableAt (s : State) (pa : Nat) : Except XCause Unit :=
  match windowOf s pa with
  | .device => .error .mal
  | .none => .error .abs
  | _ => .ok ()

/-- An 8-byte entry read at its home slice (R26). -/
def readEntry (s : State) (pa : Nat) : Nat × State :=
  let (r, s) := sliceLoad (closeLine s (pa / 128)) (pa / 128) (pa % 128) 8
  (r.val, s)

/-- The walk cache: 128 entries, the oldest making room (R27, log 11). -/
def Core.cacheWalk (c : Core) (w : WalkEntry) : Core := { c with walk := ((c.walk.filter (fun x => !(x.ctx == w.ctx && x.level == w.level && x.idx == w.idx))) ++ [w]).drop (c.walk.length + 1 - 128) }

/-- The levels of a walk from `level` downward, the table of that level at `tab` (R24). -/
def walkFrom (s : State) (core ctx va : Nat) : Nat → Nat → Except XCause (Nat × Nat) × State
  | level, tab =>
    match tableAt s tab with
    | .error c => (.error c, s)
    | .ok () =>
      let idx := bits va (12 + 9 * level) 9
      let (e, s) := readEntry s (tab + 8 * idx)
      if !bit e 0 then (.error .inv, s)
      else if bit e 1 then
        if bit e 62 && (s.core core).torn then
          (.error .unst, logEvent (s.modCore core (fun c => { c with torn := false })) 0 (dieOf core) core (tab + 8 * idx))
        else if leafMalformed s e level then (.error .mal, s) else (.ok (e, level), s)
      else if tableMalformed e level then (.error .mal, s)
      else
        match level with
        | 0 => (.error .mal, s)
        | l + 1 =>
          let s := s.modCore core (fun c => c.cacheWalk ⟨ctx, level, va / 2 ^ (12 + 9 * level), BitVec.ofNat 64 e⟩)
          walkFrom s core ctx va l (bits e 12 32 * 4096)

/-- The lowest level whose table entry the walk cache holds for a VA, with the table it names (R27). -/
def walkStart (s : State) (core ctx va : Nat) : Nat × Nat :=
  let find (level : Nat) : Option WalkEntry := (s.core core).walk.find? (fun w => w.ctx == ctx && w.level == level && w.idx == va / 2 ^ (12 + 9 * level))
  match find 1 with
  | some w => (0, bits w.entry.toNat 12 32 * 4096)
  | none => match find 2 with
    | some w => (1, bits w.entry.toNat 12 32 * 4096)
    | none => match find 3 with
      | some w => (2, bits w.entry.toNat 12 32 * 4096)
      | none => (3, bits (tget 0 s.ctxd ctx).toNat 12 32 * 4096)

/-- A walk fills the TLB: 2,048 entries, the oldest making room (R27, log 11). -/
def fillTlb (s : State) (core ctx va e : Nat) : State :=
  let pb := pageBits e
  let t : TlbEntry := ⟨ctx, va / 2 ^ pb * 2 ^ pb, pb, BitVec.ofNat 64 e⟩
  s.modCore core (fun c => if c.tlb.contains t then c else { c with tlb := (c.tlb ++ [t]).drop (c.tlb.length + 1 - 2048) })

/-- A page walk (R24, R26, R27, R31): the walker's reads of a CRIT leaf agree unless a hardware event says otherwise (log 50). -/
def pageWalk (s : State) (core ctx va : Nat) : Except XCause Unit × State :=
  if !ctxValid s ctx then (.error .noctx, s)
  else if 2 ^ 48 ≤ va then (.error .oor, s)
  else
    let (level, tab) := walkStart s core ctx va
    match walkFrom s core ctx va level tab with
    | (.error c, s) => (.error c, s)
    | (.ok (e, _), s) => (.ok (), fillTlb s core ctx va e)

/-- The matching TLB entries of a VA. -/
def tlbHits (s : State) (core ctx va : Nat) : List TlbEntry :=
  (s.core core).tlb.filter (fun t => t.ctx == ctx && t.base == va / 2 ^ t.pbits * 2 ^ t.pbits)

/-- R37: the smallest page gives the address, permissions are the AND and NS the OR over all matching entries. The reserved part of
the device window is ABS (R399), a management block PERM (R32), in the order of R19. -/
def combine (s : State) (hits : List TlbEntry) (va : Nat) (need : Need) (user : Bool) : Except XCause Xlat :=
  match hits with
  | [] => .error .inv
  | h :: t =>
    let best := t.foldl (fun b x => if x.pbits < b.pbits then x else b) h
    let all (i : Nat) : Bool := (h :: t).all (fun x => x.leaf.getLsbD i)
    let e := best.leaf.toNat
    let dev := bits e 46 11
    let remote := bit e 45 && dev != s.devnum.toNat
    let ofs := bits e 12 32 * 4096
    match plWindow s (bits e 57 5) with
    | none => .error .mal
    | some (base, size) =>
      let pa := base + ofs + va % 2 ^ best.pbits
      if !remote && (size ≤ ofs || (decide (bits e 57 5 = 24) && decide (8 * 0x1000000 ≤ pa - devBase))) then .error .abs
      else if (need.r && !all 4) || (need.w && !all 5) || (need.x && !all 6) || (user && !all 7) then .error .perm
      else if user && !remote && decide (bits e 57 5 = 24) then .error .perm
      else .ok { pa := pa, dev := if remote then some dev else none, ns := (h :: t).any (fun x => x.leaf.getLsbD 63), devt := bit e 3 }

/-- A scalar access through pages (R8, R23 to R27, R35, R37). -/
def pageXlat (s : State) (core ctx : Nat) (va : Nat) (need : Need) : Except XCause Xlat × State :=
  if !ctxValid s ctx then (.error .noctx, s)
  else if 2 ^ 48 ≤ va then (.error .oor, s)
  else
    let hits := tlbHits s core ctx va
    if hits.isEmpty then
      match pageWalk s core ctx va with
      | (.error c, s) => (.error c, s)
      | (.ok (), s) => (combine s (tlbHits s core ctx va) va need true, s)
    else (combine s hits va need true, s)

/-- An untranslated access of an M-mode control thread (R23): OOR above 44 bits, ABS in no window. -/
def bareXlat (s : State) (va : Nat) : Except XCause Xlat :=
  if 2 ^ 44 ≤ va then .error .oor
  else match windowOf s va with
    | .none => .error .abs
    | .device => .ok { pa := va, ns := true, devt := true }
    | _ => .ok { pa := va }

end Sys2Proof.Machine
end

