-- ==== Sys2Proof/Machine/Ops.lean ====
section
/-! DEFINITION. The shared operations: the facts of a launch, the registers a convoy works on, fault records (R381, R382), the
faulted state, loads, stores and atomics of an agent, remote-reduce packets, releases (R118), and the control thread's traps. -/

namespace Sys2Proof.Machine

/-! ## Facts of a launch -/

def CoreLaunch.poolReg (l : CoreLaunch) : Nat := bits l.pool.toNat 0 7
def CoreLaunch.poolScr (l : CoreLaunch) : Nat := bits l.pool.toNat 7 7
def CoreLaunch.poolAcc (l : CoreLaunch) : Nat := bits l.pool.toNat 14 7
def CoreLaunch.poolTal (l : CoreLaunch) : Nat := bits l.pool.toNat 21 7

/-- P of R48. -/
def CoreLaunch.p (l : CoreLaunch) : Nat := 8 * (l.poolReg * 16 / l.n)

/-- Talus chunks of each micro-thread (R59). -/
def CoreLaunch.chunks (l : CoreLaunch) : Nat := l.poolTal * 16 / l.n

def CoreLaunch.nlev (l : CoreLaunch) : Nat := bits l.ctl.toNat 12 4
def CoreLaunch.det (l : CoreLaunch) : Bool := l.ctl.getLsbD 24
def CoreLaunch.mir (l : CoreLaunch) : Bool := l.ctl.getLsbD 23
def CoreLaunch.mat (l : CoreLaunch) : Bool := l.ctl.getLsbD 27
def CoreLaunch.pre (l : CoreLaunch) : Bool := l.ctl.getLsbD 26
def CoreLaunch.leg (l : CoreLaunch) : Bool := l.ctl.getLsbD 25

/-- The launch facts of a core; a core that runs none has no micro-thread. -/
def Core.info (c : Core) : CoreLaunch := c.launch.getD {}

def Core.scrBytes (c : Core) : Nat := c.info.poolScr * 65536
def Core.accTiles (c : Core) : Nat := 2 * c.info.poolAcc
def State.ctxOf (s : State) (core : Nat) : Nat := (s.core core).info.ctx

/-- Whether a context counts as idle for every condition that waits on idleness (R146). -/
def Mt.isIdle (m : Mt) : Bool := (m.code == 0 && m.lodeq.isEmpty) || m.code == 7

/-- The sender identifier of an agent (R127). -/
def senderId (s : State) (core who : Nat) : Nat := s.devnum.toNat * 32768 + core * 64 + who

/-- The gang tag of a launch record (R182). -/
def Launch.gangTag (l : Launch) : Nat := leNat ((l.record.drop 0x2C).take 4)

/-- The launch that a core's contributions belong to: its partition, queue and index; where its highest level has DOM = DOM, its gang tag,
which the shares on every device of the launch carry (R127, R184, log 45). -/
def launchId (s : State) (core : Nat) : Nat × Nat × Nat :=
  let k := (s.core core).info
  let one := (k.part, k.queue, k.index)
  if bits (k.levels.getD (k.nlev - 1) 0).toNat 20 4 = 6 then
    match s.launches.find? (fun l => l.part == k.part && l.queue == k.queue && l.index == k.index) with
    | some l => (32768, l.gangTag, 0)
    | none => one
  else one

/-! ## Registers -/

def MtRegs.rg (r : MtRegs) (n : GName) : Word64 := if n = 0 then 0 else tget 0 r.g n.toNat
def MtRegs.wg (r : MtRegs) (n : GName) (x : Word64) : MtRegs := if n = 0 then r else { r with g := tset 0 r.g n.toNat x }
def MtRegs.rk (r : MtRegs) (n : KName) : KReg := tget 0 r.k n.toNat
def MtRegs.wk (r : MtRegs) (n : KName) (x : KReg) : MtRegs := { r with k := tset 0 r.k n.toNat x }
def MtRegs.rp (r : MtRegs) (p : Nat) : VReg := tget 0 r.v p
def MtRegs.wp (r : MtRegs) (p : Nat) (x : VReg) : MtRegs := { r with v := tset 0 r.v p x }

/-- The physical register of a name n ≥ 1 (R49). -/
def Convoy.phys (cv : Convoy) (n : VName) : Nat := cv.wb.toNat + n.toNat

/-- A vector register as a member reads it: v0 is the chained value (R164), others stand behind the window (R49). -/
def Convoy.rv (cv : Convoy) (n : VName) : VReg := if n = 0 then cv.chain else cv.work.rp (cv.phys n)

/-- A vector register written by a member; `m` has the bits it writes. -/
def Convoy.wv (cv : Convoy) (n : VName) (x m : VReg) : Convoy :=
  if n = 0 then { cv with chain := x }
  else { cv with
    work := cv.work.wp (cv.phys n) x
    vmask := tset 0 cv.vmask (cv.phys n) (tget 0 cv.vmask (cv.phys n) ||| m) }

def Convoy.rg (cv : Convoy) (n : GName) : Word64 := cv.work.rg n
def Convoy.wg (cv : Convoy) (n : GName) (x : Word64) : Convoy := { cv with work := cv.work.wg n x }
def Convoy.rk (cv : Convoy) (n : KName) : KReg := cv.work.rk n
def Convoy.wk (cv : Convoy) (n : KName) (x : KReg) : Convoy := { cv with work := cv.work.wk n x }

def State.modCv (s : State) (f : Convoy → Convoy) : State := { s with cv := f s.cv }

/-- The tensor table as it stood when the convoy started (R262, R300). -/
def startTens (s : State) : Tab TDesc := s.cv.tens0.getD (s.core s.cv.core).tens

/-- The descriptor as it stood when the convoy started (R262, R300). -/
def startDesc (s : State) (t : TName) : TDesc := tget {} (startTens s) t.toNat

/-- A tensor descriptor as the running member sees it: an earlier member's, or the table's as the convoy started (R162, R262, R346). -/
def seeTens (s : State) (t : TName) : TDesc :=
  match s.cv.tens.reverse.find? (fun e => e.1 == t.toNat) with
  | some e => e.2
  | none => tget {} (startTens s) t.toNat

/-- A descriptor written by a member, until retirement. -/
def Convoy.stageTens (cv : Convoy) (t : TName) (x : TDesc) : Convoy := { cv with tens := cv.tens ++ [(t.toNat, x)] }

/-- The end of a member: its prefixes are used up, and the next member's turn comes. -/
def endMember (s : State) : State := s.modCv (fun cv => { cv with pfx := {}, member := cv.member + 1 })

/-! ## Fault records -/

/-- A record of 20 words (R381). -/
def mkRecord (kind sub memb widx : Nat) (retry : Bool) (head : Word64) (body : List Nat) : List Word64 :=
  let w0 := kind * 2 ^ 56 + sub * 2 ^ 48 + min memb 7 * 2 ^ 45 + widx % 32 * 2 ^ 40 + (if retry then 2 ^ 39 else 0)
  ((BitVec.ofNat 64 w0 :: head :: body.map (BitVec.ofNat 64)) ++ List.replicate 20 0).take 20

/-- The fault kinds of R382. -/
def kILL : Nat := 1
def kSHAPE : Nat := 2
def kSPAN : Nat := 3
def kPAGE : Nat := 4
def kSTALE : Nat := 5
def kSCHED : Nat := 6
def kMISAL : Nat := 7
def kMISROW : Nat := 8
def kTORDER : Nat := 9
def kTUNDER : Nat := 10
def kTOVER : Nat := 11
def kDESC : Nat := 12
def kLODEALIGN : Nat := 13
def kTRAP : Nat := 14
def kBRK : Nat := 15
def kHWERR : Nat := 16
def kPOISON : Nat := 17
def kGANGSTOP : Nat := 18
def kSCROOR : Nat := 19

/-- The phases of R318 that a member of a convoy meets after decode and shape. -/
def phAlign : Nat := 3
def phTag : Nat := 4
def phXlat : Nat := 5
def phOrder : Nat := 6
def phPoison : Nat := 7
def phRetire : Nat := 8

/-- A member's fault, to be weighed against the other members' (R318, log 13). -/
def addFault (s : State) (phase kind sub widx : Nat) (body : List Nat) : State :=
  let retry := ((s.core s.cv.core).mt s.cv.mt).retry
  s.modCv (fun cv => { cv with cands := cv.cands ++ [(phase, mkRecord kind sub cv.nmemb widx retry cv.head body)] })

/-- The word a member stands in, and its index in the convoy. -/
def Convoy.wordAt (cv : Convoy) : Nat := cv.widx - 1
def Convoy.word (cv : Convoy) : Word32 := cv.words.getD cv.wordAt 0

/-- An illegal-instruction fault of the member's own word (R212, R382). -/
def illFault (s : State) (phase : Nat) (c : Cause) : State :=
  addFault s phase kILL c.code s.cv.wordAt [s.cv.word.toNat]

/-- The span record of R38 and R39, as the body of a record. `bad` are the refused elements with their VA and cause, `emask`
whether EMASK names them. -/
def spanBody (ctx acc : Nat) (head : Word64) (bad : List (Nat × Nat × XCause)) (emask : Bool) : List Nat :=
  let oor := bad.any (fun b => b.2.2 == .oor || decide (0x020000000000 ≤ b.2.1))
  let inRange := bad.filter (fun b => b.2.2 != .oor && decide (b.2.1 < 0x020000000000))
  let spans := inRange.foldl (fun l b => keyIn (bits b.2.1 25 16) l) []
  let causeOf (n : Nat) : Nat := match inRange.find? (fun b => bits b.2.1 25 16 == n) with
    | some b => b.2.2.code
    | none => 0
  let ents := (spans.take 16).map (fun n => causeOf n * 2 ^ 29 + n)
  let m := if emask then bad.foldl (fun m b => m ||| 2 ^ b.1) 0 else 0
  let w0 := ctx * 2 ^ 44 + (if oor then 2 ^ 43 else 0) + (if 16 < spans.length then 2 ^ 42 else 0) + min spans.length 512 * 2 ^ 32 + acc * 2 ^ 30
  let packed := (upto 8).map (fun i => ents.getD (2 * i) 0 + ents.getD (2 * i + 1) 0 * 2 ^ 32)
  [w0, head.toNat] ++ (upto 8).map (fun i => bits m (64 * i) 64) ++ packed

/-- The die's cycle count moves on by a step's cycles (R369, log 8). -/
def passCycles (s : State) (die : Nat) : State :=
  { s with cyc := tset 0 s.cyc die (tget 0 s.cyc die + Config.cycles s.fresh), fresh := s.fresh + 1 }

/-! ## Loads and stores of an agent -/

/-- What the reads of one instruction met: the lines read stale, each with word 3 of its record (R91), the lines it sent a
request for (R422), the lowest poisoned sector, the elements that another node refused with their VAs (R14), the requests that left for
other nodes, and the bytes that other nodes returned, which every element of the instruction that reads them takes (R103). -/
structure Tally where
  stale : List (Nat × Nat) := []
  miss : List Nat := []
  poison : Option Nat := none
  abs : List (Nat × Nat) := []
  far : List Nat := []
  bytes : Tab Byte := []
  deriving DecidableEq, Repr

def Tally.addStale (t : Tally) (line : Nat) (w : Option Nat) : Tally :=
  match w with
  | none => t
  | some w => if t.stale.any (fun e => e.1 == line) then t else { t with stale := t.stale ++ [(line, w)] }

def Tally.addMiss (t : Tally) (line : Nat) : Tally := { t with miss := insertNew line t.miss }

def Tally.addPoison (t : Tally) (pa : Nat) : Tally :=
  { t with poison := some (match t.poison with
    | none => pa
    | some q => min q pa) }

/-- The counts of an instruction: STALE once for each line read stale (R91), a request for each line missed (R422). -/
def tallied (s : State) (core : Nat) (t : Tally) : State :=
  let s := t.miss.foldl (fun s line => countReq s core (128 * line)) (addStale s core t.stale.length)
  t.far.foldl (fun s _ => countXreq s core) s

/-- The bytes of a load that an earlier member of the same convoy has staged replace those of memory (R102). -/
def overlay (stores : List Store) (dev : Option Nat) (pa n v : Nat) : Nat :=
  stores.foldl (fun v st =>
    if st.dev != dev then v else
    (upto n).foldl (fun v i =>
      let a := pa + i
      if st.pa ≤ a ∧ a < st.pa + st.bytes.length then
        v - bits v (8 * i) 8 * 2 ^ (8 * i) + (st.bytes.getD (a - st.pa) 0).toNat * 2 ^ (8 * i)
      else v) v) v

/-- Whether staged stores cover a whole sector, which clears its poison (R391). -/
def staged32 (stores : List Store) (pa : Nat) : Bool :=
  (upto 32).all (fun i => stores.any (fun st => st.dev.isNone && decide (st.pa ≤ pa + i) && decide (pa + i < st.pa + st.bytes.length)))

/-- The poisoned sectors of a line that a read meets, less those an earlier member of the convoy writes whole. -/
def Tally.poisons (t : Tally) (stores : List Store) (line : Nat) (secs : BitVec 4) : Tally :=
  if secs = 0 then t else
  (upto 4).foldl (fun t k => if secs.getLsbD k && !staged32 stores (128 * line + 32 * k) then t.addPoison (128 * line + 32 * k) else t) t

/-- Bytes that another node returns: those of the instruction's earlier elements, and free values for the others (R103, log 10). -/
def Tally.takeBytes (t : Tally) (key n w : Nat) : Nat × Tally :=
  (upto n).foldl (fun (r : Nat × Tally) i =>
    let (v, t) := r
    match t.bytes.find? (fun e => e.1 == key + i) with
    | some e => (v + e.2.toNat * 2 ^ (8 * i), t)
    | none => (v + bits w (8 * i) 8 * 2 ^ (8 * i), { t with bytes := t.bytes ++ [(key + i, BitVec.ofNat 8 (bits w (8 * i) 8))] })) (0, t)

/-- Another node answers a read of an element: an access error, or data that is a free value and may carry poison (R14, R129, R391,
log 10). -/
def remoteRead (s : State) (x : Xlat) (n : Nat) (staged : List Store) (t : Tally) (i va : Nat) : Nat × Tally × State :=
  if s.ports = 0 || Config.accessError s.fresh then (0, { t with abs := t.abs ++ [(i, va)] }, { s with fresh := s.fresh + 1 })
  else
    let bad := Config.remotePoison s.fresh
    let (w, s) := s.draw
    let (v, t) := t.takeBytes (x.dev.getD 0 * 2 ^ 44 + x.pa) n w.toNat
    (overlay staged x.dev x.pa n v, if bad then t.addPoison (x.pa / 32 * 32) else t, s)

/-- A load of `n` bytes at a translated address by agent `who`, through the L1 or at another node (R60). -/
def agentLoad (s : State) (core who : Nat) (x : Xlat) (n : Nat) (staged : List Store) (t : Tally) (i va : Nat) : Nat × Tally × State :=
  match x.dev with
  | some _ => remoteRead s x n staged { t with far := t.far ++ [x.pa] } i va
  | none =>
    let s := closeRange s x.pa n
    let (v, t, s) := (pieces (n + 1) x.pa n).foldl (fun (acc : Nat × Tally × State) p =>
      let (v, t, s) := acc
      let (line, o, k) := p
      let (r, s) := l1Load s core who line o k
      let t := (t.addStale line r.stale).poisons staged line r.poison
      (v + r.val * 2 ^ (8 * (128 * line + o - x.pa)), if r.miss then t.addMiss line else t, s)) (0, t, s)
    (overlay staged none x.pa n v, t, s)

/-- The reliability event of a posted write that another node refused: it names the VA, the device number and the cause (R14). -/
def refusedWrite (s : State) (core dev va : Nat) : State := logEvent s (dev * 8 + XCause.abs.code) (dieOf core) core va

/-- A write that agent `who` posts to another node, which answers later (R118, R129); where no port is up it is refused at once (R398). -/
def postWrite (s : State) (core who dev va : Nat) : State :=
  if s.ports = 0 then refusedWrite s core dev va else
  { s with posted := tset [] s.posted (core * 2048 + dev) (tget [] s.posted (core * 2048 + dev) ++ [(who, va)]) }

/-- A store that leaves the retire buffer: into the L1, as an atomic's write to the home slice with the covered sectors of the issuing L1
dropped (R122), or posted to another node. -/
def commitStore (s : State) (core who : Nat) (st : Store) : State :=
  match st.dev with
  | some d => if st.atomic then s else postWrite (countXreq s core) core who d st.va
  | none =>
    let s := closeRange s st.pa st.bytes.length
    if st.atomic then
      homeWrite (flushSectors s core (st.pa / 128) (lineSpan (st.pa % 128) st.bytes.length)) st.pa st.bytes (some core)
    else (pieces (st.bytes.length + 1) st.pa st.bytes.length).foldl (fun s p =>
      let (line, o, k) := p
      let s := l1Store s core who line o ((st.bytes.drop (128 * line + o - st.pa)).take k)
      if st.poison then s.modCore core (fun c =>
        c.setLine line { c.line line with poison := (c.line line).poison ||| sectorsOf (lineSpan o k) })
      else s) s

/-- Stores that leave the retire buffer together: a sector that they write whole loses its poison (R391). -/
def commitStores (s : State) (core who : Nat) (l : List Store) : State :=
  let s := l.foldl (fun s st => commitStore s core who st) s
  let plain := l.filter (fun st => !st.atomic && !st.poison)
  let lines := plain.foldl (fun ls st => (pieces (st.bytes.length + 1) st.pa st.bytes.length).foldl (fun ls p => insertNew p.1 ls) ls) []
  s.modCore core (fun c => lines.foldl (fun c line =>
    let x := c.line line
    if x.poison = 0 then c
    else c.setLine line { x with poison := (upto 4).foldl (fun p k =>
      if staged32 plain (128 * line + 32 * k) then p &&& ~~~(onesAt 4 k 1) else p) x.poison }) c)

/-- Retired stores of a micro-thread that have still to enter the L1 do so, in program order (R106). -/
def drainMt (s : State) (core mt : Nat) : State :=
  match ((s.core core).mt mt).late with
  | [] => s
  | l => (l.foldl (fun s b => commitStores s core mt b) s).modCore core (fun c => c.setMt mt { c.mt mt with late := [] })

/-- The same of a core's control thread. -/
def drainCt (s : State) (core : Nat) : State :=
  match (s.core core).ct.late with
  | [] => s
  | l => (l.foldl (fun s b => commitStores s core 32 b) s).modCore core (fun c => { c with ct := { c.ct with late := [] } })

/-- The oldest of an agent's stores that are still to enter the L1 do so (R106). -/
def storeEnters (s : State) (core who : Nat) : State :=
  if who = 32 then
    match (s.core core).ct.late with
    | [] => s
    | b :: l => (commitStores s core 32 b).modCore core (fun c => { c with ct := { c.ct with late := l } })
  else
    match ((s.core core).mt who).late with
    | [] => s
    | b :: l => (commitStores s core who b).modCore core (fun c => c.setMt who { c.mt who with late := l })

/-- The same of every agent of a core. -/
def drainCore (s : State) (core : Nat) : State :=
  drainCt (((s.core core).mts.map Prod.fst).foldl (fun s i => drainMt s core i) s) core

/-- The stores that the running member's loads see: those retired that are still to enter the L1, and those staged before it (R101,
R102). -/
def State.staged (s : State) : List Store := ((s.core s.cv.core).mt s.cv.mt).late.flatten ++ s.cv.stores

/-- The micro-thread enters the faulted state with its record; its next convoy address is word 1 of the record (R147, R381).
Entry is a CORE-scope release (R386). -/
def enterFaulted (s : State) (core mt : Nat) (record : List Word64) : State :=
  (drainMt s core mt).modCore core (fun c => c.setMt mt { c.mt mt with
    code := 4, record := record, next := record.getD 1 0, parked := none, retry := false, skip := false, tagWait := none })

/-- The machine writes MRS of a micro-thread (R200). A convoy of it that waits to retire goes on from the new value, unless it has written MRS
itself. -/
def Mt.setMrs (m : Mt) (x : Word32) : Mt :=
  { m with
    regs := { m.regs with mrs := x }
    parked := m.parked.map (fun p => if p.work.mrs = m.regs.mrs then { p with work := { p.work with mrs := x } } else p) }

/-! ## Remote-reduce packets -/

/-- A packet leaves for its home slice: under DET it enters the line's batch, which a 65th contribution or one of another launch
closes (R127). -/
def sendPacket (s : State) (p : VrstPkt) : State :=
  match p.dev with
  | some d => postWrite s p.core (p.sid % 64) d p.va
  | none =>
    let waiting := s.vrst.filter (fun q => q.line == p.line && q.batch)
    let s := if p.batch && (64 ≤ waiting.length || waiting.any (fun q => q.lid != p.lid)) then closeBatch s p.line else s
    { s with vrst := s.vrst ++ [p] }

/-! ## Atomics (R122, R304) -/

/-- An integer atomic's new value. -/
def amoInt (op : AmoOp) (w old x : Nat) : Nat :=
  match op with
  | .add => (old + x) % 2 ^ w
  | .min => if sxt w old ≤ sxt w x then old else x
  | .max => if sxt w x ≤ sxt w old then old else x
  | .minn => min old x
  | .maxn => max old x
  | .and => old &&& x
  | .or => old ||| x
  | .swap => x

/-- A float atomic's new value and flags. -/
def amoFlt (op : AmoOp) (f : Fmt) (old x : Nat) (rm : RMode) (u : Nat) : Res :=
  let a := f.read old
  let b := f.read x
  let out (e : Exact × Nat) : Res := let r := f.put e.1 rm u; (r.1, r.2 ||| e.2)
  match op with
  | .add => out (exAdd a b rm)
  | .min => out (exMinMax false a b)
  | .max => out (exMinMax true a b)
  | _ => (x, 0)

/-- The old bytes at the home slice that an atomic reads: the issuing L1 writes back and drops the covered sectors first, and
writes that the same convoy has staged come before it (R122). -/
def atomicRead (s : State) (core : Nat) (x : Xlat) (n : Nat) (staged : List Store) (t : Tally) (i va : Nat) : Nat × Tally × State :=
  match x.dev with
  | some d => remoteRead s x n staged { t with far := insertNew (d * 2 ^ 44 + x.pa / 128 * 128) t.far } i va
  | none =>
    let s := closeRange s x.pa n
    let line := x.pa / 128
    let s := flushSectors s core line (lineSpan (x.pa % 128) n)
    let (r, s) := sliceLoad s line (x.pa % 128) n
    (overlay staged none x.pa n r.val, ((t.addStale line r.stale).poisons staged line r.poison).addMiss line, s)

/-! ## Releases (R107, R118) -/

def scopeRank : Scope → Nat
  | .mt => 0 | .core => 1 | .die => 2 | .part => 3 | .dev => 4 | .dom => 5 | .sys => 6

def widerScope (a b : Scope) : Scope := if scopeRank a < scopeRank b then b else a

/-- Whether a release of a scope waits for accesses posted to a device: SYS for all of them, DOM for those posted to other Corzans (R117,
R118). -/
def scopeReaches (sc : Scope) (dev : Nat) : Bool := sc == .sys || (sc == .dom && !Config.isHost dev)

/-- The accesses of an agent that nodes in a scope's reach have not yet acknowledged. -/
def postedCount (s : State) (core who : Nat) (sc : Scope) : Nat :=
  ((s.posted.filter (fun e => e.1 / 2048 == core && scopeReaches sc (e.1 % 2048))).map (fun e => (e.2.filter (fun w => w.1 == who)).length)).sum

/-- Every remote-reduce packet of a core that waits in no batch is performed; a release closes no batch (R126, R127, log 15). -/
def flushPackets (s : State) (core : Nat) : State :=
  (s.vrst.filter (fun p => p.core == core && !p.batch)).foldl (fun s p => closeLine s p.line) s

/-- The work of a release that can be done at once: from DIE up, every dirty byte of the L1 goes home and packets are
performed (R118, R126). MT and CORE move nothing (R107). -/
def releaseWork (s : State) (core : Nat) (sc : Scope) : State :=
  if 2 ≤ scopeRank sc then writeBackAll (flushPackets s core) core else s

/-- Whether an agent's release of a scope has still to wait for its posted accesses (R118). -/
def releaseWaits (s : State) (core who : Nat) (sc : Scope) : Bool := decide (0 < postedCount s core who sc)

/-- The scope that covers a barrier level's hardware domain, widened by the level's scope (R121, R184). -/
def effScope (e : Word32) : Scope :=
  let cover : Scope := match bits e.toNat 20 4 with
    | 0 => .core | 1 => .core | 2 => .die | 3 => .die | 4 => .part | 5 => .dev | _ => .dom
  widerScope (Scope.ofCode (BitVec.ofNat 3 (bits e.toNat 24 4))) cover

/-! ## Barriers (R170, R171) -/

/-- The level entry of a level (R184). -/
def CoreLaunch.level (l : CoreLaunch) (n : Nat) : Word32 := l.levels.getD n 0

/-- How many cores an instance of level n takes: the product of COUNT over levels 1 to n (R170). -/
def CoreLaunch.gangSize (l : CoreLaunch) (n : Nat) : Nat :=
  (upto n).foldl (fun p j => p * max 1 (bits (l.level (j + 1)).toNat 0 16)) 1

/-- Whether two cores run one launch. -/
def sameLaunch (a b : CoreLaunch) : Bool := a.part == b.part && a.queue == b.queue && a.index == b.index

/-- The cores of this device in a core's instance of a level (R170). -/
def instanceCores (s : State) (core n : Nat) : List Nat :=
  let l := (s.core core).info
  if n = 0 then [core] else
  let size := l.gangSize n
  let mine := (s.cores.filter (fun e => match e.2.launch with
    | some k => sameLaunch k l && k.member / size == l.member / size
    | none => false)).map Prod.fst
  if mine.contains core then mine else core :: mine

/-- Whether micro-thread m has arrived at instance k of a level: it retired or abandoned k barriers of it, or has made the
arrival of the k-th (R156, R171), and has issued its `bar` again where a pre-emption left the arrival pending (R197). -/
def Mt.arrived (m : Mt) (n k : Nat) : Bool :=
  decide (k ≤ tget 0 m.bars n) || (k == tget 0 m.bars n + 1 && m.pend.getLsbD n && !m.uncounted.getLsbD n)

/-- A micro-thread's arrival at its next instance of a level, made once, with which its release begins (R121, R171). A pending arrival is
counted when the `bar` is issued again, and not made a second time (R197). What the release covers of its own convoy comes with the retirement
(log 53). -/
def makeArrival (s : State) (core mt n : Nat) : State :=
  let m := (s.core core).mt mt
  if m.pend.getLsbD n then
    if m.uncounted.getLsbD n then s.modCore core (fun c => c.setMt mt { m with uncounted := m.uncounted &&& ~~~(onesAt 8 n 1) }) else s
  else
    let s := s.modCore core (fun c => c.setMt mt { m with pend := m.pend ||| onesAt 8 n 1 })
    releaseWork s core (effScope ((s.core core).info.level n))

/-- The agents of this device that an instance waits for have arrived, and what their releases wait for is acknowledged. -/
def instanceArrived (s : State) (core n k : Nat) : Bool :=
  let sc := effScope ((s.core core).info.level n)
  (instanceCores s core n).all (fun c =>
    (upto (s.core c).info.n).all (fun i => ((s.core c).mt i).arrived n k && !releaseWaits s c i sc))

/-- Whether instance k of a level is complete for a core. A level of DOM = DOM has members on other devices, whose arrivals the
completion of the instance brings (R184, log 10). -/
def barComplete (s : State) (core n k : Nat) : Bool :=
  decide (k ≤ tget 0 (s.core core).seen n) ||
    (decide (bits ((s.core core).info.level n).toNat 20 4 < 6) && instanceArrived s core n k)

/-! ## The control thread -/

def Ct.rx (c : Ct) (n : XName) : Word64 := if n = 0 then 0 else tget 0 c.x n.toNat
def Ct.wx (c : Ct) (n : XName) (v : Word64) : Ct := if n = 0 then c else { c with x := tset 0 c.x n.toNat v }
def Ct.rf (c : Ct) (n : XName) : Word64 := tget 0 c.f n.toNat
def Ct.wf (c : Ct) (n : XName) (v : Word64) : Ct := { c with f := tset 0 c.f n.toNat v }

def State.ct (s : State) : Ct := (s.core s.curCore).ct
def State.modCt (s : State) (f : Ct → Ct) : State := s.modCore s.curCore (fun c => { c with ct := f c.ct })

/-- mstatus fields: MIE bit 3, MPIE bit 7, MPP bits 12:11, FS bits 14:13 (log 9). -/
def msMIE : Word64 := 0x8
def msMPIE : Word64 := 0x80
def msMPP : Word64 := 0x1800

/-- A control-thread trap (R144, the RISC-V privileged manual, log 9): mepc takes the pc, mcause and mtval the cause, MPIE the
old MIE, MPP the old mode; MIE clears, the mode becomes M, and the pc goes to mtvec, offset by the cause for an interrupt in
vectored mode. A trap loses the reservation (R110). -/
def takeTrap (c : Ct) (interrupt : Bool) (cause : Nat) (tval : Word64) : Ct :=
  let mie := c.mstatus &&& msMIE
  let st := (c.mstatus &&& ~~~(msMIE ||| msMPIE ||| msMPP)) ||| (if mie = 0 then 0 else msMPIE) ||| (if c.machine then msMPP else 0)
  let base := c.mtvec &&& ~~~3
  { c with
    mepc := c.pc
    mcause := BitVec.ofNat 64 (cause + (if interrupt then 2 ^ 63 else 0))
    mtval := tval
    mstatus := st
    machine := true
    pc := if interrupt && c.mtvec.getLsbD 0 then base + BitVec.ofNat 64 (4 * cause) else base
    resv := none
    stalled := false
    ending := false
    fetched := none }

/-- mret: MIE takes MPIE, MPIE is set, the mode takes MPP, MPP becomes U, and the pc takes mepc (log 9). -/
def returnTrap (c : Ct) : Ct :=
  let toM := c.mstatus &&& msMPP == msMPP
  let st := (c.mstatus &&& ~~~(msMIE ||| msMPP ||| (if toM then 0 else 0x20000))) ||| msMPIE ||| (if c.mstatus &&& msMPIE = 0 then 0 else msMIE)
  { c with mstatus := st, machine := toM, pc := c.mepc, fetched := none }

/-- A synchronous exception of the current control thread. -/
def ctTrap (s : State) (cause : Nat) (tval : Word64) : State := s.modCt (fun c => takeTrap c false cause tval)

/-- The illegal-instruction exception, cause 2. -/
def ctIllegal (s : State) : State := ctTrap s 2 0

/-- xbfltp (R385): bit i for a faulted micro-thread i, bit 32 + n for a held queue n. -/
def Core.xbfltp (c : Core) : Word64 :=
  let m := (upto 32).foldl (fun a i => if (c.mt i).code = 4 then a + 2 ^ i else a) 0
  BitVec.ofNat 64 ((upto 6).foldl (fun a n => if (c.queue n).held then a + 2 ^ (32 + n) else a) m)

/-- mip: bit 16 reads 1 while xbfltp is nonzero (R385). -/
def Core.mip (c : Core) : Word64 := if c.xbfltp = 0 then 0 else 0x10000

/-- The instruction's length moves the pc on. -/
def rvBytes : RvLen → Word64
  | .full => 4
  | .comp _ => 2

/-- The pc goes to an address, and the instruction counts as retired. -/
def ctGo (s : State) (pc : Word64) : State :=
  s.modCt (fun c => { c with pc := pc, stalled := false, fetched := none, minstret := if c.mcountinhibit.getLsbD 2 then c.minstret else c.minstret + 1 })

/-- The next instruction in order. -/
def ctNext (s : State) (len : RvLen) : State := ctGo s (s.ct.pc + rvBytes len)

end Sys2Proof.Machine
end

