-- ==== Sys2Proof/Machine/Flags.lean ====
section
/-! DEFINITION. The flags a member raises (R236, R238): FST's sticky bits, and the lowest raising index of each class. -/

namespace Sys2Proof.Machine

/-- The raising elements of a member: index and flags, ascending. -/
abbrev Hits := List (Nat × Nat)

/-- The lowest index that raised a class, or the register's old value where none did (R238). -/
def eixNew (old : Word32) (cls : Nat) (h : Hits) : Word32 :=
  match h.find? (fun x => x.2 &&& cls != 0) with
  | some x => BitVec.ofNat 32 x.1
  | none => old

/-- FST takes the flags by OR; each EIX register of a raised class takes the lowest index (R238, R371). SAT has none. -/
def MtRegs.raise (r : MtRegs) (h : Hits) : MtRegs :=
  { r with
    fst := r.fst ||| BitVec.ofNat 32 (h.foldl (fun a x => a ||| x.2) 0)
    eixNv := eixNew r.eixNv fNV h
    eixDz := eixNew r.eixDz fDZ h
    eixOf := eixNew r.eixOf fOF h
    eixUf := eixNew r.eixUf fUF h
    eixNx := eixNew r.eixNx fNX h }

/-- What reads of FST and EIX see while the flags of the convoy are still to come: the values before them (R238, R370). -/
def Convoy.hide (cv : Convoy) (r : MtRegs) : List (Nat × Word32) :=
  let one (l : List (Nat × Word32)) (n : Nat) (a b : Word32) : List (Nat × Word32) :=
    if a = b || l.any (fun e => e.1 == n) then l else l ++ [(n, a)]
  let w := cv.work
  one (one (one (one (one (one cv.hidden 0 w.fst r.fst) 8 w.eixNv r.eixNv) 9 w.eixDz r.eixDz) 10 w.eixOf r.eixOf) 11 w.eixUf r.eixUf)
    12 w.eixNx r.eixNx

/-- Flags that a member raises: they take effect when the convoy retires (R238). -/
def Convoy.raise (cv : Convoy) (h : Hits) : Convoy := { cv with work := cv.work.raise h, hidden := cv.hide (cv.work.raise h) }

/-- LNK of FST (R291), which has no index register. -/
def fLNK : Nat := 64

def Convoy.raiseLnk (cv : Convoy) : Convoy :=
  let r := { cv.work with fst := cv.work.fst ||| BitVec.ofNat 32 fLNK }
  { cv with work := r, hidden := cv.hide r }

/-- An exact integer into w bits: under SAT the nearest limit of the signed or unsigned range with flag SAT, otherwise the low
w bits and no flag (R245). -/
def fitInt (sat sgn : Bool) (w : Nat) (x : Int) : Res :=
  let lo : Int := if sgn then -((2 ^ (w - 1) : Nat) : Int) else 0
  let hi : Int := if sgn then ((2 ^ (w - 1) : Nat) : Int) - 1 else ((2 ^ w : Nat) : Int) - 1
  if sat then
    if x < lo then (wrapW w lo, fSAT) else if hi < x then (wrapW w hi, fSAT) else (wrapW w x, 0)
  else (wrapW w x, 0)

end Sys2Proof.Machine
end

