-- ==== Sys2Proof/Machine/Operands.lean ====
section
/-! DEFINITION. Operand forms: the elements of a register (R224, R243), the shape and the governing mask, the prefixes a member
carries (R206), rounding (R235, R263), the number formats a second type names (R250, R269, R271, R304, R307), and the writing of
a destination. -/

namespace Sys2Proof.Machine

/-- A meaning's answer. -/
abbrev Out := Host.Outcome State Fault Refusal

/-! ## Elements -/

/-- Element `i` of width `w` bits: its slot, or its place in the packed bit string (R224, R243). -/
def elem (x : VReg) (w i : Nat) : Nat := (x.extractLsb' (w * i) w).toNat

/-- The register with element `i` replaced. -/
def putElem (x : VReg) (w i v : Nat) : VReg := bvMerge x (BitVec.ofNat 4096 (v % 2 ^ w) <<< (w * i)) (onesAt 4096 (w * i) w)

/-- The bits of element `i`. -/
def elemBits (w i : Nat) : VReg := onesAt 4096 (w * i) w

/-- What writing a destination gives: the register, the bits written, the flags raised by element. -/
structure VOut where
  val : VReg
  mask : VReg := 0
  hits : Hits := []
  deriving DecidableEq, Repr

/-- One more element written. -/
def VOut.put (o : VOut) (w i : Nat) (r : Res) : VOut :=
  { val := putElem o.val w i r.1, mask := o.mask ||| elemBits w i, hits := if r.2 = 0 then o.hits else o.hits ++ [(i, r.2)] }

/-- The common effect of R243 and R263: active elements take Op(i), inactive ones stay, or become 0 under ZERO. -/
def vecRun (old : VReg) (w e : Nat) (act : KReg) (zero : Bool) (f : Nat → Res) : VOut :=
  (upto e).foldl (fun o i =>
    if act.getLsbD i then o.put w i (f i) else if zero then o.put w i (0, 0) else o) { val := old }

/-! ## Shape, mask and prefixes -/

def shpRows (shp : Word32) : Nat := bits shp.toNat 8 7 + 1
def shpCols (shp : Word32) : Nat := bits shp.toNat 0 7 + 1

def Convoy.rows (cv : Convoy) : Nat := shpRows cv.shp
def Convoy.cols (cv : Convoy) : Nat := shpCols cv.shp

/-- Elems(). -/
def Convoy.elems (cv : Convoy) : Nat := cv.rows * cv.cols

/-- The governing mask of a member (R243). -/
def Convoy.gmask (cv : Convoy) : KReg :=
  match cv.pfx.mask with
  | none => cv.rk 0
  | some (k, inv) => if inv then ~~~(cv.rk k) else cv.rk k

/-- The lowest `n` bits of a mask. -/
def maskLow (m : KReg) (n : Nat) : KReg := m &&& onesAt 512 0 n

/-- The active elements of a member (R6). -/
def Convoy.active (cv : Convoy) : List Nat := (upto cv.elems).filter (fun i => cv.gmask.getLsbD i)

/-- FST.RM as a mode (R236). -/
def fstMode (fst : Word32) : RMode := RMode.ofCode (fst.extractLsb' 8 3)

/-- The rounding mode of a member: its prefix's, or FST.RM. -/
def Convoy.mode (cv : Convoy) : RMode :=
  match cv.pfx.rm with
  | some (m, _) => m
  | none => fstMode cv.work.fst

/-- The random bits of element `i` at width `w` (R235); without STO there are none. -/
def Convoy.rnd (cv : Convoy) (w i : Nat) : Nat :=
  match cv.pfx.rm with
  | some (.sto, v) => elem (cv.rv v) w i
  | _ => 0

/-- A member writes a vector register and raises its flags. -/
def Convoy.putV (cv : Convoy) (d : VName) (o : VOut) : Convoy := (cv.wv d o.val o.mask).raise o.hits

/-- The common effect on `vd` at width `w`. -/
def Convoy.run (cv : Convoy) (d : VName) (w : Nat) (f : Nat → Res) : Convoy :=
  cv.putV d (vecRun (cv.rv d) w cv.elems cv.gmask cv.pfx.zero f)

/-! ## Immediates (R206, R251, R253) -/

/-- A signed immediate of `n` bits, with an extension prefix placed above it. -/
def immS (ext : Option (BitVec 21)) (n x : Nat) : Int :=
  match ext with
  | none => sxt n x
  | some p => sxt (21 + n) (p.toNat * 2 ^ n + x % 2 ^ n)

/-- An unsigned immediate. -/
def immU (ext : Option (BitVec 21)) (n x : Nat) : Nat :=
  match ext with
  | none => x % 2 ^ n
  | some p => p.toNat * 2 ^ n + x % 2 ^ n

/-! ## Number formats of one element -/

/-- A conversion's format: a float, an integer of `w` bits, TERN or BIN (R223, R226). -/
inductive NFmt where
  | flt (f : Fmt)
  | int (w : Nat) (signed : Bool)
  | tern
  | bin
  deriving DecidableEq, Repr

def NFmt.width : NFmt → Nat
  | .flt f => f.width
  | .int w _ => w
  | .tern => 2
  | .bin => 1

def NFmt.isInt : NFmt → Bool
  | .flt _ => false
  | _ => true

/-- The integer formats of codes 8 to 15 and 30. -/
def intCode (code : Nat) : Option NFmt :=
  match code with
  | 8 => some (.int 8 true) | 9 => some (.int 8 false) | 10 => some (.int 4 true) | 11 => some (.int 4 false)
  | 12 => some (.int 16 true) | 13 => some (.int 16 false) | 14 => some (.int 2 true) | 15 => some .tern
  | 30 => some .bin | _ => none

/-- The unscaled formats: codes 0 to 15. -/
def plainCode (code : Nat) : Option NFmt :=
  match fmtOf code with
  | some f => some (.flt f)
  | none => if code < 16 then intCode code else none

/-- i32, n32, i64, n64, numbered from 0. -/
def wideInt (n : Nat) : Option NFmt :=
  match n with
  | 0 => some (.int 32 true) | 1 => some (.int 32 false) | 2 => some (.int 64 true) | 3 => some (.int 64 false) | _ => none

/-- The value of an integer encoding (R226). -/
def NFmt.toInt (f : NFmt) (x : Nat) : Int :=
  match f with
  | .int w s => if s then sxt w x else (x % 2 ^ w : Nat)
  | .tern => match x % 4 with
    | 1 => 1 | 3 => -1 | _ => 0
  | .bin => if x % 2 = 1 then 1 else -1
  | .flt _ => 0

/-- The value of an encoding. -/
def NFmt.value (f : NFmt) (x : Nat) : FVal :=
  match f with
  | .flt g => g.read x
  | g => let v := g.toInt x; .fin (decide (v < 0)) v.natAbs 0

/-- The range of an integer destination (R226, R270). -/
def NFmt.range : NFmt → Int × Int
  | .int w true => (-((2 ^ (w - 1) : Nat) : Int), ((2 ^ (w - 1) : Nat) : Int) - 1)
  | .int w false => (0, ((2 ^ w : Nat) : Int) - 1)
  | _ => (-1, 1)

/-- One element converted (R270, R271). -/
def convert (src dst : NFmt) (x : Nat) (rm : RMode) (u : Nat) (sat : Bool) : Res :=
  let v := src.value x
  let nv := sigNV [v]
  match dst with
  | .flt f => let r := f.put v.exact rm u; (r.1, r.2 ||| nv)
  | d =>
    let r := putInt v.exact d.range.1 d.range.2 rm u (min d.width 16) sat
    (wrapW d.width r.1, r.2 ||| nv)

/-- The source of `vcvt` (R250): none for a code that is cause OPC. -/
def vcvtSrc (ty : Option (BitVec 5)) (sz : Size) : Option NFmt :=
  match ty with
  | none => some (.int sz.bits true)
  | some c => if c.toNat < 4 then wideInt c.toNat else intCode c.toNat

/-- Source and destination of `vfcvt` (R269). -/
def vfcvtPair (ty : Option (BitVec 5)) (f : BitVec 4) : Option (NFmt × NFmt) :=
  let c := match ty with
    | none => 0
    | some c => c.toNat
  let n := f.toNat
  if c < 16 then
    match plainCode c, plainCode n with
    | some a, some b => if a.isInt && b.isInt then none else some (a, b)
    | _, _ => none
  else if 3 ≤ n then none
  else if c < 20 then
    match wideInt (c - 16), plainCode n with
    | some a, some b => some (a, b)
    | _, _ => none
  else if c < 24 then
    match plainCode n, wideInt (c - 20) with
    | some a, some b => some (a, b)
    | _, _ => none
  else none

/-- The destination of `vsrnd` (R271). -/
def vsrndDst (ty : Option (BitVec 5)) (ft : FType) : Option NFmt :=
  match ty with
  | none => some (.flt (if ft = .f32 then fmtBF16 else fmtE4M3))
  | some c => if c.toNat < 16 then plainCode c.toNat else if 20 ≤ c.toNat then wideInt (c.toNat - 20) else none

/-- The element type of `vamo` (R304): none for a missing or unassigned code. -/
def vamoType (ty : Option (BitVec 5)) : Option NFmt :=
  match ty with
  | none => none
  | some c => match c.toNat with
    | 0 => some (.flt fmtF32) | 1 => some (.flt fmtBF16) | 2 => some (.flt fmtF16)
    | 8 => some (.int 8 true) | 9 => some (.int 8 false) | 12 => some (.int 16 true) | 13 => some (.int 16 false)
    | 16 => some (.int 32 true) | 17 => some (.int 32 false) | 18 => some (.int 64 true) | 19 => some (.int 64 false)
    | _ => none

/-- Whether `vamo` has the operation for the type (R219, R304). -/
def vamoOk (row : Bool) (op : AmoOp) (t : NFmt) : Bool :=
  let common := op == .add || op == .min || op == .max
  if row then common else !(!t.isInt && !common && op != .swap)

/-- The source code of `vrst` (R307): none for a code that is cause OPC. -/
def vrstCode (ty : Option (BitVec 5)) : Option Nat :=
  match ty with
  | none => some 0
  | some c => if c.toNat < 3 || (decide (16 ≤ c.toNat) && decide (c.toNat < 30)) then some c.toNat else none

/-- The element width of each format code (R223). -/
def codeWidth (code : Nat) : Nat :=
  match code with
  | 0 => 32 | 1 => 16 | 2 => 16 | 3 => 8 | 4 => 8 | 5 => 6 | 6 => 6 | 7 => 4
  | 8 => 8 | 9 => 8 | 10 => 4 | 11 => 4 | 12 => 16 | 13 => 16 | 14 => 2 | 15 => 2
  | 16 => 8 | 17 => 6 | 18 => 4 | 19 => 3 | 20 => 8 | 21 => 8 | 22 => 6 | 23 => 6 | 24 => 4 | 25 => 8
  | 26 => 8 | 27 => 8 | 28 => 4 | 29 => 4 | 30 => 1 | _ => 32

def xtBits : XType → Nat
  | .i8 | .n8 => 8
  | .i16 | .n16 | .bf16 | .f16 => 16
  | .i32 | .n32 | .f32 => 32
  | .i64 | .n64 => 64

def rtBits : RType → Nat
  | .i8 | .n8 => 8
  | .i16 | .n16 | .bf16 => 16
  | .i32 | .n32 | .f32 => 32

def ftBits : FType → Nat
  | .f32 => 32 | .bf16 => 16 | .f16 => 16

/-! ## Scaled formats (R227 to R230, R273) -/

/-- The scales of a register: code, register, and how many columns a row has. -/
structure Scales where
  code : Nat
  reg : VReg
  cols : Nat
  deriving DecidableEq, Repr

/-- Record sizes in bytes: a row scale 4, F16 and a KBF pair 2, E8M0 and U5M3 1 (R228). -/
def recBytes (code : Nat) : Nat :=
  if code = 26 ∨ code = 27 then 4 else if code = 29 ∨ code < 20 then 2 else 1

/-- Whether a code scales whole rows. -/
def rowScaled (code : Nat) : Bool := code == 26 || code == 27

/-- The blocks of a row of `cols` elements. -/
def blocksOf (code cols : Nat) : Nat := if rowScaled code then 1 else (cols + 31) / 32

/-- The product of two values, exact, as R227 multiplies by a scale: NaN, and ∞ times 0, are NaN. -/
def mulScale (a b : FVal) : FVal :=
  match a, b with
  | .nan _, _ => .nan false
  | _, .nan _ => .nan false
  | .inf x, .inf y => .inf (x != y)
  | .inf x, .fin y m _ => if m = 0 then .nan false else .inf (x != y)
  | .fin x m _, .inf y => if m = 0 then .nan false else .inf (x != y)
  | .fin x m e, .fin y n f => .fin (x != y) (m * n) (e + f)

/-- The value of a KBF element (R229). -/
def kbfValue (w ea eb x : Nat) : FVal :=
  let sel := if bit x (w - 1) then eb else ea
  let neg := bit x (w - 2)
  let m := bits x 0 (w - 2)
  if sel = 0xFF then .nan false
  else if sel = 0 then .fin neg 0 0
  else .fin neg m ((sel : Int) - 127 - ((w : Int) - 3))

/-- The value of an MX scale (R227). -/
def mxScale (x : Nat) : FVal := if x = 0xFF then .nan false else .fin false 1 ((x : Int) - 127)

/-- The value of an element of a scaled code, from the element's bits and the bytes of its scale record, with `t` the tensor
scale of KS4 (R227, R229). Element, block scale and tensor scale are multiplied in this order: a block scale of 0 beside an infinite tensor scale
gives NaN (log 31). -/
def scaledValue (code x rec_ t : Nat) : FVal :=
  if code < 20 then kbfValue (codeWidth code) (bits rec_ 0 8) (bits rec_ 8 8) x
  else match code with
    | 20 => mulScale (fmtE4M3.read x) (mxScale rec_)
    | 21 => mulScale (fmtE5M2.read x) (mxScale rec_)
    | 22 => mulScale (fmtE3M2.read x) (mxScale rec_)
    | 23 => mulScale (fmtE2M3.read x) (mxScale rec_)
    | 24 => mulScale (fmtE2M1.read x) (mxScale rec_)
    | 25 => mulScale (.fin (decide (sxt 8 x < 0)) (sxt 8 x).natAbs (-6)) (mxScale rec_)
    | 26 => mulScale ((NFmt.int 8 true).value x) (fmtF32.read rec_)
    | 27 => mulScale (fmtE4M3.read x) (fmtF32.read rec_)
    | 28 => mulScale (mulScale (fmtE2M1.read x) (fmtU5M3.read rec_)) (fmtF32.read t)
    | _ => mulScale ((NFmt.int 4 true).value x) (fmtF16.read rec_)

/-- The byte offset of a scale record in the scale register: (row, block) order, after the tensor scale of KS4 (R273). -/
def recAt (code cols row block : Nat) : Nat :=
  (if code = 28 then 16 else 0) + (row * blocksOf code cols + block) * recBytes code

/-- The record that covers element `i` of a register operand, and the tensor scale. -/
def Scales.rec_ (s : Scales) (i : Nat) : Nat × Nat :=
  let row := i / s.cols
  let block := if rowScaled s.code then 0 else i % s.cols / 32
  let o := recAt s.code s.cols row block
  ((s.reg.extractLsb' (8 * o) (8 * recBytes s.code)).toNat, (s.reg.extractLsb' 0 32).toNat)

/-- The value of element `i` of a scaled register operand. -/
def Scales.value (s : Scales) (elems : VReg) (i : Nat) : FVal :=
  let (r, t) := s.rec_ i
  scaledValue s.code (elem elems (codeWidth s.code) i) r t

/-- A B2X element: hi + lo, exactly, and NaN when a part is; an exact zero sum has the sign of the mode (R230, R234, R274). -/
def b2xValue (x : Nat) (rm : RMode) : Exact × Nat := exAdd (fmtBF16.read (bits x 16 16)) (fmtBF16.read (bits x 0 16)) rm

/-! ## Tensor descriptors (R344, R345) -/

def TDesc.rank (t : TDesc) : Nat := bits t.w0.toNat 56 3
def TDesc.slay (t : TDesc) : Bool := t.w0.getLsbD 55
def TDesc.tdef (t : TDesc) : Bool := t.w0.getLsbD 54
def TDesc.scratch (t : TDesc) : Bool := t.w0.getLsbD 53
def TDesc.fmt (t : TDesc) : Nat := bits t.w0.toNat 48 5
def TDesc.base (t : TDesc) : Nat := bits t.w0.toNat 0 48
def TDesc.stat (t : TDesc) : Nat := bits t.w0.toNat 59 5
def TDesc.isScaled (t : TDesc) : Bool := decide (16 ≤ t.fmt) && decide (t.fmt < 30)

/-- The scale base of a scaled descriptor. -/
def TDesc.sbase (t : TDesc) : Nat := bits t.w2.toNat 16 48

/-- Dimension `j`; 2 to 4 are taken as zero in a scaled descriptor. -/
def TDesc.dim (t : TDesc) (j : Nat) : Nat :=
  match j with
  | 0 => bits t.w1.toNat 0 48
  | 1 => bits t.w2.toNat 0 16
  | 2 => if t.isScaled then 0 else bits t.w2.toNat 16 16
  | 3 => if t.isScaled then 0 else bits t.w2.toNat 32 16
  | _ => if t.isScaled then 0 else bits t.w2.toNat 48 16

/-- Stride `j` in elements; 3 and 4 are derived. -/
def TDesc.stride (t : TDesc) (j : Nat) : Int :=
  match j with
  | 0 => sxt 16 (bits t.w1.toNat 48 16)
  | 1 => sxt 32 (bits t.w3.toNat 0 32)
  | 2 => sxt 32 (bits t.w3.toNat 32 32)
  | 3 => sxt 32 (bits t.w3.toNat 32 32) * t.dim 2
  | _ => sxt 32 (bits t.w3.toNat 32 32) * t.dim 2 * t.dim 3

def TDesc.width (t : TDesc) : Nat := codeWidth t.fmt

/-- How many elements the tensor has. -/
def TDesc.count (t : TDesc) : Nat := if t.rank = 0 then 0 else (upto t.rank).foldl (fun n j => n * t.dim j) 1

/-- R345. -/
def TDesc.malformed (t : TDesc) : Bool :=
  let r := t.rank
  let w := t.width
  let dims := if t.isScaled then 2 else 5
  let badDim := (upto dims).any (fun j => if j < r then t.dim j == 0 else t.dim j != 0)
  let big (x : Int) : Bool := decide (x < -2147483648) || decide (2147483647 < x)
  t.stat != 0 || decide (5 < r) || badDim || decide (2 ^ 44 ≤ t.count) ||
    (upto 5).any (fun j => big (t.stride j)) ||
    (t.isScaled && (decide (2 < r) || t.stride 2 != 0 || t.sbase % 16 != 0)) ||
    (decide (w < 8) && (t.stride 0 != 1 || t.dim 0 * w % 8 != 0 ||
      ((List.range 4).any (fun k => t.stride (k + 1) * w % 8 != 0)))) ||
    (decide (8 ≤ w) && t.base * 8 % w != 0) ||
    (t.scratch && (decide (2 ^ 22 ≤ t.base) || (t.isScaled && decide (2 ^ 22 ≤ t.sbase))))

/-- T = 1 for a choice against the descriptor's default (R219). -/
def TDesc.tBit (t : TDesc) (tc : TChoice) : Bool :=
  match tc with
  | .dflt => t.tdef
  | .t0 => false
  | .t1 => true

/-- A descriptor's words. -/
def TDesc.word (t : TDesc) (w : Nat) : Word64 :=
  match w with
  | 0 => t.w0 | 1 => t.w1 | 2 => t.w2 | _ => t.w3

end Sys2Proof.Machine
end

