-- ==== Sys2Proof/Machine/Legal.lean ====
section
/-! DEFINITION. What each form reads and writes, which pipe class it belongs to (R209) and which prefixes it takes (R207, R282,
R320), and the decode checks that need the prefixes, the window, the launch or the whole convoy (R50, R58, R149, R171, R207,
R208, R210, R212, R244). -/

namespace Sys2Proof.Machine

/-- The pipe classes of R209. -/
inductive Pipe where
  | l | s | a | x | ctl | none
  deriving DecidableEq, Repr

/-- How much of a register a member reads: the elements below Elems(), the active ones, or a number of bits. -/
inductive Extent where
  | elems | act | total
  deriving DecidableEq, Repr

/-- One form under its prefixes. `rd`: vector registers read, at an element width (0: every byte), to an extent; `gr`: the g
registers a memory form addresses with; `sw`: special registers written (R370); `widths`: the element widths that R244 checks;
then the prefix kinds it takes, what the decoder refuses, the tile and the barrier level it names, and whether it may end a lode. -/
structure Info where
  pipe : Pipe := .none
  rd : List (VName × Nat × Extent) := []
  wr : List VName := []
  gw : List GName := []
  gr : List GName := []
  kw : List KName := []
  sw : List Nat := []
  widths : List Nat := []
  mask : Bool := false
  round : Bool := false
  sat : Bool := false
  zero : Bool := false
  ext : Bool := false
  ty : Bool := false
  opc : Bool := false
  rsv : Bool := false
  reg : Bool := false
  z : Option ZName := none
  level : Option (BitVec 3) := none
  wbase : Option (BitVec 11) := none
  ending : Bool := false
  rev : Bool := false
  deriving DecidableEq, Repr

def vInt (d : VName) (srcs : List VName) (w : Nat) : Info :=
  { pipe := .a, rd := srcs.map (fun v => (v, w, .elems)), wr := [d], widths := [w], mask := true, sat := true, zero := true }

def vFlt (p : Pipe) (d : VName) (srcs : List VName) (w : Nat) : Info :=
  { pipe := p, rd := srcs.map (fun v => (v, w, .elems)), wr := [d], widths := [w], mask := true, round := true, zero := true }

def vXl (d : VName) (srcs : List VName) (w : Nat) : Info :=
  { pipe := .x, rd := srcs.map (fun v => (v, w, .elems)), wr := [d], widths := [w], mask := true, zero := true }

def kTest (d : KName) (a b : VName) (w : Nat) : Info :=
  { pipe := .x, rd := [(a, w, .elems), (b, w, .elems)], kw := [d], widths := [w], mask := true, zero := true }

def vRev (rd : List (VName × Nat × Extent)) (wr : List VName) (ws : List Nat) : Info :=
  { pipe := .a, rd := rd, wr := wr, widths := ws, mask := true, round := true, zero := true, sw := [0x10], rev := true }

/-- The widths of 8 bits or more among formats (R250, R270). -/
def wide (fs : List NFmt) : List Nat := (fs.map NFmt.width).filter (fun w => decide (8 ≤ w))

def xtFlt (xt : XType) : Bool := xt == .f32 || xt == .bf16 || xt == .f16
def rtFlt (rt : RType) : Bool := rt == .f32 || rt == .bf16
def bfBits (bf : Bool) : Nat := if bf then 16 else 32

/-- A format code that `vfcvti` refuses (R272). -/
def blkBad (code : Nat) (ft : FType) : Bool :=
  decide (code < 16) || code == 30 || (code == 31 && ft != .f32)

/-- A format code that the tensor loads and stores refuse (R300). -/
def tensBad (code : Nat) : Bool := !(decide (code ≤ 4) || code == 8 || code == 9 || code == 12 || code == 13)

/-- The coordinate registers of a tensor form. -/
def coordRegs (b : GName) (n : Nat) : List GName := (upto n).map (fun j => b + BitVec.ofNat 6 j)

def tensLd (x : TDesc) (d : VName) (b : GName) (tag : Bool) : Info :=
  let n := x.rank + (if tag then 1 else 0)
  { pipe := .l, wr := [d], widths := [x.width], mask := true, zero := true, gr := coordRegs b n
    opc := tensBad x.fmt || (tag && !x.scratch), reg := decide (64 < b.toNat + n) }

/-- The IDX field of `mmac`'s operand block (R350). -/
def mmacIdx (ext : Option (BitVec 21)) : VName :=
  match ext with
  | some e => e.extractLsb' 14 7
  | none => 0

/-- What a word's form is under its prefixes and the tensor table as it stood when the convoy started (R262, R272, R300). -/
def info (tens : Tab TDesc) (p : Pfx) : Instr → Info
  | .vadd _ d a b sz => vInt d [a, b] sz.bits
  | .vsub _ d a b sz => vInt d [a, b] sz.bits
  | .vmul _ d a b sz => vInt d [a, b] sz.bits
  | .vmulh _ d a b sz => vInt d [a, b] sz.bits
  | .vmulhn _ d a b sz => vInt d [a, b] sz.bits
  | .vmin _ d a b sz => vInt d [a, b] sz.bits
  | .vmax _ d a b sz => vInt d [a, b] sz.bits
  | .vminn _ d a b sz => vInt d [a, b] sz.bits
  | .vmaxn _ d a b sz => vInt d [a, b] sz.bits
  | .vand _ d a b sz => vInt d [a, b] sz.bits
  | .vor _ d a b sz => vInt d [a, b] sz.bits
  | .vxor _ d a b sz => vInt d [a, b] sz.bits
  | .vandn _ d a b sz => vInt d [a, b] sz.bits
  | .vshl _ d a b sz => vInt d [a, b] sz.bits
  | .vshr _ d a b sz => vInt d [a, b] sz.bits
  | .vsra _ d a b sz => vInt d [a, b] sz.bits
  | .vrot _ d a b sz => vInt d [a, b] sz.bits
  | .vbext _ d a b sz => vInt d [a, b] sz.bits
  | .vabs _ d a sz => vInt d [a] sz.bits
  | .vneg _ d a sz => vInt d [a] sz.bits
  | .vclz _ d a sz => vInt d [a] sz.bits
  | .vpopc _ d a sz => vInt d [a] sz.bits
  | .vmv _ d a sz => vInt d [a] sz.bits
  | .vfsh _ d a b sz => vInt d [a, b, d] sz.bits
  | .vbins _ d a b sz => vInt d [a, b, d] sz.bits
  | .vsel _ d a b sz => vInt d [a, b] sz.bits
  | .vcvt _ d a sz =>
    match vcvtSrc p.ty sz with
    | some f => { vInt d [] sz.bits with rd := [(a, f.width, .elems)], widths := sz.bits :: wide [f], ty := true }
    | none => { opc := true }
  | .vidx _ d sz => vInt d [] sz.bits
  | .vaddi _ d a sz _ => { vInt d [a] sz.bits with ext := true }
  | .vandi _ d a sz _ => { vInt d [a] sz.bits with ext := true }
  | .vori _ d a sz _ => { vInt d [a] sz.bits with ext := true }
  | .vxori _ d a sz _ => { vInt d [a] sz.bits with ext := true }
  | .vshli _ d a sz i => { vInt d [a] sz.bits with ext := true, rsv := decide (sz.bits ≤ immU p.ext 6 i.toNat) }
  | .vshri _ d a sz i => { vInt d [a] sz.bits with ext := true, rsv := decide (sz.bits ≤ immU p.ext 6 i.toNat) }
  | .vsrai _ d a sz i => { vInt d [a] sz.bits with ext := true, rsv := decide (sz.bits ≤ immU p.ext 6 i.toNat) }
  | .vmvi _ d sz _ => { vInt d [] sz.bits with ext := true }
  | .gadd _ d _ _ => { pipe := .a, gw := [d] }
  | .gsub _ d _ _ => { pipe := .a, gw := [d] }
  | .gmul _ d _ _ => { pipe := .a, gw := [d] }
  | .gand _ d _ _ => { pipe := .a, gw := [d] }
  | .gor _ d _ _ => { pipe := .a, gw := [d] }
  | .gxor _ d _ _ => { pipe := .a, gw := [d] }
  | .gshl _ d _ _ => { pipe := .a, gw := [d] }
  | .gshr _ d _ _ => { pipe := .a, gw := [d] }
  | .gsra _ d _ _ => { pipe := .a, gw := [d] }
  | .gmv _ d _ => { pipe := .a, gw := [d] }
  | .gaddi _ d _ _ => { pipe := .a, gw := [d], ext := true }
  | .gandi _ d _ _ => { pipe := .a, gw := [d], ext := true }
  | .glui _ d _ => { pipe := .a, gw := [d], ext := true }
  | .gshli _ d _ i => { pipe := .a, gw := [d], ext := true, rsv := decide (64 ≤ immU p.ext 6 i.toNat) }
  | .vfadd _ d a b ft => vFlt .a d [a, b] (ftBits ft)
  | .vfsub _ d a b ft => vFlt .a d [a, b] (ftBits ft)
  | .vfmul _ d a b ft => vFlt .a d [a, b] (ftBits ft)
  | .vfmin _ d a b ft => vFlt .a d [a, b] (ftBits ft)
  | .vfmax _ d a b ft => vFlt .a d [a, b] (ftBits ft)
  | .vfsgn _ d a b ft => vFlt .a d [a, b] (ftBits ft)
  | .vfscale _ d a b ft => vFlt .a d [a, b] (ftBits ft)
  | .vfdiv _ d a b ft => vFlt .x d [a, b] (ftBits ft)
  | .vfma _ d a b ft => vFlt .a d [a, b, d] (ftBits ft)
  | .vfms _ d a b ft => vFlt .a d [a, b, d] (ftBits ft)
  | .vfnma _ d a b ft => vFlt .a d [a, b, d] (ftBits ft)
  | .vfnms _ d a b ft => vFlt .a d [a, b, d] (ftBits ft)
  | .vfabs _ d a ft => vFlt .a d [a] (ftBits ft)
  | .vfneg _ d a ft => vFlt .a d [a] (ftBits ft)
  | .vfcls _ d a ft => vFlt .a d [a] (ftBits ft)
  | .vfsqrt _ d a ft => vFlt .x d [a] (ftBits ft)
  | .vfrcp _ d a ft => vFlt .x d [a] (ftBits ft)
  | .vfrsq _ d a ft => vFlt .x d [a] (ftBits ft)
  | .vfexp2 _ d a ft => vFlt .x d [a] (ftBits ft)
  | .vflog2 _ d a ft => vFlt .x d [a] (ftBits ft)
  | .vftanh _ d a ft => vFlt .x d [a] (ftBits ft)
  | .vfsigm _ d a ft => vFlt .x d [a] (ftBits ft)
  | .vsrnd _ d a b ft =>
    match vsrndDst p.ty ft with
    | some f => { vFlt .a d [] (ftBits ft) with rd := [(a, ftBits ft, .elems), (b, f.width, .elems)], widths := ftBits ft :: wide [f], sat := f.isInt, ty := true }
    | none => { opc := true }
  | .vfcvt _ d a f =>
    match vfcvtPair p.ty f with
    | some (x, y) => { vFlt .a d [] 0 with rd := [(a, x.width, .elems)], widths := wide [x, y], sat := y.isInt, ty := true }
    | none => { opc := true }
  | .vfcvtiInto _ d a t ft =>
    let code := (tget {} tens t.toNat).fmt
    { vFlt .a d [a] (ftBits ft) with wr := [d, d + 1], opc := blkBad code ft }
  | .vfcvtiOut _ d a t ft =>
    let code := (tget {} tens t.toNat).fmt
    { vFlt .a d [] (ftBits ft) with rd := [(a, codeWidth code, .elems), (a + 1, 0, .elems)], opc := blkBad code ft }
  | .vrng _ d sz => { pipe := .a, wr := [d], widths := [sz.bits], mask := true, zero := true, sw := [0x28, 0x29] }
  | .kwhilelt _ d _ _ sz => { pipe := .x, kw := [d], sw := [2], widths := [sz.bits] }
  | .kwhilele _ d _ _ sz => { pipe := .x, kw := [d], sw := [2], widths := [sz.bits] }
  | .kcmp816 _ d a b _ wide => kTest d a b (if wide then 16 else 8)
  | .kcmp3264 _ d a b _ wide => kTest d a b (if wide then 64 else 32)
  | .kfcmp _ d a b _ ft => kTest d a b (ftBits ft)
  | .kand _ d _ _ => { pipe := .x, kw := [d] }
  | .kor _ d _ _ => { pipe := .x, kw := [d] }
  | .kxor _ d _ _ => { pipe := .x, kw := [d] }
  | .kandn _ d _ _ => { pipe := .x, kw := [d] }
  | .knot _ d _ => { pipe := .x, kw := [d] }
  | .kmv _ d _ => { pipe := .x, kw := [d] }
  | .kpop _ d _ => { pipe := .x, gw := [d] }
  | .kfirst _ d _ => { pipe := .x, gw := [d] }
  | .kset _ d _ => { pipe := .x, kw := [d] }
  | .kld _ d a => { pipe := .l, kw := [d], gr := [a] }
  | .kst _ _ a => { pipe := .s, gr := [a] }
  | .vshapeImm _ _ _ => { pipe := .x, sw := [3] }
  | .vshapeReg _ _ _ => { pipe := .x, sw := [3] }
  | .tcoll _ d _ => { pipe := .x, gw := [d, d + 1] }
  | .gsubbr a _ => { pipe := .ctl, ending := true, gw := [a] }
  | .vperm _ d a b sz => vXl d [a, b] sz.bits
  | .vzip _ d a b sz => vXl d [a, b] sz.bits
  | .vunzip _ d a sz => vXl d [a] sz.bits
  | .vslup _ d a _ sz => vXl d [a] sz.bits
  | .vsldn _ d a _ sz => vXl d [a] sz.bits
  | .vbcast _ d a _ sz => vXl d [a] sz.bits
  | .vtrans _ d a sz => vXl d [a] sz.bits
  | .vcomp _ d a sz => vXl d [a] sz.bits
  | .vrsum _ d a xt => { vXl d [] (xtBits xt) with round := xtFlt xt, rd := [(a, xtBits xt, .act)] }
  | .vrmax _ d a xt => { vXl d [] (xtBits xt) with rd := [(a, xtBits xt, .act)] }
  | .vrmin _ d a xt => { vXl d [] (xtBits xt) with rd := [(a, xtBits xt, .act)] }
  | .vrand _ d a xt => { vXl d [] (xtBits xt) with rd := [(a, xtBits xt, .act)] }
  | .vror _ d a xt => { vXl d [] (xtBits xt) with rd := [(a, xtBits xt, .act)] }
  | .vscan _ d a xt => { vXl d [] (xtBits xt) with round := xtFlt xt, rd := [(a, xtBits xt, .act)] }
  | .vexpd _ d a xt => vXl d [a] (xtBits xt)
  | .vlsnd _ a => { pipe := .x, rd := [(a, 4096, .total)] }
  | .vlrcv _ d => { pipe := .x, wr := [d] }
  | .vld _ d _ sz _ => { pipe := .l, wr := [d], widths := [sz.bits], mask := true, zero := true, ext := true }
  | .vlds _ d _ _ sz => { pipe := .l, wr := [d], widths := [sz.bits], mask := true, zero := true }
  | .vldff _ d _ sz _ => { pipe := .l, wr := [d], widths := [sz.bits], mask := true, zero := true, ext := true, sw := [1] }
  | .vldra _ d _ sz _ => { pipe := .l, wr := [d], widths := [sz.bits], mask := true, zero := true, ext := true }
  | .vldx _ d _ b sz => { pipe := .l, rd := [(b, sz.bits, .elems)], wr := [d], widths := [sz.bits], mask := true, zero := true }
  | .vst _ d a sz _ => { pipe := .s, rd := [(d, sz.bits, .act)], widths := [sz.bits], mask := true, gr := [a], ext := true }
  | .vsts _ d a b sz => { pipe := .s, rd := [(d, sz.bits, .act)], widths := [sz.bits], mask := true, gr := [a, b] }
  | .vstx _ d a b sz => { pipe := .s, rd := [(d, sz.bits, .act), (b, sz.bits, .elems)], widths := [sz.bits], mask := true, gr := [a] }
  | .vldt _ d t b _ => tensLd (tget {} tens t.toNat) d b false
  | .vldtag _ d t b _ => tensLd (tget {} tens t.toNat) d b true
  | .vstt _ d t b _ =>
    let x := tget {} tens t.toNat
    { pipe := .s, rd := [(d, x.width, .act)], widths := [x.width], mask := true, gr := coordRegs b x.rank, opc := tensBad x.fmt, reg := decide (64 < b.toNat + x.rank) }
  | .gld _ d a _ _ _ => { pipe := .l, gw := [d], gr := [a], ext := true }
  | .gst _ d a _ _ => { pipe := .s, gr := [a, d], ext := true }
  | .vamo _ d a b op =>
    match vamoType p.ty with
    | some f => { pipe := .s, rd := [(b, f.width, .act)], wr := [d], widths := [f.width], gr := [a], mask := true, round := !f.isInt, ty := true, opc := !vamoOk false op f }
    | none => { opc := true }
  | .vamoRow _ d a b op =>
    match vamoType p.ty with
    | some f => { pipe := .s, rd := [(b, f.width, .act)], wr := [d], widths := [f.width], gr := [a], mask := true, round := !f.isInt, ty := true, opc := !vamoOk true op f }
    | none => { opc := true }
  | .gamo _ d a b _ _ => { pipe := .s, gw := [d], gr := [a, b] }
  | .vrst _ d a b bf =>
    match vrstCode p.ty with
    | some c =>
      let w := if c < 16 then codeWidth c else codeWidth c
      { pipe := .s, rd := (b, w, .act) :: (if c < 16 then [] else [(d, 0, .elems)]), widths := (if bf then 16 else 32) :: (if 8 ≤ w then [w] else [])
        gr := [a], mask := true, round := true, ty := true, rsv := decide (c < 16) && d != 0, reg := decide (16 ≤ c) && d == 0 }
    | none => { opc := true }
  | .pref _ a => { pipe := .l, gr := [a] }
  | .fence _ _ _ _ _ _ => { pipe := .s }
  | .clean _ a b => { pipe := .s, gr := [a, b] }
  | .inval _ a b => { pipe := .s, gr := [a, b] }
  | .settle _ a => { pipe := .s, gr := [a] }
  | .renew _ a _ => { pipe := .s, gr := [a] }
  | .setlc _ d a _ => { pipe := .s, gw := [d], gr := [a] }
  | .iwc _ d a => { pipe := .s, gw := [d], gr := [a] }
  | .rmul _ d a b rt => vRev [(a, rtBits rt, .elems), (b, rtBits rt, .elems)] [d] [rtBits rt]
  | .radd _ d a b rt => vRev [(a, rtBits rt, .elems), (b, rtBits rt, .elems)] [d] [rtBits rt]
  | .umul _ d a b rt => vRev [(d, rtBits rt, .elems), (b, rtBits rt, .elems)] [a] [rtBits rt]
  | .uadd _ d a b rt => vRev [(d, rtBits rt, .elems), (b, rtBits rt, .elems)] [a] [rtBits rt]
  | .rfma _ d a b rt => vRev [(a, rtBits rt, .elems), (b, rtBits rt, .elems), (d, rtBits rt, .elems)] [d] [rtBits rt]
  | .ufma _ d a b rt => vRev [(a, rtBits rt, .elems), (b, rtBits rt, .elems), (d, rtBits rt, .elems)] [d] [rtBits rt]
  | .rnarrow _ d a rt => vRev [(a, rtBits rt, .elems)] [d] [rtBits rt, rtBits rt / 2]
  | .unarrow _ d a rt => vRev [(d, rtBits rt / 2, .elems)] [a] [rtBits rt, rtBits rt / 2]
  | .rshr _ d a _ rt => vRev [(a, rtBits rt, .elems)] [d] [rtBits rt]
  | .ushr _ d a _ rt => vRev [(d, rtBits rt, .elems)] [a] [rtBits rt]
  | .rscale _ d a _ bf => vRev [(a, bfBits bf, .elems)] [d] [bfBits bf]
  | .uscale _ d a _ bf => vRev [(d, bfBits bf, .elems)] [a] [bfBits bf]
  | .rlrelu _ d a rt _ => { vRev [(a, rtBits rt, .elems)] [d] [rtBits rt] with round := rtFlt rt }
  | .ulrelu _ d a rt _ => { vRev [(d, rtBits rt, .elems)] [a] [rtBits rt] with round := rtFlt rt }
  | .tsave _ a => { pipe := .s, sw := [0x10, 0x11, 0x12], gr := [a], rev := true }
  | .trest _ a => { pipe := .l, sw := [0x10, 0x11, 0x12], gr := [a], rev := true }
  | .tmark _ d => { pipe := .a, gw := [d], rev := true }
  | .tdepth _ d => { pipe := .a, gw := [d], rev := true }
  | .tchk _ _ => { pipe := .a, rev := true }
  | .mattach _ _ => { pipe := .s, sw := [0x18] }
  | .mdetach _ => { pipe := .s, sw := [0x18] }
  | .mzero _ _ => { pipe := .s }
  | .tdef _ _ a => { pipe := .l, gr := [a] }
  | .tget _ d _ _ => { pipe := .x, gw := [d] }
  | .qfence _ _ => { pipe := .s }
  | .qwait _ _ _ => { pipe := .s }
  | .qcnt _ d _ => { pipe := .x, gw := [d] }
  | .mmac _ _ _ _ idx _ _ =>
    let x := mmacIdx p.ext
    { pipe := .s, rd := if idx then [(x, 16, .elems)] else [], widths := if idx then [16] else [], ext := true, opc := idx && p.ext.isNone, rsv := !idx && x != 0 }
  | .vzrd _ v z _ _ => { pipe := .l, wr := [v], z := some z }
  | .vzcrd _ v z _ => { pipe := .l, wr := [v], z := some z }
  | .vzwr _ v z _ _ => { pipe := .s, rd := [(v, 4096, .total)], z := some z }
  | .vzcwr _ v z _ => { pipe := .s, rd := [(v, 1024, .total)], z := some z }
  | .cpy _ _ _ _ => { pipe := .s }
  | .gath _ _ _ _ => { pipe := .s }
  | .scat _ _ _ _ => { pipe := .s }
  | .coll _ _ _ _ => { pipe := .s }
  | .bank _ _ _ => { pipe := .s }
  | .br _ => { pipe := .ctl, ending := true }
  | .jal a _ => { pipe := .ctl, ending := true, gw := [a] }
  | .bcc _ _ _ => { pipe := .ctl, ending := true }
  | .bk _ _ _ => { pipe := .ctl, ending := true }
  | .nop _ => {}
  | .stop _ => { pipe := .ctl, ending := true }
  | .yield _ => { pipe := .ctl }
  | .bar _ level => { pipe := .ctl, level := some level }
  | .jr _ _ => { pipe := .ctl, ending := true }
  | .lfetch _ _ => { pipe := .ctl, ending := true }
  | .sread _ d _ => { pipe := .x, gw := [d] }
  | .swrite _ _ num => { pipe := .x, sw := [num.toNat] }
  | .trap _ _ => { pipe := .ctl }
  | .brk _ _ => { pipe := .ctl }
  | .wbase _ n => { pipe := .ctl, sw := [4], wbase := some n }
  | .fclr _ _ => { pipe := .x, sw := [0] }
  | .poolq _ d _ => { pipe := .x, gw := [d] }
  | _ => { opc := true }

/-! ## Prefix words -/

/-- A prefix word added to those already read: none for a second one of a kind (R207). -/
def addPfx (p : Pfx) : Instr → Option Pfx
  | .maskSelect inv k => if p.mask.isSome then none else some { p with mask := some (k, inv) }
  | .rounding v m => if p.rm.isSome then none else some { p with rm := some (m, v) }
  | .saturateAndZeroing g z s => if p.sat || p.zero then none else some { p with sat := s, zero := z, sgn := g }
  | .immediateExtension e => if p.ext.isSome then none else some { p with ext := some e }
  | .secondType c => if p.ty.isSome then none else some { p with ty := some c }
  | _ => none

def isPfx : Instr → Bool
  | .maskSelect _ _ | .rounding _ _ | .saturateAndZeroing _ _ _ | .immediateExtension _ | .secondType _ => true
  | _ => false

/-- Whether a form takes a prefix word (R207). -/
def takesPfx (f : Info) : Instr → Bool
  | .maskSelect _ _ => f.mask
  | .rounding _ _ => f.round
  | .saturateAndZeroing _ z s => (!s || f.sat) && (!z || f.zero)
  | .immediateExtension _ => f.ext
  | .secondType _ => f.ty
  | _ => true

/-- The first of the prefix words before a form that is a second one of its kind or that the form does not take (R207, R208). -/
def pfxBad (f : Info) : Pfx → List (Nat × Instr) → Option Nat
  | _, [] => none
  | p, (k, i) :: l =>
    match addPfx p i with
    | none => some k
    | some p' => if takesPfx f i then pfxBad f p' l else some k

/-- The prefixes of a list of prefix words, the first of each kind. -/
def pfxOf (l : List (Nat × Instr)) : Pfx := l.foldl (fun p x => (addPfx p x.2).getD p) {}

/-- The registers a member reads, the random-bits register of STO among them (R206, R210). -/
def readRegs (f : Info) (p : Pfx) : List VName :=
  let l := f.rd.map Prod.fst
  match p.rm with
  | some (.sto, v) => l ++ [v]
  | _ => l

/-! ## Members of a convoy -/

/-- The words of a convoy from a lode's word `k`: through the first word with C = 0 that is not a prefix, at most to the
lode's end (R161). The lode's remaining words are given. -/
def convoyWords : List Word32 → List Word32
  | [] => []
  | w :: ws =>
    let pfx := w.extractLsb' 25 6 == 0x3F
    if w[31] || pfx then w :: convoyWords ws else [w]

/-- Whether a word is a prefix word, by its major. -/
def isPfxWord (w : Word32) : Bool := w.extractLsb' 25 6 == 0x3F

/-- The members decode finds in a run: each non-prefix word with the prefixes before it, and a run of prefixes bound to no
word, limited to 7 (R381). -/
def countMembers (ws : List Word32) : Nat :=
  let n := (ws.filter (fun w => !isPfxWord w)).length
  min 7 (match ws.getLast? with
    | some w => if isPfxWord w then n + 1 else n
    | none => n)

/-- A member: its instruction, its prefixes, its word's index, and its form. -/
structure Memb where
  i : Instr
  p : Pfx
  at_ : Nat
  f : Info
  deriving DecidableEq, Repr

/-- What decode needs besides the words: the tensor table, P, WB, the accumulator tiles, and NLEV. -/
structure DecEnv where
  tens : Tab TDesc
  pregs : Nat
  wb : Nat
  tiles : Nat
  nlev : Nat
  deriving DecidableEq, Repr

/-- The checks of one word that need its prefixes and the machine: the causes OPC, RSV and REG (R203, R50, R58, R171, R372). -/
def wordBad (e : DecEnv) (f : Info) (p : Pfx) : Bool × Bool × Bool :=
  let names := (readRegs f p ++ f.wr).filter (fun v => v != 0)
  let win := names.any (fun v => decide (e.pregs ≤ e.wb + v.toNat))
  let tile := match f.z with
    | some z => decide (e.tiles ≤ z.toNat)
    | none => false
  let lev := match f.level with
    | some n => decide (e.nlev ≤ n.toNat)
    | none => false
  let wb := match f.wbase with
    | some n => decide (e.pregs ≤ 8 * n.toNat)
    | none => false
  (f.opc, f.rsv || wb, f.reg || win || tile || lev)

def lowest (opc rsv reg : Bool) : Option Cause :=
  if opc then some .opc else if rsv then some .rsv else if reg then some .reg else none

/-- Whether a word that names a tensor names none: its descriptor then gives no cause of its own (R203). -/
def noTensor (w : Word32) (i : Instr) : Bool :=
  match i with
  | .vldt _ _ _ _ _ | .vstt _ _ _ _ _ | .vldtag _ _ _ _ _ => w[17]
  | .vfcvtiInto _ _ _ _ _ | .vfcvtiOut _ _ _ _ _ => w[10]
  | _ => false

/-- One word under the prefixes read so far: its lowest cause, or its instruction (R212). -/
def checkWord (e : DecEnv) (p : Pfx) (w : Word32) : Except Cause Instr :=
  match decodeWord w with
  | .ok i =>
    if isPfx i then
      match i with
      | .rounding v .sto => if v != 0 && decide (e.pregs ≤ e.wb + v.toNat) then .error .reg else .ok i
      | _ => .ok i
    else
      let b := wordBad e (info e.tens p i) p
      match lowest b.1 b.2.1 b.2.2 with
      | some c => .error c
      | none => .ok i
  | .error (c, none) => .error c
  | .error (c, some i) =>
    if isPfx i then .error c else
    let b := wordBad e (info e.tens p i) p
    let opc := b.1 && !noTensor w i
    match lowest opc (b.2.1 || c == .rsv) true with
    | some c => .error c
    | none => .error c

/-- The first check, in word order (R212): the first word at fault with its lowest cause, or the members, and the first prefix
word that binds to nothing that takes it. `pend` are the prefix words read since the last other word. -/
def checkWords (e : DecEnv) : Nat → List (Nat × Instr) → List Word32 → Except (Nat × Cause) (List Memb × Option Nat)
  | _, pend, [] => .ok ([], pend.head?.map Prod.fst)
  | k, pend, w :: ws =>
    let p := pfxOf pend
    match checkWord e p w with
    | .error c => .error (k, c)
    | .ok i =>
      if isPfx i then checkWords e (k + 1) (pend ++ [(k, i)]) ws
      else
        let f := info e.tens p i
        match checkWords e (k + 1) [] ws with
        | .error x => .error x
        | .ok (ms, bad) => .ok (⟨i, p, k, f⟩ :: ms, (pfxBad f {} pend).orElse (fun _ => bad))

/-- How many of a list of register names lie in bank `b`, each name once, v0 in none (R210). -/
def bankCount (l : List VName) (b : Nat) : Nat := ((l.eraseDups).filter (fun v => v != 0 && v.toNat % 4 == b)).length

def hasDup {α : Type} [BEq α] : List α → Bool
  | [] => false
  | x :: l => l.contains x || hasDup l

/-- R210 and R320: whether the members form a legal convoy. A run that breaks a condition faults at the first member with which
it does. -/
def convoyOk (ms : List Memb) : Bool :=
  let once (p : Pipe) : Bool := decide ((ms.filter (fun m => m.f.pipe == p)).length ≤ 1)
  let ctlLast := (ms.dropLast).all (fun m => m.f.pipe != .ctl)
  let reads (b : Nat) : Nat := ms.foldl (fun n m => n + bankCount (readRegs m.f m.p) b) 0
  let writes (b : Nat) : Nat := ms.foldl (fun n m => n + bankCount m.f.wr b) 0
  let vw := (ms.map (fun m => m.f.wr.filter (fun v => v != 0))).flatten
  let gw := (ms.map (fun m => m.f.gw.filter (fun g => g != 0))).flatten
  decide (1 ≤ ms.length) && decide (ms.length ≤ 4) && once .l && once .s && once .a && once .x && once .ctl && ctlLast &&
    (upto 4).all (fun b => decide (reads b ≤ 2) && decide (writes b ≤ 2)) &&
    !hasDup vw && !hasDup gw && !hasDup (ms.map (fun m => m.f.kw)).flatten && !hasDup (ms.map (fun m => m.f.sw)).flatten &&
    decide ((ms.filter (fun m => m.f.rev)).length ≤ 1)

/-- The decode of a run of words that starts at word `k` of its lode: the members, or the word's index and the cause, in the
order of R212: words, prefix binding, lode end, convoy rules. A run that ends in word 31 without closing is an illegal
encoding too (R149): by a prefix, cause PFX (R208); by C = 1, cause OVR. -/
def decodeConvoy (e : DecEnv) (k : Nat) (ws : List Word32) : Except (Nat × Cause) (List Memb) :=
  match checkWords e 0 [] ws with
  | .error x => .error x
  | .ok (ms, some b) => .error (b, .pfx)
  | .ok (ms, none) =>
    let last := ws.getD (ws.length - 1) 0
    let endsLode := k + ws.length == 32
    if last[31] then .error (ws.length - 1, .ovr)
    else if endsLode && !((ms.getLast?).any (fun m => m.f.ending)) then .error (ws.length - 1, .ovr)
    else if convoyOk ms then .ok ms
    else .error (((upto ms.length).find? (fun n => !convoyOk (ms.take (n + 1)))).elim 0 (fun n => (ms.getD n ⟨.nop false, {}, 0, {}⟩).at_), .cvy)

/-- The first member whose element width the shape does not hold, with the width (R244). -/
def shapeBad (e : Nat) : Nat → List Memb → Option (Nat × Nat)
  | _, [] => none
  | n, m :: ms =>
    match m.f.widths.find? (fun w => decide (4096 < e * w)) with
    | some w => some (n, w)
    | none => shapeBad e (n + 1) ms

/-! ## Members in the machine -/

/-- The first poisoned 8-byte word of a register's bits that a member reads, as a pool byte offset (R391, R392). Words that an
earlier member of the convoy wrote whole hold no poison. -/
def regPoison (s : State) (v : VName) (m : VReg) : Option Nat :=
  let c := s.core s.cv.core
  if c.poolPoison.isEmpty || v = 0 then none
  else
    let base := (s.cv.mt * c.info.p + s.cv.phys v) * 512
    let wrote := tget 0 s.cv.vmask (s.cv.phys v)
    (c.poolPoison.filter (fun o =>
      decide (base ≤ o) && decide (o < base + 512) &&
        (m.extractLsb' (8 * (o - base)) 64 != 0) && (wrote.extractLsb' (8 * (o - base)) 64 != BitVec.allOnes 64))).head?

/-- The bits of a register that a read covers. -/
def readBits (cv : Convoy) (w : Nat) (x : Extent) : VReg :=
  match x with
  | .total => onesAt 4096 0 w
  | .elems => if w = 0 then BitVec.allOnes 4096 else onesAt 4096 0 (cv.elems * w)
  | .act => (upto cv.elems).foldl (fun m i => if cv.gmask.getLsbD i then m ||| elemBits w i else m) 0

/-- A poison fault of the member (R392). -/
def poisonFault (s : State) (loc off : Nat) : State := addFault s phPoison kPOISON loc s.cv.wordAt [off]

/-- The source positions that a cross-lane move needs for its active destinations, by register; none for other forms (R283 to R287). -/
def moveReads (cv : Convoy) : Instr → Option (List (VName × Nat × List Nat))
  | .vperm _ _ a b sz => some [(b, sz.bits, cv.active), (a, sz.bits, cv.active.map (fun n => elem (cv.rv b) sz.bits n))]
  | .vslup _ _ a b sz => some [(a, sz.bits, cv.active.filterMap (fun n => if (cv.rg b).toNat ≤ n then some (n - (cv.rg b).toNat) else none))]
  | .vsldn _ _ a b sz => some [(a, sz.bits, cv.active.map (fun n => n + (cv.rg b).toNat))]
  | .vbcast _ _ a b sz => some [(a, sz.bits, cv.active.map (fun _ => (cv.rg b).toNat))]
  | .vtrans _ _ a sz => some [(a, sz.bits, cv.active.map (fun n => n % cv.rows * cv.cols + n / cv.rows))]
  | .vunzip _ _ a sz => some [(a, sz.bits, cv.active.map (fun n =>
      if n < (cv.elems + 1) / 2 then 2 * n else 2 * (n - (cv.elems + 1) / 2) + 1))]
  | .vzip _ _ a b sz => some [(a, sz.bits, (cv.active.filter (fun n => n % 2 == 0)).map (fun n => n / 2)),
      (b, sz.bits, (cv.active.filter (fun n => n % 2 == 1)).map (fun n => n / 2))]
  | .vcomp _ _ a sz => some [(a, sz.bits, cv.active)]
  | .vexpd _ _ a xt => some [(a, xtBits xt, upto cv.active.length)]
  | _ => none

/-- The width at which a STO prefix's register is read, the destination's (R235), and the elements of it that are: element 0 alone for `vrsum`
(R288), the active ones where the sources are read so (R289, R304, R308), those of every operation otherwise (R243). -/
def stoReads (tens : Tab TDesc) (p : Pfx) (f : Info) : Instr → Nat × Extent
  | .vsrnd _ _ _ _ ft => (((vsrndDst p.ty ft).map NFmt.width).getD 8, .elems)
  | .vfcvt _ _ _ c => (((vfcvtPair p.ty c).map (fun x => x.2.width)).getD 8, .elems)
  | .vfcvtiInto _ _ _ t _ => (codeWidth (tget {} tens t.toNat).fmt, .elems)
  | .vrsum _ _ _ xt => (xtBits xt, .total)
  | .vscan _ _ _ xt => (xtBits xt, .act)
  | .vamo _ _ _ _ _ | .vamoRow _ _ _ _ _ | .vrst _ _ _ _ _ => (f.widths.headD 8, .act)
  | _ => (f.widths.headD 8, .elems)

/-- The bits of source registers that a member reads: under STO the register of the random bits is read too, whether or not the form uses
them (R206, R265, R271). -/
def readsOf (tens : Tab TDesc) (cv : Convoy) (f : Info) (i : Instr) : List (VName × VReg) :=
  let sto := match cv.pfx.rm with
    | some (.sto, v) => [(v, readBits cv (stoReads tens cv.pfx f i).1 (stoReads tens cv.pfx f i).2)]
    | _ => []
  (match moveReads cv i with
    | some l => l.map (fun r => (r.1, (r.2.2.filter (fun n => decide (n < cv.elems))).foldl (fun m n => m ||| elemBits r.2.1 n) 0))
    | none => f.rd.map (fun r => (r.1, readBits cv r.2.1 r.2.2))) ++ sto

/-- The poison check of a member's source registers. -/
def srcPoison (s : State) (f : Info) (i : Instr) : State :=
  if (s.core s.cv.core).poolPoison.isEmpty then s else
  match (readsOf (startTens s) s.cv f i).findSome? (fun r => regPoison s r.1 r.2) with
  | some o => poisonFault s 1 o
  | none => s

/-- The form of an instruction as the running member. -/
def State.form (s : State) (i : Instr) : Info := info (startTens s) s.cv.pfx i

/-- A member of the convoy: its sources' poison is weighed, its work done, and its prefixes used up. A member that addresses
memory with a register a faulting `gld` should have loaded has no address; the `gld`'s fault decides (R318). -/
def asMember (s : State) (i : Instr) (work : State → State) : Out :=
  let f := s.form i
  if f.gr.any (fun g => s.cv.fltGld.contains g) then .next (endMember s)
  else .next (endMember (work (srcPoison s f i)))

end Sys2Proof.Machine
end

