-- ==== Sys2Proof/Machine/Int.lean ====
section
/-! DEFINITION. The vector integer and logical family, majors 0x00 to 0x07 (R243 to R251), and the scalar g family, majors 0x08 to
0x0B (R252, R253). -/

namespace Sys2Proof.Machine

/-- An element's value, signed or unsigned. -/
def valOf (sgn : Bool) (w x : Nat) : Int := if sgn then sxt w x else (x : Int)

/-- A two-source member: Op(i) from a and b (R246). -/
def intBin (s : State) (i : Instr) (d a b : VName) (w : Nat) (f : Pfx → Nat → Nat → Res) : Out :=
  asMember s i (fun s => s.modCv (fun cv =>
    let x := cv.rv a
    let y := cv.rv b
    cv.run d w (fun n => f cv.pfx (elem x w n) (elem y w n))))

/-- A member that also reads vd: Op(i) from a, b and the destination's old element (R248). -/
def intTri (s : State) (i : Instr) (d a b : VName) (w : Nat) (f : Nat → Nat → Nat → Nat) : Out :=
  asMember s i (fun s => s.modCv (fun cv =>
    let x := cv.rv a
    let y := cv.rv b
    let z := cv.rv d
    cv.run d w (fun n => (f (elem x w n) (elem y w n) (elem z w n), 0))))

/-- A one-source member (R247). -/
def intOne (s : State) (i : Instr) (d a : VName) (w : Nat) (f : Pfx → Nat → Res) : Out :=
  asMember s i (fun s => s.modCv (fun cv =>
    let x := cv.rv a
    cv.run d w (fun n => f cv.pfx (elem x w n))))

/-- A saturating exact result (R245). -/
def satOp (w : Nat) (f : Int → Int → Int) (p : Pfx) (a b : Nat) : Res := fitInt p.sat p.sgn w (f (valOf p.sgn w a) (valOf p.sgn w b))

/-- A result with no flag. -/
def plainOp (f : Nat → Nat → Nat) (_ : Pfx) (a b : Nat) : Res := (f a b, 0)

def vaddOp (w : Nat) : Pfx → Nat → Nat → Res := satOp w (fun a b => a + b)
def vsubOp (w : Nat) : Pfx → Nat → Nat → Res := satOp w (fun a b => a - b)
def vmulOp (w : Nat) : Pfx → Nat → Nat → Res := satOp w (fun a b => a * b)
def mulhS (w a b : Nat) : Nat := wrapW w ((sxt w a * sxt w b) / (2 ^ w : Nat))
def mulhU (w a b : Nat) : Nat := a * b / 2 ^ w
def minS (w a b : Nat) : Nat := if sxt w a ≤ sxt w b then a else b
def maxS (w a b : Nat) : Nat := if sxt w a ≤ sxt w b then b else a
def andnW (w a b : Nat) : Nat := a &&& (2 ^ w - 1 - b % 2 ^ w)

/-- a × 2^c, exact under SAT; 0 for a count of w or more (R246). -/
def vshlOp (w : Nat) (p : Pfx) (a c : Nat) : Res :=
  if p.sat then
    if a = 0 then (0, 0) else fitInt true p.sgn w (valOf p.sgn w a * ((2 ^ min c (2 * w) : Nat) : Int))
  else if w ≤ c then (0, 0) else (a * 2 ^ c % 2 ^ w, 0)

def shrW (w a c : Nat) : Nat := if w ≤ c then 0 else a / 2 ^ c
def sraW (w a c : Nat) : Nat := wrapW w (sxt w a / (2 ^ min c (w - 1) : Nat))
def rotW (w a c : Nat) : Nat := let k := c % w; (a * 2 ^ k + a / 2 ^ (w - k)) % 2 ^ w

/-- Bits [h−1:0] and [2h−1:h] + 1 of a field operand: position and length (R248). -/
def fieldOf (w b : Nat) : Nat × Nat := let h := Nat.log2 w; (bits b 0 h, bits b h h + 1)

def bextW (w a b : Nat) : Nat := let f := fieldOf w b; a / 2 ^ f.1 % 2 ^ f.2
def binsW (w a b d : Nat) : Nat :=
  let f := fieldOf w b
  let m := (2 ^ f.2 - 1) * 2 ^ f.1 % 2 ^ w
  (d &&& (2 ^ w - 1 - m)) ||| (a % 2 ^ f.2 * 2 ^ f.1 % 2 ^ w)

/-- The funnel: va high, vd low, shifted right by b (R248). -/
def fshW (w a b d : Nat) : Nat := if 2 * w ≤ b then 0 else (a * 2 ^ w + d) / 2 ^ b % 2 ^ w

/-- |a| for signed a; a itself where SAT reads it unsigned (R247). -/
def vabsOp (w : Nat) (p : Pfx) (a : Nat) : Res :=
  if p.sat then fitInt true p.sgn w (if p.sgn then ((sxt w a).natAbs : Int) else a) else (wrapW w ((sxt w a).natAbs : Int), 0)

def vnegOp (w : Nat) (p : Pfx) (a : Nat) : Res := fitInt p.sat p.sgn w (0 - valOf p.sgn w a)
def clzW (w a : Nat) : Nat := if a = 0 then w else w - 1 - Nat.log2 a
def popW (w a : Nat) : Nat := (upto w).foldl (fun n k => if a.testBit k then n + 1 else n) 0

/-- R246. a + b, saturating. -/
def execVadd (c : Bool) (d a b : VName) (sz : Size) (s : State) : Out := intBin s (.vadd c d a b sz) d a b sz.bits (vaddOp sz.bits)

/-- R246. a − b, saturating. -/
def execVsub (c : Bool) (d a b : VName) (sz : Size) (s : State) : Out := intBin s (.vsub c d a b sz) d a b sz.bits (vsubOp sz.bits)

/-- R246. The low w bits of a × b, saturating. -/
def execVmul (c : Bool) (d a b : VName) (sz : Size) (s : State) : Out := intBin s (.vmul c d a b sz) d a b sz.bits (vmulOp sz.bits)

/-- R246. Bits [2w−1:w] of the signed product. -/
def execVmulh (c : Bool) (d a b : VName) (sz : Size) (s : State) : Out := intBin s (.vmulh c d a b sz) d a b sz.bits (plainOp (mulhS sz.bits))

/-- R246. Bits [2w−1:w] of the unsigned product. -/
def execVmulhn (c : Bool) (d a b : VName) (sz : Size) (s : State) : Out := intBin s (.vmulhn c d a b sz) d a b sz.bits (plainOp (mulhU sz.bits))

/-- R246. The signed minimum. -/
def execVmin (c : Bool) (d a b : VName) (sz : Size) (s : State) : Out := intBin s (.vmin c d a b sz) d a b sz.bits (plainOp (minS sz.bits))

/-- R246. The signed maximum. -/
def execVmax (c : Bool) (d a b : VName) (sz : Size) (s : State) : Out := intBin s (.vmax c d a b sz) d a b sz.bits (plainOp (maxS sz.bits))

/-- R246. The unsigned minimum. -/
def execVminn (c : Bool) (d a b : VName) (sz : Size) (s : State) : Out := intBin s (.vminn c d a b sz) d a b sz.bits (plainOp min)

/-- R246. The unsigned maximum. -/
def execVmaxn (c : Bool) (d a b : VName) (sz : Size) (s : State) : Out := intBin s (.vmaxn c d a b sz) d a b sz.bits (plainOp max)

/-- R246. -/
def execVand (c : Bool) (d a b : VName) (sz : Size) (s : State) : Out := intBin s (.vand c d a b sz) d a b sz.bits (plainOp (fun a b => a &&& b))

/-- R246. -/
def execVor (c : Bool) (d a b : VName) (sz : Size) (s : State) : Out := intBin s (.vor c d a b sz) d a b sz.bits (plainOp (fun a b => a ||| b))

/-- R246. -/
def execVxor (c : Bool) (d a b : VName) (sz : Size) (s : State) : Out := intBin s (.vxor c d a b sz) d a b sz.bits (plainOp (fun a b => a ^^^ b))

/-- R246. a AND NOT b. -/
def execVandn (c : Bool) (d a b : VName) (sz : Size) (s : State) : Out := intBin s (.vandn c d a b sz) d a b sz.bits (plainOp (andnW sz.bits))

/-- R246. A left shift by the element of vb, saturating. -/
def execVshl (c : Bool) (d a b : VName) (sz : Size) (s : State) : Out := intBin s (.vshl c d a b sz) d a b sz.bits (vshlOp sz.bits)

/-- R246. A logical right shift. -/
def execVshr (c : Bool) (d a b : VName) (sz : Size) (s : State) : Out := intBin s (.vshr c d a b sz) d a b sz.bits (plainOp (shrW sz.bits))

/-- R246. An arithmetic right shift by at most w − 1. -/
def execVsra (c : Bool) (d a b : VName) (sz : Size) (s : State) : Out := intBin s (.vsra c d a b sz) d a b sz.bits (plainOp (sraW sz.bits))

/-- R246. A left rotate. -/
def execVrot (c : Bool) (d a b : VName) (sz : Size) (s : State) : Out := intBin s (.vrot c d a b sz) d a b sz.bits (plainOp (rotW sz.bits))

/-- R248. -/
def execVbext (c : Bool) (d a b : VName) (sz : Size) (s : State) : Out := intBin s (.vbext c d a b sz) d a b sz.bits (plainOp (bextW sz.bits))

/-- R248. -/
def execVfsh (c : Bool) (d a b : VName) (sz : Size) (s : State) : Out := intTri s (.vfsh c d a b sz) d a b sz.bits (fshW sz.bits)

/-- R248. -/
def execVbins (c : Bool) (d a b : VName) (sz : Size) (s : State) : Out := intTri s (.vbins c d a b sz) d a b sz.bits (binsW sz.bits)

/-- R247. -/
def execVabs (c : Bool) (d a : VName) (sz : Size) (s : State) : Out := intOne s (.vabs c d a sz) d a sz.bits (vabsOp sz.bits)

/-- R247. -/
def execVneg (c : Bool) (d a : VName) (sz : Size) (s : State) : Out := intOne s (.vneg c d a sz) d a sz.bits (vnegOp sz.bits)

/-- R247. -/
def execVclz (c : Bool) (d a : VName) (sz : Size) (s : State) : Out := intOne s (.vclz c d a sz) d a sz.bits (fun _ a => (clzW sz.bits a, 0))

/-- R247. -/
def execVpopc (c : Bool) (d a : VName) (sz : Size) (s : State) : Out := intOne s (.vpopc c d a sz) d a sz.bits (fun _ a => (popW sz.bits a, 0))

/-- R247. -/
def execVmv (c : Bool) (d a : VName) (sz : Size) (s : State) : Out := intOne s (.vmv c d a sz) d a sz.bits (fun _ a => (a, 0))

/-- R249. Every element within the shape is written; the mask chooses. -/
def execVsel (c : Bool) (d a b : VName) (sz : Size) (s : State) : Out :=
  asMember s (.vsel c d a b sz) (fun s => s.modCv (fun cv =>
    let x := cv.rv a
    let y := cv.rv b
    let m := cv.gmask
    cv.putV d (vecRun (cv.rv d) sz.bits cv.elems (BitVec.allOnes 512) false
      (fun n => (elem (if m.getLsbD n then x else y) sz.bits n, 0)))))

/-- R249. Op(i) = i, saturating. -/
def execVidx (c : Bool) (d : VName) (sz : Size) (s : State) : Out :=
  asMember s (.vidx c d sz) (fun s => s.modCv (fun cv =>
    cv.run d sz.bits (fun n => fitInt cv.pfx.sat cv.pfx.sgn sz.bits n)))

/-- R250. The exact value of each source element goes to the destination, saturating. -/
def execVcvt (c : Bool) (d a : VName) (sz : Size) (s : State) : Out :=
  asMember s (.vcvt c d a sz) (fun s => s.modCv (fun cv =>
    match vcvtSrc cv.pfx.ty sz with
    | none => cv
    | some f =>
      let x := cv.rv a
      cv.run d sz.bits (fun n =>
        let e := elem x f.width n
        if cv.pfx.ty.isNone then (e, 0) else fitInt cv.pfx.sat cv.pfx.sgn sz.bits (f.toInt e))))

/-- The signed immediate of major 0x07 at width w (R251). -/
def immEl (p : Pfx) (w : Nat) (i : BitVec 6) : Nat := wrapW w (immS p.ext 6 i.toNat)

/-- The count of major 0x07 (R251). -/
def cntEl (p : Pfx) (i : BitVec 6) : Nat := immU p.ext 6 i.toNat

/-- R251. -/
def execVaddi (c : Bool) (d a : VName) (sz : Size) (i : BitVec 6) (s : State) : Out := intOne s (.vaddi c d a sz i) d a sz.bits (fun p x => vaddOp sz.bits p x (immEl p sz.bits i))

/-- R251. -/
def execVandi (c : Bool) (d a : VName) (sz : Size) (i : BitVec 6) (s : State) : Out := intOne s (.vandi c d a sz i) d a sz.bits (fun p x => (x &&& immEl p sz.bits i, 0))

/-- R251. -/
def execVori (c : Bool) (d a : VName) (sz : Size) (i : BitVec 6) (s : State) : Out := intOne s (.vori c d a sz i) d a sz.bits (fun p x => (x ||| immEl p sz.bits i, 0))

/-- R251. -/
def execVxori (c : Bool) (d a : VName) (sz : Size) (i : BitVec 6) (s : State) : Out := intOne s (.vxori c d a sz i) d a sz.bits (fun p x => (x ^^^ immEl p sz.bits i, 0))

/-- R251. -/
def execVshli (c : Bool) (d a : VName) (sz : Size) (i : BitVec 6) (s : State) : Out := intOne s (.vshli c d a sz i) d a sz.bits (fun p x => vshlOp sz.bits p x (cntEl p i))

/-- R251. -/
def execVshri (c : Bool) (d a : VName) (sz : Size) (i : BitVec 6) (s : State) : Out := intOne s (.vshri c d a sz i) d a sz.bits (fun p x => (shrW sz.bits x (cntEl p i), 0))

/-- R251. -/
def execVsrai (c : Bool) (d a : VName) (sz : Size) (i : BitVec 6) (s : State) : Out := intOne s (.vsrai c d a sz i) d a sz.bits (fun p x => (sraW sz.bits x (cntEl p i), 0))

/-- R251. Op(i) is the immediate. -/
def execVmvi (c : Bool) (d : VName) (sz : Size) (i : BitVec 6) (s : State) : Out :=
  asMember s (.vmvi c d sz i) (fun s => s.modCv (fun cv => cv.run d sz.bits (fun _ => (immEl cv.pfx sz.bits i, 0))))

/-! ## The scalar family (R252, R253) -/

/-- A scalar member: gd takes a value of the g registers as they stand at the member. -/
def gOp (s : State) (i : Instr) (d : GName) (f : Convoy → Word64) : Out :=
  asMember s i (fun s => s.modCv (fun cv => cv.wg d (f cv)))

/-- R252. -/
def execGadd (c : Bool) (d a b : GName) (s : State) : Out := gOp s (.gadd c d a b) d (fun cv => cv.rg a + cv.rg b)

/-- R252. -/
def execGsub (c : Bool) (d a b : GName) (s : State) : Out := gOp s (.gsub c d a b) d (fun cv => cv.rg a - cv.rg b)

/-- R252. -/
def execGmul (c : Bool) (d a b : GName) (s : State) : Out := gOp s (.gmul c d a b) d (fun cv => cv.rg a * cv.rg b)

/-- R252. -/
def execGand (c : Bool) (d a b : GName) (s : State) : Out := gOp s (.gand c d a b) d (fun cv => cv.rg a &&& cv.rg b)

/-- R252. -/
def execGor (c : Bool) (d a b : GName) (s : State) : Out := gOp s (.gor c d a b) d (fun cv => cv.rg a ||| cv.rg b)

/-- R252. -/
def execGxor (c : Bool) (d a b : GName) (s : State) : Out := gOp s (.gxor c d a b) d (fun cv => cv.rg a ^^^ cv.rg b)

/-- R252. -/
def execGshl (c : Bool) (d a b : GName) (s : State) : Out := gOp s (.gshl c d a b) d (fun cv => cv.rg a <<< ((cv.rg b).toNat % 64))

/-- R252. -/
def execGshr (c : Bool) (d a b : GName) (s : State) : Out := gOp s (.gshr c d a b) d (fun cv => cv.rg a >>> ((cv.rg b).toNat % 64))

/-- R252. -/
def execGsra (c : Bool) (d a b : GName) (s : State) : Out := gOp s (.gsra c d a b) d (fun cv => (cv.rg a).sshiftRight ((cv.rg b).toNat % 64))

/-- R252. -/
def execGmv (c : Bool) (d a : GName) (s : State) : Out := gOp s (.gmv c d a) d (fun cv => cv.rg a)

/-- R253. -/
def execGaddi (c : Bool) (d a : GName) (i : BitVec 11) (s : State) : Out :=
  gOp s (.gaddi c d a i) d (fun cv => cv.rg a + BitVec.ofInt 64 (immS cv.pfx.ext 11 i.toNat))

/-- R253. -/
def execGandi (c : Bool) (d a : GName) (i : BitVec 11) (s : State) : Out :=
  gOp s (.gandi c d a i) d (fun cv => cv.rg a &&& BitVec.ofInt 64 (immS cv.pfx.ext 11 i.toNat))

/-- R253. -/
def execGshli (c : Bool) (d a : GName) (i : BitVec 6) (s : State) : Out :=
  gOp s (.gshli c d a i) d (fun cv => cv.rg a <<< immU cv.pfx.ext 6 i.toNat)

/-- R253. The immediate times 4,096. -/
def execGlui (c : Bool) (d : GName) (i : BitVec 17) (s : State) : Out :=
  gOp s (.glui c d i) d (fun cv => BitVec.ofInt 64 (immS cv.pfx.ext 17 i.toNat * 4096))

end Sys2Proof.Machine
end

