-- ==== Sys2Proof/Machine/Mask.lean ====
section
/-! DEFINITION. Masks and loop control: majors 0x18 to 0x1D but for the memory forms (R254 to R262). -/

namespace Sys2Proof.Machine

/-! ## Loop masks (R258, R259) -/

/-- The granted mask: bits i < E with ga + i below the limit. -/
def whileMask (e : Nat) (a limit : Int) : KReg :=
  (upto e).foldl (fun m (i : Nat) => if a + (i : Int) < limit then m ||| onesAt 512 i 1 else m) 0

/-- kd takes the granted mask and GRC its count (R259). -/
def kwhile (s : State) (i : Instr) (d : KName) (a b : GName) (le : Bool) : Out :=
  asMember s i (fun s => s.modCv (fun cv =>
    let m := whileMask cv.elems (cv.rg a).toInt ((cv.rg b).toInt + (if le then 1 else 0))
    let n := popW 512 m.toNat
    let cv := cv.wk d m
    { cv with work := { cv.work with grc := BitVec.ofNat 32 n } }))

/-- R259. -/
def execKwhilelt (c : Bool) (d : KName) (a b : GName) (sz : Size) (s : State) : Out := kwhile s (.kwhilelt c d a b sz) d a b false

/-- R259. -/
def execKwhilele (c : Bool) (d : KName) (a b : GName) (sz : Size) (s : State) : Out := kwhile s (.kwhilele c d a b sz) d a b true

/-! ## Comparisons (R254, R255) -/

/-- The mask a comparison writes: the test for active elements, the old bit or 0 under ZERO for inactive ones, 0 from bit E up. -/
def testMask (old act : KReg) (e : Nat) (zero : Bool) (f : Nat → Bool) : KReg :=
  (upto e).foldl (fun m i =>
    let b := if act.getLsbD i then f i else !zero && old.getLsbD i
    if b then m ||| onesAt 512 i 1 else m) 0

/-- The conditions of R254. -/
def icond (c : ICond) (w a b : Nat) : Bool :=
  match c with
  | .eq => a == b
  | .ne => a != b
  | .lt => decide (sxt w a < sxt w b)
  | .le => decide (sxt w a ≤ sxt w b)
  | .ltn => decide (a < b)
  | .len => decide (a ≤ b)

/-- An integer comparison at width w (R254). -/
def kcmp (s : State) (i : Instr) (d : KName) (a b : VName) (c : ICond) (w : Nat) : Out :=
  asMember s i (fun s => s.modCv (fun cv =>
    let x := cv.rv a
    let y := cv.rv b
    cv.wk d (testMask (cv.rk d) cv.gmask cv.elems cv.pfx.zero (fun n => icond c w (elem x w n) (elem y w n)))))

/-- R254, 8- and 16-bit elements. -/
def execKcmp816 (c : Bool) (d : KName) (a b : VName) (cond : ICond) (wide : Bool) (s : State) : Out :=
  kcmp s (.kcmp816 c d a b cond wide) d a b cond (if wide then 16 else 8)

/-- R254, 32- and 64-bit elements. -/
def execKcmp3264 (c : Bool) (d : KName) (a b : VName) (cond : ICond) (wide : Bool) (s : State) : Out :=
  kcmp s (.kcmp3264 c d a b cond wide) d a b cond (if wide then 64 else 32)

/-- A float condition and the flags of one element: NV for a signalling NaN, and for any NaN under lt and le (R255). -/
def fcond (c : FCond) (a b : FVal) : Bool × Nat :=
  let un := isNan a || isNan b
  match c with
  | .eq => (fEqual a b, sigNV [a, b])
  | .un => (un, sigNV [a, b])
  | .lt => (fLess false a b, if un then fNV else 0)
  | .le => (fLess false a b || fEqual a b, if un then fNV else 0)

/-- R255. -/
def execKfcmp (c : Bool) (d : KName) (a b : VName) (cond : FCond) (ft : FType) (s : State) : Out :=
  asMember s (.kfcmp c d a b cond ft) (fun s => s.modCv (fun cv =>
    let w := ftBits ft
    let f := ftFmt ft
    let x := cv.rv a
    let y := cv.rv b
    let r (n : Nat) : Bool × Nat := fcond cond (f.read (elem x w n)) (f.read (elem y w n))
    let hits := (cv.active.map (fun n => (n, (r n).2))).filter (fun h => h.2 != 0)
    (cv.wk d (testMask (cv.rk d) cv.gmask cv.elems cv.pfx.zero (fun n => (r n).1))).raise hits))

/-! ## Whole masks (R256) -/

/-- A member that writes a mask register from registers as they stand at it. -/
def kOp (s : State) (i : Instr) (d : KName) (f : Convoy → KReg) : Out := asMember s i (fun s => s.modCv (fun cv => cv.wk d (f cv)))

/-- R256. -/
def execKand (c : Bool) (d a b : KName) (s : State) : Out := kOp s (.kand c d a b) d (fun cv => cv.rk a &&& cv.rk b)

/-- R256. -/
def execKor (c : Bool) (d a b : KName) (s : State) : Out := kOp s (.kor c d a b) d (fun cv => cv.rk a ||| cv.rk b)

/-- R256. -/
def execKxor (c : Bool) (d a b : KName) (s : State) : Out := kOp s (.kxor c d a b) d (fun cv => cv.rk a ^^^ cv.rk b)

/-- R256. ka AND NOT kb. -/
def execKandn (c : Bool) (d a b : KName) (s : State) : Out := kOp s (.kandn c d a b) d (fun cv => cv.rk a &&& ~~~(cv.rk b))

/-- R256. -/
def execKnot (c : Bool) (d a : KName) (s : State) : Out := kOp s (.knot c d a) d (fun cv => ~~~(cv.rk a))

/-- R256. -/
def execKmv (c : Bool) (d a : KName) (s : State) : Out := kOp s (.kmv c d a) d (fun cv => cv.rk a)

/-- R256. The number of set bits. -/
def execKpop (c : Bool) (d : GName) (a : KName) (s : State) : Out :=
  gOp s (.kpop c d a) d (fun cv => BitVec.ofNat 64 (popW 512 (cv.rk a).toNat))

/-- The lowest set bit of a number, all ones for none. -/
def lowBit (m : KReg) : Word64 :=
  match (upto 512).find? (fun i => m.getLsbD i) with
  | some i => BitVec.ofNat 64 i
  | none => BitVec.allOnes 64

/-- R256. -/
def execKfirst (c : Bool) (d : GName) (a : KName) (s : State) : Out := gOp s (.kfirst c d a) d (fun cv => lowBit (cv.rk a))

/-- R256. Bits 0 to 63 from ga, the rest 0. -/
def execKset (c : Bool) (d : KName) (a : GName) (s : State) : Out := kOp s (.kset c d a) d (fun cv => (cv.rg a).setWidth 512)

/-! ## Shape (R261) -/

/-- SHP with rows and columns. -/
def shpOf (rows cols : Nat) : Word32 := BitVec.ofNat 32 ((rows - 1) * 256 + (cols - 1))

/-- R261. SHP governs from the next convoy on (R211). -/
def execVshapeImm (c : Bool) (rows cols : BitVec 7) (s : State) : Out :=
  asMember s (.vshapeImm c rows cols) (fun s => s.modCv (fun cv =>
    { cv with work := { cv.work with shp := shpOf (rows.toNat + 1) (cols.toNat + 1) } }))

/-- The shape fault of R261 and R382: width 0, the rows and columns refused. The member is the running one. -/
def shapeFault (s : State) (rows cols : Nat) : State :=
  addFault s 2 kSHAPE 0 s.cv.wordAt [s.cv.member % 4 + s.cv.shp.toNat * 2 ^ 32, rows, cols]

/-- R261. Rows and columns from g registers. -/
def execVshapeReg (c : Bool) (a b : GName) (s : State) : Out :=
  asMember s (.vshapeReg c a b) (fun s =>
    let r := (s.cv.rg a).toNat
    let k := (s.cv.rg b).toNat
    if r = 0 ∨ 128 < r ∨ k = 0 ∨ 128 < k ∨ 512 < r * k then shapeFault s r k
    else s.modCv (fun cv => { cv with work := { cv.work with shp := shpOf r k } }))

/-! ## tcoll (R262) -/

/-- Whether dimensions 0 to j are dense: s_k = s_(k−1) × n_(k−1), and the product stays below 2^48. -/
def collDense (t : TDesc) (j : Nat) : Bool :=
  t.stride 0 == 1 && (upto j).all (fun k => t.stride (k + 1) == t.stride k * t.dim k) &&
    decide ((upto (j + 1)).foldl (fun n k => n * t.dim k) 1 < 2 ^ 48)

/-- The largest m: 0 for a scaled code or a first stride other than 1. -/
def collM (t : TDesc) : Nat :=
  if t.isScaled then 0
  else (upto t.rank).foldl (fun m j => if (upto (j + 1)).all (fun i => collDense t i) then j else m) 0

/-- A descriptor's words from its fields: those that R344 stores. -/
def descOf (t : TDesc) (rank : Nat) (dims : List Nat) (strides : List Int) : TDesc :=
  let n (j : Nat) : Nat := dims.getD j 0
  let st (w j : Nat) : Nat := wrapW w (strides.getD j 0)
  { w0 := (t.w0 &&& ~~~(0x0700000000000000 : Word64)) ||| BitVec.ofNat 64 (rank * 2 ^ 56)
    w1 := BitVec.ofNat 64 (st 16 0 * 2 ^ 48 + n 0 % 2 ^ 48)
    w2 := if t.isScaled then BitVec.ofNat 64 (n 1 % 65536 + t.sbase * 65536)
      else BitVec.ofNat 64 (n 1 % 65536 + n 2 % 65536 * 2 ^ 16 + n 3 % 65536 * 2 ^ 32 + n 4 % 65536 * 2 ^ 48)
    w3 := BitVec.ofNat 64 (st 32 1 + st 32 2 * 2 ^ 32) }

/-- The granted length, the product of the remaining dimensions, and the rewritten descriptor. -/
def collapse (t : TDesc) : Nat × Nat × TDesc :=
  let r := t.rank
  if r = 0 then (0, 0, t)
  else
    let m := collM t
    let g := (upto (m + 1)).foldl (fun n k => n * t.dim k) 1
    let rest := (List.range (r - 1 - m)).map (fun j => t.dim (m + 1 + j))
    let strides := (List.range (4 - m)).map (fun j => t.stride (m + 1 + j))
    (g, rest.foldl (fun n x => n * x) 1, descOf t (r - m) (g :: rest) (t.stride 0 :: strides))

/-- R262. The descriptor a member sees is the convoy's working table. -/
def execTcoll (c : Bool) (d : GName) (t : TName) (s : State) : Out :=
  asMember s (.tcoll c d t) (fun s =>
    let (g, rest, t') := collapse (seeTens s t)
    s.modCv (fun cv => ((cv.wg d (BitVec.ofNat 64 g)).wg (d + 1) (BitVec.ofNat 64 rest)).stageTens t t'))

/-! ## gsubbr (R260) -/

/-- The address of the word a member stands in. -/
def Convoy.wordVa (cv : Convoy) : Word64 := cv.head + BitVec.ofNat 64 (4 * cv.wordAt)

/-- A transfer of the convoy to `w + 4x` when `take` holds (R204, R364). -/
def branchTo (cv : Convoy) (take : Bool) (n : Nat) (disp : Nat) : Convoy :=
  if take then { cv with ctl := .jump (cv.wordVa + BitVec.ofInt 64 (sxt n disp * 4)) cv.word } else cv

/-- R260. ga − GRC is written, and the branch is taken when the value written is positive. -/
def execGsubbr (a : GName) (disp : BitVec 18) (s : State) : Out :=
  asMember s (.gsubbr a disp) (fun s => s.modCv (fun cv =>
    let x := if a = 0 then 0 else cv.rg a - BitVec.ofNat 64 cv.work.grc.toNat
    branchTo (cv.wg a x) (decide (0 < x.toInt)) 18 disp.toNat))

end Sys2Proof.Machine
end

