-- ==== Sys2Proof/Machine/Special.lean ====
section
/-! DEFINITION. The special registers of R368: how a member reads one, what a write of each refuses, and what it leaves; and the
talus stack's spill count (R333). -/

namespace Sys2Proof.Machine

/-! ## Core-scope registers -/

/-- A core-scope or die-scope register as the core holds it (R94, R277, R342, R369). -/
def coreSreg (s : State) (core n : Nat) : Word64 :=
  let c := s.core core
  match n with
  | 0x20 => c.ictl.setWidth 64
  | 0x21 => c.stale.setWidth 64
  | 0x22 => (tget 0 s.latewb (dieOf core)).setWidth 64
  | 0x28 => c.rngc0
  | 0x29 => c.rngc1
  | 0x2A => c.rngk0
  | 0x2B => c.rngk1
  | 0x40 => tget 0 s.cyc (dieOf core)
  | n => if 0x30 ≤ n ∧ n ≤ 0x35 then (c.queue (n - 0x30)).qst.setWidth 64 else 0

/-- A core-scope register written at retirement. ICTL.LWSTICKY is cleared by a 0 and kept by a 1 (R93); LATEWB discards (R94). -/
def setCoreSreg (s : State) (core n : Nat) (x : Word64) : State :=
  let w : Word32 := x.setWidth 32
  s.modCore core (fun c =>
    match n with
    | 0x20 => { c with ictl := w &&& (0xFFFFFFFD ||| c.ictl) }
    | 0x21 => { c with stale := w }
    | 0x28 => { c with rngc0 := x }
    | 0x29 => { c with rngc1 := x }
    | 0x2A => { c with rngk0 := x }
    | 0x2B => { c with rngk1 := x }
    | n => if 0x30 ≤ n ∧ n ≤ 0x35 then c.setQueue (n - 0x30) { c.queue (n - 0x30) with qst := w } else c)

/-- The latest staged write of a core-scope register by an earlier member (R370). -/
def Convoy.stagedSreg (cv : Convoy) (n : Nat) : Option Word64 := (cv.sregs.reverse.find? (fun e => e.1 == n)).map Prod.snd

/-- A core-scope register as the running member reads it. -/
def seeSreg (s : State) (n : Nat) : Word64 :=
  let old := coreSreg s s.cv.core n
  match s.cv.stagedSreg n with
  | none => old
  | some x => if n = 0x20 then (x &&& (0xFFFFFFFD ||| old)) else if n = 0x22 then old else x

def Convoy.stageSreg (cv : Convoy) (n : Nat) (x : Word64) : Convoy := { cv with sregs := cv.sregs ++ [(n, x)] }

/-! ## Micro-thread registers -/

/-- A special register as the running member reads it, zero-extended (R368, R370). -/
def readSreg (s : State) (n : Nat) : Word64 :=
  let r := s.cv.work
  match s.cv.hidden.find? (fun e => e.1 == n) with
  | some e => e.2.setWidth 64
  | none =>
  match n with
  | 0x00 => r.fst.setWidth 64
  | 0x01 => r.ffi.setWidth 64
  | 0x02 => r.grc.setWidth 64
  | 0x03 => r.shp.setWidth 64
  | 0x04 => r.wb.setWidth 64
  | 0x08 => r.eixNv.setWidth 64
  | 0x09 => r.eixDz.setWidth 64
  | 0x0A => r.eixOf.setWidth 64
  | 0x0B => r.eixUf.setWidth 64
  | 0x0C => r.eixNx.setWidth 64
  | 0x10 => r.tsd
  | 0x11 => r.scb
  | 0x12 => r.scl
  | 0x18 => r.mgr.setWidth 64
  | 0x19 => r.mrs.setWidth 64
  | n => seeSreg s n

/-- Chunks that lie in the scree: max(0, ceil(BYTES / 4,096) − C) (R333). -/
def spillOf (bytes chunks : Nat) : Nat := (bytes + 4095) / 4096 - chunks

/-- BYTES and FRAMES of TSD (R331). -/
def tsdBytes (tsd : Word64) : Nat := bits tsd.toNat 0 40
def tsdFrames (tsd : Word64) : Nat := bits tsd.toNat 40 24
def tsdOf (frames bytes : Nat) : Word64 := BitVec.ofNat 64 (frames * 2 ^ 40 + bytes)

/-- A reserved bit of SCB or SCL (R332). -/
def screeBad (x : Word64) : Bool := bits x.toNat 0 12 != 0 || bits x.toNat 41 23 != 0

/-- Whether an `swrite` of a register refuses a value: reserved bits, bits above the width, and the checks of R93, R236, R258,
R261, R298, R331, R332, R342 and R369. -/
def swriteBad (s : State) (n : Nat) (x : Word64) : Bool :=
  let v := x.toNat
  let r := s.cv.work
  let spill := spillOf (tsdBytes r.tsd) (s.core s.cv.core).info.chunks
  match n with
  | 0x00 => bits v 11 53 != 0 || bit v 7 || decide (5 ≤ bits v 8 3)
  | 0x01 => bits v 10 54 != 0
  | 0x02 => decide (512 < v)
  | 0x03 => bits v 15 49 != 0 || bit v 7
  | 0x04 => true
  | 0x10 => true
  | 0x11 => screeBad x || (x != r.scb && spill != 0) || decide (r.scl.toNat < v + 4096 * spill)
  | 0x12 => screeBad x || decide (v < r.scb.toNat + 4096 * spill)
  | 0x18 => true
  | 0x19 => bits v 7 57 != 0
  | 0x20 => bits v 2 62 != 0
  | 0x21 => bits v 32 32 != 0
  | 0x22 => bits v 32 32 != 0
  | 0x40 => true
  | n =>
    if 8 ≤ n ∧ n ≤ 0xC then bits v 9 55 != 0
    else if 0x30 ≤ n ∧ n ≤ 0x35 then bits v 16 48 != 0 || bits v 6 6 != 0
    else false

/-- A special register written by the running member. -/
def writeSreg (s : State) (n : Nat) (x : Word64) : State :=
  let w : Word32 := x.setWidth 32
  s.modCv (fun cv =>
    let cv := { cv with hidden := cv.hidden.filter (fun e => e.1 != n) }
    let r := cv.work
    match n with
    | 0x00 => { cv with work := { r with fst := w } }
    | 0x01 => { cv with work := { r with ffi := w } }
    | 0x02 => { cv with work := { r with grc := w } }
    | 0x03 => { cv with work := { r with shp := w } }
    | 0x08 => { cv with work := { r with eixNv := w } }
    | 0x09 => { cv with work := { r with eixDz := w } }
    | 0x0A => { cv with work := { r with eixOf := w } }
    | 0x0B => { cv with work := { r with eixUf := w } }
    | 0x0C => { cv with work := { r with eixNx := w } }
    | 0x11 => { cv with work := { r with scb := x } }
    | 0x12 => { cv with work := { r with scl := x } }
    | 0x19 => { cv with work := { r with mrs := w } }
    | n => cv.stageSreg n x)

end Sys2Proof.Machine
end

