-- ==== Sys2Proof/Machine/Access.lean ====
section
/-! DEFINITION. Vector accesses as every memory form makes them (R294): element addresses and their translation (R38), loads with
their stale-read, access-error and poison outcomes (R91, R93, R14, R392), staged stores (R102), the scratchpad (R51, R111), and a
member that waits. -/

namespace Sys2Proof.Machine

/-! ## Element addresses -/

/-- A 64-bit address with a signed amount added, modulo 2^64 (R294). -/
def vaAdd (a : Word64) (x : Int) : Nat := (a + BitVec.ofInt 64 x).toNat

/-- The pieces of `n ≤ 8` bytes at a VA that lie in one block of `page` bytes each: VA, offset, length. -/
def splitAt (page va n : Nat) : List (Nat × Nat × Nat) :=
  let va := va % 2 ^ 64
  let k := page - va % page
  if n ≤ k then [(va, 0, n)] else [(va, 0, k), ((va + k) % 2 ^ 64, k, n - k)]

def spanBytes : Nat := 2 ^ 25

/-- A piece of an element's access that has been translated. -/
structure Acc where
  idx : Nat
  off : Nat
  n : Nat
  va : Nat
  x : Xlat
  deriving DecidableEq, Repr

/-- A span lookup of the running member: in a convoy's second run, in the span store as its first run found it (R34). -/
def cvXlat (s : State) (need : Need) (va : Nat) : Except XCause Xlat :=
  let s := match s.cv.final, s.cv.span0 with
    | true, some t => { s with span := t }
    | _, _ => s
  spanXlat s (dieOf s.cv.core) (s.ctxOf s.cv.core) va need

/-- Every active element is translated before any fault is reported (R38): the accesses, and the refused pieces. -/
def xlatElems (s : State) (need : Need) (elems : List (Nat × Nat)) (n : Nat) : List Acc × List (Nat × Nat × XCause) :=
  let pcs := (elems.map (fun e => (splitAt spanBytes e.2 n).map (fun p => (e.1, p)))).flatten
  let r := pcs.map (fun p => (p, cvXlat s need p.2.1))
  (r.filterMap (fun q => match q.2 with
    | .ok x => some ⟨q.1.1, q.1.2.2.1, q.1.2.2.2, q.1.2.1, x⟩
    | .error _ => none),
   r.filterMap (fun q => match q.2 with
    | .ok _ => none
    | .error c => some (q.1.1, q.1.2.1, c)))

/-- The span fault of R38: ACC 0 read, 1 write, 2 read-write; a lookup that ended in UNST logs its event (R31). -/
def spanFault (s : State) (acc : Nat) (bad : List (Nat × Nat × XCause)) (emask : Bool) : State :=
  let s := logUnst s s.cv.core (bad.map (fun b => b.2))
  addFault s phXlat kSPAN 0 s.cv.wordAt (spanBody (s.ctxOf s.cv.core) acc s.cv.head bad emask)

/-- The page fault of R40. -/
def pageFault (s : State) (va acc : Nat) (c : XCause) : State := addFault s phXlat kPAGE c.code s.cv.wordAt [va, acc]

/-! ## Loads -/

/-- A read of the running member, made by `now`. The first of a convoy's two runs keeps its value, which the second takes: the member reads
once (R102, log 28). -/
def readOnce (s : State) (x : Xlat) (n : Nat) (t : Tally) (now : State → Nat × Tally × State) : Nat × Tally × State :=
  match s.cv.final, s.cv.reads with
  | true, v :: l => (overlay s.staged x.dev x.pa n v.2, t, s.modCv (fun cv => { cv with reads := l }))
  | _, _ =>
    let (v, t, s) := now s
    (v, t, if s.cv.trial then s.modCv (fun cv => { cv with reads := cv.reads ++ [(cv.member, v)] }) else s)

/-- A load of the running member at a translated address. -/
def cvLoad (s : State) (x : Xlat) (n : Nat) (t : Tally) (i va : Nat) : Nat × Tally × State :=
  readOnce s x n t (fun s => agentLoad s s.cv.core s.cv.mt x n s.staged t i va)

/-- The accesses of a load, in order: the elements' values and what the reads met. They are made with nothing in between, though R100
leaves the elements of one access, and the bytes of a misaligned one, in no order (log 1). -/
def readAccs (s : State) (accs : List Acc) (t : Tally) : Tab Nat × Tally × State :=
  let s := if s.cv.final then s else peersFirst s s.cv.core s.cv.mt ((accs.filter (fun a => a.x.dev.isNone)).map (fun a => (a.x.pa, a.n)))
  accs.foldl (fun (r : Tab Nat × Tally × State) a =>
    let (vals, t, s) := r
    let (v, t, s) := cvLoad s a.x a.n t a.idx a.va
    (tset 0 vals a.idx (tget 0 vals a.idx + v * 2 ^ (8 * a.off)), t, s)) ([], t, s)

/-- Whether stale reads fault: ICTL.STT as the core holds it, an `swrite` of the running convoy taking effect at its retirement (R93,
log 55). -/
def sttOn (s : State) : Bool := (s.core s.cv.core).ictl.getLsbD 0

/-- The lowest line read stale, an L1's copy before the slice's, with word 3 of its record (R93, log 55). -/
def Tally.firstStale (t : Tally) : Option (Nat × Nat) :=
  t.stale.foldl (fun b e => match b with
    | none => some e
    | some x => if e.1 < x.1 then some e else some x) none

/-- The precise stale-read fault, when ICTL.STT asks for it (R93). -/
def staleFault (s : State) (t : Tally) : State :=
  match t.firstStale with
  | some (line, w) => if sttOn s then addFault s phOrder kSTALE 0 s.cv.wordAt [128 * line, w] else s
  | none => s

/-- The poison fault of a memory read (R392). -/
def memPoison (s : State) (t : Tally) : State :=
  match t.poison with
  | some pa => poisonFault s 0 pa
  | none => s

/-- The counts of a member's loads (R91, R422): they are sent, and counted, whether or not the convoy retires. -/
def talliedCv (s : State) (t : Tally) : State := tallied s s.cv.core t

/-- The counts of an atomic's reads, which both runs of its convoy make: what the first has counted, the second does not count again. -/
def talliedLate (s : State) (t : Tally) : State :=
  let m := s.cv.member
  let isNew (line : Nat) : Bool := !s.cv.seen.contains (m, line)
  let s' := tallied s s.cv.core { t with
    stale := t.stale.filter (fun e => isNew (2 * e.1)), miss := t.miss.filter (fun l => isNew (2 * l + 1)), far := t.far.filter (fun l => isNew (2 * l + 1)) }
  if s.cv.trial then s'.modCv (fun cv => { cv with
    seen := cv.seen ++ (t.stale.map (fun e => (m, 2 * e.1)) ++ (t.miss ++ t.far).map (fun l => (m, 2 * l + 1))) })
  else s'

/-- A load's counts and faults: an access error is a span fault of cause ABS (R14). -/
def loadFaults (s : State) (t : Tally) : State :=
  let s := talliedCv s t
  let s := if t.abs.isEmpty then s else spanFault s 0 (t.abs.map (fun e => (e.1, e.2, XCause.abs))) true
  memPoison (staleFault s t) t

/-- A vector load of elements of `n` bytes: their values, or a span fault and none. -/
def loadElems (s : State) (elems : List (Nat × Nat)) (n : Nat) : Option (Tab Nat) × State :=
  let (accs, bad) := xlatElems s { r := true } elems n
  if bad.isEmpty then
    let (vals, t, s) := readAccs s accs {}
    (some vals, loadFaults s t)
  else (none, spanFault s 0 bad true)

/-- Active elements of vd take their values; inactive ones follow R294. -/
def Convoy.putLoad (cv : Convoy) (d : VName) (w : Nat) (vals : Tab Nat) : Convoy := cv.run d w (fun i => (tget 0 vals i, 0))

/-- A vector load into vd. -/
def vecLoad (s : State) (d : VName) (w : Nat) (elems : List (Nat × Nat)) : State :=
  match loadElems s elems (w / 8) with
  | (some vals, s) => s.modCv (fun cv => cv.putLoad d w vals)
  | (none, s) => s

/-! ## Stores -/

/-- The stores of translated accesses, in ascending element order (R103). -/
def storesOf (accs : List Acc) (val : Nat → Nat) : List Store :=
  accs.map (fun a => { pa := a.x.pa, bytes := leBytes a.n (val a.idx / 2 ^ (8 * a.off)), dev := a.x.dev, va := a.va })

/-- A vector store of elements of `n` bytes, staged until retirement (R102). -/
def vecStore (s : State) (elems : List (Nat × Nat)) (n : Nat) (val : Nat → Nat) : State :=
  let (accs, bad) := xlatElems s { w := true } elems n
  if bad.isEmpty then s.modCv (fun cv => { cv with stores := cv.stores ++ storesOf accs val })
  else spanFault s 1 bad true

/-! ## The scratchpad -/

/-- The pool byte at which the scratchpad, the accumulator partition and the talus partition begin (R43). -/
def Core.scrBase (c : Core) : Nat := c.info.poolReg * 65536
def Core.accBase (c : Core) : Nat := (c.info.poolReg + c.info.poolScr) * 65536
def Core.talBase (c : Core) : Nat := (c.info.poolReg + c.info.poolScr + c.info.poolAcc) * 65536

/-- Bytes staged by earlier members over a value read from an address (R102). -/
def overlayBytes (w : List (Nat × List Byte)) (a n v : Nat) : Nat :=
  w.foldl (fun v e =>
    (upto n).foldl (fun v i =>
      if e.1 ≤ a + i ∧ a + i < e.1 + e.2.length then
        v - bits v (8 * i) 8 * 2 ^ (8 * i) + (e.2.getD (a + i - e.1) 0).toNat * 2 ^ (8 * i)
      else v) v) v

/-- Whether staged writes cover an aligned 8-byte word. -/
def covers8 (w : List (Nat × List Byte)) (a : Nat) : Bool :=
  (upto 8).all (fun i => w.any (fun e => decide (e.1 ≤ a + i) && decide (a + i < e.1 + e.2.length)))

/-- `n` bytes of a core's scratchpad as the running member sees them. -/
def scrLoad (s : State) (c : Core) (a n : Nat) : Nat := overlayBytes s.cv.scr a n (leNat (trange 0 c.scratch a n))

/-- A core with another value, and poison, in a word of its scratchpad. -/
def Core.withWord (c : Core) (w : Nat × Nat × Bool) : Core :=
  let off := c.scrBase + 8 * w.1
  { c with scratch := tsetRange 0 c.scratch (8 * w.1) (leBytes 8 w.2.1)
           poolPoison := if w.2.2 then keyIn off c.poolPoison else keyOut off c.poolPoison }

/-- A core as its tag-checked reads see its scratchpad: a slot whose tag a running `cpy` has still to set shows none of that `cpy`'s words
(R57). -/
def Core.tagView (c : Core) : Core :=
  match (c.queue 0).entries with
  | e :: _ => e.was.foldl Core.withWord c
  | [] => c

/-- Words of the scratchpad that something else writes while a tagged `cpy` runs change in what its tag-checked readers see too (R57). -/
def Core.reWas (c : Core) (f : Nat → Nat × Bool → Nat × Bool) : Core :=
  match (c.queue 0).entries with
  | e :: l =>
    if e.was.isEmpty then c
    else c.setQueue 0 { c.queue 0 with entries := { e with was := e.was.map (fun w => (w.1, f w.1 w.2)) } :: l }
  | [] => c

/-- The first poisoned word that a read of `n` bytes at pool offset `base + a` meets. -/
def poolPoisonAt (c : Core) (base : Nat) (w : List (Nat × List Byte)) (a n : Nat) : Option Nat :=
  c.poolPoison.find? (fun o => decide (base + a / 8 * 8 ≤ o) && decide (o < base + a + n) && !covers8 w (o - base))

/-! ## A member that waits -/

/-- What an issue changes in its core: the recency order, and the yields that waited for it (R193, R366). -/
def Core.issued (c : Core) (j : Nat) : Core :=
  { c with
    recency := c.recency.filter (fun i => i != j) ++ [j]
    mts := tmap {} (fun i m =>
      if i = j then { m with yieldLeft := 0, yieldFor := [], yieldAll := [] }
      else if i % 8 = j % 8 ∧ m.yieldLeft ≠ 0 then { m with yieldLeft := m.yieldLeft - 1, yieldFor := m.yieldFor.filter (fun x => x != j) }
      else m) c.mts }

/-- The issue of a convoy that a member's check can keep from issuing is counted once it is known to have issued (R56, R193, R328). -/
def countIssue (s : State) (cv : Convoy) : State := if cv.counted then s else s.modCore cv.core (fun c => c.issued cv.mt)

/-- A convoy's arrival at its next instance of a level, made when it issues (R171). -/
def cvArrives (s : State) (n : Nat) : State :=
  let had := ((s.core s.cv.core).mt s.cv.mt).pend.getLsbD n
  let s := makeArrival s s.cv.core s.cv.mt n
  if had then s else s.modCv (fun cv => { cv with arrived := cv.arrived ++ [n] })

/-- The barriers among words still to run: their arrivals belong to the issue of the convoy (R171). -/
def barLevels (ws : List Word32) : List Nat := ws.filterMap (fun w => match decodeMt w with
  | .ok (.bar _ n) => some n.toNat
  | _ => none)

/-- A convoy that waits to retire is set aside under a state code: 3 for a wait of R174, 2 while it is in flight otherwise (R147). It keeps
the tensor table as it stood when it started (R262), and the span store it translates through (R34). -/
def setAside (s : State) (cv : Convoy) (code : Nat) : State :=
  let s := countIssue s cv
  let p := { cv with counted := true, tens0 := some (cv.tens0.getD (s.core cv.core).tens), span0 := some (cv.span0.getD s.span) }
  { s with cv := {} }.modCore cv.core (fun c => c.setMt cv.mt { c.mt cv.mt with parked := some p, code := code })

/-- The convoy parks at the running member, whose turn comes again when the micro-thread's does. -/
def parkMember (s : State) (code : Nat) : State :=
  let s := (barLevels s.cv.todo).foldl cvArrives s
  setAside s { s.cv with todo := s.cv.word :: s.cv.todo, widx := s.cv.widx - 1, wait := .member } code

/-- A member whose work may leave the convoy waiting, under a state code: `again s` says whether it has to. A convoy with a fault does not
wait, nor does one that has not issued, for want of a tag (R56), nor one in its second run. -/
def asWaiter (s : State) (i : Instr) (code : Nat) (work : State → State) (again : State → Bool) : Out :=
  if s.cv.wait = .issue then .next (endMember s) else
  let t := work (srcPoison s (s.form i) i)
  if again t && t.cv.cands.isEmpty && !t.cv.final then .next (parkMember t code) else .next (endMember t)

end Sys2Proof.Machine
end

