-- ==== Sys2Proof/Machine/Load.lean ====
section
/-! DEFINITION. Vector and tensor loads and stores, and mask loads and stores: majors 0x24 to 0x28, and the memory forms of 0x1C
(R257, R295 to R302). -/

namespace Sys2Proof.Machine

/-! ## Addresses of the plain forms (R295, R296) -/

/-- The M-format offset in bytes: OFF8, or payload and OFF8 under an extension, times the access size (R295). -/
def offBytes (cv : Convoy) (off : BitVec 8) (n : Nat) : Int := immS cv.pfx.ext 8 off.toNat * n

/-- gA + off. -/
def mBase (cv : Convoy) (a : GName) (off : BitVec 8) (n : Nat) : Nat := vaAdd (cv.rg a) (offBytes cv off n)

/-- Active elements, contiguous from a base. -/
def contigElems (cv : Convoy) (base n : Nat) : List (Nat × Nat) := cv.active.map (fun i => (i, (base + i * n) % 2 ^ 64))

/-- Active elements with a row stride (R296). -/
def stridedElems (cv : Convoy) (a b : GName) (n : Nat) : List (Nat × Nat) :=
  cv.active.map (fun i => (i, vaAdd (cv.rg a) ((i / cv.cols : Nat) * (cv.rg b).toInt + (i % cv.cols * n : Nat))))

/-- Active elements by an index register (R296). -/
def indexedElems (cv : Convoy) (a : GName) (b : VName) (n : Nat) : List (Nat × Nat) :=
  let x := cv.rv b
  cv.active.map (fun i => (i, ((cv.rg a).toNat + elem x (8 * n) i * n) % 2 ^ 64))

/-! ## Plain loads and stores (R296) -/

/-- R296. -/
def execVld (c : Bool) (d : VName) (a : GName) (sz : Size) (off : BitVec 8) (s : State) : Out :=
  asMember s (.vld c d a sz off) (fun s => vecLoad s d sz.bits (contigElems s.cv (mBase s.cv a off (sz.bits / 8)) (sz.bits / 8)))

/-- R296. -/
def execVlds (c : Bool) (d : VName) (a b : GName) (sz : Size) (s : State) : Out :=
  asMember s (.vlds c d a b sz) (fun s => vecLoad s d sz.bits (stridedElems s.cv a b (sz.bits / 8)))

/-- R296. -/
def execVldx (c : Bool) (d : VName) (a : GName) (b : VName) (sz : Size) (s : State) : Out :=
  asMember s (.vldx c d a b sz) (fun s => vecLoad s d sz.bits (indexedElems s.cv a b (sz.bits / 8)))

/-- A store of vs at addresses that its form gives. -/
def vstAt (s : State) (d : VName) (w : Nat) (elems : List (Nat × Nat)) : State :=
  let x := s.cv.rv d
  vecStore s elems (w / 8) (fun i => elem x w i)

/-- R296. -/
def execVst (c : Bool) (d : VName) (a : GName) (sz : Size) (off : BitVec 8) (s : State) : Out :=
  asMember s (.vst c d a sz off) (fun s => vstAt s d sz.bits (contigElems s.cv (mBase s.cv a off (sz.bits / 8)) (sz.bits / 8)))

/-- R296. -/
def execVsts (c : Bool) (d : VName) (a b : GName) (sz : Size) (s : State) : Out :=
  asMember s (.vsts c d a b sz) (fun s => vstAt s d sz.bits (stridedElems s.cv a b (sz.bits / 8)))

/-- R296. -/
def execVstx (c : Bool) (d : VName) (a : GName) (b : VName) (sz : Size) (s : State) : Out :=
  asMember s (.vstx c d a b sz) (fun s => vstAt s d sz.bits (indexedElems s.cv a b (sz.bits / 8)))

/-! ## Mask loads and stores (R257) -/

/-- The eight 64-bit elements of a mask register in memory. -/
def maskElems (cv : Convoy) (a : GName) : List (Nat × Nat) := (upto 8).map (fun i => (i, ((cv.rg a).toNat + 8 * i) % 2 ^ 64))

/-- R257. -/
def execKld (c : Bool) (d : KName) (a : GName) (s : State) : Out :=
  asMember s (.kld c d a) (fun s =>
    match loadElems s (maskElems s.cv a) 8 with
    | (some vals, s) => s.modCv (fun cv => cv.wk d (BitVec.ofNat 512 ((upto 8).foldl (fun m i => m + tget 0 vals i * 2 ^ (64 * i)) 0)))
    | (none, s) => s)

/-- R257. -/
def execKst (c : Bool) (d : KName) (a : GName) (s : State) : Out :=
  asMember s (.kst c d a) (fun s =>
    let k := (s.cv.rk d).toNat
    vecStore s (maskElems s.cv a) 8 (fun i => bits k (64 * i) 64))

/-! ## Fault-only-first (R297) -/

/-- The elements after the first, ascending, up to one that would fault, that lies in an NS span, or that reads poison: where the
load stops, the values, and what the reads met. -/
def ffRun (s : State) (n : Nat) : List (Nat × Nat) → Tab Nat → Tally → Option Nat × Tab Nat × Tally × State
  | [], vals, t => (none, vals, t, s)
  | e :: l, vals, t =>
    let (accs, bad) := xlatElems s { r := true } [e] n
    if !bad.isEmpty || accs.any (fun a => a.x.ns) || (s.cv.final && !(s.cv.reads.head?).any (fun r => r.1 == s.cv.member)) then
      (some e.1, vals, t, logUnst s s.cv.core (bad.map (fun b => b.2)))
    else
      let kept := s.cv.reads
      let (vals', t', s) := readAccs s accs { t with poison := none }
      let stop := (sttOn s && decide (t.stale.length < t'.stale.length)) || t'.poison.isSome || !t'.abs.isEmpty
      if stop then (some e.1, vals, { t' with poison := t.poison, abs := t.abs }, if s.cv.trial then s.modCv (fun cv => { cv with reads := kept }) else s)
      else ffRun s n l (tset 0 vals e.1 (tget 0 vals' e.1)) { t' with poison := t.poison }

/-- R297. -/
def execVldff (c : Bool) (d : VName) (a : GName) (sz : Size) (off : BitVec 8) (s : State) : Out :=
  asMember s (.vldff c d a sz off) (fun s =>
    let w := sz.bits
    let n := w / 8
    let ffi (cv : Convoy) (k : Nat) : Convoy := { cv with work := { cv.work with ffi := BitVec.ofNat 32 k } }
    match contigElems s.cv (mBase s.cv a off n) n with
    | [] => s.modCv (fun cv => ffi cv cv.elems)
    | e :: l =>
      let (accs, bad) := xlatElems s { r := true } [e] n
      if !bad.isEmpty then spanFault s 0 bad true
      else
        let (vals, t, s) := readAccs s accs {}
        if !t.abs.isEmpty || t.poison.isSome || (sttOn s && !t.stale.isEmpty) then loadFaults s t
        else
          let (stop, vals, t, s) := ffRun s n l vals t
          let s := talliedCv s t
          s.modCv (fun cv =>
            let k := stop.getD cv.elems
            ffi (cv.putV d (vecRun (cv.rv d) w k cv.gmask cv.pfx.zero (fun i => (tget 0 vals i, 0)))) k))

/-! ## Row-atomic loads (R125, R299) -/

/-- The rows of SHP that hold an active element. -/
def activeRows (cv : Convoy) : List Nat := (upto cv.rows).filter (fun r => (upto cv.cols).any (fun k => cv.gmask.getLsbD (r * cv.cols + k)))

/-- The first row that does not lie in one 128-byte line, with its address (R125). -/
def badRow (cv : Convoy) (base n : Nat) : Option (Nat × Nat) :=
  let len := cv.cols * n
  ((activeRows cv).map (fun r => (r, (base + r * len) % 2 ^ 64))).find? (fun x => decide (x.2 / 128 ≠ (x.2 + len - 1) / 128))

/-- The misaligned-row fault (R125, R382). -/
def rowFault (s : State) (r : Nat × Nat) : State := addFault s phAlign kMISROW 0 s.cv.wordAt [r.1, r.2]

/-- One row read whole at its home slice, the L1 having written back the row's line: the elements' values (R125, R421). -/
def readRow (s : State) (pa len : Nat) (t : Tally) : Nat × Tally × State :=
  let core := s.cv.core
  let line := pa / 128
  let s := closeLine s line
  let s := writeBack s core line (BitVec.allOnes 128)
  let (r, s) := sliceLoad s line (pa % 128) len
  (overlay s.staged none pa len r.val, ((t.addStale line r.stale).poisons s.staged line r.poison).addMiss line, s)

/-- R299. -/
def execVldra (c : Bool) (d : VName) (a : GName) (sz : Size) (off : BitVec 8) (s : State) : Out :=
  asMember s (.vldra c d a sz off) (fun s =>
    let w := sz.bits
    let n := w / 8
    let base := mBase s.cv a off n
    match badRow s.cv base n with
    | some r => rowFault s r
    | none =>
      let elems := contigElems s.cv base n
      let (accs, bad) := xlatElems s { r := true } elems n
      if !bad.isEmpty then spanFault s 0 bad true
      else
        let cols := s.cv.cols
        let (vals, t, s) := (activeRows s.cv).foldl (fun (r : Tab Nat × Tally × State) row =>
          let (vals, t, s) := r
          let before := t.far.length
          let mine := accs.filter (fun a => a.idx / cols == row)
          match mine with
          | [] => (vals, t, s)
          | f :: _ =>
            match f.x.dev with
            | some _ =>
              let (v, t, s) := readAccs s mine t
              let line := f.x.dev.getD 0 * 2 ^ 44 + f.x.pa / 128 * 128
              let t := { t with far := if t.far.length = before then t.far else insertNew line (t.far.take before) }
              (mine.foldl (fun m a => tset 0 m a.idx (tget 0 v a.idx)) vals, t, s)
            | none =>
              let pa := f.x.pa - f.idx % cols * n
              let (v, t, s) := readOnce s { f.x with pa := pa } (cols * n) t (fun s => readRow s pa (cols * n) t)
              (mine.foldl (fun m a => tset 0 m a.idx (bits v (w * (a.idx % cols)) w)) vals, t, s)) ([], {}, s)
        let s := loadFaults s t
        s.modCv (fun cv => cv.putLoad d w vals))

/-! ## Tensor loads and stores (R300 to R302) -/

/-- Where element e of a tensor access lies: none out of bounds, otherwise its address, not yet reduced (R301, R54). -/
def tensAddr (t : TDesc) (cv : Convoy) (tbit : Bool) (coord : Nat → Nat) (e : Nat) : Option Int :=
  let (row, col) := if tbit then (e % cv.rows, e / cv.rows) else (e / cv.cols, e % cv.cols)
  let x (j : Nat) : Nat := coord j + (if j = 0 then col else if j = 1 then row else 0)
  if t.rank = 0 || (t.rank == 1 && row != 0) || (upto t.rank).any (fun j => decide (t.dim j ≤ x j)) then none
  else
    let sum := (upto t.rank).foldl (fun (a : Int) j => a + (x j : Int) * t.stride j) 0
    some ((t.base : Int) + sum * (t.width / 8 : Nat))

/-- The active in-bounds elements of a tensor access, with their addresses. -/
def Convoy.tensElems (cv : Convoy) (t : TDesc) (tc : TChoice) (b : GName) : List (Nat × Int) :=
  cv.active.filterMap (fun e => (tensAddr t cv (t.tBit tc) (fun j => (cv.rg (b + BitVec.ofNat 6 j)).toNat) e).map (fun a => (e, a)))

def tensElems (s : State) (t : TDesc) (tc : TChoice) (b : GName) : List (Nat × Int) := s.cv.tensElems t tc b

/-- The first element that lies beyond the scratchpad (R51). -/
def scrOut (s : State) (els : List (Nat × Int)) (n : Nat) : Option Nat :=
  (els.find? (fun e => decide (e.2 < 0) || decide (((s.core s.cv.core).scrBytes : Int) < e.2 + n))).map (fun e => wrapW 64 e.2)

/-- The scratchpad fault of cause OOR (R51, R382). -/
def scrFault (s : State) (a : Nat) : State := addFault s phXlat kSCROOR 0 s.cv.wordAt [a]

/-- A scratchpad load of elements within the scratchpad of a core as the load sees it. -/
def scrLoadElems (s : State) (c : Core) (d : VName) (w : Nat) (els : List (Nat × Int)) : State :=
  let n := w / 8
  let vals := els.foldl (fun m e => tset 0 m e.1 (scrLoad s c e.2.toNat n)) []
  let s := match els.findSome? (fun e => poolPoisonAt c c.scrBase s.cv.scr e.2.toNat n) with
    | some o => poisonFault s 2 o
    | none => s
  s.modCv (fun cv => cv.putLoad d w vals)

/-- A tensor load of elements with their addresses. -/
def tensLoad (s : State) (c : Core) (t : TDesc) (d : VName) (els : List (Nat × Int)) : State :=
  if t.scratch then
    match scrOut s els (t.width / 8) with
    | some a => scrFault s a
    | none => scrLoadElems s c d t.width els
  else vecLoad s d t.width (els.map (fun e => (e.1, wrapW 64 e.2)))

/-- R301. -/
def execVldt (c : Bool) (d : VName) (t : TName) (b : GName) (tc : TChoice) (s : State) : Out :=
  asMember s (.vldt c d t b tc) (fun s =>
    let x := startDesc s t
    tensLoad s (s.core s.cv.core) x d (tensElems s x tc b))

/-- R301. -/
def execVstt (c : Bool) (d : VName) (t : TName) (b : GName) (tc : TChoice) (s : State) : Out :=
  asMember s (.vstt c d t b tc) (fun s =>
    let x := startDesc s t
    let els := tensElems s x tc b
    let w := x.width
    let v := s.cv.rv d
    if x.scratch then
      match scrOut s els (w / 8) with
      | some a => scrFault s a
      | none => s.modCv (fun cv => { cv with scr := cv.scr ++ els.map (fun e => (e.2.toNat, leBytes (w / 8) (elem v w e.1))) })
    else vecStore s (els.map (fun e => (e.1, wrapW 64 e.2))) (w / 8) (fun i => elem v w i))

/-- The slots that a read touches, ascending (R56, R302). -/
def slotsOf (els : List (Nat × Int)) (n limit : Nat) : List Nat :=
  let at_ := els.filterMap (fun e => if e.2 < 0 then none else some e.2.toNat)
  (at_.foldl (fun l a => keyIn ((a + n - 1) / 2048) (keyIn (a / 2048) l)) []).filter (fun k => decide (k < limit))

/-- δ of R56. -/
def tagDelta (t e : Nat) : Nat := (t + 256 - e % 256) % 256

/-- The outcome of R56 for slots with expected tag e: a slot at fault with its tag, and whether a slot waits. -/
def tagCheck (c : Core) (slots : List Nat) (e : Nat) : Option (Nat × Nat) × Bool :=
  let tag (k : Nat) : Nat := (tget 0 c.tags k).toNat
  let bad := slots.find? (fun k => decide (1 ≤ tagDelta (tag k) e) && decide (tagDelta (tag k) e ≤ 128))
  (bad.map (fun k => (k, tag k)), slots.any (fun k => decide (129 ≤ tagDelta (tag k) e)))

/-- R302. A convoy that waits for a tag has not issued: it is given up at its retirement and tried again. -/
def execVldtag (c : Bool) (d : VName) (t : TName) (b : GName) (tc : TChoice) (s : State) : Out :=
  asMember s (.vldtag c d t b tc) (fun s =>
    let x := startDesc s t
    let els := tensElems s x tc (b + 1)
    let e := (s.cv.rg b).toNat % 256
    let k := s.core s.cv.core
    match tagCheck k (slotsOf els (x.width / 8) (k.scrBytes / 2048)) e with
    | (some (slot, tag), _) => addFault s phTag kSCHED 0 s.cv.wordAt [slot + tag * 2 ^ 16 + e * 2 ^ 24]
    | (none, true) => s.modCv (fun cv => { cv with wait := .issue, need := some (slotsOf els (x.width / 8) (k.scrBytes / 2048), e) })
    | (none, false) => tensLoad s k.tagView x d els)

end Sys2Proof.Machine
end

