-- ==== Sys2Proof/Machine/Atomic.lean ====
section
/-! DEFINITION. Scalar accesses, atomics, remote-reduce stores, prefetch, fences, and the forms over ranges and regions: majors
0x29 to 0x2D (R303 to R317). -/

namespace Sys2Proof.Machine

/-! ## Scalar loads and stores (R303) -/

/-- The pieces of a scalar access, translated through pages in order; the first refused piece decides (R40). -/
def pagePieces (s : State) (need : Need) : List (Nat × Nat × Nat) → Except (Nat × XCause) (List Acc) × State
  | [] => (.ok [], s)
  | p :: l =>
    match pageXlat s s.cv.core (s.ctxOf s.cv.core) p.1 need with
    | (.error c, s) => (.error (p.1, c), s)
    | (.ok x, s) =>
      match pagePieces s need l with
      | (.error e, s) => (.error e, s)
      | (.ok accs, s) => (.ok (⟨0, p.2.1, p.2.2, p.1, x⟩ :: accs), s)

/-- A scalar access of `n` bytes, translated whole before it is performed. -/
def scalarXlat (s : State) (need : Need) (va n : Nat) : Except (Nat × XCause) (List Acc) × State :=
  pagePieces s need (splitAt 4096 va n)

/-- The register of a faulting load holds nothing that a later member could address with. -/
def gFault (s : State) (d : GName) : State := s.modCv (fun cv => { cv with fltGld := d :: cv.fltGld })

/-- R303. -/
def execGld (c : Bool) (d a : GName) (sext : Bool) (sz : Size) (off : BitVec 8) (s : State) : Out :=
  asMember s (.gld c d a sext sz off) (fun s =>
    let n := sz.bits / 8
    match scalarXlat s { r := true } (mBase s.cv a off n) n with
    | (.error (va, e), s) => gFault (pageFault s va 0 e) d
    | (.ok accs, s) =>
      let (vals, t, s) := readAccs s accs {}
      let v := tget 0 vals 0
      let s := talliedCv s t
      let s := memPoison (staleFault s t) t
      match t.abs with
      | (_, va) :: _ => gFault (pageFault s va 0 .abs) d
      | [] => s.modCv (fun cv => cv.wg d (if sext then BitVec.ofInt 64 (sxt (8 * n) v) else BitVec.ofNat 64 v)))

/-- R303. -/
def execGst (c : Bool) (d a : GName) (sz : Size) (off : BitVec 8) (s : State) : Out :=
  asMember s (.gst c d a sz off) (fun s =>
    let n := sz.bits / 8
    let v := (s.cv.rg d).toNat
    match scalarXlat s { w := true } (mBase s.cv a off n) n with
    | (.error (va, e), s) => pageFault s va 1 e
    | (.ok accs, s) => s.modCv (fun cv => { cv with stores := cv.stores ++ storesOf accs (fun _ => v) }))

/-! ## Atomics (R304 to R306) -/

/-- The misaligned-access fault (R305, R306, R308, R382). -/
def misaligned (s : State) (a : Nat) : State := addFault s phAlign kMISAL 0 s.cv.wordAt [a]

/-- The lines of accesses that stay on the device, each with the bytes they cover. -/
def coverOf (accs : List (Xlat × Nat)) : Tab LineMask :=
  accs.foldl (fun m a => if a.1.dev.isSome then m else
    tset 0 m (a.1.pa / 128) (tget 0 m (a.1.pa / 128) ||| lineSpan (a.1.pa % 128) a.2)) []

/-- Before atomics or remote reduces are sent, the L1 writes back and drops the sectors they cover, line by line (R122, R126), in both of a
convoy's runs; a convoy that has not issued sends nothing. -/
def sendOff (s : State) (cover : Tab LineMask) : State :=
  if s.cv.wait = .issue then s else cover.foldl (fun s e => flushSectors s s.cv.core e.1 e.2) s

/-- One element of a `vamo`: the new value and its flags. -/
def vamoNew (cv : Convoy) (f : NFmt) (op : AmoOp) (i old x : Nat) : Res :=
  match f with
  | .flt g => amoFlt op g old x cv.mode (cv.rnd g.width i)
  | g => (amoInt op g.width old x, 0)

/-- A `vamo` of elements that have been translated: old values into vd, new ones staged, flags by element (R305). -/
def vamoRun (s : State) (d b : VName) (op : AmoOp) (f : NFmt) (accs : List Acc) : State :=
  let w := f.width
  let n := w / 8
  let y := s.cv.rv b
  let s := sendOff s (coverOf (accs.map (fun a => (a.x, n))))
  let (vals, news, hits, t, s) := accs.foldl (fun (r : Tab Nat × List Store × Hits × Tally × State) a =>
    let (vals, news, hits, t, s) := r
    let (old, t, s) := atomicRead s s.cv.core a.x n s.staged t a.idx a.va
    let q := vamoNew s.cv f op a.idx old (elem y w a.idx)
    (tset 0 vals a.idx old, news ++ [{ pa := a.x.pa, bytes := leBytes n q.1, dev := a.x.dev, va := a.va, atomic := true }],
      if q.2 = 0 then hits else hits ++ [(a.idx, q.2)], t, s)) ([], [], [], {}, s)
  let s := talliedLate s t
  let s := if t.abs.isEmpty then s else spanFault s 2 (t.abs.map (fun e => (e.1, e.2, XCause.abs))) true
  let s := memPoison s t
  s.modCv (fun cv => { (cv.putLoad d w vals).raise hits with stores := cv.stores ++ news })

/-- A `vamo` of either form (R305). -/
def vamoForm (s : State) (i : Instr) (row : Bool) (d : VName) (a : GName) (b : VName) (op : AmoOp) : Out :=
  asMember s i (fun s =>
    match vamoType s.cv.pfx.ty with
    | none => s
    | some f =>
      let n := f.width / 8
      let base := (s.cv.rg a).toNat
      if base % n ≠ 0 then misaligned s base
      else
        match (if row then badRow s.cv base n else none) with
        | some r => rowFault s r
        | none =>
          let (accs, bad) := xlatElems s { r := true, w := true } (contigElems s.cv base n) n
          if bad.isEmpty then vamoRun s d b op f accs else spanFault s 2 bad true)

/-- R305. -/
def execVamo (c : Bool) (d : VName) (a : GName) (b : VName) (op : AmoOp) (s : State) : Out := vamoForm s (.vamo c d a b op) false d a b op

/-- R305, the row form. -/
def execVamoRow (c : Bool) (d : VName) (a : GName) (b : VName) (op : AmoOp) (s : State) : Out := vamoForm s (.vamoRow c d a b op) true d a b op

/-- R306. Under STT the home slice judges staleness before it performs the atomic (R93). -/
def execGamo (c : Bool) (d a b : GName) (dbl : Bool) (op : AmoOp) (s : State) : Out :=
  asMember s (.gamo c d a b dbl op) (fun s =>
    let n := if dbl then 8 else 4
    let va := (s.cv.rg a).toNat
    let x := (s.cv.rg b).toNat % 2 ^ (8 * n)
    if va % n ≠ 0 then gFault (misaligned s va) d
    else
      match scalarXlat s { r := true, w := true } va n with
      | (.ok (acc :: _), s) =>
        let (old, t, s) := atomicRead s s.cv.core acc.x n s.staged {} 0 va
        let s := talliedLate s t
        let s := memPoison (staleFault s t) t
        match t.abs with
        | _ :: _ => gFault (pageFault s va 2 .abs) d
        | [] => s.modCv (fun cv => { cv.wg d (BitVec.ofNat 64 old) with
            stores := cv.stores ++ [{ pa := acc.x.pa, bytes := leBytes n (amoInt op (8 * n) old x), dev := acc.x.dev, va := va, atomic := true }] })
      | (.error (va, e), s) => gFault (pageFault s va 2 e) d
      | (.ok [], s) => s)

/-! ## Remote-reduce stores (R307, R308) -/

/-- The exact value of source element i of a `vrst`. -/
def vrstValue (cv : Convoy) (code : Nat) (b d : VName) (i : Nat) : FVal :=
  if code < 16 then
    match plainCode code with
    | some f => f.value (elem (cv.rv b) f.width i)
    | none => .nan false
  else Scales.value ⟨code, cv.rv d, cv.cols⟩ (cv.rv b) i

/-- An element joins the packet of its line and node, packets by ascending node and line (R126). -/
def joinPacket (a : Acc) (e : Nat × FVal × Nat) (mk : Nat → Option Nat → Nat → VrstPkt) : List VrstPkt → List VrstPkt
  | [] => [{ mk (a.x.pa / 128) a.x.dev a.va with elems := [e] }]
  | p :: l => if p.line = a.x.pa / 128 ∧ p.dev = a.x.dev then { p with elems := p.elems ++ [e] } :: l else p :: joinPacket a e mk l

/-- R308. The packets leave at retirement. -/
def execVrst (c : Bool) (d : VName) (a : GName) (b : VName) (bf : Bool) (s : State) : Out :=
  asMember s (.vrst c d a b bf) (fun s =>
    let w := if bf then 16 else 32
    let n := w / 8
    let base := (s.cv.rg a).toNat
    if base % n ≠ 0 then misaligned s base
    else
      let (accs, bad) := xlatElems s { r := true, w := true } (contigElems s.cv base n) n
      if !bad.isEmpty then spanFault s 2 bad true
      else
        let s := sendOff s (coverOf (accs.map (fun a => (a.x, n))))
        let k := s.core s.cv.core
        let code := (vrstCode s.cv.pfx.ty).getD 0
        let sid := senderId s s.cv.core s.cv.mt
        let core := s.cv.core
        let lid := launchId s core
        s.modCv (fun cv =>
          let mk (line : Nat) (dev : Option Nat) (va : Nat) : VrstPkt :=
            { sid := sid, core := core, line := line, bf := bf, rm := cv.mode, elems := [], batch := k.info.det, lid := lid, dev := dev, va := va }
          { cv with vpk := cv.vpk ++ accs.foldl (fun l acc =>
              joinPacket acc (acc.x.pa % 128, vrstValue cv code b d acc.idx, cv.rnd w acc.idx) mk l) [] }))

/-! ## Prefetch and fences (R310, R311) -/

/-- Whether a region has an in-place operation accepted whose entry is not complete (R72). -/
def inPlaceBusy (s : State) (pa : Nat) : Bool := s.banks.any (fun b => b.accepted && b.regions.contains (regionOf pa))

/-- Whether a line's bytes are poisoned where a fill would take them from. -/
def fillPoisoned (s : State) (line : Nat) : Bool := (s.slice line).poison != 0 || (upto 4).any (fun k => s.arrPoison.contains (4 * line + k))

/-- A way that leaves without a write-back, a free choice among those that can (R71, log 11). -/
def cleanWay (s : State) (ways : List Nat) (clean : Nat → Bool) : Option (Nat × State) :=
  match ways.filter clean with
  | [] => none
  | w :: l => some ((w :: l).getD (Config.victim s.fresh % (w :: l).length) w, { s with fresh := s.fresh + 1 })

/-- Room for a prefetched line in its home slice, which writes nothing out; none where that cannot be (R71). -/
def cleanSliceRoom (s : State) (line : Nat) : Option State :=
  let ways := sliceWays s line
  if s.slice line ≠ {} ∨ ways.length < 12 then some s else
  (cleanWay s ways (fun x => (s.slice x).dirty == 0 && !s.vrst.any (fun p => p.line == x))).map (fun r => evictSlice r.2 r.1)

/-- Room for a prefetched line in the directory of its home slice, where every L1 that gives up a line holds it clean. -/
def cleanDirRoom (s : State) (line : Nat) : Option State :=
  let ways := dirWays s line
  if ways.length < 16 || ways.contains line then some s else
  (cleanWay s ways (fun x => s.cores.all (fun c => (c.2.line x).dirty == 0))).map (fun r => dropDirectory r.2 r.1)

/-- Room for a prefetched line in an L1, its home slice's directory and its home slice: a prefetch never writes back (R71). -/
def prefetchRoom (s : State) (core line : Nat) : Option State :=
  let ways := l1Ways (s.core core) line
  let s := if ((s.core core).line line).live || decide (ways.length < 8) then some s
    else (cleanWay s ways (fun x => ((s.core core).line x).dirty == 0)).map (fun r => evictLine r.2 core r.1)
  (s.bind (fun s => cleanDirRoom s line)).bind (fun s => cleanSliceRoom s line)

/-- Sectors of a line that a prefetch fills, as a load would at that moment: a line that the slice holds stale counts (R71, R91); it is
discarded where it meets poison or finds no room. -/
def prefetchSectors (s : State) (core line : Nat) (secs : BitVec 4) : State :=
  let want := secs &&& ~~~((s.core core).line line).valid
  if want = 0 || fillPoisoned s line then s
  else match prefetchRoom s core line with
    | none => s
    | some s =>
      let (st, s) := l1Fetch (closeLine s line) core line want
      if st.isSome then addStale s core 1 else s

/-- A prefetch of the line of a PA, but for a region that R72 excludes. -/
def prefetchLine (s : State) (core pa : Nat) : State := if inPlaceBusy s pa then s else prefetchSectors s core (pa / 128) 15

/-- R310. It never faults. Where the next move is a delay, the fill comes later (R72, log 52). -/
def execPref (c : Bool) (a : GName) (s : State) : Out :=
  asMember s (.pref c a) (fun s =>
    match cvXlat s { r := true } (s.cv.rg a).toNat with
    | .error e => logUnst s s.cv.core [((s.cv.rg a).toNat, e)]
    | .ok x =>
      if x.ns || x.dev.isSome || inPlaceBusy s x.pa then s
      else match s.sched with
        | .delay :: l => { s with sched := l, prefs := s.prefs ++ [(s.cv.core, x.pa / 128)] }
        | _ => prefetchLine s s.cv.core x.pa)

/-- R311. From DIE up, an earlier set with stores does the work of R118; DOM and SYS wait for what is posted. -/
def execFence (c : Bool) (scope : Scope) (el es ll ls : Bool) (s : State) : Out :=
  asWaiter s (.fence c scope el es ll ls) 2 (fun s => if es then releaseWork s s.cv.core scope else s)
    (fun s => es && releaseWaits s s.cv.core s.cv.mt scope)

/-! ## Clean and inval (R78, R79, R314) -/

/-- The spans that a range overlaps below 2 TiB: the first byte in each and how many. -/
def rangeSpans (va n : Nat) : List (Nat × Nat) :=
  let end_ := min (va + n) (2 ^ 41)
  if end_ ≤ va then [] else
  (List.range ((end_ - 1) / spanBytes + 1 - va / spanBytes)).map (fun k =>
    let lo := max va ((va / spanBytes + k) * spanBytes)
    (lo, min end_ ((va / spanBytes + k + 1) * spanBytes) - lo))

/-- A range translated span by span: the refused ones, or the pieces on this device (R314). -/
def rangeForm (s : State) (a b : GName) (need : Need) (acc : Nat) (drop : Bool) : State :=
  let va := (s.cv.rg a).toNat
  let n := (s.cv.rg b).toNat
  if n = 0 then s else
  let r := (rangeSpans va n).map (fun p => (p, cvXlat s need p.1))
  let bad := (r.filterMap (fun q => match q.2 with
    | .ok _ => none
    | .error c => some (0, q.1.1, c))) ++ (if 2 ^ 41 < va + n then [(0, 2 ^ 41, XCause.oor)] else [])
  if bad.isEmpty then
    s.modCv (fun cv => { cv with cleans := cv.cleans ++ r.filterMap (fun q => match q.2 with
      | .ok x => if x.dev.isSome then none else some (x.pa, q.1.2, drop)
      | .error _ => none) })
  else spanFault s acc bad false

/-- The L1 writes the dirty bytes of every line of a range home, and drops the lines for `inval` (R78, R79). -/
def cleanRange (s : State) (core pa n : Nat) (drop : Bool) : State :=
  let lines := ((s.core core).l1.map Prod.fst).filter (fun l => decide (pa < 128 * l + 128) && decide (128 * l < pa + n))
  lines.foldl (fun s l => if drop then evictLine s core l else writeBack s core l (BitVec.allOnes 128)) s

/-- R314. -/
def execClean (c : Bool) (a b : GName) (s : State) : Out := asMember s (.clean c a b) (fun s => rangeForm s a b { r := true } 0 false)

/-- R314. -/
def execInval (c : Bool) (a b : GName) (s : State) : Out := asMember s (.inval c a b) (fun s => rangeForm s a b { r := true, w := true } 2 true)

/-! ## Regions (R315 to R317) -/

/-- The region's translation at issue (R315): a refusal names element 0. -/
def regionXlat (s : State) (a : GName) (need : Need) (acc : Nat) : Except State (Nat × Xlat) :=
  let va := (s.cv.rg a).toNat / 65536 * 65536
  match cvXlat s { need with localOnly := true } va with
  | .ok x => .ok (va, x)
  | .error c => .error (spanFault s acc [(0, va, c)] true)

/-- An entry that the running member places on a queue at retirement (R112, R165). -/
def enqueue (s : State) (q : Nat) (cmd : EngCmd) (opnd : Word64) : State :=
  s.modCv (fun cv => { cv with enq := cv.enq ++ [(q, { cmd := cmd, word := cv.word, who := cv.mt, head := cv.head, opnd := opnd })] })

/-- R316. -/
def execSettle (c : Bool) (a : GName) (s : State) : Out :=
  asMember s (.settle c a) (fun s =>
    match regionXlat s a { r := true, w := true } 2 with
    | .ok (va, _) => enqueue s 5 (.settle (BitVec.ofNat 64 va)) 0
    | .error s => s)

/-- R316. -/
def execRenew (c : Bool) (a : GName) (scope : Scope) (s : State) : Out :=
  asMember s (.renew c a scope) (fun s =>
    match regionXlat s a { r := true, w := true } 2 with
    | .ok (va, _) => enqueue s 5 (.renew (BitVec.ofNat 64 va) scope) 0
    | .error s => s)

/-- R317. The acquire moves nothing (R119). -/
def execSetlc (c : Bool) (d a : GName) (scope : Scope) (s : State) : Out :=
  asMember s (.setlc c d a scope) (fun s =>
    match regionXlat s a { r := true } 0 with
    | .ok (_, x) => s.modCv (fun cv => cv.wg d (if isSram s x.pa then (tget 0 s.setlc (regionOf x.pa)).setWidth 64 else 0))
    | .error s => s)

/-- R317. -/
def execIwc (c : Bool) (d a : GName) (s : State) : Out :=
  asMember s (.iwc c d a) (fun s =>
    match regionXlat s a { r := true } 0 with
    | .ok (_, x) => s.modCv (fun cv => cv.wg d (if isSram s x.pa then (tget 0 s.iwc (regionOf x.pa)).setWidth 64 else 0))
    | .error s => s)

end Sys2Proof.Machine
end

