-- ==== Sys2Proof/Machine/Talus.lean ====
section
/-! DEFINITION. The talus stack: its stream, the share and the scree, pushes and pops, `tsave`, `trest` and the checking forms
(R321 to R323, R329, R331 to R338). The share is held as the stream's resident bytes, keyed by stream offset (R333). -/

namespace Sys2Proof.Machine

/-! ## The stream -/

/-- The share of the running micro-thread in chunks (R59). -/
def chunksOf (s : State) : Nat := (s.core s.cv.core).info.chunks

/-- Where a resident byte of the stream lies in the pool: chunk n at place n mod C of the share. -/
def talusPool (s : State) (o : Nat) : Nat :=
  (s.core s.cv.core).talBase + (s.cv.mt * chunksOf s + o / 4096 % chunksOf s) * 4096 + o % 4096

/-- Whether a resident 8-byte word of the stream is poisoned. -/
def talusBad (s : State) (o : Nat) : Bool := (s.core s.cv.core).poolPoison.contains (talusPool s o)

/-- The first poisoned resident word of 8-byte words at stream offsets. -/
def talusPoison (s : State) (offs : List Nat) : State :=
  if (s.core s.cv.core).poolPoison.isEmpty then s else
  match offs.find? (fun o => talusBad s o) with
  | some o => poisonFault s 4 (talusPool s o)
  | none => s

/-- The 8-byte words from `lo`, `n` bytes in all. -/
def wordsOf (lo n : Nat) : List Nat := (upto (n / 8)).map (fun k => lo + 8 * k)

/-- Chunks from `a` to `b − 1`. -/
def chunkRange (a b : Nat) : List Nat := (upto (b - a)).map (fun k => a + k)

/-- The spans of scree chunks, translated for a need (R335): where each chunk lies, and the refused ones. -/
def screeXlat (s : State) (scb : Nat) (need : Need) (chunks : List Nat) : List (Nat × Xlat) × List (Nat × Nat × XCause) :=
  let r := chunks.map (fun n => (n, scb + 4096 * n, cvXlat s need (scb + 4096 * n)))
  (r.filterMap (fun q => match q.2.2 with
    | .ok x => some (q.1, x)
    | .error _ => none),
   r.filterMap (fun q => match q.2.2 with
    | .ok _ => none
    | .error c => some (0, q.2.1, c)))

/-- A read of stream words: resident ones from the share, the others by plain loads of the scree (R335). -/
def readStream (s : State) (at_ : List (Nat × Xlat)) (scb spill lo n : Nat) (t : Tally) : Nat × Tally × State :=
  let s := if s.cv.final then s else peersFirst s s.cv.core s.cv.mt ((wordsOf lo n).filterMap (fun o =>
    if spill ≤ o / 4096 then none else match at_.find? (fun e => e.1 == o / 4096) with
      | some (_, x) => if x.dev.isNone then some (x.pa + o % 4096, 8) else none
      | none => none))
  (wordsOf lo n).foldl (fun (r : Nat × Tally × State) o =>
    let (v, t, s) := r
    let c := o / 4096
    if spill ≤ c then (v + leNat (trange 0 s.cv.talus o 8) * 2 ^ (8 * (o - lo)), t, s)
    else
      match at_.find? (fun e => e.1 == c) with
      | none => (v, t, s)
      | some (_, x) =>
        let x' := { x with pa := x.pa + o % 4096 }
        let (w, t, s) := cvLoad s x' 8 t 0 (scb + o)
        (v + w * 2 ^ (8 * (o - lo)), t, s)) (0, t, s)

/-- What refill reads count and fault: never a stale-read fault (R335). -/
def refillFaults (s : State) (t : Tally) : State :=
  let s := talliedCv s t
  let s := if t.abs.isEmpty then s else spanFault s 2 (t.abs.map (fun e => (e.1, e.2, XCause.abs))) false
  memPoison s t

/-- Stream bytes of the share replaced, and removed from it. -/
def putTalus (t : List Host.Cell) (o : Nat) (bytes : List Byte) : List Host.Cell := tsetRange 0 t o bytes
def dropTalus (t : List Host.Cell) (f : Nat → Bool) : List Host.Cell := t.filter (fun e => !f e.1)

/-- A whole resident chunk as stores to its scree chunk, sector by sector, poison with it (R333, R391). -/
def spillStores (s : State) (x : Xlat) (va n fresh : Nat) : List Store :=
  (upto 128).map (fun k =>
    let o := 4096 * n + 32 * k
    { pa := x.pa + 32 * k, bytes := trange 0 s.cv.talus o 32, dev := x.dev, va := va + 32 * k
      poison := (upto 4).any (fun j => decide (o + 8 * j < fresh) && talusBad s (o + 8 * j)) })

def stage (s : State) (st : List Store) : State := s.modCv (fun cv => { cv with stores := cv.stores ++ st })

def setTsd (s : State) (tsd : Word64) : State := s.modCv (fun cv => { cv with work := { cv.work with tsd := tsd } })

/-! ## Push and pop -/

/-- The talus overflow fault (R334, R336). -/
def talusOver (s : State) (sub w2 : Nat) : State := addFault s phTag kTOVER sub s.cv.wordAt [w2 % 2 ^ 64]

/-- A push of a frame of `len` bytes (R333 to R335). -/
def pushFrame (s : State) (frame len : Nat) : State :=
  let r := s.cv.work
  let b0 := tsdBytes r.tsd
  let b1 := b0 + len
  let fr := tsdFrames r.tsd
  let c := chunksOf s
  let scb := r.scb.toNat
  let scl := r.scl.toNat
  let s0 := spillOf b0 c
  let s1 := spillOf b1 c
  let past := if c = 0 then decide (scl < scb + b1) else decide (scl < scb + 4096 * s1)
  if past then talusOver s 0 (max scl (if c = 0 then scb + b0 else scb + 4096 * s0))
  else if 2 ^ 24 ≤ fr + 1 then talusOver s 1 (scb + b0)
  else if 2 ^ 40 ≤ b1 then talusOver s 2 (scb + b0)
  else
    let chunks := if c = 0 then chunkRange (b0 / 4096) ((b1 + 4095) / 4096) else chunkRange s0 s1
    let (ok, bad) := screeXlat s scb { r := true, w := true } chunks
    if !bad.isEmpty then spanFault s 2 bad false
    else
      let bytes := leBytes len frame
      let s := setTsd s (tsdOf (fr + 1) b1)
      if c = 0 then
        stage s (ok.map (fun e =>
          let lo := max b0 (4096 * e.1)
          let hi := min b1 (4096 * e.1 + 4096)
          { pa := e.2.pa + lo % 4096, bytes := (bytes.drop (lo - b0)).take (hi - lo), dev := e.2.dev, va := scb + lo }))
      else
        let s := s.modCv (fun cv => { cv with talus := putTalus cv.talus b0 bytes })
        let s := stage s ((ok.map (fun e => spillStores s e.2 (scb + 4096 * e.1) e.1 b0)).flatten)
        s.modCv (fun cv => { cv with talus := dropTalus cv.talus (fun o => decide (o < 4096 * s1)) })

/-- The header fields that a match compares: all but the reserved ones (R329). -/
def headMask : Nat := 2 ^ 64 - 1 - 255 * 2 ^ 12

/-- The talus order fault (R329, R337, R338). -/
def talusOrder (s : State) (sub w2 w3 : Nat) : State := addFault s phOrder kTORDER sub s.cv.wordAt [w2, w3]

/-- A pop of the frame that must match `expect`, of payload length `plen`: the payload, or none with its fault (R328, R329, R333). -/
def popFrame (s : State) (expect plen : Nat) : Option Nat × State :=
  let r := s.cv.work
  let b0 := tsdBytes r.tsd
  let fr := tsdFrames r.tsd
  if fr = 0 then (none, addFault s phTag kTUNDER 0 s.cv.wordAt [])
  else
    let c := chunksOf s
    let scb := r.scb.toNat
    let s0 := spillOf b0 c
    let b1 := b0 - (plen + 8)
    let s1 := spillOf b1 c
    let own := (chunkRange (b1 / 4096) ((b0 + 4095) / 4096)).filter (fun n => decide (n < s0))
    let back := if c = 0 then [] else chunkRange s1 s0
    let (ok, bad) := screeXlat s scb { r := true, w := true } (back.foldl (fun l n => keyIn n l) own)
    if !bad.isEmpty then (none, spanFault s 2 bad false)
    else
      let (h, t, s) := readStream s ok scb s0 (b0 - 8) 8 {}
      if h &&& headMask ≠ expect ∨ b0 < plen + 8 then
        let s := refillFaults s t
        (none, talusPoison (talusOrder s 0 h expect) [b0 - 8])
      else
        let (p, t, s) := readStream s ok scb s0 b1 plen t
        let (chunks, t, s) := back.foldl (fun (q : List (Nat × Nat) × Tally × State) n =>
          let (l, t, s) := q
          let (v, t, s) := readStream s ok scb s0 (4096 * n) 4096 t
          (l ++ [(n, v)], t, s)) ([], t, s)
        let s := talusPoison (refillFaults s t) ((wordsOf b1 (plen + 8)).filter (fun o => decide (s0 ≤ o / 4096)))
        let s := s.modCv (fun cv =>
          let tal := chunks.foldl (fun m e => putTalus m (4096 * e.1) (leBytes 4096 e.2)) cv.talus
          { cv with talus := dropTalus tal (fun o => decide (b1 ≤ o)) })
        (some p, setTsd s (tsdOf (fr - 1) b1))

/-! ## tsave and trest (R336, R337) -/

/-- R336. -/
def execTsave (c : Bool) (a : GName) (s : State) : Out :=
  asMember s (.tsave c a) (fun s =>
    let ga := (s.cv.rg a).toNat
    if ga % 32 ≠ 0 then misaligned s ga
    else
      let r := s.cv.work
      let b := tsdBytes r.tsd
      let scb := r.scb.toNat
      let spill := spillOf b (chunksOf s)
      let top := (b + 4095) / 4096
      if r.scl.toNat < scb + 4096 * top then talusOver s 0 (max r.scl.toNat (scb + 4096 * spill))
      else
        let (ok, bad) := screeXlat s scb { w := true } (chunkRange spill top)
        let d := cvXlat s { w := true } ga
        match d, bad with
        | .ok x, [] =>
          let s := stage s ((ok.map (fun e => spillStores s e.2 (scb + 4096 * e.1) e.1 b)).flatten)
          let s := stage s [{ pa := x.pa, bytes := leBytes 32 (r.tsd.toNat + r.scb.toNat * 2 ^ 64 + r.scl.toNat * 2 ^ 128), dev := x.dev, va := ga }]
          s.modCv (fun cv => { cv with talus := [], work := { cv.work with tsd := 0, scb := BitVec.ofNat 64 (scb + 4096 * top) } })
        | .error e, _ => spanFault s 1 (bad ++ [(0, ga, e)]) false
        | .ok _, _ => spanFault s 1 bad false)

/-- Whether a descriptor's words are refused (R337). -/
def restBad (tsd scb scl last : Nat) : Bool :=
  let b := bits tsd 0 40
  let f := bits tsd 40 24
  last != 0 || (f == 0) != (b == 0) || decide (b < 8 * f) || b % 8 != 0 || screeBad (BitVec.ofNat 64 scb) || screeBad (BitVec.ofNat 64 scl) ||
    decide (scl < scb + 4096 * ((b + 4095) / 4096))

/-- R337. The scree spans of the descriptor's words are translated before they are judged (R318). -/
def execTrest (c : Bool) (a : GName) (s : State) : Out :=
  asMember s (.trest c a) (fun s =>
    let ga := (s.cv.rg a).toNat
    if ga % 32 ≠ 0 then misaligned s ga
    else
      match cvXlat s { r := true } ga with
      | .error e => spanFault s 0 [(0, ga, e)] false
      | .ok x =>
        let (v, t, s) := (upto 4).foldl (fun (q : Nat × Tally × State) k =>
          let (v, t, s) := q
          let (w, t, s) := cvLoad s { x with pa := x.pa + 8 * k } 8 t 0 (ga + 8 * k)
          (v + w * 2 ^ (64 * k), t, s)) (0, {}, s)
        let tsd := bits v 0 64
        let scb := bits v 64 64
        let scl := bits v 128 64
        let old := s.cv.work.tsd
        let b := bits tsd 0 40
        let spill := spillOf b (chunksOf s)
        let chunks := chunkRange spill ((b + 4095) / 4096)
        let (ok, bad) := screeXlat s scb { r := true, w := true } chunks
        if !bad.isEmpty then spanFault (refillFaults s t) 2 bad false
        else if old ≠ 0 ∨ restBad tsd scb scl (bits v 192 64) then talusOrder (refillFaults s t) 2 old.toNat ga
        else
          let (tal, t, s) := chunks.foldl (fun (q : List Host.Cell × Tally × State) n =>
            let (m, t, s) := q
            let (w, t, s) := readStream s ok scb (n + 1) (4096 * n) 4096 t
            (putTalus m (4096 * n) (leBytes 4096 w), t, s)) ([], t, s)
          let s := refillFaults s t
          s.modCv (fun cv => { cv with
            talus := dropTalus tal (fun o => decide (b ≤ o))
            work := { cv.work with tsd := BitVec.ofNat 64 tsd, scb := BitVec.ofNat 64 scb, scl := BitVec.ofNat 64 scl } }))

/-! ## The checking forms (R338) -/

/-- R338. -/
def execTmark (c : Bool) (d : GName) (s : State) : Out := asMember s (.tmark c d) (fun s => s.modCv (fun cv => cv.wg d cv.work.tsd))

/-- R338. -/
def execTdepth (c : Bool) (d : GName) (s : State) : Out :=
  asMember s (.tdepth c d) (fun s => s.modCv (fun cv => cv.wg d (BitVec.ofNat 64 (tsdFrames cv.work.tsd))))

/-- R338. -/
def execTchk (c : Bool) (a : GName) (s : State) : Out :=
  asMember s (.tchk c a) (fun s =>
    let g := s.cv.rg a
    if g = s.cv.work.tsd then s else talusOrder s 1 s.cv.work.tsd.toNat g.toNat)

end Sys2Proof.Machine
end

