-- ==== Sys2Proof/Machine/Reverse.lean ====
section
/-! DEFINITION. Reversible instructions and their undos: majors 0x2E to 0x33 (R319 to R330). -/

namespace Sys2Proof.Machine

/-- The classes of R321. -/
inductive RevKind where
  | mul | add | fma | narrow | shr | scale | lrelu
  deriving DecidableEq, Repr

def RevKind.cls : RevKind → Nat
  | .mul => 0 | .add => 1 | .fma => 2 | .narrow => 3 | .shr => 4 | .scale => 5 | .lrelu => 6

def rtSigned (rt : RType) : Bool := rt == .i8 || rt == .i16 || rt == .i32
def rtFmt (rt : RType) : Fmt := if rt == .bf16 then fmtBF16 else fmtF32

/-- The width of the result: half the source's for `rnarrow`. -/
def revDst (k : RevKind) (rt : RType) : Nat := if k = .narrow then rtBits rt / 2 else rtBits rt

/-- The result's float format. -/
def revFmt (k : RevKind) (rt : RType) : Fmt := if k = .narrow then fmtBF16 else rtFmt rt

/-- An integer's value by its type's signedness. -/
def rtVal (rt : RType) (w x : Nat) : Int := if rtSigned rt then sxt w x else (x % 2 ^ w : Nat)

/-! ## Forward (R325, R326) -/

/-- One element's result: y, its flags, whether it takes an escape, and the remainder. -/
structure RevOut where
  y : Nat
  flags : Nat := 0
  esc : Bool := false
  rem : Nat := 0
  deriving DecidableEq, Repr

/-- Integer classes: a, b and c are patterns, p the shift count or slope. -/
def revInt (k : RevKind) (rt : RType) (a b c p : Nat) : RevOut :=
  let w := rtBits rt
  let v (x : Nat) : Int := rtVal rt w x
  match k with
  | .mul => let x := v a * v b; { y := wrapW w x, esc := b % 2 ^ w == 0, rem := wrapW w (x / ((2 ^ w : Nat) : Int)) }
  | .add => let x := v a + v b; let y := wrapW w x; { y := y, rem := wrapW w ((x - v y) / ((2 ^ w : Nat) : Int)) }
  | .fma => let x := v a * v b + v c; let y := wrapW w x; { y := y, rem := wrapW w ((x - v y) / ((2 ^ w : Nat) : Int)) }
  | .narrow =>
    let h := w / 2
    let lo : Int := if rtSigned rt then -((2 ^ (h - 1) : Nat) : Int) else 0
    let hi : Int := if rtSigned rt then ((2 ^ (h - 1) : Nat) : Int) - 1 else ((2 ^ h : Nat) : Int) - 1
    let y := max lo (min hi (v a))
    { y := wrapW h y, rem := wrapW w (v a - y) }
  | .lrelu =>
    if rtSigned rt then
      let y := if 0 ≤ v a then v a else v a / ((2 ^ p : Nat) : Int)
      { y := wrapW w y, esc := decide (w ≤ p), rem := wrapW w (v a - y * ((2 ^ p : Nat) : Int)) }
    else { y := a % 2 ^ w }
  | _ =>
    let y := v a / ((2 ^ min p w : Nat) : Int)
    { y := wrapW w y, esc := decide (w ≤ p), rem := wrapW w (v a - y * ((2 ^ min p w : Nat) : Int)) }

/-- A dyadic exact result as a value. -/
def Exact.value : Exact → FVal
  | .nan => .nan false
  | .inf n => .inf n
  | .zero n => .fin n 0 0
  | .mag n (.rat x d) => .fin n x (-(Nat.log2 d : Int))
  | .mag n _ => .fin n 0 0

def FVal.isZero : FVal → Bool
  | .fin _ m _ => m == 0
  | _ => false

def FVal.isFin : FVal → Bool
  | .fin _ _ _ => true
  | _ => false

def FVal.negative : FVal → Bool
  | .nan _ => false
  | .inf n => n
  | .fin n _ _ => n

/-- The exact forward result of a float class. -/
def revExact (k : RevKind) (a b c : FVal) (p : Int) (rm : RMode) : Exact × Nat :=
  match k with
  | .mul => exMul a b
  | .add => exAdd a b rm
  | .fma => exFma a b c rm
  | .narrow => (a.exact, sigNV [a])
  | .lrelu => if a.negative then exScale a (-p) else (a.exact, sigNV [a])
  | _ => exScale a p

/-- Float classes: the remainder is exact minus y, in the RT format, or an escape (R326). -/
def revFlt (k : RevKind) (rt : RType) (a b c : Nat) (p : Int) (rm : RMode) (u : Nat) : RevOut :=
  let f := rtFmt rt
  let g := revFmt k rt
  let va := f.read a
  let vb := f.read b
  let vc := f.read c
  let e := revExact k va vb vc p rm
  let r := g.put e.1 rm u
  let y := g.read r.1
  let src := if k = .fma then vc else va
  let d := exAdd e.1.value y.neg .rne
  let q := match d.1 with
    | .zero _ => (0, 0)
    | x => f.put x .rne 0
  { y := r.1, flags := r.2 ||| e.2
    esc := !src.isFin || src.isZero || !y.isFin || (k == .mul && vb.isZero) || q.2 != 0
    rem := q.1 }

/-! ## Undo (R325, R330) -/

/-- An integer undo. A remainder slot divided by zero yields 0. -/
def undoInt (k : RevKind) (rt : RType) (y rem a b p : Nat) : Nat :=
  let w := rtBits rt
  let v (x : Nat) : Int := rtVal rt w x
  let top : Int := ((2 ^ w : Nat) : Int)
  match k with
  | .mul => if b % 2 ^ w = 0 then 0 else wrapW w ((v rem * top + (y % 2 ^ w : Nat)).tdiv (v b))
  | .add => wrapW w (v y + v rem * top - v b)
  | .fma => wrapW w (v y + v rem * top - v a * v b)
  | .narrow => wrapW w (rtVal rt (w / 2) y + v rem)
  | .lrelu => if !rtSigned rt || decide (0 ≤ v y) then y % 2 ^ w else wrapW w (v y * ((2 ^ p : Nat) : Int) + v rem)
  | _ => wrapW w (v y * ((2 ^ min p w : Nat) : Int) + (rem % 2 ^ w : Nat))

/-- A float undo, rounded to RT in RNE where it is not exact. -/
def undoFlt (k : RevKind) (rt : RType) (y rem a b : Nat) (p : Int) : Nat :=
  let f := rtFmt rt
  let g := revFmt k rt
  let vy := g.read y
  let s := (exAdd vy (f.read rem) .rne).1
  let put (e : Exact) : Nat := (f.put e .rne 0).1
  match k with
  | .mul => if (f.read b).isZero then 0 else put (exDiv s.value (f.read b)).1
  | .add => put (exAdd s.value (f.read b).neg .rne).1
  | .fma => put (exAdd s.value (exMul (f.read a) (f.read b)).1.value.neg .rne).1
  | .narrow => put s
  | .lrelu => if bit y (rtBits rt - 1) then put (exScale s.value p).1 else y
  | _ => put (exScale s.value (-p)).1

/-! ## Frames (R321 to R323) -/

/-- The mask digest of active elements. -/
def digest (act : List Nat) : Nat := act.foldl (fun n i => n + (i + 1) * (i + 1)) 0 % 65536

/-- The bytes of a payload's bitmap and of the whole payload. -/
def mapBytes (n : Nat) : Nat := 8 * ((n + 63) / 64)
def payBytes (n w : Nat) : Nat := mapBytes n + 8 * ((n * w + 63) / 64)

/-- A frame's header. -/
def headOf (cv : Convoy) (k : RevKind) (rt : RType) (d : VName) (act : List Nat) : Nat :=
  k.cls * 2 ^ 60 + rt.code.toNat * 2 ^ 57 + d.toNat * 2 ^ 50 + (cv.rows - 1) * 2 ^ 43 + (cv.cols - 1) * 2 ^ 36 + digest act * 2 ^ 20 +
    payBytes act.length (rtBits rt)

/-- A payload from the elements in order: its bits and slots. -/
def payload (w : Nat) (es : List (Bool × Nat)) : Nat :=
  let r := es.foldl (fun (acc : Nat × Nat × Nat) e => (acc.1 + 1, acc.2.1 + (if e.1 then 2 ^ acc.1 else 0), acc.2.2 + e.2 % 2 ^ w * 2 ^ (w * acc.1))) (0, 0, 0)
  r.2.1 + r.2.2 * 2 ^ (8 * mapBytes es.length)

/-- A result register: the elements given, and 0 for inactive ones under ZERO. -/
def revPut (cv : Convoy) (old : VReg) (w : Nat) (rs : List (Nat × Res)) : VOut :=
  let o := vecRun old w cv.elems (~~~cv.gmask) false (fun _ => (0, 0))
  rs.foldl (fun o e => o.put w e.1 e.2) (if cv.pfx.zero then o else { val := old })

/-- A forward member (R324). `p` is the shift count, the scale or the slope. -/
def revForward (s : State) (i : Instr) (k : RevKind) (d a b : VName) (rt : RType) (p : Convoy → Int) : Out :=
  asMember s i (fun s =>
    let cv := s.cv
    let w := rtBits rt
    let x := cv.rv a
    let y := cv.rv b
    let z := cv.rv d
    let act := cv.active
    let rs := act.map (fun n => (n, if rtFlt rt
      then revFlt k rt (elem x w n) (elem y w n) (elem z w n) (p cv) cv.mode (cv.rnd w n)
      else revInt k rt (elem x w n) (elem y w n) (elem z w n) (p cv).toNat))
    let pay := payload w (rs.map (fun r => (r.2.esc, if r.2.esc then elem (if k = .fma then z else x) w r.1 else r.2.rem)))
    let n := payBytes act.length w
    let frame := pay + headOf cv k rt d act * 2 ^ (8 * n)
    let s := s.modCv (fun cv => cv.putV d (revPut cv z (revDst k rt) (rs.map (fun r => (r.1, (r.2.y, r.2.flags))))))
    pushFrame s frame (n + 8))

/-- An undo member (R328): vs is va, or vd for `ufma`. -/
def revUndo (s : State) (i : Instr) (k : RevKind) (d a b : VName) (rt : RType) (p : Convoy → Int) : Out :=
  asMember s i (fun s =>
    let cv := s.cv
    let w := rtBits rt
    let act := cv.active
    let n := payBytes act.length w
    match popFrame s (headOf cv k rt d act) n with
    | (none, s) => s
    | (some pay, s) =>
      let vs := if k = .fma then d else a
      let x := cv.rv a
      let y := cv.rv b
      let z := cv.rv d
      let slots := pay / 2 ^ (8 * mapBytes act.length)
      let rs := (act.zip (upto act.length)).map (fun e =>
        let slot := bits slots (w * e.2) w
        let r := elem z (revDst k rt) e.1
        (e.1, ((if bit pay e.2 then slot
          else if rtFlt rt then undoFlt k rt r slot (elem x w e.1) (elem y w e.1) (p cv)
          else undoInt k rt r slot (elem x w e.1) (elem y w e.1) (p cv).toNat), 0)))
      s.modCv (fun cv => cv.putV vs (revPut cv (cv.rv vs) w rs)))

/-! ## The forms (R319, R325) -/

def noParam : Convoy → Int := fun _ => 0

/-- A shift count: gb as unsigned. -/
def countParam (b : GName) : Convoy → Int := fun cv => (cv.rg b).toNat

/-- A scale: gb as signed. -/
def scaleParam (b : GName) : Convoy → Int := fun cv => (cv.rg b).toInt

def bfType (bf : Bool) : RType := if bf then .bf16 else .f32

/-- R325. -/
def execRmul (c : Bool) (d a b : VName) (rt : RType) (s : State) : Out := revForward s (.rmul c d a b rt) .mul d a b rt noParam

/-- R328. -/
def execUmul (c : Bool) (d a b : VName) (rt : RType) (s : State) : Out := revUndo s (.umul c d a b rt) .mul d a b rt noParam

/-- R325. -/
def execRadd (c : Bool) (d a b : VName) (rt : RType) (s : State) : Out := revForward s (.radd c d a b rt) .add d a b rt noParam

/-- R328. -/
def execUadd (c : Bool) (d a b : VName) (rt : RType) (s : State) : Out := revUndo s (.uadd c d a b rt) .add d a b rt noParam

/-- R325. -/
def execRfma (c : Bool) (d a b : VName) (rt : RType) (s : State) : Out := revForward s (.rfma c d a b rt) .fma d a b rt noParam

/-- R328. -/
def execUfma (c : Bool) (d a b : VName) (rt : RType) (s : State) : Out := revUndo s (.ufma c d a b rt) .fma d a b rt noParam

/-- R325. -/
def execRnarrow (c : Bool) (d a : VName) (rt : RType) (s : State) : Out := revForward s (.rnarrow c d a rt) .narrow d a a rt noParam

/-- R328. -/
def execUnarrow (c : Bool) (d a : VName) (rt : RType) (s : State) : Out := revUndo s (.unarrow c d a rt) .narrow d a a rt noParam

/-- R325. -/
def execRshr (c : Bool) (d a : VName) (b : GName) (rt : RType) (s : State) : Out := revForward s (.rshr c d a b rt) .shr d a a rt (countParam b)

/-- R328. -/
def execUshr (c : Bool) (d a : VName) (b : GName) (rt : RType) (s : State) : Out := revUndo s (.ushr c d a b rt) .shr d a a rt (countParam b)

/-- R325. -/
def execRscale (c : Bool) (d a : VName) (b : GName) (bf : Bool) (s : State) : Out :=
  revForward s (.rscale c d a b bf) .scale d a a (bfType bf) (scaleParam b)

/-- R328. -/
def execUscale (c : Bool) (d a : VName) (b : GName) (bf : Bool) (s : State) : Out :=
  revUndo s (.uscale c d a b bf) .scale d a a (bfType bf) (scaleParam b)

/-- R325. -/
def execRlrelu (c : Bool) (d a : VName) (rt : RType) (k : BitVec 5) (s : State) : Out :=
  revForward s (.rlrelu c d a rt k) .lrelu d a a rt (fun _ => k.toNat)

/-- R328. -/
def execUlrelu (c : Bool) (d a : VName) (rt : RType) (k : BitVec 5) (s : State) : Out :=
  revUndo s (.ulrelu c d a rt k) .lrelu d a a rt (fun _ => k.toNat)

end Sys2Proof.Machine
end

