-- ==== Sys2Proof/Machine/Control.lean ====
section
/-! DEFINITION. Control transfers, the other control forms, the system forms and the prefix words: majors 0x3A to 0x3F
(R206, R363 to R374). A transfer takes effect, and is checked, when its convoy retires (R150, R365). -/

namespace Sys2Proof.Machine

/-! ## Transfers (R364, R365) -/

/-- R364. -/
def execBr (disp : BitVec 18) (s : State) : Out :=
  asMember s (.br disp) (fun s => s.modCv (fun cv => branchTo cv true 18 disp.toNat))

/-- R364. The link is w + 4. -/
def execJal (a : GName) (disp : BitVec 18) (s : State) : Out :=
  asMember s (.jal a disp) (fun s => s.modCv (fun cv => (branchTo cv true 18 disp.toNat).wg a (cv.wordVa + 4)))

/-- The condition of `bcc` on a register read as signed. -/
def gcond (c : GCond) (x : Word64) : Bool :=
  match c with
  | .eqz => x == 0
  | .nez => x != 0
  | .ltz => decide (x.toInt < 0)
  | .gez => decide (0 ≤ x.toInt)
  | .gtz => decide (0 < x.toInt)
  | .lez => decide (x.toInt ≤ 0)

/-- R364. -/
def execBcc (a : GName) (cond : GCond) (disp : BitVec 15) (s : State) : Out :=
  asMember s (.bcc a cond disp) (fun s => s.modCv (fun cv => branchTo cv (gcond cond (cv.rg a)) 15 disp.toNat))

/-- R364. `inv` is `bk.none`. -/
def execBk (k : KName) (inv : Bool) (disp : BitVec 15) (s : State) : Out :=
  asMember s (.bk k inv disp) (fun s => s.modCv (fun cv => branchTo cv ((cv.rk k != 0) != inv) 15 disp.toNat))

/-- R364. -/
def execJr (c : Bool) (a : GName) (s : State) : Out :=
  asMember s (.jr c a) (fun s => s.modCv (fun cv => { cv with ctl := .jump (cv.rg a) cv.word }))

/-- R364. -/
def execLfetch (c : Bool) (a : GName) (s : State) : Out :=
  asMember s (.lfetch c a) (fun s => s.modCv (fun cv => { cv with ctl := .lfetch (cv.rg a) }))

/-! ## The other control forms (R366, R373) -/

/-- R366. -/
def execNop (c : Bool) (s : State) : Out := asMember s (.nop c) id

/-- R155, R153. -/
def execStop (c : Bool) (s : State) : Out := asMember s (.stop c) (fun s => s.modCv (fun cv => { cv with ctl := .stop }))

/-- R366. -/
def execYield (c : Bool) (s : State) : Out := asMember s (.yield c) (fun s => s.modCv (fun cv => { cv with ctl := .yield }))

/-- R171, R121. The convoy then waits for its instance; one that still waits for a tag has not issued, and does not arrive (R56). -/
def execBar (c : Bool) (level : BitVec 3) (s : State) : Out :=
  asMember s (.bar c level) (fun s =>
    let n := level.toNat
    let k := tget 0 ((s.core s.cv.core).mt s.cv.mt).bars n + 1
    if s.cv.wait = .issue then s else (cvArrives s n).modCv (fun cv => { cv with wait := .bar n k }))

/-- R373. -/
def execTrap (c : Bool) (code : BitVec 11) (s : State) : Out :=
  asMember s (.trap c code) (fun s => s.modCv (fun cv => { cv with ctl := .trap code.toNat }))

/-- Whether the debugger has armed breakpoint delivery for a core (R373, R407). -/
def Core.brkArmed (c : Core) : Bool := c.dbgctl.getLsbD 1

/-- R373. A `brk` that R387 skips is a `nop`. -/
def execBrk (c : Bool) (code : BitVec 11) (s : State) : Out :=
  asMember s (.brk c code) (fun s =>
    if s.cv.skipBrk then s
    else if (s.core s.cv.core).brkArmed then s.modCv (fun cv => { cv with brkArmed := true })
    else addFault s 1 kBRK 0 s.cv.wordAt [code.toNat])

/-- R372. -/
def execWbase (c : Bool) (n : BitVec 11) (s : State) : Out :=
  asMember s (.wbase c n) (fun s => s.modCv (fun cv => { cv with work := { cv.work with wb := BitVec.ofNat 32 (8 * n.toNat) } }))

/-! ## System registers (R368 to R371, R374) -/

/-- R368. -/
def execSread (c : Bool) (d : GName) (num : BitVec 11) (s : State) : Out :=
  asMember s (.sread c d num) (fun s =>
    let s := if num = 0x40 then passCycles s (dieOf s.cv.core) else s
    let x := readSreg s num.toNat
    s.modCv (fun cv => cv.wg d x))

/-- R368. A refused value is cause RSV; an SHP of more than 512 elements is the shape fault (R261). -/
def execSwrite (c : Bool) (d : GName) (num : BitVec 11) (s : State) : Out :=
  asMember s (.swrite c d num) (fun s =>
    let x := s.cv.rg d
    if swriteBad s num.toNat x then illFault s phRetire .rsv
    else
      let rows := bits x.toNat 8 7 + 1
      let cols := bits x.toNat 0 7 + 1
      if num = 3 ∧ 512 < rows * cols then shapeFault s rows cols
      else writeSreg s num.toNat x)

/-- R371. -/
def execFclr (c : Bool) (flags : BitVec 7) (s : State) : Out :=
  asMember s (.fclr c flags) (fun s => s.modCv (fun cv =>
    let m : Word32 := ~~~(flags.setWidth 32)
    { cv with
      work := { cv.work with fst := cv.work.fst &&& m }
      hidden := cv.hidden.map (fun e => if e.1 = 0 then (0, e.2 &&& m) else e) }))

/-- The facts of R374. -/
def poolFact (s : State) (q : Nat) : Nat :=
  let c := s.core s.cv.core
  let l := c.info
  match q with
  | 0 => l.p
  | 1 => l.n
  | 2 => l.pool.toNat
  | 3 => l.chunks
  | 4 => c.scrBytes
  | 5 => c.accTiles
  | 6 => s.cv.mt
  | 7 => s.cv.mt % 8
  | 8 => s.cv.core % 64
  | 9 => dieOf s.cv.core
  | 10 => s.devnum.toNat
  | 11 => l.part
  | 12 => l.ctx
  | _ => 0

/-- R374. -/
def execPoolq (c : Bool) (d : GName) (query : BitVec 11) (s : State) : Out :=
  asMember s (.poolq c d query) (fun s => s.modCv (fun cv => cv.wg d (BitVec.ofNat 64 (poolFact s query.toNat))))

/-! ## Prefix words (R206) -/

/-- A prefix word joins those read for the next other word. -/
def takePfx (s : State) (i : Instr) : Out := .next (s.modCv (fun cv => { cv with pfx := (addPfx cv.pfx i).getD cv.pfx }))

/-- R206. -/
def execMaskSelect (inv : Bool) (k : KName) (s : State) : Out := takePfx s (.maskSelect inv k)

/-- R206. -/
def execRounding (v : VName) (mode : RMode) (s : State) : Out := takePfx s (.rounding v mode)

/-- R206. -/
def execSaturateAndZeroing (sgn zero sat : Bool) (s : State) : Out := takePfx s (.saturateAndZeroing sgn zero sat)

/-- R206. -/
def execImmediateExtension (imm : BitVec 21) (s : State) : Out := takePfx s (.immediateExtension imm)

/-- R206. -/
def execSecondType (code : BitVec 5) (s : State) : Out := takePfx s (.secondType code)

end Sys2Proof.Machine
end

