-- ==== Sys2Proof/Machine/Float.lean ====
section
/-! DEFINITION. Floating point, conversions and the random generator: majors 0x0C to 0x14 (R263 to R280). -/

namespace Sys2Proof.Machine

/-- An exact result rounded once into a format, with the flags of both (R263). -/
def rounded (f : Fmt) (e : Exact × Nat) (rm : RMode) (u : Nat) : Res := let r := f.put e.1 rm u; (r.1, r.2 ||| e.2)

/-- A two-source float member. -/
def fltBin (s : State) (i : Instr) (d a b : VName) (ft : FType) (op : FVal → FVal → RMode → Exact × Nat) : Out :=
  asMember s i (fun s => s.modCv (fun cv =>
    let f := ftFmt ft
    let w := ftBits ft
    let x := cv.rv a
    let y := cv.rv b
    let m := cv.mode
    cv.run d w (fun n => rounded f (op (f.read (elem x w n)) (f.read (elem y w n)) m) m (cv.rnd w n))))

/-- A three-source float member: a, b and the old element of vd (R264). -/
def fltTri (s : State) (i : Instr) (d a b : VName) (ft : FType) (op : FVal → FVal → FVal → RMode → Exact × Nat) : Out :=
  asMember s i (fun s => s.modCv (fun cv =>
    let f := ftFmt ft
    let w := ftBits ft
    let x := cv.rv a
    let y := cv.rv b
    let z := cv.rv d
    let m := cv.mode
    cv.run d w (fun n => rounded f (op (f.read (elem x w n)) (f.read (elem y w n)) (f.read (elem z w n)) m) m (cv.rnd w n))))

/-- A one-source float member. -/
def fltOne (s : State) (i : Instr) (d a : VName) (ft : FType) (op : FVal → Exact × Nat) : Out :=
  asMember s i (fun s => s.modCv (fun cv =>
    let f := ftFmt ft
    let w := ftBits ft
    let x := cv.rv a
    let m := cv.mode
    cv.run d w (fun n => rounded f (op (f.read (elem x w n))) m (cv.rnd w n))))

/-- R264. a + b. -/
def execVfadd (c : Bool) (d a b : VName) (ft : FType) (s : State) : Out := fltBin s (.vfadd c d a b ft) d a b ft (exAdd)

/-- R264. a − b. -/
def execVfsub (c : Bool) (d a b : VName) (ft : FType) (s : State) : Out := fltBin s (.vfsub c d a b ft) d a b ft (fun a b m => exAdd a b.neg m)

/-- R264. a × b. -/
def execVfmul (c : Bool) (d a b : VName) (ft : FType) (s : State) : Out := fltBin s (.vfmul c d a b ft) d a b ft (fun a b _ => exMul a b)

/-- R264. a ÷ b. -/
def execVfdiv (c : Bool) (d a b : VName) (ft : FType) (s : State) : Out := fltBin s (.vfdiv c d a b ft) d a b ft (fun a b _ => exDiv a b)

/-- R264. a × b + c. -/
def execVfma (c : Bool) (d a b : VName) (ft : FType) (s : State) : Out := fltTri s (.vfma c d a b ft) d a b ft (exFma)

/-- R264. a × b − c. -/
def execVfms (c : Bool) (d a b : VName) (ft : FType) (s : State) : Out := fltTri s (.vfms c d a b ft) d a b ft (fun a b c m => exFma a b c.neg m)

/-- R264. −(a × b) − c. -/
def execVfnma (c : Bool) (d a b : VName) (ft : FType) (s : State) : Out := fltTri s (.vfnma c d a b ft) d a b ft (fun a b c m => exFma a.neg b c.neg m)

/-- R264. −(a × b) + c. -/
def execVfnms (c : Bool) (d a b : VName) (ft : FType) (s : State) : Out := fltTri s (.vfnms c d a b ft) d a b ft (fun a b c m => exFma a.neg b c m)

/-- R265. -/
def execVfmin (c : Bool) (d a b : VName) (ft : FType) (s : State) : Out := fltBin s (.vfmin c d a b ft) d a b ft (fun a b _ => exMinMax false a b)

/-- R265. -/
def execVfmax (c : Bool) (d a b : VName) (ft : FType) (s : State) : Out := fltBin s (.vfmax c d a b ft) d a b ft (fun a b _ => exMinMax true a b)

/-- R265. A NaN gives the canonical NaN. -/
def execVfabs (c : Bool) (d a : VName) (ft : FType) (s : State) : Out := fltOne s (.vfabs c d a ft) d a ft (fun a => (a.abs.exact, sigNV [a]))

/-- R265. A NaN gives the canonical NaN. -/
def execVfneg (c : Bool) (d a : VName) (ft : FType) (s : State) : Out := fltOne s (.vfneg c d a ft) d a ft (fun a => (a.neg.exact, sigNV [a]))

/-- The magnitude of a with the sign bit of b; a NaN a gives the canonical NaN (R265). -/
def fsgnOp (f : Fmt) (x y : Nat) : Res :=
  let nv := sigNV [f.read x, f.read y]
  if isNan (f.read x) then (f.qnan, nv)
  else (bits x 0 (f.eb + f.fb) + (if bit y (f.eb + f.fb) then 2 ^ (f.eb + f.fb) else 0), nv)

/-- R265. -/
def execVfsgn (c : Bool) (d a b : VName) (ft : FType) (s : State) : Out :=
  asMember s (.vfsgn c d a b ft) (fun s => s.modCv (fun cv =>
    let x := cv.rv a
    let y := cv.rv b
    cv.run d (ftBits ft) (fun n => fsgnOp (ftFmt ft) (elem x (ftBits ft) n) (elem y (ftBits ft) n))))

/-- R267. -/
def execVfsqrt (c : Bool) (d a : VName) (ft : FType) (s : State) : Out := fltOne s (.vfsqrt c d a ft) d a ft exSqrt

/-- R267. -/
def execVfrcp (c : Bool) (d a : VName) (ft : FType) (s : State) : Out := fltOne s (.vfrcp c d a ft) d a ft exRcp

/-- R267. -/
def execVfrsq (c : Bool) (d a : VName) (ft : FType) (s : State) : Out := fltOne s (.vfrsq c d a ft) d a ft exRsq

/-- R267. -/
def execVfexp2 (c : Bool) (d a : VName) (ft : FType) (s : State) : Out := fltOne s (.vfexp2 c d a ft) d a ft exExp2

/-- R267. -/
def execVflog2 (c : Bool) (d a : VName) (ft : FType) (s : State) : Out := fltOne s (.vflog2 c d a ft) d a ft exLog2

/-- R267. -/
def execVftanh (c : Bool) (d a : VName) (ft : FType) (s : State) : Out := fltOne s (.vftanh c d a ft) d a ft exTanh

/-- R267. -/
def execVfsigm (c : Bool) (d a : VName) (ft : FType) (s : State) : Out := fltOne s (.vfsigm c d a ft) d a ft exSigm

/-- R266. -/
def execVfcls (c : Bool) (d a : VName) (ft : FType) (s : State) : Out :=
  asMember s (.vfcls c d a ft) (fun s => s.modCv (fun cv =>
    let f := ftFmt ft
    let x := cv.rv a
    cv.run d (ftBits ft) (fun n => (classOf f (elem x (ftBits ft) n), sigNV [f.read (elem x (ftBits ft) n)]))))

/-- R268. n is element i of vb, signed at the width of FT. -/
def execVfscale (c : Bool) (d a b : VName) (ft : FType) (s : State) : Out :=
  asMember s (.vfscale c d a b ft) (fun s => s.modCv (fun cv =>
    let f := ftFmt ft
    let w := ftBits ft
    let x := cv.rv a
    let y := cv.rv b
    let m := cv.mode
    cv.run d w (fun n => rounded f (exScale (f.read (elem x w n)) (sxt w (elem y w n))) m (cv.rnd w n))))

/-! ## Conversions (R269 to R271) -/

/-- R269, R270. -/
def execVfcvt (c : Bool) (d a : VName) (f : BitVec 4) (s : State) : Out :=
  asMember s (.vfcvt c d a f) (fun s => s.modCv (fun cv =>
    match vfcvtPair cv.pfx.ty f with
    | none => cv
    | some (src, dst) =>
      let x := cv.rv a
      cv.run d dst.width (fun n => convert src dst (elem x src.width n) cv.mode (cv.rnd dst.width n) cv.pfx.sat)))

/-- R271. Stochastic rounding with the random bits of vb. -/
def execVsrnd (c : Bool) (d a b : VName) (ft : FType) (s : State) : Out :=
  asMember s (.vsrnd c d a b ft) (fun s => s.modCv (fun cv =>
    match vsrndDst cv.pfx.ty ft with
    | none => cv
    | some dst =>
      let x := cv.rv a
      let y := cv.rv b
      cv.run d dst.width (fun n =>
        convert (.flt (ftFmt ft)) dst (elem x (ftBits ft) n) .sto (elem y dst.width n) cv.pfx.sat)))

/-! ## Block formats (R272 to R276) -/

/-- An infinite scale times zero is NaN and invalid (R227, R237). -/
def scaledInvalid (v : FVal) (scales : List FVal) (el : FVal) : Bool := isNan v && !isNan el && !(scales.any isNan)

/-- The scale values of a record (R227). -/
def scaleVals (code rec_ t : Nat) : List FVal :=
  match code with
  | 26 => [fmtF32.read rec_]
  | 27 => [fmtF32.read rec_]
  | 28 => [fmtU5M3.read rec_, fmtF32.read t]
  | 29 => [fmtF16.read rec_]
  | _ => if 20 ≤ code then [mxScale rec_] else [.nan false]

/-- The unscaled value of an element (R223). -/
def bareVal (code x : Nat) : FVal :=
  match code with
  | 20 => fmtE4M3.read x | 21 => fmtE5M2.read x | 22 => fmtE3M2.read x | 23 => fmtE2M3.read x | 24 => fmtE2M1.read x
  | 25 => (NFmt.int 8 true).value x | 26 => (NFmt.int 8 true).value x | 27 => fmtE4M3.read x | 28 => fmtE2M1.read x
  | 29 => (NFmt.int 4 true).value x | _ => .nan false

/-- One element unpacked: its exact value and the flags of finding it (R274). A NaN scale, signalling or not, raises none (log 7). -/
def unpackEl (sc : Scales) (els : VReg) (rm : RMode) (n : Nat) : Exact × Nat :=
  if sc.code = 31 then b2xValue (elem els 32 n) rm
  else
    let (r, t) := sc.rec_ n
    let v := sc.value els n
    (v.exact, if scaledInvalid v (scaleVals sc.code r t) (bareVal sc.code (elem els (codeWidth sc.code) n)) then fNV else 0)

/-- R274. The block operand is va and v(a+1); the format is that of the tensor table as the convoy found it. -/
def execVfcvtiOut (c : Bool) (d a : VName) (t : TName) (ft : FType) (s : State) : Out :=
  asMember s (.vfcvtiOut c d a t ft) (fun s =>
    let code := (startDesc s t).fmt
    s.modCv (fun cv =>
      let els := cv.rv a
      let sc : Scales := ⟨code, cv.rv (a + 1), cv.cols⟩
      cv.run d (ftBits ft) (fun n => rounded (ftFmt ft) (unpackEl sc els cv.mode n) cv.mode (cv.rnd (ftBits ft) n))))

/-- The largest magnitude among finite values, 0 for none (R275). -/
def amaxOf (l : List FVal) : FVal :=
  l.foldl (fun m x => match x with
    | .fin _ a e => if fLess false m (.fin false a e) then .fin false a e else m
    | _ => m) (.fin false 0 0)

/-- m × 2^e ÷ (k × 2^j), for a positive value. -/
def overMag (x : FVal) (k : Nat) (j : Int) : Mag :=
  match x with
  | .fin _ m e => magDiv m e k j
  | _ => .rat 0 1

def isZero : FVal → Bool
  | .fin _ m _ => m == 0
  | _ => false

/-- A scale rounded in RNE: never zero, never beyond the largest finite value (R275). -/
def roundScale (f : Fmt) (x : Mag) : Nat :=
  let r := f.round false x .rne 0
  if r.2 &&& fOF != 0 then f.maxFin false else if r.1 = 0 then 1 else r.1

/-- floor(log2 x) of a positive value. -/
def log2Of (x : FVal) : Int :=
  match x with
  | .fin _ m e => (Nat.log2 m : Int) + e
  | _ => 0

def clampInt (lo hi x : Int) : Nat := (max lo (min hi x)).toNat

/-- A magnitude rounded to an integer in RNE. -/
def rneInt (x : Mag) : Nat := (roundAt x 0 .rne false 0 1).1

/-- EA and EB of a KBF block of magnitude `a` (R275). -/
def kbfScales (w : Nat) (a : FVal) : Nat × Nat :=
  let m := w - 2
  let f := log2Of a
  let fits (e : Int) : Bool := decide (rneInt (overMag a 1 (e - 127 - ((m : Int) - 1))) ≤ 2 ^ m - 1)
  let ea := clampInt 1 254 (if fits (f + 127) then f + 127 else f + 128)
  (ea, max 1 (ea - m))

/-- The greatest exponent of the element formats of codes 20 to 25 (R275). -/
def emaxOf (code : Nat) : Int :=
  match code with
  | 20 => 8 | 21 => 15 | 22 => 4 | 23 => 2 | 24 => 2 | _ => 0

/-- The scale record of a block, or of a row, whose active values are `els`; `t` is the tensor scale of KS4 (R275). -/
def chooseScale (code : Nat) (els : List FVal) (t : Nat) : Nat :=
  let a := amaxOf els
  let z := isZero a
  let nan := els.any isNan
  if code < 20 then
    if nan then 0xFFFF else if z then 0 else let (ea, eb) := kbfScales (codeWidth code) a; ea + 256 * eb
  else if code < 26 then
    if nan then 0xFF else if z then 127 else clampInt 0 254 (log2Of a - emaxOf code + 127)
  else match code with
    | 26 => if z then 0x3F800000 else roundScale fmtF32 (overMag a 127 0)
    | 27 => if z then 0x3F800000 else roundScale fmtF32 (overMag a 448 0)
    | 28 => if nan then 0xFF else if z then 0
        else match fmtF32.read t with
          | .fin _ m e => roundScale fmtU5M3 (overMag a (6 * m) e)
          | _ => 0
    | _ => if z then 0x3C00 else roundScale fmtF16 (overMag a 7 0)

/-- The tensor scale of KS4 (R275). -/
def tensorScale (els : List FVal) : Nat :=
  let a := amaxOf els
  if isZero a then 0x3F800000 else roundScale fmtF32 (overMag a 1536 0)

/-- x ÷ scale, exactly; a zero quotient of a zero. -/
def quot (x : FVal) (scale : FVal) : Exact :=
  match x, scale with
  | .fin n m e, .fin _ k j => if m = 0 ∨ k = 0 then .zero n else .mag n (magDiv m e k j)
  | .fin n _ _, _ => .zero n
  | .inf n, _ => .inf n
  | .nan _, _ => .nan

/-- Round(format, q, rm) that never overflows: the largest value instead, with NX alone (R276). -/
def putMax (f : Fmt) (q : Exact) (neg : Bool) (rm : RMode) (u : Nat) : Res :=
  let r := f.put q rm u
  if r.2 &&& fOF != 0 then (f.maxFin neg, fNX) else r

/-- The integer nearest q, limited to ± lim (R276). -/
def putLim (q : Exact) (lim : Nat) (w : Nat) (rm : RMode) (u : Nat) : Res :=
  match roundInt q rm u w with
  | none => (0, fNV)
  | some (v, i) =>
    let v' : Int := max (-(lim : Int)) (min lim v)
    (wrapW w v', if i || v' != v then fNX else 0)

def isNeg : FVal → Bool
  | .fin n _ _ => n
  | .inf n => n
  | .nan _ => false

def isInf : FVal → Bool
  | .inf _ => true
  | _ => false

/-- A KBF element: selector, sign and magnitude (R229, R276). -/
def kbfEl (w ea eb : Nat) (x : FVal) (rm : RMode) (u : Nat) : Res :=
  let m := w - 2
  let top := 2 ^ m - 1
  let sgnBit := if isNeg x then 2 ^ (w - 2) else 0
  let step (e : Nat) : Int := (e : Int) - 127 - ((m : Int) - 1)
  match x with
  | .fin _ k _ =>
    if k = 0 then (2 ^ (w - 1) + sgnBit, 0)
    else
      let sel := decide (rneInt (overMag x.abs 1 (step eb)) ≤ top)
      let e := if sel then eb else ea
      let (v, i) := roundAt (overMag x.abs 1 (step e)) 0 rm (isNeg x) u (min w 16)
      ((if sel then 2 ^ (w - 1) else 0) + sgnBit + min v top, if i || decide (top < v) then fNX else 0)
  | _ => (sgnBit + top, fNV)

/-- Hi and lo of a B2X element in mode rm (R230, R276). NX and UF are those of lo; of the rounding to hi OF alone counts, with its NX (log 31). -/
def b2xEl (x : FVal) (rm : RMode) (u : Nat) : Res :=
  let hi := fmtBF16.put x.exact rm u
  let d := exAdd x (fmtBF16.read hi.1).neg rm
  let lo := fmtBF16.put d.1 rm u
  (hi.1 * 65536 + lo.1, lo.2 ||| d.2 ||| (hi.2 &&& fOF) ||| (if hi.2 &&& fOF != 0 then fNX else 0) ||| sigNV [x])

/-- An element of a block that a NaN makes NaN, of format f: an infinity as R233 has it, any other the quotient by a NaN scale, which
raises nothing but a signalling NaN's flag (R233, R276, log 7). -/
def packNan (f : Fmt) (nanBits : Nat) (x : FVal) (rm : RMode) (u : Nat) : Res :=
  if isInf x then f.put x.exact rm u else (nanBits, sigNV [x])

/-- One active element into a block format (R276). `free` stands for bits that the spec does not state: those of a NaN in KBF, which has
none of its own (log 7). -/
def packEl (code : Nat) (x : FVal) (rec_ t : Nat) (rm : RMode) (u free : Nat) : Res :=
  let w := codeWidth code
  let nv := sigNV [x]
  if code < 20 then
    if isNan x then (free % 2 ^ w, nv) else kbfEl w (bits rec_ 0 8) (bits rec_ 8 8) x rm u
  else
    let f := match code with
      | 20 => fmtE4M3 | 21 => fmtE5M2 | 22 => fmtE3M2 | 23 => fmtE2M3 | 24 => fmtE2M1 | 27 => fmtE4M3 | _ => fmtE2M1
    match code with
    | 25 => if isNan x then (0, nv)
      else putLim (quot x (.fin false 1 ((rec_ : Int) - 127 - 6))) 127 8 rm u
    | 26 => putLim (quot x (fmtF32.read rec_)) 127 8 rm u
    | 27 => let r := putMax f (quot x (fmtF32.read rec_)) (isNeg x) rm u; (r.1, r.2 ||| nv)
    | 28 =>
      if isInf x then (0, fNV)
      else if rec_ = 0xFF then (0, nv)
      else putMax f (quot x (mulScale (fmtU5M3.read rec_) (fmtF32.read t))) (isNeg x) rm u
    | 29 => putLim (quot x (fmtF16.read rec_)) 7 4 rm u
    | 31 => b2xEl x rm u
    | _ =>
      if rec_ = 0xFF then packNan f (if code < 22 then f.qnan else 0) x rm u
      else putMax f (quot x (mxScale rec_)) (isNeg x) rm u

/-- What `.into` writes: the element register and the scale register. -/
structure PackOut where
  els : VOut
  scl : VOut
  deriving DecidableEq, Repr

/-- R275 and R276 over a whole operand: `val` gives element i's value. -/
def packAll (code rows cols : Nat) (act : KReg) (val : Nat → FVal) (rm : RMode) (rnd : Nat → Nat) (base : Nat)
    (oldE oldS : VReg) : PackOut :=
  let w := codeWidth code
  let actOf (l : List Nat) : List FVal := (l.filter (fun i => act.getLsbD i)).map val
  let t := if code = 28 then tensorScale (actOf (upto (rows * cols))) else 0
  let nb := blocksOf code cols
  let recs : List (Nat × Nat) := if code = 31 then [] else
    ((upto rows).map (fun r => (upto nb).map (fun b =>
      let width := if rowScaled code then cols else min 32 (cols - 32 * b)
      let first := r * cols + (if rowScaled code then 0 else 32 * b)
      (r * nb + b, chooseScale code (actOf ((upto width).map (fun k => first + k))) t)))).flatten
  let recOf (i : Nat) : Nat :=
    let k := i / cols * nb + (if rowScaled code then 0 else i % cols / 32)
    ((recs.find? (fun e => e.1 == k)).map Prod.snd).getD 0
  let rb := 8 * recBytes code
  let scl := recs.foldl (fun o e => o.put rb (e.1 + (if code = 28 then 16 else 0)) (e.2, 0)) ({ val := oldS } : VOut)
  let scl := if code = 28 then scl.put 32 0 (t, 0) else scl
  let els := vecRun oldE w (rows * cols) act true
    (fun i => packEl code (val i) (recOf i) t rm (rnd i) (Config.freeWord (base + i)).toNat)
  ⟨els, scl⟩

/-- R275, R276. The pair vd, v(d+1) is written; every element below E is, an inactive one as zero. -/
def execVfcvtiInto (c : Bool) (d a : VName) (t : TName) (ft : FType) (s : State) : Out :=
  asMember s (.vfcvtiInto c d a t ft) (fun s =>
    let code := (startDesc s t).fmt
    let base := s.fresh
    let s := s.modCv (fun cv =>
      let x := cv.rv a
      let w := ftBits ft
      let o := packAll code cv.rows cv.cols cv.gmask (fun i => (ftFmt ft).read (elem x w i)) cv.mode
        (fun i => cv.rnd (codeWidth code) i) base (cv.rv d) (cv.rv (d + 1))
      (cv.putV d o.els).wv (d + 1) o.scl.val o.scl.mask)
    { s with fresh := s.fresh + s.cv.elems })

/-! ## The random generator (R277 to R280) -/

def rotl32 (x : Word32) (n : Nat) : Word32 := x.rotateLeft n

/-- One round of Mix. -/
def mixRound (kw : Nat → Word32) (n : Nat) (x : Word32 × Word32 × Word32 × Word32) : Word32 × Word32 × Word32 × Word32 :=
  let (a, b, c, d) := x
  let a := a + b
  let d := rotl32 (d ^^^ a) 13
  let c := c + d
  let b := rotl32 (b ^^^ c) 9
  let a := a + b
  let d := rotl32 (d ^^^ a) 11
  let c := c + d
  let b := rotl32 (b ^^^ c) 5
  (a + kw (n % 4), b + kw ((n + 1) % 4), c + kw ((n + 2) % 4), d + kw ((n + 3) % 4) + BitVec.ofNat 32 (n + 1))

/-- Mix(C, key) (R278). -/
def mix (ctr key : BitVec 128) : BitVec 128 :=
  let cw (j : Nat) : Word32 := ctr.extractLsb' (32 * j) 32
  let kw (j : Nat) : Word32 := key.extractLsb' (32 * j) 32
  let (a, b, c, d) := (upto 10).foldl (fun x n => mixRound kw n x) (cw 0, cw 1, cw 2, cw 3)
  (d + cw 3) ++ (c + cw 2) ++ (b + cw 1) ++ (a + cw 0)

/-- R279. The counter moves on by the blocks used, whatever the mask holds. -/
def execVrng (c : Bool) (d : VName) (sz : Size) (s : State) : Out :=
  asMember s (.vrng c d sz) (fun s =>
    let ctr : BitVec 128 := seeSreg s 0x29 ++ seeSreg s 0x28
    let key : BitVec 128 := seeSreg s 0x2B ++ seeSreg s 0x2A
    let n := (s.cv.elems * sz.bytes + 15) / 16
    let bytes : VReg := (upto n).foldl (fun x j =>
      x ||| (BitVec.ofNat 4096 (mix (ctr + BitVec.ofNat 128 j) key).toNat <<< (128 * j))) 0
    let next := ctr + BitVec.ofNat 128 n
    s.modCv (fun cv =>
      let cv := cv.run d sz.bits (fun i => (elem bytes sz.bits i, 0))
      (cv.stageSreg 0x28 (next.extractLsb' 0 64)).stageSreg 0x29 (next.extractLsb' 64 64)))

end Sys2Proof.Machine
end

