-- ==== Sys2Proof/Machine/Issue.lean ====
section
/-! DEFINITION. The life of a convoy: which micro-thread a lane issues (R193, R366), the waits before issue (R131, R137, R168,
R174), decode and shape faults (R212, R244), and lode fetches (R153, R157, R158). -/

namespace Sys2Proof.Machine

/-! ## The next convoy -/

/-- The words of the micro-thread's next convoy, and its first word's place in the lode; none while its lode is not there. -/
def Mt.nextWords (m : Mt) : Option (Nat × List Word32) :=
  match m.lode with
  | none => none
  | some l =>
    let k := (m.next - l.va).toNat / 4
    if k < 32 then some (k, convoyWords (l.words.drop k)) else none

def decEnv (c : Core) (m : Mt) : DecEnv :=
  { tens := c.tens, pregs := c.info.p, wb := m.regs.wb.toNat, tiles := c.accTiles, nlev := c.info.nlev }

/-- The next and the previous micro-thread of a link (R167). -/
def Core.linkNext (c : Core) (i : Nat) : Nat :=
  let n := c.info.n
  if c.pairs then (if Nat.xor i 1 < n then Nat.xor i 1 else i) else if n = 0 then i else (i + 1) % n
def Core.linkPrev (c : Core) (i : Nat) : Nat :=
  let n := c.info.n
  if c.pairs then (if Nat.xor i 1 < n then Nat.xor i 1 else i) else if n = 0 then i else (i + n - 1) % n

/-! ## Waits before issue (R174) -/

/-- The convoys of a core that have issued and wait to retire. -/
def Core.parkedCvs (c : Core) : List Convoy := c.mts.filterMap (fun e => e.2.parked)

/-- The members that a convoy has still to run. -/
def Convoy.rest (cv : Convoy) : List Instr := cv.todo.filterMap (fun w => (decodeMt w).toOption)

/-- The queue a form enqueues on (R315, R341). -/
def queueOf : Instr → Option Nat
  | .mattach _ _ | .mdetach _ | .mzero _ _ | .mmac _ _ _ _ _ _ _ => some 1
  | .cpy _ _ _ _ => some 0
  | .gath _ _ _ _ | .scat _ _ _ _ => some 2
  | .coll _ _ _ _ => some 3
  | .bank _ _ _ => some 4
  | .settle _ _ | .renew _ _ _ => some 5
  | _ => none

/-- Whether a member places an entry in a queue. -/
def enqueuesOn (q : Nat) (i : Instr) : Bool :=
  match i with
  | .qfence _ set => set.getLsbD q
  | i => queueOf i == some q

/-- A queue has no room for another entry: 32 of them, with those that convoys in flight have placed or have still to place (R131). -/
def Core.queueFull (c : Core) (q : Nat) : Bool :=
  decide (32 ≤ (c.queue q).entries.length + (c.parkedCvs.map (fun p =>
    (p.enq.filter (fun e => e.1 == q)).length + (p.rest.filter (enqueuesOn q)).length)).sum)

/-- A link FIFO has no room for another value: two of them, with those that convoys waiting to retire will send or have taken. -/
def Core.fifoFull (c : Core) (i : Nat) : Bool :=
  decide (2 ≤ (c.mt i).fifo.length + (c.mts.filter (fun e => c.linkNext e.1 == i && (e.2.parked.any (fun p =>
    p.send.isSome || p.rest.any (fun x => match x with
      | .vlsnd _ _ => true
      | _ => false))))).length)

/-- The accumulator tiles an entry names (R351, R353). -/
def EngCmd.tiles : EngCmd → List Nat
  | .mzero z => [z.toNat]
  | .mmac z _ a _ idx rows _ _ _ _ =>
    let m := if idx.isSome then rows else if a.rank = 2 then a.dim 1 else 1
    (upto ((m + 31) / 32)).map (fun k => z.toNat + k)
  | _ => []

/-- Whether the lode that a micro-thread takes next is the SAVELODE of a core that stops, the last in mt0's queue, or the RESTLODE of one that
resumes with a marked `mmac` (R200). -/
def Core.movesNext (c : Core) (i : Nat) (q : List (Word64 × Option Word64)) : Bool :=
  c.info.leg && i == 0 && (match q with
    | [] => false
    | (va, _) :: rest =>
      if c.stopping then rest.isEmpty && va == c.info.sav
      else va == c.info.rest && (match (c.queue 1).entries with
        | e :: _ => e.restart.isSome && !e.started
        | [] => false))

/-- A tile that an incomplete q1 entry names (R137). -/
def Core.tileBusy (c : Core) (z : ZName) : Bool := (c.queue 1).entries.any (fun e => e.cmd.tiles.contains z.toNat)

/-- The wait of R174 a member would begin with; q1 does not hold up SAVELODE and RESTLODE, which move the tiles (R200, log 22). -/
def memberWaits (c : Core) (i : Nat) (x : Instr) : Bool :=
  match x with
  | .vlrcv _ _ => (c.mt i).fifo.isEmpty && !(c.mt (c.linkPrev i)).isIdle
  | .vlsnd _ _ => c.fifoFull (c.linkNext i)
  | .vzrd _ _ z _ _ | .vzwr _ _ z _ _ | .vzcrd _ _ z _ | .vzcwr _ _ z _ => c.tileBusy z && !(c.mt i).moves
  | .qfence _ set => (upto 6).any (fun q => set.getLsbD q && c.queueFull q)
  | x => match queueOf x with
    | some q => c.queueFull q
    | none => false

def isBrk : Instr → Bool
  | .brk _ _ => true
  | _ => false

def isTagRead : Instr → Bool
  | .vldtag _ _ _ _ _ => true
  | _ => false

/-- The members of a micro-thread's next convoy; none while it has no lode or decode refuses it. -/
def nextMembers (c : Core) (i : Nat) : Option (List Memb) :=
  let m := c.mt i
  match m.nextWords with
  | none => none
  | some (k, ws) => match decodeConvoy (decEnv c m) k ws with
    | .ok ms => some ms
    | .error _ => none

/-- The convoy as it issues. -/
def newConvoy (core i : Nat) (m : Mt) (ws : List Word32) (n : Nat) : Convoy :=
  { live := true, core := core, mt := i, head := m.next, words := ws, todo := ws, nmemb := n, shp := m.regs.shp, wb := m.regs.wb
    work := m.regs, talus := m.talus, fifo := m.fifo, skipBrk := m.skip }

/-! ## The wait for a tag, before the convoy is tried (R56, R147)

A tag-checked read names its slots and its tag by registers and a mask that earlier members of its convoy may write. Members that work on
the convoy's registers alone are run ahead; what others write is not known before the convoy is tried (log 28). -/

/-- A member that works on scalar and mask registers alone, run; `vec` says whether the vector registers are known too. -/
def dryRun (vec : Bool) (i : Instr) (s : State) : Option Out :=
  match i with
  | .gadd c d a b => some (execGadd c d a b s)
  | .gsub c d a b => some (execGsub c d a b s)
  | .gmul c d a b => some (execGmul c d a b s)
  | .gand c d a b => some (execGand c d a b s)
  | .gor c d a b => some (execGor c d a b s)
  | .gxor c d a b => some (execGxor c d a b s)
  | .gshl c d a b => some (execGshl c d a b s)
  | .gshr c d a b => some (execGshr c d a b s)
  | .gsra c d a b => some (execGsra c d a b s)
  | .gmv c d a => some (execGmv c d a s)
  | .gaddi c d a i => some (execGaddi c d a i s)
  | .gandi c d a i => some (execGandi c d a i s)
  | .glui c d i => some (execGlui c d i s)
  | .gshli c d a i => some (execGshli c d a i s)
  | .kwhilelt c d a b sz => some (execKwhilelt c d a b sz s)
  | .kwhilele c d a b sz => some (execKwhilele c d a b sz s)
  | .kcmp816 c d a b x w => if vec then some (execKcmp816 c d a b x w s) else none
  | .kcmp3264 c d a b x w => if vec then some (execKcmp3264 c d a b x w s) else none
  | .kfcmp c d a b x ft => if vec then some (execKfcmp c d a b x ft s) else none
  | .kand c d a b => some (execKand c d a b s)
  | .kor c d a b => some (execKor c d a b s)
  | .kxor c d a b => some (execKxor c d a b s)
  | .kandn c d a b => some (execKandn c d a b s)
  | .knot c d a => some (execKnot c d a s)
  | .kmv c d a => some (execKmv c d a s)
  | .kset c d b => some (execKset c d b s)
  | .kpop c d a => some (execKpop c d a s)
  | .kfirst c d a => some (execKfirst c d a s)
  | .tcoll c d a => some (execTcoll c d a s)
  | .tmark c d => some (execTmark c d s)
  | .tdepth c d => some (execTdepth c d s)
  | _ => none

/-- What is known of a convoy's registers after some of its members: a state of them, and the registers that are not known. -/
structure Dry where
  s : State
  g : List GName := []
  k : List KName := []
  vec : Bool := true

def Dry.known (r : Dry) : Bool := r.g.isEmpty && r.k.isEmpty

/-- A member run ahead. -/
def Dry.member (r : Dry) (x : Memb) : Dry :=
  match (if r.known then dryRun r.vec x.i (r.s.modCv (fun cv => { cv with pfx := x.p })) else none) with
  | some (.next t) => { r with s := t }
  | _ => { r with g := r.g ++ x.f.gw, k := r.k ++ x.f.kw, vec := r.vec && x.f.wr.isEmpty }

/-- A micro-thread's registers before the first member of its next convoy. -/
def dryStart (c : Core) (i : Nat) : Dry :=
  { s := { State.reset with cores := tset {} [] 0 c, cv := newConvoy 0 i (c.mt i) [] 0 } }

/-- The alignment in bytes that a member's base register must have (R318); none where it needs none. -/
def alignOf (x : Memb) : Option (GName × Nat) :=
  match x.i with
  | .vamo _ _ a _ _ | .vamoRow _ _ a _ _ => (vamoType x.p.ty).map (fun f => (a, f.width / 8))
  | .gamo _ _ a _ dbl _ => some (a, if dbl then 8 else 4)
  | .vrst _ _ a _ bf => some (a, if bf then 2 else 4)
  | .tsave _ a => some (a, 32)
  | _ => none

/-- A row of a row-form atomic that does not lie in one line (R318). -/
def rowBad (cv : Convoy) (x : Memb) : Bool :=
  match x.i with
  | .vamoRow _ _ a _ _ => (vamoType x.p.ty).any (fun f => (badRow { cv with pfx := x.p } (cv.rg a).toNat (f.width / 8)).isSome)
  | _ => false

/-- The members of a convoy, each with what is known before it. -/
def dryList : Dry → List Memb → List (Dry × Memb)
  | _, [] => []
  | r, x :: l => (r, x) :: dryList (r.member x) l

/-- Whether a member's alignment check fails, or is not known. -/
def alignFails (r : Dry) (x : Memb) : Bool :=
  match alignOf x with
  | some (a, n) => r.g.contains a || (r.s.cv.rg a).toNat % n != 0 || (match x.i with
      | .vamoRow _ _ _ _ _ => !r.known || rowBad r.s.cv x
      | _ => false)
  | none => false

/-- Whether a tag-checked read of the next convoy has to wait (R56), as far as it is known before the convoy is tried: the checks that come
before it pass (R318), and it is known what it reads. -/
def tagWaits (c : Core) (i : Nat) (ms : List Memb) : Bool :=
  let l := dryList (dryStart c i) ms
  match l.find? (fun y => isTagRead y.2.i) with
  | some (r, x) =>
    match x.i with
    | .vldtag _ _ t b tc =>
      let k : KName := match x.p.mask with
        | some (k, _) => k
        | none => 0
      let cv := { r.s.cv with pfx := x.p }
      let d := tget {} c.tens t.toNat
      !(x.f.gr.any (fun g => r.g.contains g) || r.k.contains k || l.any (fun y => alignFails y.1 y.2)) &&
        tagCheck c (slotsOf (cv.tensElems d tc (b + 1)) (d.width / 8) (c.scrBytes / 2048)) ((cv.rg b).toNat % 256) == (none, true)
    | _ => false
  | none => false

/-- Whether a convoy that was tried still waits for a tag (R56, R417). -/
def tagHeld (c : Core) (m : Mt) : Bool :=
  match m.tagWait with
  | some (slots, e) => tagCheck c slots e == (none, true)
  | none => false

/-- Whether the next convoy has to wait before it issues: one that faults at decode or shape, or whose `brk` keeps it from
issuing, does not (R212, R244, R373). -/
def issueWaits (c : Core) (i : Nat) : Bool :=
  let m := c.mt i
  match nextMembers c i with
  | none => false
  | some ms => !(ms.any (fun x => isBrk x.i) && !m.skip) && (shapeBad (shpRows m.regs.shp * shpCols m.regs.shp) 0 ms).isNone &&
      (ms.any (fun x => memberWaits c i x.i) || tagWaits c i ms)

/-- Whether a micro-thread's next convoy can issue (R147). -/
def mtReady (c : Core) (i : Nat) : Bool :=
  let m := c.mt i
  decide (i < c.info.n) && (m.code == 1 || m.code == 3) && m.parked.isNone && m.nextWords.isSome && !tagHeld c m && !issueWaits c i

/-- A micro-thread that yielded, until each of those that were ready then has issued, or none of them is ready (R366). -/
def yieldHolds (c : Core) (i : Nat) : Bool :=
  let m := c.mt i
  decide (0 < m.yieldLeft) && !m.yieldFor.isEmpty && m.yieldAll.any (fun j => mtReady c j)

/-- The state code of a context as `mt.stat` reads it (R147, R174). -/
def mtCode (c : Core) (i : Nat) : Nat :=
  let m := c.mt i
  if c.info.n ≤ i then 7
  else if (m.code = 1 ∨ m.code = 3) ∧ m.parked.isNone then (if mtReady c i then 1 else 3)
  else if m.code = 0 ∧ !m.lodeq.isEmpty then 1
  else m.code

/-- The micro-threads of a lane, the least recently issued first: those that have not issued since admission in ascending order,
then the others as they issued (R193). -/
def laneOrder (c : Core) (lane : Nat) : List Nat :=
  let all := (upto c.info.n).filter (fun i => !c.recency.contains i) ++ c.recency
  all.filter (fun i => decide (i % 8 = lane))

/-- Whether issue goes on for a micro-thread: not under a debug halt (R142), and while the core stops only for mt0 under LEG (R194, R200). -/
def Core.issues (c : Core) (i : Nat) : Bool := !c.halted && (!c.stopping || (c.info.leg && i == 0))

/-- A request of the control thread that a micro-thread takes before its next convoy issues (R156, R377). -/
def Pending.of (i : Nat) : Pending → Bool
  | .put m _ _ => m == i
  | .get m _ _ => m == i
  | .stop m => m == i

/-- The micro-thread a lane issues (R193). -/
def lanePick (c : Core) (lane : Nat) : Option Nat :=
  (laneOrder c lane).find? (fun i => c.issues i && !c.pending.any (Pending.of i) && mtReady c i && !yieldHolds c i)

/-! ## Issue -/

/-- The agents of a core halt (R142, R373). -/
def haltCore (s : State) (core : Nat) : State :=
  s.modCore core (fun c => { c with halted := true, dbgctl := c.dbgctl ||| 1 })

/-- A fault that keeps a convoy from issuing: decode (R212), shape (R244), or `brk` (R373). -/
def issueFault (c : Core) (i : Nat) (k : Nat) (ws : List Word32) : Except (List Word64) (List Memb) :=
  let m := c.mt i
  match decodeConvoy (decEnv c m) k ws with
  | .error (at_, cause) => .error (mkRecord kILL cause.code (countMembers ws) at_ m.retry m.next [(ws.getD at_ 0).toNat])
  | .ok ms =>
    let shp := m.regs.shp
    match shapeBad (shpRows shp * shpCols shp) 0 ms with
    | some (n, w) =>
      let at_ := (ms.getD n ⟨.nop false, {}, 0, {}⟩).at_
      .error (mkRecord kSHAPE 0 ms.length at_ m.retry m.next [n + w * 256 + shp.toNat * 2 ^ 32])
    | none => .ok ms

/-- A member whose work belongs to the retirement of its convoy, where nothing may fall between its reads and its writes (R122, R126), or
where convoys are taken in the order of their retirement (R280, R348). -/
def isLate : Instr → Bool
  | .vamo _ _ _ _ _ | .vamoRow _ _ _ _ _ | .gamo _ _ _ _ _ _ | .vrst _ _ _ _ _ | .vrng _ _ _ | .mattach _ _ => true
  | .sread _ _ n => n == 0x28 || n == 0x29
  | _ => false

/-- A member whose check can keep its convoy from issuing: a tag-checked read (R56), or an undo (R328). -/
def decides : Instr → Bool
  | .umul _ _ _ _ _ | .uadd _ _ _ _ _ | .ufma _ _ _ _ _ | .unarrow _ _ _ _ | .ushr _ _ _ _ _ | .uscale _ _ _ _ _ | .ulrelu _ _ _ _ _ => true
  | i => isTagRead i

/-- A convoy that has a late member runs twice: to see what it waits for and whether it faults, and, once the waits are over, for its effects
(log 28). -/
def runsTwice (ms : List Memb) : Bool := ms.any (fun m => isLate m.i)

/-- A member that a store entering the L1 late does not enter before: a plain load, which may overtake it, a plain store, which goes behind it,
or one that touches no memory and hands nothing to another agent (R106, R108). -/
def overtakes (m : Memb) : Bool :=
  match m.i with
  | .vld _ _ _ _ _ | .vlds _ _ _ _ _ | .vldx _ _ _ _ _ | .vldt _ _ _ _ _ | .gld _ _ _ _ _ _ | .kld _ _ _ | .vldff _ _ _ _ _ => true
  | .vst _ _ _ _ _ | .vsts _ _ _ _ _ | .vstx _ _ _ _ _ | .vstt _ _ _ _ _ | .gst _ _ _ _ _ | .kst _ _ _ => true
  | .br _ | .jal _ _ | .bcc _ _ _ | .bk _ _ _ | .jr _ _ | .gsubbr _ _ => true
  | .vlsnd _ _ | .vlrcv _ _ | .sread _ _ _ | .qcnt _ _ _ => false
  | _ => m.f.pipe == .a || m.f.pipe == .x || m.f.pipe == .none

/-- The `brk` of a convoy, with its code and word. -/
def findBrk (ms : List Memb) : Option (Nat × Nat) :=
  ms.findSome? (fun m => match m.i with
    | .brk _ code => some (m.at_, code.toNat)
    | _ => none)

/-- A lane issues a ready micro-thread's convoy, or the convoy faults without issuing. One that a member's check can keep from issuing is counted
once it has issued (R56, R328). Retired stores that are still to enter the L1 do so first, unless only plain loads and stores follow (R106). -/
def issueConvoy (s : State) (core i k : Nat) (ws : List Word32) : State :=
  let c := s.core core
  let m := c.mt i
  match issueFault c i k ws with
  | .error r => enterFaulted s core i r
  | .ok ms =>
    let tag := ms.any (fun x => decides x.i)
    let s := if ms.all overtakes then s else drainMt s core i
    let s' := s.modCore core (fun c =>
      let c := if tag then c else c.issued i
      c.setMt i { c.mt i with code := 2 })
    let go := { s' with cv := { newConvoy core i m ws ms.length with
      trial := runsTwice ms, counted := !tag,
      before := if tag then some (c.stale, c.lreq, c.xreq, c.smpcnt) else none } }
    match findBrk ms with
    | some (at_, code) =>
      if m.skip then go
      else if c.brkArmed then haltCore s core
      else enterFaulted s core i (mkRecord kBRK 0 ms.length at_ m.retry m.next [code])
    | none => go

/-- R193. The lane of the micro-thread whose turn it is. -/
def execConvoyIssue (s : State) : Out :=
  let core := s.here.core
  let c := s.core core
  match lanePick c (s.here.idx % 8) with
  | none => .next ((drainMt s core s.here.idx).modCore core (fun c =>
      let m := c.mt s.here.idx
      if m.code = 1 ∧ m.parked.isNone then c.setMt s.here.idx { m with code := 3 } else c))
  | some j =>
    match (c.mt j).nextWords with
    | none => .next s
    | some (k, ws) => .next (issueConvoy s core j k ws)

/-! ## Lode fetch (R157, R158) -/

/-- Sectors of a fetched line that are poisoned have lost their words: free values (R391, log 7). -/
def lostWords (s : State) (pz : BitVec 4) (ws : List Word32) : List Word32 × State :=
  (upto ws.length).foldl (fun (r : List Word32 × State) i =>
    let (l, s) := r
    if pz.getLsbD (i / 8) then
      let (x, s) := s.draw
      (l ++ [x.setWidth 32], s)
    else (l ++ [ws.getD i 0], s)) ([], s)

def wordsOfBytes : Nat → List Byte → List Word32
  | 0, _ => []
  | n + 1, b => BitVec.ofNat 32 (leNat (b.take 4)) :: wordsOfBytes n (b.drop 4)

/-- A lode cache takes a line, its least recently used line making room (R158). -/
def Core.cacheLode (c : Core) (line : Nat) (bytes : List Byte) : Core :=
  let rest := c.lodeCache.filter (fun e => e.1 != line)
  { c with lodeCache := (rest ++ [(line, bytes)]).drop (rest.length + 1 - 512) }

/-- A fill from the die fetch agent enters the lode cache of every core of the die that runs the launch and lacks the line. -/
def multicast (s : State) (core line : Nat) (bytes : List Byte) : State :=
  let l := (s.core core).info
  { s with cores := tmap {} (fun i c =>
      let mine := i == core || (dieOf i == dieOf core && (c.launch.any (fun k => sameLaunch k l)))
      if mine && !(c.lodeCache.any (fun e => e.1 == line)) then c.cacheLode line bytes else c) s.cores }

/-- The 32 words of the lode at a PA: from the lode cache, or from its home slice as it stands, with its stale accounting. -/
def lodeAt (s : State) (core pa : Nat) : List Word32 × State :=
  let line := pa / 128
  let c := s.core core
  match c.lodeCache.find? (fun e => e.1 == line) with
  | some (_, bytes) => (wordsOfBytes 32 bytes, s.modCore core (fun c => c.cacheLode line bytes))
  | none =>
    let s := closeLine s line
    let (r, s) := sliceLoad s line 0 128
    let s := if r.stale.isSome then addStale s core 1 else s
    let (ws, s) := lostWords s r.poison (wordsOfBytes 32 (leBytes 128 r.val))
    (ws, multicast s core line ((ws.map (fun w => leBytes 4 w.toNat)).flatten))

/-- The fault of a refused lode fetch, charged to a head (R157). -/
def fetchFault (s : State) (core memb widx : Nat) (retry : Bool) (head va : Word64) (e : XCause) : List Word64 :=
  mkRecord kSPAN 0 memb widx retry head (spanBody (s.ctxOf core) 3 head [(0, va.toNat, e)] false)

/-- The lode at an address, or why its fetch is refused. -/
def fetchLode (s : State) (core : Nat) (va : Word64) : Except XCause Lode × State :=
  match spanXlat s (dieOf core) (s.ctxOf core) va.toNat { x := true, localOnly := true } with
  | .error e => (.error e, logUnst s core [(va.toNat, e)])
  | .ok x =>
    let (ws, s) := lodeAt s core x.pa
    (.ok ⟨va, ws⟩, s)

/-- A micro-thread takes the head of its lode queue: word 0 of that lode, with its argument in g63 (R152, R153). -/
def Mt.takeLode (m : Mt) : Mt :=
  match m.lodeq with
  | [] => { m with lode := none, code := 0 }
  | (va, arg) :: rest =>
    { m with
      lode := none, lodeq := rest, next := va, code := 3
      regs := match arg with
        | some a => m.regs.wg 63 a
        | none => m.regs }

/-- The same on its core, which knows SAVELODE and RESTLODE (R200). -/
def Core.takeLode (c : Core) (i : Nat) (m : Mt) : Mt := { m.takeLode with moves := c.movesNext i m.lodeq }

/-- R153. -/
def execLodeTake (s : State) : Out :=
  .next (s.modCore s.here.core (fun c =>
    let m := c.mt s.here.idx
    if m.code = 0 then c.setMt s.here.idx (c.takeLode s.here.idx m) else c))

/-- R158. The lode a micro-thread waits for arrives, or its fetch faults with HEAD at the address it goes on at (R157) and MEMB 0
(log 48). -/
def execLodeFill (s : State) : Out :=
  let core := s.here.core
  let i := s.here.idx
  let s := drainMt s core i
  let m := (s.core core).mt i
  if (m.code = 1 ∨ m.code = 3) ∧ m.lode.isNone ∧ m.parked.isNone then
    let va := m.next / 128 * 128
    match fetchLode s core va with
    | (.error e, s) => .next (enterFaulted s core i (fetchFault s core 0 0 m.retry m.next va e))
    | (.ok l, s) => .next (s.modCore core (fun c => c.setMt i { c.mt i with lode := some l, code := 1 }))
  else .next s

end Sys2Proof.Machine
end

