-- ==== Sys2Proof/Machine/Retire.lean ====
section
/-! DEFINITION. How a convoy ends: retirement (R102, R112, R150, R165, R364 to R366), its faults (R166, R318, R381), its re-issue
(R388, R390), and what reaches a micro-thread at its convoy boundary (R156, R168, R171, R377, R392). -/

namespace Sys2Proof.Machine

/-! ## Transfers (R150, R154, R365) -/

/-- Why word `k` of a lode is no convoy start (R150). -/
def startBad (l : Lode) (k : Nat) : Option Cause :=
  if k = 0 then none
  else
    let p := l.words.getD (k - 1) 0
    if isPfxWord p then some .pfx else if p[31] then some .btg else none

/-- The record of a bad target, at the convoy's last word. -/
def targetFault (cv : Convoy) (retry : Bool) (c : Cause) : List Word64 :=
  mkRecord kILL c.code cv.nmemb (cv.words.length - 1) retry cv.head [(cv.words.getD (cv.words.length - 1) 0).toNat]

/-- A transfer to an address: the lode it goes on in, the current one or one that is fetched, or the convoy's fault. -/
def transfer (s : State) (cv : Convoy) (va : Word64) : Except (List Word64) Lode × State :=
  let m := (s.core cv.core).mt cv.mt
  let block := va / 128 * 128
  let k := (va - block).toNat / 4
  let check (l : Lode) : Except (List Word64) Lode := match startBad l k with
    | some c => .error (targetFault cv m.retry c)
    | none => .ok l
  if va % 4 ≠ 0 then (.error (targetFault cv m.retry .btg), s)
  else
    match m.lode.filter (fun l => l.va == block) with
    | some l => (check l, s)
    | none =>
      match fetchLode s cv.core block with
      | (.error e, s) => (.error (fetchFault s cv.core cv.nmemb (cv.words.length - 1) m.retry cv.head va e), s)
      | (.ok l, s) => (check l, s)

/-- `lfetch`: a misaligned address is LODEALIGN; the lode is fetched again even if it is the current one. -/
def lodeTransfer (s : State) (cv : Convoy) (va : Word64) : Except (List Word64) Lode × State :=
  let m := (s.core cv.core).mt cv.mt
  if va % 128 ≠ 0 then (.error (mkRecord kLODEALIGN 0 cv.nmemb (cv.words.length - 1) m.retry cv.head [va.toNat]), s)
  else
    match fetchLode s cv.core va with
    | (.error e, s) => (.error (fetchFault s cv.core cv.nmemb (cv.words.length - 1) m.retry cv.head va e), s)
    | (.ok l, s) => (.ok l, s)

/-- The address after the convoy. -/
def Convoy.after (cv : Convoy) : Word64 := cv.head + BitVec.ofNat 64 (4 * cv.words.length)

/-- Where the micro-thread goes on: an address and the lode there, or the convoy's fault. -/
def goOn (s : State) (cv : Convoy) : Except (List Word64) (Word64 × Option Lode) × State :=
  let m := (s.core cv.core).mt cv.mt
  let pack (va : Word64) (r : Except (List Word64) Lode × State) : Except (List Word64) (Word64 × Option Lode) × State :=
    match r with
    | (.error e, s) => (.error e, s)
    | (.ok l, s) => (.ok (va, some l), s)
  match cv.ctl with
  | .jump va _ => pack va (transfer s cv va)
  | .lfetch va => pack va (lodeTransfer s cv va)
  | .stop => (.ok (m.next, none), s)
  | _ => if cv.after % 128 = 0 then pack cv.after (transfer s cv cv.after) else (.ok (cv.after, m.lode), s)

/-! ## The effects of a convoy (R165) -/

/-- 8-byte words that a mask of bits covers whole, of a register at pool byte `base`. -/
def wholeWords (base : Nat) (m : VReg) : List Nat :=
  (upto 64).filterMap (fun j => if m.extractLsb' (64 * j) 64 = BitVec.allOnes 64 then some (base + 8 * j) else none)

/-- The stream words that become resident in a share (R333): those of the new range that the old one lacks. -/
def newlyResident (c : Core) (oldTsd newTsd : Word64) : List Nat :=
  let range (t : Word64) : Nat × Nat := (4096 * spillOf (tsdBytes t) c.info.chunks, tsdBytes t)
  let (a, b) := range oldTsd
  let (a', b') := range newTsd
  ((upto ((b' - a') / 8)).map (fun k => a' + 8 * k)).filter (fun o => !(decide (a ≤ o) && decide (o < b)))

/-- Where a resident stream byte of a micro-thread lies in the pool. -/
def Core.talusAt (c : Core) (mt o : Nat) : Nat :=
  c.talBase + (mt * c.info.chunks + o / 4096 % c.info.chunks) * 4096 + o % 4096

/-- The poison that the convoy's writes to the pool clear: the words they cover whole (R391). -/
def clearPoison (c : Core) (cv : Convoy) : List Nat :=
  if c.poolPoison.isEmpty then [] else
  let regs := (cv.vmask.map (fun e => wholeWords ((cv.mt * c.info.p + e.1) * 512) e.2)).flatten
  let acc (o : Nat) : Bool :=
    let e := (o - c.accBase) / 4
    decide (c.accBase ≤ o) && cv.accw.any (fun w => w.1 == e) && cv.accw.any (fun w => w.1 == e + 1)
  let scr (o : Nat) : Bool := decide (c.scrBase ≤ o) && decide (o < c.accBase) && covers8 cv.scr (o - c.scrBase)
  let tal := (newlyResident c (c.mt cv.mt).regs.tsd cv.work.tsd).map (fun o => c.talusAt cv.mt o)
  c.poolPoison.filter (fun o => !(regs.contains o || tal.contains o || acc o || scr o))

/-- Slabs of a quad that no micro-thread holds (R348). -/
def freeSlabs (s : State) (core : Nat) : Nat :=
  4 - ((upto 4).map (fun k => (((s.core (core / 4 * 4 + k)).mts).map (fun e => e.2.slabs)).sum)).sum

/-- MGR after an attach of a request already rounded (R348). -/
def grantOf (s : State) (core mgr q : Nat) : Nat :=
  if (s.core core).info.mat then max mgr (min q (mgr + 32 * freeSlabs s core)) else mgr

/-- Whether a convoy loads a descriptor into an identifier, which clears its STAT (R346). -/
def Convoy.defines (cv : Convoy) (t : Nat) : Bool :=
  cv.words.any (fun w => match decodeMt w with
    | .ok (.tdef _ x _) => x.toNat == t
    | _ => false)

/-- A descriptor that takes its place in the table: one that `tcoll` rewrote keeps STAT as it stands, where an engine has left it since the
convoy started too (R262, R344). -/
def keepStat (cv : Convoy) (now : Tab TDesc) (t : Nat) (x : TDesc) : TDesc :=
  let stat (d : TDesc) : Word64 := d.w0 &&& 0xF800000000000000
  if !cv.defines t && stat x == stat (tget {} (cv.tens0.getD now) t) then { x with w0 := (x.w0 &&& 0x07FFFFFFFFFFFFFF) ||| stat (tget {} now t) }
  else x

/-- The core's state after the convoy's register, scratchpad, accumulator, table, talus and link effects. -/
def commitCore (c : Core) (cv : Convoy) (grant : Nat) : Core :=
  let m := c.mt cv.mt
  let old := m.regs.mgr.toNat
  let regs := if cv.attach.isSome then { cv.work with mgr := BitVec.ofNat 32 grant } else cv.work
  let m' := { m with
    regs := regs
    talus := cv.talus
    fifo := if cv.took then m.fifo.drop 1 else m.fifo
    slabs := if cv.attach.isSome then m.slabs + (grant - old) / 32 else m.slabs }
  let c' := { c with
    poolPoison := clearPoison c cv
    scratch := cv.scr.foldl (fun (t : List Host.Cell) (e : Nat × List Byte) => tsetRange 0 t e.1 e.2) c.scratch
    acc := cv.accw.foldl (fun (t : Tab Word32) (e : Nat × Word32) => tset 0 t e.1 e.2) c.acc
    tens := cv.tens.foldl (fun (t : Tab TDesc) (e : Nat × TDesc) => tset {} t e.1 (keepStat cv c.tens e.1 e.2)) c.tens }
  let c' := (c'.setMt cv.mt m').reWas (fun w x => (overlayBytes cv.scr (8 * w) 8 x.1, x.2 && !covers8 cv.scr (8 * w)))
  match cv.send with
  | some v =>
    let n := c'.linkNext cv.mt
    c'.setMt n { c'.mt n with fifo := (c'.mt n).fifo ++ [v] }
  | none => c'

/-- Remote-reduce packets leave, one request each (R126, R422). -/
def sendPackets (s : State) (core : Nat) (ps : List VrstPkt) : State :=
  ps.foldl (fun s p => match p.dev with
    | some d => postWrite (countXreq s core) core (p.sid % 64) d p.va
    | none => sendPacket (countReq s core (128 * p.line)) p) s

/-- Entries reach their queues (R112). -/
def placeEntries (s : State) (core : Nat) (es : List (Nat × Entry)) : State :=
  es.foldl (fun s e => s.modCore core (fun c =>
    c.setQueue e.1 { c.queue e.1 with entries := (c.queue e.1).entries ++ [e.2] })) s

/-- Whether the stores of a convoy may enter the L1 later than it retires: nothing of it hands them to another agent or an engine
(R106). -/
def Convoy.mayDelay (cv : Convoy) : Bool :=
  decide (cv.wait = .none) && cv.cleans.isEmpty && cv.vpk.isEmpty && cv.enq.isEmpty && cv.send.isNone && cv.stores.all (fun st => !st.atomic) &&
    (match cv.ctl with
      | .seq => true
      | .jump _ _ => true
      | _ => false)

/-- The stores of a convoy leave the retire buffer behind those that are still to enter the L1: at once, or, where the next move is a
delay, with those, while later loads of the agent may come first (R102, R106, log 52). A convoy without a store moves none. -/
def leaveBuffer (s : State) (cv : Convoy) : State :=
  let now (s : State) : State := commitStores (drainMt s cv.core cv.mt) cv.core cv.mt cv.stores
  if !cv.mayDelay then now s
  else if cv.stores.isEmpty then s
  else match s.sched with
  | .delay :: l => { s with sched := l }.modCore cv.core (fun c =>
      let m := c.mt cv.mt
      c.setMt cv.mt { m with late := m.late ++ [cv.stores] })
  | _ => now s

/-- All results of a convoy take effect (R102, R165). -/
def commitConvoy (s : State) (cv : Convoy) : State :=
  let core := cv.core
  let grant := grantOf s core ((s.core core).mt cv.mt).regs.mgr.toNat (cv.attach.getD 0)
  let s := leaveBuffer s cv
  let s := cv.cleans.foldl (fun s r => cleanRange s core r.1 r.2.1 r.2.2) s
  let s := sendPackets s core cv.vpk
  let s := placeEntries s core cv.enq
  let s := cv.sregs.foldl (fun s w => setCoreSreg s core w.1 w.2) s
  s.modCore core (fun c => commitCore c cv grant)

/-- A retired `bar` counts as one instance of its level (R171, R172). -/
def Mt.countBar (m : Mt) (n : Nat) : Mt :=
  { m with
    bars := tset 0 m.bars n (tget 0 m.bars n + 1), pend := m.pend &&& ~~~(onesAt 8 n 1), uncounted := m.uncounted &&& ~~~(onesAt 8 n 1) }

/-- The other micro-threads of a lane that are ready (R366). -/
def yieldTo (c : Core) (i : Nat) : List Nat := (upto c.info.n).filter (fun j => j != i && j % 8 == i % 8 && mtReady c j)

/-- The micro-thread after its convoy retired: where it goes on, or idle, or its next lode (R153, R364 to R366, R373). -/
def afterRetire (c : Core) (cv : Convoy) (va : Word64) (lode : Option Lode) : Core :=
  let m := c.mt cv.mt
  let m := { m with retry := false, skip := false, parked := none, tagWait := none, code := 1, next := va, lode := lode }
  let m := match cv.wait with
    | .bar n _ => m.countBar n
    | _ => m
  match cv.ctl with
  | .stop => c.setMt cv.mt (c.takeLode cv.mt m)
  | .yield => c.setMt cv.mt { m with yieldLeft := 3, yieldFor := yieldTo c cv.mt, yieldAll := yieldTo c cv.mt }
  | _ => c.setMt cv.mt m

/-- The other micro-threads of this device whose convoys wait for an instance of a level that is complete. -/
def barPeers (s : State) (core n : Nat) : List (Nat × Nat) :=
  ((instanceCores s core n).map (fun c => ((s.core c).mts.filter (fun e => e.2.parked.any (fun p => match p.wait with
    | .bar l k => l == n && p.todo.isEmpty && barComplete s c n k
    | _ => false))).map (fun e => (c, e.1)))).flatten

/-- The convoys that wait for a complete instance retire together, in ascending micro-thread number, before anything else acts: the release
of each `bar` covers the members before it in its convoy (R98, R121, R171, log 53). -/
def retirePeers (s : State) (core n : Nat) : State :=
  let evs := (barPeers s core n).map (fun p => Move.event { core := p.1, idx := p.2 } .convoyRetire)
  { s with sched := evs.filter (fun e => !s.sched.contains e) ++ s.sched }

/-- What a retired `bar` leaves to do: from DIE up its release takes the stores and contributions of its own convoy home (R118, R121), and the
others of its instance retire. It waits for no answer to what the convoy itself has posted to other nodes (log 53). -/
def afterBar (s : State) (cv : Convoy) (n : Nat) : State :=
  let s := if cv.stores.isEmpty && cv.vpk.isEmpty then s else releaseWork s cv.core (effScope ((s.core cv.core).info.level n))
  retirePeers s cv.core n

/-- A convoy all of whose members passed retires, or faults at its transfer (R104, R150, R365). -/
def retireConvoy (s : State) (cv : Convoy) : State :=
  let retry := ((s.core cv.core).mt cv.mt).retry
  let s := countIssue { s with cv := {} } cv
  match goOn s cv with
  | (.error r, s) => enterFaulted s cv.core cv.mt r
  | (.ok (va, lode), s) =>
    let s := commitConvoy s cv
    let s := s.modCore cv.core (fun c => (afterRetire c cv va lode).sampleCount 1 1)
    let s := match cv.wait with
      | .bar n _ => afterBar s cv n
      | _ => s
    match cv.ctl with
    | .trap code => enterFaulted s cv.core cv.mt (mkRecord kTRAP 0 cv.nmemb (cv.words.length - 1) retry cv.after [code])
    | _ => s

/-- The arrivals of a convoy that has not issued are taken back. -/
def Mt.unArrive (m : Mt) (l : List Nat) : Mt := { m with pend := l.foldl (fun (p : BitVec 8) n => p &&& ~~~(onesAt 8 n 1)) m.pend }

/-- A core's counts of stale reads and requests as they were before a convoy was tried that has not issued. -/
def Core.uncount (c : Core) (b : Option (Word32 × Word64 × Word64 × Nat)) : Core :=
  match b with
  | some (st, l, x, n) => { c with stale := st, lreq := l, xreq := x, smpcnt := n }
  | none => c

/-- The convoy is given back unissued: its members leave no effect, its arrivals are taken back, and its micro-thread waits, for a tag where
a tag-checked read said so (R56, R104, R174). -/
def discardConvoy (s : State) : State :=
  let cv := s.cv
  { s with cv := {} }.modCore cv.core (fun c =>
    let c := if cv.wait = Wait.issue then c.uncount cv.before else c
    let m := c.mt cv.mt
    c.setMt cv.mt { m.unArrive cv.arrived with code := 3, tagWait := if cv.wait = Wait.issue then cv.need else none })

/-- The second run of a convoy with late members: it starts afresh, with the tables it began with and what its loads have read, and waits for
nothing. -/
def finalRun (s : State) (cv : Convoy) : State :=
  let m := (s.core cv.core).mt cv.mt
  { s with cv := { newConvoy cv.core cv.mt m cv.words cv.nmemb with
      head := cv.head, final := true, tens0 := cv.tens0, span0 := cv.span0, arrived := cv.arrived, skipBrk := cv.skipBrk
      reads := cv.reads, seen := cv.seen } }.modCore cv.core
    (fun c => c.setMt cv.mt { c.mt cv.mt with parked := none, code := 2 })

/-- The end of a convoy whose members have all run: it waits for its barrier, or retires, after its second run where it has one. -/
def endConvoy (s : State) (cv : Convoy) : State :=
  let go := if cv.trial then finalRun (countIssue s cv) cv else retireConvoy s cv
  match cv.wait with
  | .bar n k => if cv.final || barComplete s cv.core n k then go else setAside s cv 3
  | _ => go

/-- A convoy whose barrier has just become complete takes its turn among the others that wait for the instance (R280). -/
def endLast (s : State) (cv : Convoy) : State :=
  match cv.wait with
  | .bar n k =>
    if !cv.final && barComplete s cv.core n k && !(barPeers s cv.core n).isEmpty then retirePeers (setAside s cv 3) cv.core n
    else endConvoy s cv
  | _ => endConvoy s cv

/-- A convoy that other agents may act before the end of (R102): not one in its second run, whose late members' work stays together, nor
one that a check of a member still to run may keep from issuing (log 1, log 28). -/
def Convoy.mayHold (cv : Convoy) : Bool :=
  !cv.final && decide (cv.wait ≠ .issue) && (cv.counted || cv.todo.all (fun w => match decodeMt w with
    | .ok i => !decides i
    | .error _ => true))

/-- The convoy in flight lets other agents act; its micro-thread's next turn goes on with it. -/
def holdConvoy (s : State) : State :=
  if s.cv.live && s.cv.mayHold then setAside s s.cv 2 else s

/-- R165. The convoy in flight retires, is discarded for a wait, or waits to retire; one that waited takes up its work again. -/
def execConvoyRetire (s : State) : Out :=
  if s.cv.live then
    let cv := s.cv
    if cv.brkArmed then .next (haltCore (discardConvoy s) cv.core)
    else if cv.wait = .issue then .next (discardConvoy s)
    else .next (endLast s cv)
  else
    match ((s.core s.here.core).mt s.here.idx).parked with
    | none => .next s
    | some p =>
      if p.todo.isEmpty && p.cands.isEmpty && !p.brkArmed then .next (endConvoy s p)
      else .next ({ s with cv := p }.modCore p.core (fun c => c.setMt p.mt { c.mt p.mt with parked := none, code := 2 }))

/-! ## Faults -/

/-- The candidate that decides: of the lowest phase, and of those the first (R318, log 13). -/
def firstFault (l : List (Nat × List Word64)) : Option (List Word64) :=
  (l.foldl (fun (b : Option (Nat × List Word64)) x => match b with
    | none => some x
    | some y => if x.1 < y.1 then some x else some y) none).map Prod.snd

/-- The kind of a record. -/
def recordKind (r : List Word64) : Nat := bits (r.getD 0 0).toNat 56 8

/-- A micro-thread faults; one that consumed poison stops its gang (R392, R393). -/
def faultMt (s : State) (core mt : Nat) (r : List Word64) : State :=
  let s := enterFaulted s core mt r
  if recordKind r = kPOISON then { s with sched := .event { core := core, idx := mt } .gangStop :: s.sched } else s

/-- Whether a record's fault keeps its convoy from issuing: a schedule fault (R56), talus underflow, or an undo's talus order (R328). -/
def unissued (r : List Word64) : Bool :=
  let k := recordKind r
  k == kSCHED || k == kTUNDER || (k == kTORDER && bits (r.getD 0 0).toNat 48 8 == 0)

/-- R381. A convoy that one of its members keeps waiting for a tag meets no later check (R318). One that has not issued leaves no count of its
issue and no arrival (R171, R193). -/
def execConvoyFault (s : State) : Out :=
  let cv := s.cv
  let cands := if cv.wait = .issue then cv.cands.filter (fun c => decide (c.1 ≤ phTag)) else cv.cands
  if cv.brkArmed then .next (haltCore (discardConvoy s) cv.core)
  else
    match firstFault cands with
    | none => .next (discardConvoy s)
    | some r =>
      let s := if unissued r then { s with cv := {} }.modCore cv.core (fun c => c.setMt cv.mt ((c.mt cv.mt).unArrive cv.arrived))
        else countIssue { s with cv := {} } cv
      .next (faultMt s cv.core cv.mt r)

/-- R388 to R390. The convoy a micro-thread issues next is rolled back and re-issued once; a second time it faults with kind 16. A re-issue
for a copy that was dropped (`here.sub` ≠ 0) corrects no single-bit error. -/
def execConvoyReissue (mirror : Bool) (member : BitVec 2) (group : BitVec 3) (s : State) : Out :=
  let core := s.here.core
  let i := s.here.idx
  let m := (s.core core).mt i
  let mir := (s.core core).info.mir
  if !(s.core core).issues i || !mtReady (s.core core) i || (mirror && !mir) then .next s
  else
    let s := if mirror then countRel s core 0x10 else if s.here.sub = 0 then countRel s core 0 else s
    if m.retry then
      let n := match nextMembers (s.core core) i with
        | some ms => ms.length
        | none => 0
      .next (enterFaulted s core i (mkRecord kHWERR (if mirror then 1 else 0) n 0 true m.next [member.toNat + group.toNat * 256]))
    else .next ((countRel s core 8).modCore core (fun c => c.setMt i { m with retry := true }))

/-! ## Convoy boundaries -/

/-- Whether a convoy that waits to retire waits under R174: for a barrier, or in a `qwait`. -/
def Convoy.waitsOpen (cv : Convoy) : Bool :=
  match cv.wait, cv.todo with
  | .bar _ _, _ => true
  | .member, w :: _ => (match decodeMt w with
    | .ok (.qwait _ _ _) => true
    | _ => false)
  | _, _ => false

/-- The pending request of the control thread that a micro-thread takes at its boundary (R156, R377). A write waits for a convoy
that has issued, and requests after it wait with it; a stop does not wait for a convoy that waits under R174. -/
def pendingFor (c : Core) (i : Nat) : Option Instr :=
  let m := c.mt i
  let stops := c.pending.any (fun p => p == .stop i) && (m.parked.isNone || m.parked.any (fun p => p.waitsOpen))
  match c.pending.find? (Pending.of i) with
  | some (.put _ _ _) => if m.parked.isNone then some .mtPutApply else if stops then some .mtStopApply else none
  | some (.get _ _ _) => some .mtGetSample
  | some (.stop _) => if stops then some .mtStopApply else none
  | none => none

/-- The first pending request of a micro-thread is taken off the list. -/
def dropPending (l : List Pending) (f : Pending → Bool) : List Pending :=
  match l with
  | [] => []
  | p :: l => if f p then l else p :: dropPending l f

def isPut (i : Nat) : Pending → Bool
  | .put m _ _ => m == i
  | _ => false
def isGet (i : Nat) : Pending → Bool
  | .get m _ _ => m == i
  | _ => false
def isStop (i : Nat) : Pending → Bool
  | .stop m => m == i
  | _ => false

/-- R377. What the micro-thread stored before is its earlier accesses (R108). -/
def execMtPutApply (s : State) : Out :=
  let i := s.here.idx
  if pendingFor (s.core s.here.core) i = some .mtPutApply then
    .next ((drainMt s s.here.core i).modCore s.here.core (fun c =>
      match c.pending.find? (isPut i) with
      | some (.put _ n x) =>
        let m := c.mt i
        let m := { m with regs := m.regs.wg n x, tagWait := none, code := if m.code = 3 ∧ m.lode.isSome then 1 else m.code }
        { c.setMt i m with pending := dropPending c.pending (isPut i) }
      | _ => c))
  else .next s

/-- R377. -/
def execMtGetSample (s : State) : Out :=
  let i := s.here.idx
  if pendingFor (s.core s.here.core) i = some .mtGetSample then
    .next ((drainMt s s.here.core i).modCore s.here.core (fun c =>
      match c.pending.find? (isGet i) with
      | some (.get _ n rd) => { c with got := some (rd, (c.mt i).regs.rg n), pending := dropPending c.pending (isGet i) }
      | _ => c))
  else .next s

/-- A stopped micro-thread: its queue emptied, its lode dropped, a waiting `bar` abandoned and counted (R156). -/
def Mt.stopped (m : Mt) : Mt :=
  let m := (upto 8).foldl (fun m n => if m.pend.getLsbD n then m.countBar n else m) m
  { m with
    lodeq := [], lode := none, code := 0, parked := none, yieldLeft := 0, yieldFor := [], yieldAll := [], retry := false, skip := false
    tagWait := none, moves := false }

/-- R156. -/
def execMtStopApply (s : State) : Out :=
  let i := s.here.idx
  if pendingFor (s.core s.here.core) i = some .mtStopApply then
    .next ((drainMt s s.here.core i).modCore s.here.core (fun c =>
      if i < c.info.n then { c.setMt i (c.mt i).stopped with pending := dropPending c.pending (isStop i) }
      else { c with pending := dropPending c.pending (isStop i) }))
  else .next s

/-- R171. The next instance of the level at `here.sub` completes once every member of this device has arrived and released; at a
level of other devices too, their arrivals come with this operation. -/
def execBarrierComplete (s : State) : Out :=
  let core := s.here.core
  let n := s.here.sub
  let k := tget 0 (s.core core).seen n + 1
  if n < (s.core core).info.nlev ∧ instanceArrived s core n k then
    let s := (instanceCores s core n).foldl (fun s c => s.modCore c (fun x => { x with seen := tset 0 x.seen n k })) s
    .next (retirePeers s core n)
  else .next s

/-- R168. -/
def execLinkWaitEnd (s : State) : Out :=
  let i := s.here.idx
  .next (s.modCore s.here.core (fun c =>
    let m := c.mt i
    if m.code = 3 ∧ mtReady c i then c.setMt i { m with code := 1 } else c))

/-! ## Poison (R391, R392) -/

/-- Whether a place's granule is poisoned, and the SUB and address a record gives it. -/
def poisonAt (s : State) (p : Place) : Option (Nat × Nat) :=
  let pool (core off sub : Nat) : Option (Nat × Nat) := if (s.core core).poolPoison.contains off then some (sub, off) else none
  match p with
  | .l1 core pa => if ((s.core core).line (pa / 128)).poison.getLsbD (pa % 128 / 32) then some (0, pa / 32 * 32) else none
  | .slice pa => if (s.slice (pa / 128)).poison.getLsbD (pa % 128 / 32) then some (0, pa / 32 * 32) else none
  | .array pa => if s.arrPoison.contains (pa / 32) then some (0, pa / 32 * 32) else none
  | .reg core mt p word => pool core (((mt * (s.core core).info.p) + p) * 512 + 8 * word) 1
  | .scratch core a => pool core ((s.core core).scrBase + a / 8 * 8) 2
  | .acc core a => pool core ((s.core core).accBase + a / 8 * 8) 3
  | .talus core mt a => pool core ((s.core core).talusAt mt (a / 8 * 8)) 4
  | .link core mt a => if (((s.core core).mt mt).fifo[a / 512]?).any (fun v => v.poison.getLsbD (a % 512 / 8))
      then some (5, (Config.linkGranule core mt (a / 8)).toNat) else none
  | .lodeLine _ _ => none
  | .span _ _ _ => none

/-- The convoy of a micro-thread that has run its members: the one in flight, or, while none is, one that is held. -/
def ranConvoy (s : State) (core i : Nat) : Option Convoy :=
  let cv := if s.cv.live then some s.cv else ((s.core core).mt i).parked
  cv.filter (fun p => p.core == core && p.mt == i && p.todo.isEmpty && !p.brkArmed && decide (p.wait ≠ .issue))

/-- Whether the fault that decides for a convoy is that a member read a granule, which a record names by SUB and address (R318, R392). -/
def Convoy.consumed (cv : Convoy) (sub a : Nat) : Bool :=
  match firstFault cv.cands with
  | some r => recordKind r == kPOISON && bits (r.getD 0 0).toNat 48 8 == sub && (r.getD 2 0).toNat == a
  | none => false

/-- R392. A micro-thread whose convoy has read a poisoned granule enters poisoned-stop, no earlier check having failed. -/
def execPoisonConsume (loc : Place) (s : State) : Out :=
  match poisonAt s loc, ranConvoy s s.here.core s.here.idx with
  | some (sub, a), some cv => if cv.consumed sub a then execConvoyFault { s with cv := cv } else .next s
  | _, _ => .next s

end Sys2Proof.Machine
end

