-- ==== Sys2Proof/Machine/Engine.lean ====
section
/-! DEFINITION. The engine words of a micro-thread, majors 0x34 to 0x37 (R340 to R362): what they capture and enqueue, the tensor
table, the accumulator access forms, and the waits on completion counts. -/

namespace Sys2Proof.Machine

/-! ## Grants (R348, R349) -/

/-- A request rounded up to whole slabs, at most 128 rows. -/
def roundRows (x : Nat) : Nat := (min x 128 + 31) / 32 * 32

/-- R348. The grant is settled when the convoy retires; a later member reads what it would be now. -/
def execMattach (c : Bool) (a : GName) (s : State) : Out :=
  asMember s (.mattach c a) (fun s =>
    let q := roundRows (s.cv.rg a).toNat
    let g := grantOf s s.cv.core s.cv.work.mgr.toNat q
    (enqueue s 1 .mattach 0).modCv (fun cv => { cv with attach := some q, work := { cv.work with mgr := BitVec.ofNat 32 g } }))

/-- R349. -/
def execMdetach (c : Bool) (s : State) : Out :=
  asMember s (.mdetach c) (fun s =>
    (enqueue s 1 (.mdetach (s.cv.work.mgr.toNat / 32)) 0).modCv (fun cv => { cv with work := { cv.work with mgr := 0 } }))

/-- R353. -/
def execMzero (c : Bool) (z : ZName) (s : State) : Out := asMember s (.mzero c z) (fun s => enqueue s 1 (.mzero z) 0)

/-! ## The tensor table (R346, R347) -/

/-- R346. Four 64-bit elements of a vector load; a malformed descriptor is kind 12. -/
def execTdef (c : Bool) (t : TName) (a : GName) (s : State) : Out :=
  asMember s (.tdef c t a) (fun s =>
    let va := (s.cv.rg a).toNat
    if va % 32 ≠ 0 then misaligned s va
    else
      match loadElems s ((upto 4).map (fun k => (k, va + 8 * k))) 8 with
      | (none, s) => s
      | (some vals, s) =>
        let w (k : Nat) : Word64 := BitVec.ofNat 64 (tget 0 vals k)
        let d : TDesc := ⟨w 0, w 1, w 2, w 3⟩
        if d.malformed then addFault s phRetire kDESC 0 s.cv.wordAt [va, (w 0).toNat, (w 1).toNat, (w 2).toNat, (w 3).toNat]
        else s.modCv (fun cv => cv.stageTens t d))

/-- R347. -/
def execTget (c : Bool) (d : GName) (t : TName) (w : BitVec 2) (s : State) : Out :=
  asMember s (.tget c d t w) (fun s =>
    let x := (seeTens s t).word w.toNat
    s.modCv (fun cv => cv.wg d x))

/-! ## Queue control (R361, R362) -/

/-- R361. The markers of one `qfence` share an identity, by which they complete together (R132). -/
def execQfence (c : Bool) (set : BitVec 6) (s : State) : Out :=
  asMember s (.qfence c set) (fun s =>
    let id := s.markers
    let qs := (upto 6).filter (fun q => set.getLsbD q)
    qs.foldl (fun s q => enqueue s q (.marker id set.toNat) 0) { s with markers := id + 1 })

/-- The completion count of a queue. -/
def countOf (s : State) (q : Nat) : Word32 := ((s.core s.cv.core).queue q).count

/-- R362. A micro-thread that waits here has code 3, as one of the waits of R174 has (R147, log 28). -/
def execQwait (c : Bool) (q : QName) (a : GName) (s : State) : Out :=
  asWaiter s (.qwait c q a) 3 id (fun s => (countOf s q.toNat - (s.cv.rg a).setWidth 32).getLsbD 31)

/-- R362. -/
def execQcnt (c : Bool) (d : GName) (q : QName) (s : State) : Out :=
  asMember s (.qcnt c d q) (fun s =>
    let n := countOf s q.toNat
    s.modCv (fun cv => cv.wg d (n.setWidth 64)))

/-! ## Commands (R350, R351, R355 to R358) -/

/-- KC of the operand block (R350). -/
def mmacK (ext : Option (BitVec 21)) : Nat :=
  match ext with
  | some e => bits e.toNat 0 14
  | none => 0

/-- R351. -/
def execMmac (c : Bool) (z : ZName) (ta tb : TName) (idx : Bool) (tc : TChoice) (sat : Bool) (s : State) : Out :=
  asMember s (.mmac c z ta tb idx tc sat) (fun s =>
    let a := seeTens s ta
    let b := seeTens s tb
    let m := s.cv.elems
    let x := s.cv.rv (mmacIdx s.cv.pfx.ext)
    let rows := if idx then some ((upto m).map (fun i => elem x 16 i)) else none
    enqueue s 1 (.mmac z ta a b rows m (mmacK s.cv.pfx.ext) (b.tBit tc) sat s.cv.work.mgr.toNat) 0)

/-- R355. -/
def execCpy (c : Bool) (d a : TName) (b : GName) (s : State) : Out :=
  asMember s (.cpy c d a b) (fun s => enqueue s 0 (.cpy (seeTens s d) (seeTens s a)) (s.cv.rg b))

/-- R356. -/
def execGath (c : Bool) (d a : TName) (b : GName) (s : State) : Out :=
  asMember s (.gath c d a b) (fun s => enqueue s 2 (.gath (seeTens s d) (seeTens s a)) (s.cv.rg b))

/-- R356. -/
def execScat (c : Bool) (d a : TName) (b : GName) (s : State) : Out :=
  asMember s (.scat c d a b) (fun s => enqueue s 2 (.scat (seeTens s d) (seeTens s a)) (s.cv.rg b))

/-- R357. -/
def execColl (c : Bool) (d a : TName) (b : GName) (s : State) : Out :=
  asMember s (.coll c d a b) (fun s => enqueue s 3 (.coll (seeTens s d) (seeTens s a)) (s.cv.rg b))

/-- R358. -/
def execBank (c : Bool) (a b : GName) (s : State) : Out :=
  asMember s (.bank c a b) (fun s => enqueue s 4 (.bank (s.cv.rg a) (s.cv.rg b)) (s.cv.rg a))

/-! ## Accumulator access (R354) -/

/-- The place of element (r, j) of a tile among the accumulator's 32-bit elements (R58). -/
def accIdx (z r j : Nat) : Nat := z * 8192 + r * 256 + j

/-- An accumulator element as the running member reads it: an earlier member's, or the partition's. -/
def seeAcc (s : State) (i : Nat) : Word32 :=
  match s.cv.accw.reverse.find? (fun e => e.1 == i) with
  | some e => e.2
  | none => tget 0 (s.core s.cv.core).acc i

/-- The poison fault of a read of accumulator elements. -/
def accPoison (s : State) (is : List Nat) : State :=
  let c := s.core s.cv.core
  if c.poolPoison.isEmpty then s else
  match is.find? (fun i => c.poolPoison.contains (c.accBase + i / 2 * 8)) with
  | some i => poisonFault s 3 (c.accBase + i / 2 * 8)
  | none => s

/-- `n` 32-bit elements of vd from accumulator elements, or 0 where `on` fails; the bits above them stay. -/
def accRead (s : State) (d : VName) (n : Nat) (on : Bool) (f : Nat → Nat) : State :=
  let vals := (upto n).map (fun i => if on then seeAcc s (f i) else 0)
  let s := if on then accPoison s ((upto n).map f) else s
  s.modCv (fun cv => cv.putV d ((upto n).foldl (fun o i => o.put 32 i ((vals.getD i 0).toNat, 0)) { val := cv.rv d }))

/-- `n` accumulator elements from the 32-bit elements of vd, where `on` holds. -/
def accWrite (s : State) (v : VName) (n : Nat) (on : Bool) (f : Nat → Nat) : State :=
  let x := s.cv.rv v
  if on then s.modCv (fun cv => { cv with accw := cv.accw ++ (upto n).map (fun i => (f i, BitVec.ofNat 32 (elem x 32 i))) }) else s

/-- R354. -/
def execVzrd (c : Bool) (v : VName) (z : ZName) (b : GName) (hi : Bool) (s : State) : Out :=
  asMember s (.vzrd c v z b hi) (fun s =>
    let x := (s.cv.rg b).toNat
    accRead s v 128 (decide (x < 32)) (fun i => accIdx z.toNat x ((if hi then 128 else 0) + i)))

/-- R354. -/
def execVzwr (c : Bool) (v : VName) (z : ZName) (b : GName) (hi : Bool) (s : State) : Out :=
  asMember s (.vzwr c v z b hi) (fun s =>
    let x := (s.cv.rg b).toNat
    accWrite s v 128 (decide (x < 32)) (fun i => accIdx z.toNat x ((if hi then 128 else 0) + i)))

/-- R354. -/
def execVzcrd (c : Bool) (v : VName) (z : ZName) (b : GName) (s : State) : Out :=
  asMember s (.vzcrd c v z b) (fun s =>
    let x := (s.cv.rg b).toNat
    accRead s v 32 (decide (x < 256)) (fun r => accIdx z.toNat r x))

/-- R354. -/
def execVzcwr (c : Bool) (v : VName) (z : ZName) (b : GName) (s : State) : Out :=
  asMember s (.vzcwr c v z b) (fun s =>
    let x := (s.cv.rg b).toNat
    accWrite s v 32 (decide (x < 256)) (fun r => accIdx z.toNat r x))

end Sys2Proof.Machine
end

