-- ==== Sys2Proof/Machine/Queue.lean ====
section
/-! DEFINITION. The queues' side of the engines: which entry starts, refusals and their records (R39, R343, R383), an engine's reads
and writes of the live image and the scratchpad (R96, R135, R391), and the copy and gather-scatter engines (R355, R356). -/

namespace Sys2Proof.Machine

/-! ## Entries -/

/-- The entry at the head of a queue that its engine starts next (R131): not a marker, and not held by an error, a debug halt or
a release still to come. A halt does not hold q3 (R142). -/
def startable (c : Core) (q : Nat) : Option Entry :=
  let k := c.queue q
  if k.held || k.timeout || c.stopping || (c.halted && q != 3) then none
  else match k.entries with
    | e :: _ => if e.started then none else match e.cmd with
      | .marker _ _ => none
      | _ => some e
    | [] => none

/-- The entry at the head of a queue, once started. -/
def running (c : Core) (q : Nat) : Option Entry :=
  match (c.queue q).entries with
  | e :: _ => if e.started then some e else none
  | [] => none

/-- The head entry replaced. -/
def setHead (s : State) (core q : Nat) (e : Entry) : State :=
  s.modCore core (fun c => c.setQueue q { c.queue q with entries := e :: (c.queue q).entries.drop 1 })

/-- The engine record of an entry that ends in an error (R383); `spans` is the record of R39 for error 1. -/
def engineRecord (e : Entry) (err : Nat) (spans : List Nat) : List Word64 :=
  let body : List Nat :=
    if err = 1 then spans
    else match e.cmd with
      | .bank blk count => [blk.toNat, count.toNat]
      | _ => [e.opnd.toNat]
  let w1 := e.word.toNat + e.who * 2 ^ 32
  (((20 * 2 ^ 56 + err * 2 ^ 48) :: w1 :: body).map (BitVec.ofNat 64) ++ List.replicate 20 0).take 20

/-- An entry that has nothing left to do but to complete: the lines it read stale are counted, now and not read by read (R91, log
55), and what it held for its work goes. -/
def endWork (s : State) (core q : Nat) (e : Entry) : State :=
  setHead (addStale s core e.stales.length) core q
    { e with started := true, work := false, rd := [], wr := [], got := [], peers := [], stales := [], absR := [], absW := [] }

/-- An entry refused at its start moves nothing and completes with its error (R343). -/
def refuse (s : State) (core q : Nat) (e : Entry) (err : Nat) (spans : List Nat) : State :=
  endWork s core q { e with err := err, rec_ := engineRecord e err spans }

/-- The span record of R39 for an entry: ACC 0 when only reads refuse, 1 when only writes do, 2 for both. -/
def entrySpans (s : State) (core : Nat) (e : Entry) (acc : Nat) (bad : List (Nat × XCause)) : List Nat :=
  spanBody (s.ctxOf core) acc e.head (bad.map (fun b => (0, b.1, b.2))) false

/-- ACC of that record: 0 where only reads were refused, 1 where only writes were, 2 for both. A span that an entry both reads and writes, and
that lacks W alone, has refused a write: 1 (log 21). -/
def accOf (reads writes : Bool) : Nat := if !writes then 0 else if reads then 2 else 1

/-- An entry whose spans were refused, or whose reads and writes another node refused: error 1 with the record of R39. A lookup that
ended in UNST logs its event (R31). -/
def refuseSpans (s : State) (core q : Nat) (e : Entry) (acc : Nat) (bad : List (Nat × XCause)) : State :=
  refuse (logUnst s core bad) core q e 1 (entrySpans s core e acc bad)

/-! ## Translation -/

/-- The spans of VAs, each once, as the VA of its start. -/
def spansOf (vas : List Nat) : List Nat := (vas.foldl (fun l a => keyIn (a % 2 ^ 64 / spanBytes) l) []).map (fun n => n * spanBytes)

/-- Spans translated for a need: where each lies, and those refused. -/
def xlatSpans (s : State) (core : Nat) (need : Need) (spans : List Nat) : List (Nat × Xlat) × List (Nat × XCause) :=
  let r := spans.map (fun a => (a, spanXlat s (dieOf core) (s.ctxOf core) a need))
  (r.filterMap (fun q => match q.2 with
    | .ok x => some (q.1 / spanBytes, x)
    | .error _ => none),
   r.filterMap (fun q => match q.2 with
    | .ok _ => none
    | .error c => some (q.1, c)))

/-- The span entries a command holds translations of (R34, R39). -/
def spanKeys (s : State) (core : Nat) (m : List (Nat × Xlat)) : List Nat :=
  m.map (fun e => spanKey (dieOf core) (s.ctxOf core) e.1)

/-- A VA in translated spans. -/
def inSpans (m : List (Nat × Xlat)) (va : Nat) : Option Xlat :=
  let va := va % 2 ^ 64
  match m.find? (fun e => e.1 == va / spanBytes) with
  | some (_, x) => some { x with pa := x.pa + va % spanBytes }
  | none => none

/-! ## Reads and writes of an engine -/

/-- `n` free bytes, as a number (log 10). -/
def drawBytes (s : State) (n : Nat) : Nat × State :=
  let (v, s) := (upto ((n + 7) / 8)).foldl (fun (r : Nat × State) k =>
    let (w, s) := r.2.draw
    (r.1 + w.toNat * 2 ^ (64 * k), s)) (0, s)
  (v % 2 ^ (8 * n), s)

/-- Whether another node answers an access with an error, as it always does where no port is up (R14, R398, log 10). -/
def farError (s : State) : Bool × State := (s.ports == 0 || Config.accessError s.fresh, { s with fresh := s.fresh + 1 })

/-- Bytes of the live image within one span at the home slices, as an engine reads them (R96): the value, poison, and the entry with the
lines read stale and the VAs refused; what another node returns is free, also where it refuses (log 10). -/
def engRead (s : State) (e : Entry) (va n : Nat) : Nat × Bool × Entry × State :=
  match inSpans e.mr va with
  | none => (0, false, e, s)
  | some x =>
    match x.dev with
    | some _ =>
      let (bad, s) := farError s
      let pz := Config.remotePoison s.fresh
      let (v, s) := drawBytes s n
      (v, pz, if bad then { e with absR := e.absR ++ [va] } else e, s)
    | none =>
      let (v, st, pz, s) := homeRead (closeRange s x.pa n) x.pa n
      (v, pz, { e with stales := st.foldl (fun l x => insertNew x l) e.stales }, s)

/-- Granules that an engine's output has poisoned count in POISN of a die's block (R395, log 50). -/
def poisonedBy (s : State) (die : Nat) (pas : List Nat) : State := pas.foldl (fun s pa => countDie s die 0x20 pa) s

/-- The pool words that are poisoned in a core and were not before. -/
def newPoison (old new : Core) : List Nat := new.poolPoison.filter (fun o => !old.poolPoison.contains o)

/-- A core that an engine has written to: the words of its pool that it poisoned are counted. -/
def setEngine (s : State) (core : Nat) (c : Core) : State :=
  poisonedBy (s.setCore core c) (dieOf core) ((newPoison (s.core core) c).map (fun _ => 0))

/-- Bytes an engine will write, by address: the value, the bits of it that are written, and whether it carries poison. -/
abbrev OutBytes := Tab (Nat × Nat × Bool)

/-- A value of `w` bits put at a bit address; a later value replaces the bits of an earlier one. -/
def putBits (o : OutBytes) (at_ w v : Nat) (pz : Bool) : OutBytes :=
  (upto ((at_ % 8 + w + 7) / 8)).foldl (fun o k =>
    let a := at_ / 8 + k
    let (v0, m0, p0) := tget (0, 0, false) o a
    let sh := v * 2 ^ (at_ % 8) / 2 ^ (8 * k) % 256
    let m := (2 ^ w - 1) * 2 ^ (at_ % 8) / 2 ^ (8 * k) % 256
    tset (0, 0, false) o a ((v0 &&& (255 - m)) ||| sh, m0 ||| m, p0 || pz)) o

/-- Bytes written to this device's home slices, each line as one write (R67, R135): bits that are not written keep their values,
and a sector carries poison that its new bytes or the bits it keeps carry (R391). -/
def engWrite (s : State) (o : OutBytes) : State :=
  let lines := o.foldl (fun l e => keyIn (e.1 / 128) l) []
  lines.foldl (fun s line =>
    let mine := o.filter (fun e => e.1 / 128 == line)
    let s := closeLine s line
    let part := mine.any (fun e => e.2.2.1 != 255)
    let s := if part then sliceFill s line (sectorsOf (mine.foldl (fun m e => m ||| onesAt 128 (e.1 % 128) 1) 0)) else s
    let l := s.slice line
    let (data, mask, pz) := mine.foldl (fun (r : LineData × LineMask × BitVec 4) e =>
      let (d, m, p) := r
      let i := e.1 % 128
      let old := (l.data.extractLsb' (8 * i) 8).toNat
      let v := (old &&& (255 - e.2.2.1)) ||| (e.2.1 &&& e.2.2.1)
      let bad := e.2.2.2 || (e.2.2.1 != 255 && l.poison.getLsbD (i / 32))
      (bvMerge d (BitVec.ofNat 1024 (v * 2 ^ (8 * i))) (onesAt 1024 (8 * i) 8), m ||| onesAt 128 i 1, if bad then p ||| onesAt 4 (i / 32) 1 else p))
      (0, 0, 0)
    let whole := (upto 4).foldl (fun a k => if mask.extractLsb' (32 * k) 32 = BitVec.allOnes 32 then a else a ||| (l.poison &&& onesAt 4 k 1)) (0 : BitVec 4)
    let s := sliceWrite s line mask data .other (pz ||| whole) none
    poisonedBy s (homeDie s (128 * line)) (((upto 4).filter (fun k => (pz &&& ~~~l.poison).getLsbD k)).map (fun k => 128 * line + 32 * k))) s

/-- Bytes written to a core's scratchpad (R111), 8-byte words carrying and clearing poison. -/
def scrWrite (c : Core) (o : OutBytes) : Core :=
  let scratch := o.foldl (fun t e =>
    let old := (tget 0 t e.1).toNat
    tset 0 t e.1 (BitVec.ofNat 8 ((old &&& (255 - e.2.2.1)) ||| (e.2.1 &&& e.2.2.1)))) c.scratch
  let words := o.foldl (fun l e => keyIn (e.1 / 8) l) []
  let pz := words.foldl (fun p w =>
    let off := c.scrBase + 8 * w
    let mine := o.filter (fun e => e.1 / 8 == w)
    let full := mine.length == 8 && mine.all (fun e => e.2.2.1 == 255)
    let bad := mine.any (fun e => e.2.2.2)
    if bad then keyIn off p else if full then keyOut off p else p) c.poolPoison
  { c with scratch := scratch, poolPoison := pz }

/-- Scratchpad bytes read by an engine, and whether a word was poisoned. -/
def scrRead (c : Core) (a n : Nat) : Nat × Bool :=
  (leNat (trange 0 c.scratch a n),
    c.poolPoison.any (fun o => decide (c.scrBase + a / 8 * 8 ≤ o) && decide (o < c.scrBase + a + n)))

/-! ## Tensors as an engine walks them (R344, R355) -/

/-- The bit address of element e: row-major over the dimensions, or the transposed order of R54 on a rank-2 scratchpad side. -/
def elemBit (t : TDesc) (tb : Bool) (e : Nat) : Int :=
  let (_, sum) :=
    if t.scratch && t.rank == 2 && tb then
      (0, ((e / t.dim 1 : Nat) : Int) * t.stride 0 + ((e % t.dim 1 : Nat) : Int) * t.stride 1)
    else (upto t.rank).foldl (fun (r : Nat × Int) j => (r.1 / t.dim j, r.2 + ((r.1 % t.dim j : Nat) : Int) * t.stride j)) (e, 0)
  (t.base : Int) * 8 + sum * t.width

/-- The first byte of an element and how many it touches. -/
def bitBytes (b : Int) (w : Nat) : Int × Nat := (b / 8, ((b % 8).toNat + w + 7) / 8)

/-- Whether bit addresses of elements leave a core's scratchpad (R51). -/
def outOfScr (c : Core) (bits_ : List Int) (w : Nat) : Bool := bits_.any (fun b => decide (b < 0) || decide (((c.scrBytes * 8 : Nat) : Int) < b + w))

/-- The VAs of the first and last bytes of elements. -/
def vasOf (bits_ : List Int) (w : Nat) : List Nat :=
  (bits_.map (fun b => let (a, n) := bitBytes b w; [wrapW 64 a, wrapW 64 (a + (n : Int) - 1)])).flatten

/-- A descriptor an engine accepts: STAT in the table is no part of what R345 judges. -/
def TDesc.refused (t : TDesc) : Bool := ({ t with w0 := t.w0 &&& 0x07FFFFFFFFFFFFFF } : TDesc).malformed

/-! ## Units (R135): a 32-byte sector of the live image, or an 8-byte word of the scratchpad -/

/-- The bytes of a unit. -/
def TDesc.unit (t : TDesc) : Nat := if t.scratch then 8 else 32

/-- Where a byte address lies: in the scratchpad, or as a VA. -/
def TDesc.at_ (t : TDesc) (a : Int) : Nat := if t.scratch then a.toNat else wrapW 64 a

/-- The units that the element at a bit address touches. -/
def TDesc.units (t : TDesc) (b : Int) : List Nat :=
  let (a, n) := bitBytes b t.width
  keyIn (t.at_ (a + (n : Int) - 1) / t.unit) [t.at_ a / t.unit]

/-- The units that elements touch. -/
def unitsOf (t : TDesc) (bits_ : List Int) : List Nat := bits_.foldl (fun l b => (t.units b).foldl (fun l u => keyIn u l) l) []

/-- An entry reads a unit of a tensor, at one moment (R96, R135). -/
def readUnit (s : State) (core : Nat) (t : TDesc) (e : Entry) (u : Nat) : Entry × State :=
  let e := { e with rd := keyOut u e.rd }
  if t.scratch then ({ e with got := tset (0, false) e.got u (scrRead (s.core core) (8 * u) 8) }, s)
  else
    let (v, pz, e, s) := engRead s e (32 * u) 32
    ({ e with got := tset (0, false) e.got u (v, pz) }, s)

/-- An entry reads every unit it has still to read. -/
def readUnits (s : State) (core : Nat) (t : TDesc) (e : Entry) : Entry × State := e.rd.foldl (fun r u => readUnit r.2 core t r.1 u) (e, s)

/-- An element's bits and poison, from the units read. -/
def gotElem (t : TDesc) (got : Tab (Nat × Bool)) (b : Int) : Nat × Bool :=
  let (a, n) := bitBytes b t.width
  let v := (upto n).foldl (fun (v k : Nat) =>
    let x := t.at_ (a + (k : Int))
    v + bits (tget (0, false) got (x / t.unit)).1 (8 * (x % t.unit)) 8 * 2 ^ (8 * k)) 0
  (bits v (b % 8).toNat t.width, (t.units b).any (fun u => (tget (0, false) got u).2))

/-- An element's bits put at its place in a destination. -/
def putAt (d : TDesc) (o : OutBytes) (b : Int) (v : Nat) (pz : Bool) : OutBytes :=
  putBits o (d.at_ (b / 8) * 8 + (b % 8).toNat) d.width v pz

/-- Written bytes over a scratchpad word and its poison (R391). -/
def overWord (o : OutBytes) (w : Nat) (x : Nat × Bool) : Nat × Bool :=
  let mine := (upto 8).map (fun k => tget (0, 0, false) o (8 * w + k))
  let v := leNat ((mine.zip (upto 8)).map (fun p => BitVec.ofNat 8 ((bits x.1 (8 * p.2) 8 &&& (255 - p.1.2.1)) ||| (p.1.1 &&& p.1.2.1))))
  (v, mine.any (fun p => p.2.2) || (x.2 && !mine.all (fun p => p.2.1 == 255)))

/-- An entry of queue q writes a unit of a destination, at one moment: a scratchpad word, a sector at this device's home slices, or one of
another node's, whose access error is gathered (R14, R135). A tagged `cpy` keeps the word as it was for tag-checked reads (R57). -/
def writeUnit (s : State) (core q : Nat) (d : TDesc) (e : Entry) (u : Nat) (o : OutBytes) : Entry × State :=
  let e := { e with wr := keyOut u e.wr }
  if d.scratch then
    let e := if e.tags.contains (u / 256) then { e with was := e.was ++ [(u, scrRead (s.core core) (8 * u) 8)] } else e
    let c := s.core core
    (e, setEngine s core (scrWrite (if q = 0 then c else c.reWas (overWord o)) o))
  else
    match inSpans e.mw (32 * u) with
    | none => (e, s)
    | some x =>
      if x.dev.isSome then
        let (bad, s) := farError s
        (if bad then { e with absW := e.absW ++ [32 * u] } else e, s)
      else (e, engWrite s (o.map (fun b => (x.pa + b.1 % 32, b.2))))

/-! ## Moves (R355, R356) -/

/-- The bit address of element k of row r of a rank-2 tensor. -/
def rowBit (t : TDesc) (r k : Nat) : Int := (t.base : Int) * 8 + ((r : Int) * t.stride 1 + (k : Int) * t.stride 0) * t.width

/-- The T choice of a `cpy`'s operand word. -/
def cpyT (x : Nat) : TChoice := TChoice.ofCode (BitVec.ofNat 2 (bits x 9 2))

/-- A moving entry's destination, its source, and the bit addresses of each element, none for a zero, in the order that decides where two
go to one byte (R135, R355, R356). -/
def movePairs (e : Entry) : TDesc × TDesc × List (Option Int × Int) :=
  let rows (t dense : TDesc) (f : Nat → Nat → Nat → Option Int × Int) : List (Option Int × Int) :=
    ((upto e.list.length).map (fun i => (upto (min (t.dim 0) (dense.dim 0))).map (fun j => f i (e.list.getD i 0) j))).flatten
  match e.cmd with
  | .cpy d a =>
    let tc := cpyT e.opnd.toNat
    (d, a, (upto d.count).map (fun i => (some (elemBit a (a.tBit tc) i), elemBit d (d.tBit tc) i)))
  | .gath d a => (d, a, rows a d (fun i r j => (if r < a.dim 1 then some (rowBit a r j) else none, rowBit d i j)))
  | .scat d a => (d, a, (rows d a (fun i r j => (if r < d.dim 1 then some (rowBit a i j) else none, rowBit d r j))).filter (fun p => p.1.isSome))
  | _ => ({}, {}, [])

/-- Whether another node refused a part of a pair's source (R14). -/
def Entry.lost (e : Entry) (a : TDesc) (p : Option Int × Int) : Bool :=
  match p.1 with
  | some b => !a.scratch && (a.units b).any (fun u => e.absR.contains (32 * u))
  | none => false

/-- A moving entry writes a unit: the source units of its elements that are still unread are read first, and elements whose source another
node refused are left out. -/
def moveUnit (s : State) (core q : Nat) (e : Entry) (u : Nat) : Entry × State :=
  let (d, a, ps) := movePairs e
  let mine := ps.filter (fun p => (d.units p.2).contains u)
  let (e, s) := ((unitsOf a (mine.filterMap Prod.fst)).filter (fun k => e.rd.contains k)).foldl (fun r k => readUnit r.2 core a r.1 k) (e, s)
  let o := (mine.filter (fun p => !e.lost a p)).foldl (fun (o : OutBytes) p =>
    let (v, pz) := match p.1 with
      | some b => gotElem a e.got b
      | none => (0, false)
    putAt d o p.2 v (pz || e.pz)) []
  writeUnit s core q d e u (o.filter (fun b => b.1 / d.unit == u))

/-- The end of a moving entry's work, once every unit is written: an access error is error 1, and slots that it kept a part from keep their
tags (R14, R55, R57). -/
def moveEnd (s : State) (core q : Nat) (e : Entry) : State :=
  if !e.work || !e.wr.isEmpty || !e.rd.isEmpty then setHead s core q e
  else if e.absR.isEmpty && e.absW.isEmpty then endWork s core q e
  else
    let (d, a, ps) := movePairs e
    let short := unitsOf d ((ps.filter (fun p => e.lost a p)).map Prod.snd)
    refuseSpans s core q { e with tags := e.tags.filter (fun t => !short.any (fun u => u / 256 == t)) }
      (accOf (!e.absR.isEmpty) (!e.absW.isEmpty)) ((e.absR ++ e.absW).map (fun a => (a, XCause.abs)))

/-- A moving entry's turn: everything that is left (`sub` = 0), the source unit at an address (1), or the destination unit there (2)
(R135, log 29). -/
def moveTurn (s : State) (core q : Nat) (e : Entry) (sub at_ : Nat) : State :=
  let (d, a, _) := movePairs e
  let (e, s) := if sub = 0 then
      let (e, s) := readUnits s core a e
      e.wr.foldl (fun r u => moveUnit r.2 core q r.1 u) (e, s)
    else if sub = 1 then (if e.rd.contains (at_ / a.unit) then readUnit s core a e (at_ / a.unit) else (e, s))
    else if e.wr.contains (at_ / d.unit) then moveUnit s core q e (at_ / d.unit) else (e, s)
  moveEnd s core q e

/-- An entry that has translated its spans begins to move its elements (R39). -/
def moveStart (s : State) (core q : Nat) (e : Entry) (mr mw : List (Nat × Xlat)) : State :=
  let e := { e with started := true, work := true, mr := mr, mw := mw, held := spanKeys s core (mr ++ mw) }
  let (d, a, ps) := movePairs e
  moveEnd s core q { e with rd := unitsOf a (ps.filterMap Prod.fst), wr := unitsOf d (ps.map Prod.snd) }

/-- The event of an engine's queue: an entry that can start does, and a running one goes on; with `here.sub` = 0 one event does both. -/
def entryEvent (s : State) (q : Nat) (start : Entry → State) (turn : State → Entry → State) : State :=
  let core := s.here.core
  let goOn (s : State) : State := match running (s.core core) q with
    | some e => if e.work then turn s e else s
    | none => s
  match startable (s.core core) q with
  | some e => if s.here.sub = 0 then goOn (start e) else start e
  | none => goOn s

/-! ## cpy (R355) -/

/-- Slots of elements written to the scratchpad. -/
def slotsWritten (bits_ : List Int) (w : Nat) : List Nat :=
  bits_.foldl (fun (l : List Nat) (b : Int) => keyIn (((b + w - 1) / 16384).toNat) (keyIn ((b / 16384).toNat) l)) []

/-- The operand word's refusals, and those of the descriptors (R355). -/
def cpyBad (d a : TDesc) (x : Nat) : Bool :=
  bits x 11 53 != 0 || bits x 9 2 == 1 || d.refused || a.refused || d.count != a.count || d.fmt != a.fmt || (bit x 8 && !d.scratch)

/-- R355. -/
def runCpy (s : State) (core : Nat) (e : Entry) (d a : TDesc) : State :=
  let x := e.opnd.toNat
  if cpyBad d a x then refuse s core 0 e 2 []
  else
    let (_, _, ps) := movePairs e
    let src := ps.filterMap Prod.fst
    let dst := ps.map Prod.snd
    let c := s.core core
    if (a.scratch && outOfScr c src a.width) || (d.scratch && outOfScr c dst d.width) then refuse s core 0 e 3 []
    else
      let (mr, br) := xlatSpans s core { r := true } (if a.scratch then [] else spansOf (vasOf src a.width))
      let (mw, bw) := xlatSpans s core { w := true } (if d.scratch then [] else spansOf (vasOf dst d.width))
      if br.isEmpty && bw.isEmpty then moveStart s core 0 { e with tags := if bit x 8 then slotsWritten dst d.width else [] } mr mw
      else refuseSpans s core 0 e (accOf (!br.isEmpty) (!bw.isEmpty)) (br ++ bw)

/-- R355. The copy engine starts the entry at the head of q0, or moves its elements: all that are left, or a unit (R135); tags follow
slot by slot. -/
def execCpyEntry (s : State) : Out :=
  let core := s.here.core
  .next (entryEvent s 0 (fun e => match e.cmd with
    | .cpy d a => runCpy s core e d a
    | _ => s) (fun s e => moveTurn s core 0 e s.here.sub s.here.pa))

/-- R55, R57, R417. The slot `here.idx` takes its tag with its part of the copy done, and tag-checked reads see that part with the tag; those
that wait for a tag are checked again. -/
def execTagSet (s : State) : Out :=
  let core := s.here.core
  let slot := s.here.idx
  match running (s.core core) 0 with
  | some e =>
    if !e.tags.contains slot then .next s else
    let (e, s) := (e.wr.filter (fun u => u / 256 == slot)).foldl (fun r u => moveUnit r.2 core 0 r.1 u) (e, s)
    let s := moveEnd s core 0 { e with was := e.was.filter (fun w => w.1 / 256 != slot) }
    match running (s.core core) 0 with
    | some e =>
      if e.tags.contains slot then
        .next ((setHead s core 0 { e with tags := keyOut slot e.tags }).modCore core (fun c => { c with
          tags := tset 0 c.tags slot (BitVec.ofNat 8 e.opnd.toNat) }))
      else .next s
    | none => .next s
  | none => .next s

/-! ## gath and scat (R356) -/

/-- The refusals of R356: `table` is the side that is indexed. -/
def gatherBad (table dense : TDesc) (x : Nat) : Bool :=
  let c := bits x 48 16
  table.refused || dense.refused || table.rank != 2 || dense.rank != 2 || table.fmt != dense.fmt || table.dim 0 != dense.dim 0 ||
    c == 0 || decide (dense.dim 1 < c) || bits x 0 48 % 4 != 0

/-- An entry whose index list has been read, or cannot be: its rows are translated whole before any element moves. A list that another node
refused is error 1, and names no rows (R14). -/
def judgeGather (s : State) (core : Nat) (e : Entry) (d a : TDesc) (scat : Bool) (bl : List (Nat × XCause)) : State :=
  let (table, dense) := if scat then (d, a) else (a, d)
  let c := bits e.opnd.toNat 48 16
  let k := s.core core
  let n := table.dim 0
  let denseBits := ((upto c).map (fun i => (upto n).map (fun j => rowBit dense i j))).flatten
  let list := if e.absR.isEmpty then e.list else []
  let tableBits := ((list.filter (fun r => decide (r < table.dim 1))).map (fun r => (upto n).map (fun j => rowBit table r j))).flatten
  if e.absR.isEmpty && ((table.scratch && outOfScr k tableBits table.width) || (dense.scratch && outOfScr k denseBits dense.width)) then
    refuse s core 2 e 3 []
  else
    let (mt, bt) := xlatSpans s core (if scat then { w := true } else { r := true }) (if table.scratch then [] else spansOf (vasOf tableBits table.width))
    let (md, bd) := xlatSpans s core (if scat then { r := true } else { w := true }) (if dense.scratch then [] else spansOf (vasOf denseBits dense.width))
    let reads := bl ++ e.absR.map (fun a => (a, XCause.abs)) ++ (if scat then bd else bt)
    let writes := if scat then bt else bd
    if !reads.isEmpty || !writes.isEmpty then
      refuseSpans s core 2 e (accOf (!reads.isEmpty) (!writes.isEmpty)) (reads ++ writes)
    else moveStart s core 2 e (e.mr ++ (if scat then md else mt)) (if scat then mt else md)

/-- The index list of an entry as its sectors were read, once none is left to read. -/
def listRead (s : State) (core : Nat) (e : Entry) (d a : TDesc) (scat : Bool) : State :=
  if !e.rd.isEmpty then setHead s core 2 e else
  let va (i : Nat) : Nat := bits e.opnd.toNat 0 48 + 4 * i
  let word (i : Nat) : Nat × Bool :=
    let g := tget (0, false) e.got (va i / 32)
    (bits g.1 (8 * (va i % 32)) 32, g.2)
  let l := (upto (bits e.opnd.toNat 48 16)).map word
  judgeGather s core { e with list := l.map Prod.fst, pz := l.any Prod.snd, got := [] } d a scat []

/-- R356. The index list is translated and read first. -/
def runGather (s : State) (core : Nat) (e : Entry) (d a : TDesc) (scat : Bool) : State :=
  let x := e.opnd.toNat
  if gatherBad (if scat then d else a) (if scat then a else d) x then refuse s core 2 e 2 []
  else
    let vas := (upto (bits x 48 16)).map (fun i => bits x 0 48 + 4 * i)
    let (ml, bl) := xlatSpans s core { r := true } (spansOf vas)
    if bl.isEmpty then setHead s core 2 { e with
      started := true, work := true, mr := ml, held := spanKeys s core ml, rd := vas.foldl (fun l v => keyIn (v / 32) l) [] }
    else judgeGather s core e d a scat bl

/-- A running `gath` or `scat` reads sectors of its list, and then moves its rows. -/
def gatherTurn (s : State) (core : Nat) (e : Entry) (d a : TDesc) (scat : Bool) : State :=
  let sub := s.here.sub
  let at_ := s.here.pa
  if !e.list.isEmpty then moveTurn s core 2 e sub at_
  else if sub = 1 && e.rd.contains (at_ / 32) then
    let (e, s) := readUnit s core {} e (at_ / 32)
    listRead s core e d a scat
  else if sub = 0 then
    let (e, s) := readUnits s core {} e
    let s := listRead s core e d a scat
    match running (s.core core) 2 with
    | some e => if e.work then moveTurn s core 2 e 0 at_ else s
    | none => s
  else s

/-- R356. -/
def execGathScatEntry (s : State) : Out :=
  let core := s.here.core
  .next (entryEvent s 2 (fun e => match e.cmd with
    | .gath d a => runGather s core e d a false
    | .scat d a => runGather s core e d a true
    | _ => s) (fun s e => match e.cmd with
    | .gath d a => gatherTurn s core e d a false
    | .scat d a => gatherTurn s core e d a true
    | _ => s))

end Sys2Proof.Machine
end

