-- ==== Sys2Proof/Machine/Settle.lean ====
section
/-! DEFINITION. The settle engine (R80 to R82, R92, R97): settles, their start notices and sector writes, and renews. -/

namespace Sys2Proof.Machine

/-! ## Regions -/

/-- A line's region. -/
def lineRegion (line : Nat) : Nat := line / 512

/-- The lines of a region that a core's L1 holds. -/
def l1Lines (s : State) (core region : Nat) : List Nat := ((s.core core).l1.map Prod.fst).filter (fun l => lineRegion l == region)

/-- The lines of a region that home slices hold. -/
def sliceLines (s : State) (region : Nat) : List Nat := (s.slices.map Prod.fst).filter (fun l => lineRegion l == region)

/-- The lines of a region that wait with a batch at their home slice (R127). -/
def batchLines (s : State) (region : Nat) : List Nat :=
  (s.vrst.filter (fun p => p.batch && p.dev.isNone && lineRegion p.line == region)).map (fun p => p.line)

def lineSlice (s : State) (line : Nat) : Nat := sliceNo s (128 * line)

/-- The region an entry's VA names, where it translates at the entry's start (R39, R315). -/
def regionStart (s : State) (core : Nat) (va : Word64) : List (Nat × Xlat) × List (Nat × XCause) :=
  xlatSpans s core { r := true, w := true, localOnly := true } (spansOf [va.toNat / 65536 * 65536])

/-! ## Settles (R80) -/

/-- The bytes of a line that settles still carry to the arrays (R81). -/
def guardOf (s : State) (line : Nat) : LineMask :=
  let secs := (s.settles.map (fun st => st.sectors)).flatten
  secs.foldl (fun (m : LineMask) e => if e.1 / 4 = line then m ||| (BitVec.setWidth 128 e.2.1 <<< (32 * (e.1 % 4))) else m) 0

/-- A slice's dirty bytes of a line are copied to a settle, and lose their dirty bits. -/
def carryLine (s : State) (n : Nat) (line : Nat) : State :=
  let l := s.slice line
  if l.dirty = 0 then s else
  let secs := (upto 4).filterMap (fun k =>
    let m := l.dirty.extractLsb' (32 * k) 32
    if m = 0 then none else some (4 * line + k, m, l.data.extractLsb' (256 * k) 256, l.poison.getLsbD k))
  let s := s.setSlice line { l with dirty := 0, guarded := l.guarded ||| l.dirty }
  { s with settles := s.settles.modify n (fun st => { st with sectors := st.sectors ++ secs }) }

/-- The settle whose start notice a slice acts on next: of a region, the lowest ticket (R80). -/
def nextNotice (s : State) (region slice : Nat) : Option Nat :=
  s.settles.findIdx? (fun st => st.region == region && st.slices.contains slice)

/-- The settle whose write of a sector arrives next. -/
def nextSector (s : State) (sec : Nat) : Option Nat := s.settles.findIdx? (fun st => st.sectors.any (fun e => e.1 == sec))

/-- A settle with nothing left to do: the count home sets the settle count to its ticket when it is the next (R80). -/
def settleDone (s : State) (st : Settle) : Bool :=
  st.slices.isEmpty && st.sectors.isEmpty && (match st.ticket with
    | some k => (tget 0 s.setlc st.region).toNat + 1 == k || (k == 0 && tget 0 s.setlc st.region == BitVec.allOnes 32)
    | none => true)

/-- The first settle that is done sets its count and leaves its entry complete but for the record; then the next one, by fuel. -/
def settleFinish : Nat → State → State
  | 0, s => s
  | n + 1, s =>
    match s.settles.findIdx? (settleDone s) with
    | none => s
    | some i =>
      let st := s.settles.getD i ⟨0, 0, none, [], [], []⟩
      let s := { s with
        settles := s.settles.eraseIdx i
        setlc := match st.ticket with
          | some k => tset 0 s.setlc st.region (BitVec.ofNat 32 k)
          | none => s.setlc }
      let s := match running (s.core st.core) 5 with
        | some e => setHead s st.core 5 { e with work := false }
        | none => s
      settleFinish n s

/-- A settle's drain, ticket and start notices (R80). -/
def startSettle (s : State) (core : Nat) (e : Entry) (x : Xlat) (keys : List Nat) : State :=
  let region := regionOf x.pa
  let s := (l1Lines s core region).foldl (fun s l => writeBack s core l (BitVec.allOnes 128)) s
  let waiting := (s.settles.filter (fun st => st.region == region)).length
  let ticket := if isSram s x.pa then some (((tget 0 s.setlc region).toNat + waiting + 1) % 2 ^ 32) else none
  let slices := (sliceLines s region ++ batchLines s region).foldl (fun l line => keyIn (lineSlice s line) l) []
  let s := setHead s core 5 { e with started := true, work := true, held := keys }
  let s := { s with settles := s.settles ++ [⟨core, region, ticket, slices, [], []⟩] }
  settleFinish s.settles.length s

/-- R80. The settle engine starts the `settle` at the head of q5. -/
def execSettleEntry (s : State) : Out :=
  let core := s.here.core
  match startable (s.core core) 5 with
  | some e => match e.cmd with
    | .settle va =>
      match regionStart s core va with
      | ((n, x) :: m, []) => .next (startSettle s core e { x with pa := x.pa + va.toNat % spanBytes / 65536 * 65536 } (spanKeys s core ((n, x) :: m)))
      | (_, bad) => .next (refuseSpans s core 5 e 2 bad)
    | _ => .next s
  | none => .next s

/-- R80. The slice `here.idx` acts on the start notice of the region at `here.pa` whose turn it is: its lines' batches close (R127,
log 15), and it takes its carried set. -/
def execSettleStartNotice (s : State) : Out :=
  let region := regionOf s.here.pa
  let slice := s.here.idx
  match nextNotice s region slice with
  | none => .next s
  | some n =>
    let s := ((batchLines s region).filter (fun l => lineSlice s l == slice)).foldl closeLine s
    let s := ((sliceLines s region).filter (fun l => lineSlice s l == slice)).foldl (fun s l => carryLine s n l) s
    let s := { s with settles := s.settles.modify n (fun st => { st with slices := keyOut slice st.slices }) }
    .next (settleFinish s.settles.length s)

/-- The write of a sector that arrives next is made, a late one counted (R92), and its bytes are protected no longer (R81). -/
def sectorArrives (s : State) (sec : Nat) : State :=
  match nextSector s sec with
  | none => s
  | some n =>
    match (s.settles.getD n ⟨0, 0, none, [], [], []⟩).sectors.find? (fun e => e.1 == sec) with
    | none => s
    | some (_, mask, data, pz) =>
      let s := if mask = 0 then s else lateOnce s n (sec / 4)
      let s := arriveSector s sec mask data pz
      let s := { s with settles := s.settles.modify n (fun st => { st with sectors := st.sectors.filter (fun e => e.1 != sec) }) }
      let l := s.slice (sec / 4)
      let s := if l.live then s.setSlice (sec / 4) { l with guarded := guardOf s (sec / 4) } else s
      settleFinish s.settles.length s

/-- R80. -/
def execSettleSectorWrite (s : State) : Out := .next (sectorArrives s (s.here.pa / 32))

/-! ## Renews (R82) -/

/-- The partition a core's quad belongs to (R176). -/
def quadPart (s : State) (core : Nat) : Option Nat :=
  let q := (tget 0 s.qmap (core / 4)).toNat
  if bit q 3 then some (bits q 0 3) else none

/-- The L1s that a scope selects (R82). -/
def renewCores (s : State) (core : Nat) (sc : Scope) : List Nat :=
  match sc with
  | .mt => [core]
  | .core => [core]
  | .die => (s.cores.map Prod.fst).filter (fun c => dieOf c == dieOf core)
  | .part => (s.cores.map Prod.fst).filter (fun c => c == core || (quadPart s c).any (fun p => p == (s.core core).info.part))
  | _ => s.cores.map Prod.fst

/-- An L1 renews a region: its lines are handled as by `inval`. -/
def renewL1 (s : State) (core region : Nat) : State := (l1Lines s core region).foldl (fun s l => evictLine s core l) s

/-- A slice renews a line: clean bytes are dropped, dirty and protected ones kept. -/
def renewLine (s : State) (line : Nat) : State :=
  let l := s.slice line
  let keep := l.dirty ||| l.guarded
  s.setSlice line (if keep = 0 then {} else { l with held := keep, poison := l.poison &&& sectorsOf keep })

/-- The home slice `slice` renews its lines of a region. -/
def renewSlice (s : State) (region slice : Nat) : State :=
  ((sliceLines s region).filter (fun l => lineSlice s l == slice)).foldl renewLine s

/-- The renew of a core that has started. -/
def renewOf (s : State) (core : Nat) : Option Renew := s.renews.find? (fun r => r.core == core)

def setRenew (s : State) (r : Renew) : State := { s with renews := s.renews.map (fun x => if x.core == r.core then r else x) }

/-- Every part of a renew that has not yet acted acts (R82). -/
def renewRest (s : State) (r : Renew) : State :=
  let s := ((renewCores s r.core r.scope).filter (fun c => !r.l1s.contains c)).foldl (fun s c => renewL1 s c r.region) s
  let slices := (sliceLines s r.region).foldl (fun l line => keyIn (lineSlice s line) l) []
  (slices.filter (fun k => !r.slices.contains k)).foldl (fun s k => renewSlice s r.region k) s

/-- One part of a started renew: the L1 of core `here.idx` for `here.sub` = 0, else the home slice `here.idx`. -/
def renewPart (s : State) (r : Renew) (i sub : Nat) : State :=
  if sub = 0 then
    if (renewCores s r.core r.scope).contains i && !r.l1s.contains i then setRenew (renewL1 s i r.region) { r with l1s := keyIn i r.l1s }
    else s
  else if r.slices.contains i then s
  else setRenew (renewSlice s r.region i) { r with slices := keyIn i r.slices }

/-- R82. The settle engine starts the `renew` at the head of q5; a started one acts in one of its parts. -/
def execRenewEntry (s : State) : Out :=
  let core := s.here.core
  match renewOf s core with
  | some r => .next (renewPart s r s.here.idx s.here.sub)
  | none =>
    match startable (s.core core) 5 with
    | some e => match e.cmd with
      | .renew va scope =>
        match regionStart s core va with
        | ((n, x) :: m, []) =>
          let region := regionOf (x.pa + va.toNat % spanBytes)
          .next ({ setHead s core 5 { e with started := true, held := spanKeys s core ((n, x) :: m) } with
            renews := s.renews ++ [⟨core, region, scope, [], []⟩] })
        | (_, bad) => .next (refuseSpans s core 5 e 2 bad)
      | _ => .next s
    | none => .next s

end Sys2Proof.Machine
end

