-- ==== Sys2Proof/Machine/Bank.lean ====
section
/-! DEFINITION. The bank engine (R83 to R89, R139, R242, R358 to R360): a command's checks, its acceptance, the tile steps with
their postfix program, and the count notices. -/

namespace Sys2Proof.Machine

/-! ## The command block (R358) -/

/-- The fields of a command block. -/
structure Block where
  word : Nat
  out : Nat
  ins : List Nat
  ops : List Nat
  consts : List Nat
  last : Nat
  deriving DecidableEq, Repr

def Block.rm (b : Block) : Nat := bits b.word 58 3
def Block.eszCode (b : Block) : Nat := bits b.word 56 2
def Block.esz (b : Block) : Nat := 2 ^ b.eszCode
def Block.nin (b : Block) : Nat := bits b.word 53 3
def Block.nop (b : Block) : Nat := bits b.word 48 5
def Block.fout (b : Block) : Nat := bits b.word 25 5
def Block.fin (b : Block) (i : Nat) : Nat := bits b.word (5 + 5 * i) 5
def Block.prog (b : Block) : List Nat := b.ops.take b.nop

/-- The fields of the 96 bytes at a command's address, as one number. -/
def blockOf (x : Nat) : Block :=
  { word := bits x 0 64, out := bits x 64 64, ins := (upto 4).map (fun i => bits x (128 + 64 * i) 64),
    ops := (upto 24).map (fun i => bits x (384 + 8 * i) 8), consts := (upto 4).map (fun i => bits x (576 + 32 * i) 32), last := bits x 704 64 }

/-- A stream format of a bank command: floats are codes 0 to 4, integers 8, 9, 12, 13 and the bank's own 16 and 17. -/
def bankFmt (code : Nat) : Option NFmt :=
  match code with
  | 8 => some (.int 8 true) | 9 => some (.int 8 false) | 12 => some (.int 16 true) | 13 => some (.int 16 false)
  | 16 => some (.int 32 true) | 17 => some (.int 32 false)
  | c => if c < 5 then (fmtOf c).map NFmt.flt else none

/-- What an operator pops and pushes; none for a byte that is unassigned (R359). -/
def opArity (op : Nat) : Option (Nat × Nat) :=
  if op < 8 then some (0, 1)
  else if op < 0x0D then some (2, 1)
  else if op < 0x0F then some (1, 1)
  else if op = 0x0F then some (1, 2)
  else if op = 0x10 then some (2, 2)
  else if op = 0x11 then some (1, 0)
  else if op < 0x15 then some (2, 1)
  else if op = 0x15 then some (3, 1)
  else if op = 0x16 then some (2, 1)
  else none

/-- The depth of the stack after a program; none where it pops an empty stack or pushes a fifth entry (R86). -/
def progDepth (ops : List Nat) : Option Nat :=
  ops.foldl (fun (d : Option Nat) op =>
    match d, opArity op with
    | some d, some (p, q) => if d < p then none else if 4 < d - p + q then none else some (d - p + q)
    | _, _ => none) (some 0)

/-- The refusals that a block's fields and program meet (R86, R358, R360). -/
def blockBad (b : Block) : Bool :=
  let flt := decide (b.fout < 5)
  let badOp (op : Nat) : Bool := (opArity op).isNone || (decide (op < 4) && decide (b.nin ≤ op)) || (flt && decide (0x12 ≤ op) && decide (op < 0x15))
  let badFmt (c : Nat) : Bool := match bankFmt c with
    | some f => f.width != 8 * b.esz || f.isInt == flt
    | none => true
  bits b.word 61 3 != 0 || bits b.word 30 18 != 0 || bits b.word 0 5 != 0 || b.last != 0 || decide (5 ≤ b.rm) ||
    decide (2 ^ 48 ≤ b.out) || (upto 4).any (fun i => if i < b.nin then decide (2 ^ 48 ≤ b.ins.getD i 0) else b.ins.getD i 0 != 0) ||
    b.eszCode == 3 || decide (4 < b.nin) || b.nop == 0 || decide (24 < b.nop) ||
    badFmt b.fout || (upto b.nin).any (fun i => badFmt (b.fin i)) || b.prog.any badOp || progDepth b.prog != some 1

/-! ## Streams -/

/-- The spans of a stream below 2 TiB, with OOR where it goes on beyond (R39). -/
def streamSpans (va n : Nat) : List Nat × List (Nat × XCause) :=
  ((rangeSpans va n).map (fun p => p.1 / spanBytes * spanBytes), if 2 ^ 41 < va + n then [(2 ^ 41, XCause.oor)] else [])

/-- The PA of a VA through a command's spans. -/
def mapPa (m : List (Nat × Nat)) (va : Nat) : Nat :=
  match m.find? (fun e => e.1 == va / spanBytes) with
  | some e => e.2 + va % spanBytes
  | none => 0

/-- The die whose SRAM window a PA lies in. -/
def sramDie (s : State) (pa : Nat) : Option Nat :=
  match windowOf s pa with
  | .sram d => some d
  | _ => none

/-- An element of the output overlaps an element of an input of a different index: two spans of theirs lie in one frame, the parts of
the frame that they use meet, and there the indices differ (R86). -/
def overlaps (m : List (Nat × Nat)) (out inp n : Nat) : Bool :=
  let part (base : Nat) : List (Nat × Int × Int × Int) :=
    (rangeSpans base n).map (fun p =>
      let k := p.1 / spanBytes
      let lo : Int := ((p.1 % spanBytes : Nat) : Int)
      (mapPa m (k * spanBytes), lo, lo + p.2, ((k * spanBytes : Nat) : Int) - base))
  (part out).any (fun o => (part inp).any (fun i =>
    o.1 == i.1 && decide (max o.2.1 i.2.1 < min o.2.2.1 i.2.2.1) && o.2.2.2 != i.2.2.2))

/-- The refusals of the streams' placement (R86). -/
def placementBad (s : State) (b : Block) (m : List (Nat × Nat)) (n : Nat) : Bool :=
  let bases := b.out :: b.ins.take b.nin
  let dies := (m.map (fun e => sramDie s e.2))
  let die := sramDie s (mapPa m b.out)
  die.isNone || dies.any (fun d => d != die) || bases.any (fun v => v % b.esz != 0) ||
    bases.any (fun v => v % 0x400000 != b.out % 0x400000) || (b.ins.take b.nin).any (fun v => overlaps m b.out v n)

/-- The array tiles of the output, as tile numbers of its VA, in ascending order of array tile within each span (R83, R87). -/
def outTiles (m : List (Nat × Nat)) (out n : Nat) : List Nat :=
  let spans := (rangeSpans out n).foldl (fun (l : List (Nat × Nat × Nat)) p =>
    let x := (mapPa m (p.1 / spanBytes * spanBytes), p.1, p.2)
    l.takeWhile (fun y => decide (y.1 ≤ x.1)) ++ [x] ++ l.dropWhile (fun y => decide (y.1 ≤ x.1))) []
  (spans.map (fun x => (upto ((x.2.1 + x.2.2 - 1) / 32768 + 1 - x.2.1 / 32768)).map (fun k => x.2.1 / 32768 + k))).flatten

/-- The regions in which a command writes at least one byte (R88). -/
def outRegions (m : List (Nat × Nat)) (out n : Nat) : List Nat :=
  (upto ((out + n - 1) / 65536 + 1 - out / 65536)).foldl (fun l k => keyIn (regionOf (mapPa m ((out / 65536 + k) * 65536))) l) []

/-! ## The entry's start (R360) -/

/-- The block as its sectors were read is checked, and the streams are translated: the checks 4 to 6 of R360. -/
def judgeBank (s : State) (core : Nat) (e : Entry) (blk n : Nat) : State :=
  let sector (k : Nat) : Nat × Bool := tget (0, false) e.got (blk / 32 + k)
  let b := blockOf ((upto 3).foldl (fun x k => x + (sector k).1 * 2 ^ (256 * k)) 0)
  let pz := (upto 3).any (fun k => (sector k).2)
  if blockBad b then refuse s core 4 e 6 []
  else
    let bytes := n * b.esz
    let parts := (b.out :: b.ins.take b.nin).map (fun v => streamSpans v bytes)
    let spans := (parts.map Prod.fst).flatten.foldl (fun l a => keyIn a l) []
    let (ms, bs) := xlatSpans s core { r := true, w := true, localOnly := true } spans
    let bad := bs ++ (parts.map Prod.snd).flatten
    if !bad.isEmpty then refuseSpans s core 4 e 2 bad
    else
      let m := ms.map (fun q => (q.1, q.2.pa))
      if placementBad s b m bytes then refuse s core 4 e 6 []
      else
        let cmd : BankCmd :=
          { core := core, die := (sramDie s (mapPa m b.out)).getD 0, rm := b.rm, esz := b.esz, ops := b.prog, consts := b.consts,
            fin := (upto b.nin).map b.fin, fout := b.fout, ins := b.ins.take b.nin, out := b.out, count := n, map := m, poison := pz,
            tiles := outTiles m b.out bytes, regions := outRegions m b.out bytes }
        setHead { addStale s core e.stales.length with banks := s.banks ++ [cmd] } core 4
          { e with held := spanKeys s core (e.mr ++ ms), got := [], stales := [] }

/-- The checks 1 to 3 of R360; the bank dispatcher then reads the block. -/
def runBank (s : State) (core : Nat) (e : Entry) (blk n : Nat) : State :=
  if n = 0 then setHead s core 4 { e with started := true }
  else if blk % 32 ≠ 0 then refuse s core 4 e 6 []
  else
    let (mb, bb) := xlatSpans s core { r := true, localOnly := true } (spansOf [blk, blk + 95])
    if !bb.isEmpty then refuseSpans s core 4 e 0 bb
    else setHead s core 4 { e with
      started := true, work := true, mr := mb, held := spanKeys s core mb, rd := (upto 3).map (fun k => blk / 32 + k) }

/-- A running entry reads a sector of its block, `here.sub` − 1, or for 0 all that it has still to read; with the last it is judged
(R135, R416). -/
def bankTurn (s : State) (core : Nat) (e : Entry) (blk n : Nat) : State :=
  if e.rd.isEmpty then s else
  let u := blk / 32 + (s.here.sub - 1)
  let (e, s) := if s.here.sub = 0 then readUnits s core {} e else if e.rd.contains u then readUnit s core {} e u else (e, s)
  if e.rd.isEmpty then judgeBank s core e blk n else setHead s core 4 e

/-- R360. -/
def execBankEntry (s : State) : Out :=
  let core := s.here.core
  .next (entryEvent s 4 (fun e => match e.cmd with
    | .bank blk count => runBank s core e blk.toNat count.toNat
    | _ => s) (fun s e => match e.cmd with
    | .bank blk count => bankTurn s core e blk.toNat count.toNat
    | _ => s))

/-- R85. The streams' die accepts the command of core `here.core`; commands stand in the order they were accepted in. -/
def execBankAccept (s : State) : Out :=
  match s.banks.find? (fun b => b.core == s.here.core && !b.accepted) with
  | some b => .next { s with banks := s.banks.filter (fun x => x.core != b.core) ++ [{ b with accepted := true }] }
  | none => .next s

/-! ## Operators (R359) -/

/-- A stack entry rounded to F32 in the command's mode. -/
def bankRound (rm : RMode) (e : Exact × Nat) : Res :=
  let r := fmtF32.put e.1 rm 0
  (r.1, r.2 ||| e.2)

/-- A stream element as a stack entry: exactly, a NaN as the NaN of its kind. -/
def bankIn (f : NFmt) (x : Nat) : Nat :=
  match f with
  | .flt g =>
    if g = fmtF32 then x else match g.read x with
      | .nan s => if s then 0x7FA00000 else fmtF32.qnan
      | v => (fmtF32.put v.exact .rne 0).1
  | g => wrapW 32 (g.toInt x)

/-- A two-operand operator on floats. -/
def bankFlt2 (op : Nat) (rm : RMode) (a b : Nat) : Res :=
  let x := fmtF32.read a
  let y := fmtF32.read b
  match op with
  | 0x08 => bankRound rm (exAdd x y rm)
  | 0x09 => bankRound rm (exAdd x y.neg rm)
  | 0x0A => bankRound rm (exMul x y)
  | 0x0B => bankRound rm (exMinMax false x y)
  | 0x0C => bankRound rm (exMinMax true x y)
  | _ => if isNan x || isNan y then (0, fNV) else (if fLess false x y then 0x3F800000 else 0, 0)

/-- A two-operand operator on 32-bit integers. -/
def bankInt2 (op : Nat) (signed : Bool) (a b : Nat) : Nat :=
  let less : Bool := if signed then decide (sxt 32 a < sxt 32 b) else decide (a < b)
  match op with
  | 0x08 => (a + b) % 2 ^ 32
  | 0x09 => (a + 2 ^ 32 - b) % 2 ^ 32
  | 0x0A => a * b % 2 ^ 32
  | 0x0B => if less then a else b
  | 0x0C => if less then b else a
  | 0x12 => a &&& b
  | 0x13 => a ||| b
  | 0x14 => Nat.xor a b
  | _ => if less then 1 else 0

/-- NEG and ABS. -/
def bankOne (op : Nat) (flt signed : Bool) (rm : RMode) (a : Nat) : Res :=
  if flt then
    let x := fmtF32.read a
    bankRound rm ((if op = 0x0D then x.neg else x.abs).exact, sigNV [x])
  else if op = 0x0D then ((2 ^ 32 - a) % 2 ^ 32, 0)
  else (if signed && bit a 31 then (2 ^ 32 - a) % 2 ^ 32 else a, 0)

/-- One operator on the stack, its top first. DUP, SWAP, SEL and the constants pass a NaN on with its bits and raise nothing (log 36). -/
def bankStep (flt signed : Bool) (rm : RMode) (ins consts : List Nat) (op : Nat) (st : List Nat) : List Nat × Nat :=
  if op < 4 then (ins.getD op 0 :: st, 0)
  else if op < 8 then (consts.getD (op - 4) 0 :: st, 0)
  else
    match op, st with
    | 0x0D, a :: r => let q := bankOne op flt signed rm a; (q.1 :: r, q.2)
    | 0x0E, a :: r => let q := bankOne op flt signed rm a; (q.1 :: r, q.2)
    | 0x0F, a :: r => (a :: a :: r, 0)
    | 0x10, b :: a :: r => (a :: b :: r, 0)
    | 0x11, _ :: r => (r, 0)
    | 0x15, x :: b :: a :: r =>
      let set := if flt then x % 2 ^ 31 != 0 else x != 0
      ((if set then a else b) :: r, 0)
    | _, b :: a :: r =>
      if flt then let q := bankFlt2 op rm a b; (q.1 :: r, q.2) else (bankInt2 op signed a b :: r, 0)
    | _, r => (r, 0)

/-- The program on one element's inputs: the output's bits and the flags. -/
def bankElem (b : BankCmd) (ins : List Nat) : Res :=
  let rm := RMode.ofCode (BitVec.ofNat 3 b.rm)
  let flt := decide (b.fout < 5)
  let signed := b.fout == 8 || b.fout == 12 || b.fout == 16
  let xs := (ins.zip b.fin).map (fun p => bankIn ((bankFmt p.2).getD .bin) p.1)
  let (st, fl) := b.ops.foldl (fun (r : List Nat × Nat) op =>
    let (st, f) := bankStep flt signed rm xs b.consts op r.1
    (st, r.2 ||| f)) ([], 0)
  let top := st.headD 0
  if flt then
    let f := (fmtOf b.fout).getD fmtF32
    let v := fmtF32.read top
    let q := f.put v.exact rm 0
    (q.1, fl ||| q.2 ||| sigNV [v])
  else (top % 2 ^ (8 * b.esz), fl)

/-! ## Tile steps (R87, R139) -/

/-- The elements of a command in a tile of its output, from the tile number of the VA. -/
def tileElems (b : BankCmd) (t : Nat) : List Nat :=
  let lo := (t * 32768 - b.out) / b.esz
  let hi := min b.count (((t + 1) * 32768 - b.out) / b.esz)
  (upto (hi - lo)).map (fun k => lo + k)

/-- The array tiles that a step touches: its output's, and one of each input. -/
def stepTiles (b : BankCmd) (t : Nat) : List Nat :=
  match tileElems b t with
  | [] => []
  | n :: _ => (b.out :: b.ins).map (fun v => mapPa b.map (v + n * b.esz) / 32768)

/-- The bank of an array tile within its die. -/
def bankOf (b : BankCmd) (t : Nat) : Nat := (mapPa b.map (t * 32768) - sramBase - b.die * 0x000100000000) / 32768 % 128

/-- The bytes of the settled image at a PA, and whether a sector they lie in is poisoned. -/
def arrRead (s : State) (pa n : Nat) : Nat × Bool :=
  (leNat (trange 0 s.arrays pa n), s.arrPoison.contains (pa / 32))

/-- A step's results: each element's PA, bits, flags and poison. -/
def stepResults (s : State) (b : BankCmd) (t : Nat) : List (Nat × Nat × Nat × Bool) :=
  (tileElems b t).map (fun n =>
    let ins := b.ins.map (fun v => arrRead s (mapPa b.map (v + n * b.esz)) b.esz)
    let r := bankElem b (ins.map Prod.fst)
    (mapPa b.map (b.out + n * b.esz), r.1, r.2, b.poison || ins.any Prod.snd))

/-- The results are committed under a byte mask limited to the elements (R87); a sector written whole loses its poison. -/
def commitStep (s : State) (b : BankCmd) (out : List (Nat × Nat × Nat × Bool)) : State :=
  let arrays := out.foldl (fun m r => tsetRange 0 m r.1 (leBytes b.esz r.2.1)) s.arrays
  let secs := out.foldl (fun l r => keyIn (r.1 / 32) l) []
  let pz := secs.foldl (fun p sec =>
    let mine := out.filter (fun r => r.1 / 32 == sec)
    if mine.any (fun r => r.2.2.2) then keyIn sec p else if mine.length * b.esz = 32 then keyOut sec p else p) s.arrPoison
  poisonedBy { s with arrays := arrays, arrPoison := pz } b.die ((pz.filter (fun k => !s.arrPoison.contains k)).map (fun k => 32 * k))

/-- Every core and every home slice of the device, as places of count notices (R88). -/
def allPlaces : List Nat := upto 768

/-- A command whose last step has committed: the count home increments the regions' counts, and its notices leave (R88). -/
def bankCounted (s : State) (b : BankCmd) : State × BankCmd :=
  if b.tiles.isEmpty then
    ({ s with iwc := b.regions.foldl (fun (m : Tab (BitVec 16)) r => tset 0 m r (tget 0 m r + 1)) s.iwc }, { b with notices := allPlaces })
  else (s, b)

/-- The next step of a command at a bank, unless an earlier command has yet to step on a tile that it touches (R139). -/
def nextTile (s : State) (b : BankCmd) (bank : Nat) : Option Nat :=
  match b.tiles.find? (fun t => bankOf b t == bank) with
  | none => none
  | some t =>
    let mine := stepTiles b t
    let earlier := s.banks.takeWhile (fun x => x.core != b.core)
    if earlier.any (fun x => x.accepted && x.tiles.any (fun u => (stepTiles x u).any (fun y => mine.contains y))) then none else some t

/-- R87. Bank `here.idx` performs its next tile step of the command of core `here.core`. -/
def execTileStep (s : State) : Out :=
  match s.banks.find? (fun b => b.core == s.here.core && b.accepted) with
  | none => .next s
  | some b =>
    match nextTile s b s.here.idx with
    | none => .next s
    | some t =>
      let out := stepResults s b t
      let s := commitStep s b out
      let b := { b with tiles := keyOut t b.tiles, flags := b.flags ||| BitVec.ofNat 5 (out.foldl (fun f r => f ||| r.2.2.1) 0) }
      let (s, b) := bankCounted s b
      .next { s with banks := s.banks.map (fun x => if x.core == b.core then b else x) }

/-- R88. The count notice of the command of core `here.core` arrives at place `here.idx`: a core, or 512 plus a slice. -/
def execCountNotice (s : State) : Out :=
  .next { s with banks := s.banks.map (fun b => if b.core == s.here.core then { b with notices := keyOut s.here.idx b.notices } else b) }

end Sys2Proof.Machine
end

