-- ==== Sys2Proof/Machine/Coll.lean ====
section
/-! DEFINITION. The collective engine (R138, R143, R357, R400): an entry's start, the match of the members' entries, and the
watchdog. Members on other devices contribute free values (log 10). -/

namespace Sys2Proof.Machine

/-! ## Groups (R400) -/

/-- A member: its device, and its core on that device. -/
abbrev Member := Nat × Nat

/-- A group's member table, empty where the group is not valid or its table lies in no memory. It is read at its home slices, and a line that
is stale there counts for no core (log 55). -/
def collTable (s : State) (g : Nat) : List Member × State :=
  let a := (tget 0 s.cgda g).toNat
  let at_ := bits (tget 0 s.cgdb g).toNat 0 44
  if 255 < g || !bit a 63 || (tableAt s at_).toOption.isNone then ([], s)
  else (upto (bits a 42 10 + 1)).foldl (fun (r : List Member × State) m =>
    let (e, s) := readEntry r.2 (at_ + 8 * m)
    (r.1 ++ [(bits e 21 11, bits e 18 3 * 64 + bits e 12 6)], s)) ([], s)

def isLocal (s : State) (m : Member) : Bool := m.1 == s.devnum.toNat

/-- The index of a core of this device among the members. -/
def memberIdx (s : State) (l : List Member) (core : Nat) : Option Nat := l.findIdx? (fun m => m == (s.devnum.toNat, core))

/-! ## The entry's start -/

def collGroup (x : Nat) : Nat := bits x 0 16
def collKind (x : Nat) : Nat := bits x 16 3

/-- A group's count of the entries of a member that have taken part (R138). -/
def collKey (g memb : Nat) : Nat := g * 1024 + memb

/-- Destination elements for P members and n source elements; none where the count does not divide (R357). -/
def collCountOf (kind p n : Nat) : Option Nat :=
  match kind with
  | 1 => some (p * n)
  | 2 => if n % p = 0 then some (n / p) else none
  | _ => some n

/-- What a member's entry is refused for with error 2 (R357, R400). -/
def collBad (d a : TDesc) (x p : Nat) : Bool :=
  let kind := collKind x
  bits x 32 32 != 0 || bit x 19 || decide (4 ≤ kind) || d.refused || a.refused || d.scratch || a.scratch || d.fmt != a.fmt ||
    ((kind == 0 || kind == 2) && decide (1 < a.fmt)) || collCountOf kind p a.count != some d.count ||
    (if kind = 3 then decide (p ≤ bits x 20 12) else bits x 20 12 != 0)

/-- Bit addresses of every element of a tensor, in row-major order. -/
def allBits (t : TDesc) : List Int := (upto t.count).map (fun i => elemBit t false i)

/-- The spans of a member's source and destination. -/
def collSpans (s : State) (core : Nat) (d a : TDesc) : (List (Nat × Xlat) × List (Nat × XCause)) × (List (Nat × Xlat) × List (Nat × XCause)) :=
  (xlatSpans s core { r := true } (spansOf (vasOf (allBits a) a.width)), xlatSpans s core { w := true } (spansOf (vasOf (allBits d) d.width)))

/-- R357. An entry that a pre-emption withdrew keeps its member and its place in the group (R199). -/
def runColl (s : State) (core : Nat) (e : Entry) (d a : TDesc) : State :=
  let x := e.opnd.toNat
  let g := collGroup x
  let (l, s) := collTable s g
  match (if e.turn = 0 then memberIdx s l core else some e.memb) with
  | none => refuse s core 3 e 2 []
  | some i =>
    if l.isEmpty || collBad d a x l.length then refuse s core 3 e 2 []
    else
      let ((mr, br), (mw, bw)) := collSpans s core d a
      if br.isEmpty && bw.isEmpty then
        let k := collKey g i
        let n := if e.turn = 0 then tget 0 s.collCount k + 1 else e.turn
        setHead { s with collCount := if e.turn = 0 then tset 0 s.collCount k n else s.collCount } core 3 { e with
          started := true, work := true, mr := mr, mw := mw, held := spanKeys s core (mr ++ mw), rd := unitsOf a (allBits a), turn := n, memb := i }
      else refuseSpans s core 3 e (accOf (!br.isEmpty) (!bw.isEmpty)) (br ++ bw)

/-- R138, R357. The collective engine starts the entry at the head of q3; one that has started reads a unit of its source, at `here.pa`, for
`here.sub` = 1 (R135). -/
def execCollEntry (s : State) : Out :=
  let core := s.here.core
  match startable (s.core core) 3 with
  | some e => match e.cmd with
    | .coll d a => .next (runColl s core e d a)
    | _ => .next s
  | none => match running (s.core core) 3 with
    | some e => match e.cmd with
      | .coll _ a =>
        if s.here.sub = 1 && e.work && e.rd.contains (s.here.pa / a.unit) then
          let (e, s) := readUnit s core a e (s.here.pa / a.unit)
          .next (setHead s core 3 e)
        else .next s
      | _ => .next s
    | none => .next s

/-! ## The match (R138) -/

/-- A started entry of a group. -/
def collOf (s : State) (core g : Nat) : Option (Entry × TDesc × TDesc) :=
  match running (s.core core) 3 with
  | some e => match e.cmd with
    | .coll d a => if collGroup e.opnd.toNat == g then some (e, d, a) else none
    | _ => none
  | none => none

/-- A waiting entry of a group: its core, the entry, and its destination and source. -/
abbrev Waiter := Nat × Entry × TDesc × TDesc

/-- The entries of a group that have started and not yet matched. -/
def collWaiting (s : State) (g : Nat) : List Waiter :=
  (s.cores.map Prod.fst).filterMap (fun c => (collOf s c g).bind (fun x => if x.1.work && x.1.wr.isEmpty then some (c, x) else none))

/-- The waiting entry of a member: its earliest. -/
def waiterOf (l : List Waiter) (i : Nat) : Option Waiter :=
  (l.filter (fun x => x.2.1.memb == i)).foldl (fun (b : Option Waiter) x => match b with
    | none => some x
    | some y => if x.2.1.turn < y.2.1.turn then some x else b) none

/-- The local members' waiting entries, by member index, when every local member has its entry of the same turn started. -/
def collReady (s : State) (g : Nat) (l : List Member) : Option (List Waiter) :=
  let locals := (upto l.length).filter (fun i => (l[i]?).any (isLocal s))
  let w := collWaiting s g
  let es := locals.filterMap (waiterOf w)
  match es with
  | x :: _ => if es.length = locals.length ∧ es.all (fun y => y.2.1.turn == x.2.1.turn) then some es else none
  | [] => none

/-- A member's source: its elements with their poison. -/
abbrev Source := List (Nat × Bool)

/-- A source on another device: free values, each of which may carry poison (R391, log 10). -/
def drawSource (s : State) (n w : Nat) : Source × State :=
  (upto n).foldl (fun (r : Source × State) _ =>
    let pz := Config.remotePoison r.2.fresh
    let (x, s) := r.2.draw
    (r.1 ++ [(x.toNat % 2 ^ w, pz)], s)) ([], s)

/-- The sources of a group's members on other devices, by member index. -/
def farSources (s : State) (l : List Member) (n w : Nat) : List (Nat × Source) × State :=
  ((upto l.length).filter (fun i => !(l[i]?).any (isLocal s))).foldl (fun (r : List (Nat × Source) × State) i =>
    let (v, s) := drawSource r.2 n w
    (r.1 ++ [(i, v)], s)) ([], s)

/-- The sum of an element in ascending member index, each add rounded to F32, a BF16 result once at the end (R357). -/
def collSum (f : Fmt) (l : List (Nat × Bool)) : Nat × Nat × Bool :=
  let pz := l.any (fun x => x.2)
  match l.map (fun x => f.read x.1) with
  | [] => (0, 0, pz)
  | v :: vs =>
    let first := fmtF32.put v.exact .rne 0
    let (acc, fl) := vs.foldl (fun (r : Res) y =>
      let (e, fl) := exAdd (fmtF32.read r.1) y .rne
      let q := fmtF32.put e .rne 0
      (q.1, r.2 ||| fl ||| q.2)) (first.1, first.2 ||| sigNV [v])
    if f = fmtF32 then (acc, fl, pz)
    else
      let q := f.put (fmtF32.read acc).exact .rne 0
      (q.1, fl ||| q.2, pz)

/-- The source elements, as member and index, that element `i` of the destination of member `memb` takes: of P members with n elements each
(R357); each member of a broadcast has the root its own entry names (R138, log 35). -/
def collFrom (kind root memb p n i : Nat) : List (Nat × Nat) :=
  match kind with
  | 0 => (upto p).map (fun m => (m, i))
  | 1 => [(i / n, i % n)]
  | 2 => (upto p).map (fun m => (m, memb * (n / p) + i))
  | _ => [(root, i)]

/-- Element `i` of the destination of an entry: its bits, flags and poison, from the values of source elements (R357). -/
def collElem (e : Entry) (a : TDesc) (src : Nat → Nat → Nat × Bool) (i : Nat) : Nat × Nat × Bool :=
  let op := e.opnd.toNat
  let kind := collKind op
  let l := (collFrom kind (bits op 20 12) e.memb e.size a.count i).map (fun x => src x.1 x.2)
  if kind = 0 ∨ kind = 2 then collSum (if a.fmt = 0 then fmtF32 else fmtBF16) l
  else match l with
    | v :: _ => (v.1, 0, v.2)
    | [] => (0, 0, false)

/-- The entries that matched with one, itself among them: those of its group and turn that have still to write. -/
def collPeers (s : State) (g turn : Nat) : List Waiter :=
  (s.cores.map Prod.fst).filterMap (fun c => (collOf s c g).bind (fun x => if x.1.work && !x.1.wr.isEmpty && x.1.turn == turn then some (c, x) else none))

/-- A source element's bits and poison: from the entry of its member, or as that member left it. -/
def sourceElem (e : Entry) (ps : List Waiter) (m k : Nat) : Nat × Bool :=
  match e.peers.find? (fun x => x.1 == m) with
  | some x => x.2.getD k (0, false)
  | none => match ps.find? (fun x => x.2.1.memb == m) with
    | some (_, y, _, a) => gotElem a y.got (elemBit a false k)
    | none => (0, false)

/-- A matched entry reads units of its source, those of a list that it has still to read. -/
def readOwed (s : State) (x : Waiter) (us : List Nat) : State :=
  let (e, t) := (us.filter (fun u => x.2.1.rd.contains u)).foldl (fun r u => readUnit r.2 x.1 x.2.2.2 r.1 u) (x.2.1, s)
  setHead t x.1 3 e

/-- The elements of a destination that touch a unit. -/
def elemsIn (d : TDesc) (u : Nat) : List Nat := (upto d.count).filter (fun i => (d.units (elemBit d false i)).contains u)

/-- Every entry that matched with one reads what elements of its destination take and has still to be read. -/
def readFor (s : State) (g : Nat) (e : Entry) (a : TDesc) (is_ : List Nat) : State :=
  let op := e.opnd.toNat
  let need := (is_.map (collFrom (collKind op) (bits op 20 12) e.memb e.size a.count)).flatten
  (collPeers s g e.turn).foldl (fun s x =>
    let mine := need.filter (fun y => y.1 == x.2.1.memb && !e.peers.any (fun z => z.1 == y.1))
    readOwed s x (unitsOf x.2.2.2 (mine.map (fun y => elemBit x.2.2.2 false y.2)))) s

/-- A matched entry writes a unit of its destination, once the source units that it takes are read (R135). -/
def collUnit (s : State) (core g u : Nat) : State :=
  match collOf s core g with
  | none => s
  | some (e, d, a) =>
    let is_ := elemsIn d u
    let s := readFor s g e a is_
    match collOf s core g with
    | none => s
    | some (e, _, _) =>
      let ps := collPeers s g e.turn
      let out := is_.map (fun i => (i, collElem e a (sourceElem e ps) i))
      let o := out.foldl (fun (o : OutBytes) v => putAt d o (elemBit d false v.1) v.2.1 v.2.2.2) []
      let e := { e with flags := e.flags ||| BitVec.ofNat 5 (out.foldl (fun f v => f ||| v.2.2.1) 0) }
      let (e, s) := writeUnit s core 3 d e u (o.filter (fun b => b.1 / d.unit == u))
      setHead s core 3 e

/-- A matched entry that ends reads the rest of its source, and leaves it to those that matched with it. -/
def handOver (s : State) (core g : Nat) : State :=
  match collOf s core g with
  | none => s
  | some (e, d, a) =>
    let s := readOwed s (core, e, d, a) e.rd
    match collOf s core g with
    | none => s
    | some (e, _, _) =>
      let src := (allBits a).map (gotElem a e.got)
      ((collPeers s g e.turn).filter (fun x => x.1 != core)).foldl (fun s x =>
        setHead s x.1 3 { x.2.1 with peers := x.2.1.peers ++ [(e.memb, src)] }) s

/-- A matched entry's work ends with its last write; an access error of a read or a write is error 1 (R14). -/
def collEnd (s : State) (core g : Nat) : State :=
  match collOf s core g with
  | none => s
  | some (e, _, _) =>
    if !e.wr.isEmpty then s else
    let s := handOver s core g
    match collOf s core g with
    | none => s
    | some (e, _, _) =>
      if e.absR.isEmpty && e.absW.isEmpty then endWork s core 3 e
      else refuseSpans s core 3 e (accOf (!e.absR.isEmpty) (!e.absW.isEmpty)) ((e.absR ++ e.absW).map (fun a => (a, XCause.abs)))

/-- A matched entry of a core writes the unit at an address, or every unit it has still to write. -/
def collWrite (s : State) (core g : Nat) (at_ : Option Nat) : State :=
  match collOf s core g with
  | some (e, d, _) =>
    if !e.work || e.wr.isEmpty then s
    else
      let us := match at_ with
        | some a => e.wr.filter (fun u => u == a / d.unit)
        | none => e.wr
      collEnd (us.foldl (fun s u => collUnit s core g u) s) core g
  | none => s

/-- A local member's entry has matched: it has its destination to write, and the sources of the members on other devices. -/
def matchMember (s : State) (p : Nat) (far : List (Nat × Source)) (x : Waiter) : State :=
  let (core, e, d, _) := x
  setHead s core 3 { e with peers := far, size := p, wr := unitsOf d (allBits d) }

/-- The collective of a group whose members' entries have all started: its members agree, or every member's entry ends in error 7. -/
def collMatch (s : State) (g : Nat) : State :=
  let (l, s) := collTable s g
  match collReady s g l with
  | none => s
  | some es =>
    let far := l.any (fun m => !isLocal s m)
    let (w, s) := if far then s.draw else (0, s)
    let key (x : Waiter) : Nat × Nat × Nat := (collKind x.2.1.opnd.toNat, x.2.2.2.fmt, x.2.2.2.count)
    let same := match es with
      | x :: _ => es.all (fun y => key y == key x)
      | [] => true
    if !same || w.getLsbD 0 then es.foldl (fun s x => refuse s x.1 3 x.2.1 7 []) s
    else
      let a := match es with
        | x :: _ => x.2.2.2
        | [] => {}
      let (far, s) := farSources s l a.count a.width
      es.foldl (fun s x => matchMember s l.length far x) s

/-- Every matched entry of a group reads what it has still to read of its source. -/
def readSources (s : State) (g : Nat) : State :=
  (s.cores.map Prod.fst).foldl (fun s c => match collOf s c g with
    | some (e, d, a) => if e.work && !e.wr.isEmpty then readOwed s (c, e, d, a) e.rd else s
    | none => s) s

/-- R138. The collective of group `here.idx`: for `here.sub` = 0 it matches where it can, and every matched entry reads its source and then
writes its destination; for 1 it matches; for 2 the matched entry of core `here.core` writes the unit at `here.pa` (R135, log 29). -/
def execCollectiveMatch (s : State) : Out :=
  let g := s.here.idx
  if s.here.sub = 0 then .next (((s.cores.map Prod.fst)).foldl (fun s c => collWrite s c g none) (readSources (collMatch s g) g))
  else if s.here.sub = 1 then .next (collMatch s g)
  else .next (collWrite s s.here.core g (some s.here.pa))

/-! ## The watchdog (R143) -/

/-- Whether a group's watchdogs stand still: a debug halt is asserted on a member device. -/
def collFrozen (s : State) (l : List Member) : Bool :=
  l.any (fun m => if isLocal s m then s.cores.any (fun c => c.2.halted) else s.collHalt.contains m.1)

/-- R143. The watchdog of a core's collective expires: its entry ends in error 8, and later q3 entries are held. -/
def execCollWatchdogTimeout (s : State) : Out :=
  let core := s.here.core
  match running (s.core core) 3 with
  | some e => match e.cmd with
    | .coll _ _ =>
      let g := collGroup e.opnd.toNat
      let (l, s) := collTable s g
      if e.work && bits (tget 0 s.cgda g).toNat 0 32 != 0 && !collFrozen s l then
        let s := if e.wr.isEmpty then s else handOver s core g
        .next (refuse s core 3 ((running (s.core core) 3).getD e) 8 [])
      else .next s
    | _ => .next s
  | none => .next s

/-- R143. Another member device says that its debug halt is asserted or released. -/
def execWatchdogHaltNotice (dev : Nat) (halted : Bool) (s : State) : Out :=
  .next { s with collHalt := if halted then keyIn dev s.collHalt else keyOut dev s.collHalt }

end Sys2Proof.Machine
end

