-- ==== Sys2Proof/Machine/Matrix.lean ====
section
/-! DEFINITION. The matrix engine (R351 to R353, R240, R241): operands in the scratchpad with their scales (R223 to R230), the
chunked accumulation, refusals, restart under LEG (R200), and `mzero`. -/

namespace Sys2Proof.Machine

/-! ## Operands -/

/-- Rows of an operand: a rank-1 operand has one. -/
def TDesc.nrows (t : TDesc) : Nat := if t.rank = 2 then t.dim 1 else 1

/-- The value of an element as the engine multiplies it: one part, or hi and lo of B2X (R230); whether an infinite scale met a
zero (R227, R241); and whether a byte read is poisoned. -/
structure MatVal where
  parts : List FVal := [.fin false 0 0]
  inv : Bool := false
  poison : Bool := false
  deriving DecidableEq, Repr

/-- The bits of element (r, k). -/
def matBits (c : Core) (t : TDesc) (r k : Nat) : Nat × Bool :=
  let b := rowBit t r k
  let (a, n) := bitBytes b t.width
  let (v, pz) := scrRead c a.toNat n
  (v / 2 ^ (b % 8).toNat % 2 ^ t.width, pz)

/-- The byte offset of the record of (row, block) from the scale base (R228). -/
def scaleOff (t : TDesc) (row block : Nat) : Nat :=
  let nb := blocksOf t.fmt (t.dim 0)
  (if t.fmt = 28 then 16 else 0) + (if t.slay then block * t.nrows + row else row * nb + block) * recBytes t.fmt

/-- The scale record of element (r, k) and the tensor scale. -/
def scaleRec (c : Core) (t : TDesc) (r k : Nat) : Nat × Nat × Bool :=
  let block := if rowScaled t.fmt then 0 else k / 32
  let (x, p) := scrRead c (t.sbase + scaleOff t r block) (recBytes t.fmt)
  if t.fmt = 28 then
    let (y, q) := scrRead c t.sbase 4
    (x, y, p || q)
  else (x, 0, p)

/-- Element (r, k) of an operand; a row at or beyond the tensor's is a row of zeros (R351). -/
def matElem (c : Core) (t : TDesc) (r k : Nat) : MatVal :=
  if t.nrows ≤ r then {} else
  let (x, pz) := matBits c t r k
  if t.fmt = 31 then { parts := [fmtBF16.read (bits x 16 16), fmtBF16.read (bits x 0 16)], poison := pz }
  else if t.isScaled then
    let (rec_, ten, ps) := scaleRec c t r k
    let v := scaledValue t.fmt x rec_ ten
    { parts := [v], inv := scaledInvalid v (scaleVals t.fmt rec_ ten) (bareVal t.fmt x), poison := pz || ps }
  else
    let v := match fmtOf t.fmt with
      | some f => f.read x
      | none => ((intCode t.fmt).getD .tern).value x
    { parts := [v], poison := pz }

/-! ## Accumulation (R240, R241) -/

/-- A chunk's sum while it is formed. -/
structure Chunk where
  nan : Bool := false
  nv : Bool := false
  pos : Bool := false
  neg : Bool := false
  sum : Int := 0
  exp : Int := 0
  deriving DecidableEq, Repr

/-- One exact product joins the chunk. -/
def Chunk.add (c : Chunk) (x y : FVal) : Chunk :=
  match x, y with
  | .nan _, _ => { c with nan := true }
  | _, .nan _ => { c with nan := true }
  | .inf a, .inf b => if a = b then { c with pos := true } else { c with neg := true }
  | .inf a, .fin b m _ => if m = 0 then { c with nan := true, nv := true } else if a = b then { c with pos := true } else { c with neg := true }
  | .fin a m _, .inf b => if m = 0 then { c with nan := true, nv := true } else if a = b then { c with pos := true } else { c with neg := true }
  | .fin a m e, .fin b n f =>
    if m = 0 ∨ n = 0 then c
    else
      let (v, g) := addDy c.sum c.exp (sgn (a != b) (m * n)) (e + f)
      { c with sum := v, exp := g }

/-- The products of two elements: every pair of parts but lo × lo (R230). -/
def Chunk.mul (c : Chunk) (x y : MatVal) : Chunk :=
  let c := if x.inv || y.inv then { c with nv := true } else c
  (x.parts.zip (upto 2)).foldl (fun c p => (y.parts.zip (upto 2)).foldl (fun c q =>
    if p.2 + q.2 = 2 then c else c.add p.1 q.1) c) c

/-- Round(F32, exact chunk sum, RNE). -/
def Chunk.result (c : Chunk) : Res :=
  let both := c.pos && c.neg
  let nv := if c.nv || both then fNV else 0
  if c.nan || both then (fmtF32.qnan, nv)
  else if c.pos then (fmtF32.infBits false, nv)
  else if c.neg then (fmtF32.infBits true, nv)
  else
    let r := fmtF32.put (exactOf c.sum c.exp false) .rne 0
    (r.1, r.2 ||| nv)

/-- z + c, written with the saturate bit's limit. -/
def accStep (z c : Nat) (sat : Bool) : Res :=
  let a := fmtF32.read z
  let b := fmtF32.read c
  let (x, nv) := exAdd a b .rne
  let r := fmtF32.put x .rne 0
  let v := if sat then
      if r.1 = fmtF32.infBits false then fmtF32.maxFin false else if r.1 = fmtF32.infBits true then fmtF32.maxFin true else r.1
    else r.1
  (v, r.2 ||| (if isNan a || isNan b then 0 else nv))

/-- One accumulator element over all chunks. -/
def accElem (z : Nat) (as bs : List MatVal) (sat : Bool) : Res :=
  let kk := min as.length bs.length
  (upto ((kk + 31) / 32)).foldl (fun (r : Res) n =>
    let pairs := ((as.drop (32 * n)).take 32).zip ((bs.drop (32 * n)).take 32)
    let c := (pairs.foldl (fun (c : Chunk) p => c.mul p.1 p.2) {}).result
    let q := accStep r.1 c.1 sat
    (q.1, r.2 ||| c.2 ||| q.2)) (z, 0)

/-! ## The entry -/

/-- What an `mmac` computes on: K and N, the rows of the result, and the row of A that each reads. -/
structure MatJob where
  z : Nat
  a : TDesc
  b : TDesc
  t : Bool
  sat : Bool
  kk : Nat
  n : Nat
  m : Nat
  idx : Option (List Nat)
  deriving DecidableEq, Repr

/-- The job of a captured command. -/
def matJob : EngCmd → Option MatJob
  | .mmac z _ a b idx rows kc t sat _ =>
    some { z := z.toNat, a := a, b := b, t := t, sat := sat, kk := if kc = 0 then a.dim 0 else kc,
           n := if t then b.nrows else b.dim 0, m := if idx.isSome then rows else a.nrows, idx := idx }
  | _ => none

/-- An operand that an `mmac` does not accept. -/
def matOperandBad (t : TDesc) : Bool := t.refused || !t.scratch || (t.rank != 1 && t.rank != 2) || t.stride 0 != 1

/-- An operand that reaches beyond the scratchpad, with its scales (R51, R352). -/
def matReach (c : Core) (t : TDesc) : Bool :=
  let ends := [rowBit t 0 0, rowBit t 0 (t.dim 0 - 1), rowBit t (t.nrows - 1) 0, rowBit t (t.nrows - 1) (t.dim 0 - 1)]
  let last := t.sbase + (if t.fmt = 28 then 16 else 0) + t.nrows * blocksOf t.fmt (t.dim 0) * recBytes t.fmt
  outOfScr c ends t.width || (t.isScaled && decide (c.scrBytes < last))

/-- The error an `mmac` is refused with at its start, 0 for none (R352, log 21). -/
def matError (c : Core) (j : MatJob) (mgr : Nat) : Nat :=
  let bk := if j.t then j.b.dim 0 else j.b.nrows
  if matOperandBad j.a || matOperandBad j.b || decide (j.a.dim 0 < j.kk) || decide (bk < j.kk) || decide (256 < j.n) ||
      j.m == 0 || decide (128 < j.m) then 2
  else if mgr < j.m then 5
  else if min 16 c.accTiles ≤ j.z + (j.m - 1) / 32 then 4
  else if matReach c j.a || matReach c j.b then 3
  else 0

/-- The accumulator place of element (i, j) of the result. -/
def MatJob.at_ (j : MatJob) (i col : Nat) : Nat := accIdx (j.z + i / 32) (i % 32) col

/-- A core as an entry reads its scratchpad: each word that the entry has read already as it was then (R135). -/
def Core.readView (c : Core) (e : Entry) : Core := e.got.foldl Core.withWord c

/-- One row of the result, from the operands in `v`: the accumulator, the flags, and the words of the row where poison reached it (R391). -/
def matRow (v c : Core) (j : MatJob) (bcols : List (List MatVal)) (bpz : Bool) (i : Nat) : Core × Nat :=
  let src := match j.idx with
    | some l => l.getD i 0
    | none => i
  let as := (upto j.kk).map (fun k => matElem v j.a src k)
  let pz := bpz || as.any (fun v => v.poison)
  let (acc, fl) := ((upto j.n).zip bcols).foldl (fun (r : Tab Word32 × Nat) p =>
    let o := j.at_ i p.1
    let q := accElem (tget 0 r.1 o).toNat as p.2 j.sat
    (tset 0 r.1 o (BitVec.ofNat 32 q.1), r.2 ||| q.2)) (c.acc, 0)
  let words := if pz then (upto 128).map (fun w => c.accBase + j.at_ i 0 * 4 + 8 * w) else []
  ({ c with acc := acc, poolPoison := words.foldl (fun l o => keyIn o l) c.poolPoison }, fl)

/-- Rows `lo` to `hi` − 1 of the result, from the operands in `v`. -/
def matRows (v c : Core) (j : MatJob) (lo hi : Nat) : Core × Nat :=
  let bcols := (upto j.n).map (fun col => (upto j.kk).map (fun k => if j.t then matElem v j.b col k else matElem v j.b k col))
  let bpz := bcols.any (fun l => l.any (fun v => v.poison))
  ((upto (hi - lo)).map (fun n => lo + n)).foldl (fun (r : Core × Nat) i =>
    let (c, fl) := matRow v r.1 j bcols bpz i
    (c, r.2 ||| fl)) (c, 0)

/-- A started `mmac` accumulates its next rows: `n` of them, all that are left for 0. -/
def matRun (s : State) (core : Nat) (e : Entry) (j : MatJob) (n : Nat) : State :=
  let lo := e.restart.getD 0
  let hi := if n = 0 then j.m else min j.m (lo + n)
  let c := s.core core
  let (c, fl) := matRows (c.readView e) c j lo hi
  setHead (setEngine s core c) core 1 { e with
    started := true, work := decide (hi < j.m), restart := some hi, flags := e.flags ||| BitVec.ofNat 5 fl, got := if hi < j.m then e.got else [] }

/-- A started `mmac` reads the scratchpad word at a byte address ahead of the rows that take it: its reads keep no order (R135). -/
def matRead (s : State) (core : Nat) (e : Entry) (at_ : Nat) : State :=
  let w := at_ / 8
  if e.got.any (fun g => g.1 == w) || decide ((s.core core).scrBytes < 8 * w + 8) then s
  else setHead s core 1 { e with got := tset (0, false) e.got w (scrRead (s.core core) (8 * w) 8) }

/-- The turn of a started `mmac`: its next rows, or, for `sub` above 128, which is more rows than a command has, the read of one word. -/
def matTurn (s : State) (core : Nat) (e : Entry) (j : MatJob) (sub at_ : Nat) : State :=
  if 128 < sub then matRead s core e at_ else matRun s core e j sub

/-- An `mmac` starts, and takes its turn. -/
def matStart (s : State) (core : Nat) (e : Entry) (j : MatJob) (sub at_ : Nat) : State :=
  if 128 < sub then matRead (setHead s core 1 { e with started := true, work := true, got := [] }) core { e with started := true, work := true, got := [] } at_
  else matRun s core { e with got := [] } j sub

/-- The row a marked `mmac` resumes from: MRS of the micro-thread that enqueued it (R200). -/
def resumeRow (c : Core) (e : Entry) : Option Nat :=
  match e.restart with
  | some r => some (if e.who < 32 then (c.mt e.who).regs.mrs.toNat else r)
  | none => none

/-- R351, R352. The matrix engine starts the `mmac` at the head of q1, or goes on with it, by `here.sub` rows (0: all), or by the read of the
scratchpad word at `here.pa` (above 128). Under LEG a marked one starts only while mt0 is idle (R200). -/
def execMmacEntry (s : State) : Out :=
  let core := s.here.core
  let c := s.core core
  match running c 1 with
  | some e => match matJob e.cmd with
    | some j => .next (if e.work then matTurn s core e j s.here.sub s.here.pa else s)
    | none => .next s
  | none =>
    match startable c 1 with
    | some e => match matJob e.cmd, e.cmd with
      | some j, .mmac _ _ _ _ _ _ _ _ _ mgr =>
        if e.restart.isSome && !(c.mt 0).isIdle then .next s
        else
          let err := matError c j mgr
          .next (if err ≠ 0 then refuse s core 1 e err [] else matStart s core { e with restart := resumeRow c e } j s.here.sub s.here.pa)
      | _, _ => .next s
    | none => .next s

/-- R353. Every element of the tile becomes +0, and its words lose their poison. -/
def execMzeroEntry (s : State) : Out :=
  let core := s.here.core
  let c := s.core core
  match startable c 1 with
  | some e => match e.cmd with
    | .mzero z =>
      if c.accTiles ≤ z.toNat then .next (refuse s core 1 e 4 [])
      else
        let lo := c.accBase + z.toNat * 32768
        let c' := { c with
          acc := c.acc.filter (fun w => w.1 / 8192 != z.toNat)
          poolPoison := c.poolPoison.filter (fun o => !(decide (lo ≤ o) && decide (o < lo + 32768))) }
        .next (setHead (s.setCore core c') core 1 { e with started := true })
    | _ => .next s
  | none => .next s

end Sys2Proof.Machine
end

