-- ==== Sys2Proof/Machine/Complete.lean ====
section
/-! DEFINITION. How entries leave their queues (R131 to R133, R342, R343, R347, R383): completion, its status and record, and the
markers of a `qfence`. -/

namespace Sys2Proof.Machine

/-- The command of a core that its q4 entry started. -/
def bankOfCore (s : State) (core : Nat) : Option BankCmd := s.banks.find? (fun b => b.core == core)

/-- Whether every effect of the head entry of a queue has taken place, or can with its completion (R133): parts of a renew and
count notices that are still to come happen then at the latest (log 20). -/
def entryDone (s : State) (core q : Nat) (e : Entry) : Bool :=
  match e.cmd with
  | .mattach => (startable (s.core core) q).isSome
  | .mdetach _ => (startable (s.core core) q).isSome
  | .bank _ _ => e.started && (!e.work || (bankOfCore s core).any (fun b => b.accepted && b.tiles.isEmpty))
  | .marker _ _ => false
  | _ => e.started && !e.work && e.tags.isEmpty

/-- QST takes the flags by OR, and the error (R342). -/
def qstWith (old : Word32) (flags : BitVec 5) (err : Nat) : Word32 :=
  let s := old ||| flags.setWidth 32
  if err = 0 then s else (s &&& ~~~0xF000) ||| BitVec.ofNat 32 (err * 4096 + 32)

/-- STAT of a table entry: ERR, NV, OF, UF, NX (R344). -/
def statOf (flags : BitVec 5) (err : Nat) : Nat :=
  (if err = 0 then 0 else 16) + bits flags.toNat 4 1 * 8 + bits flags.toNat 0 3

/-- What an entry leaves in its core besides the queue: STAT of operand A and MRS for an `mmac` (R200, R344), slabs freed for an
`mdetach` (R349). -/
def Core.entryLeaves (c : Core) (e : Entry) (err : Nat) : Core :=
  match e.cmd with
  | .mmac _ ta _ _ _ _ _ _ _ _ =>
    let t := tget {} c.tens ta.toNat
    let w0 := (t.w0 &&& 0x07FFFFFFFFFFFFFF) ||| BitVec.ofNat 64 (statOf e.flags err * 2 ^ 59)
    let c := { c with tens := tset {} c.tens ta.toNat { t with w0 := w0 } }
    if c.info.leg ∧ e.who < 32 then c.setMt e.who ((c.mt e.who).setMrs 0) else c
  | .mdetach n => if e.who < 32 then c.setMt e.who { c.mt e.who with slabs := (c.mt e.who).slabs - n } else c
  | _ => c

/-- The queue after its head entry completed: the count, the status, and for an error the hold and the record (R131, R343). -/
def Queue.complete (k : Queue) (e : Entry) : Queue :=
  { k with
    entries := k.entries.drop 1
    count := k.count + 1
    qst := qstWith k.qst e.flags e.err
    held := k.held || e.err != 0
    record := if e.err = 0 then k.record else e.rec_
    timeout := k.timeout || e.err == 8 }

/-- The parts of an entry that units of the device hold end with it: a renew, a bank command. -/
def endParts (s : State) (core : Nat) (e : Entry) : Entry × State :=
  match e.cmd with
  | .renew _ _ => match renewOf s core with
    | some r => (e, { renewRest s r with renews := s.renews.filter (fun x => x.core != core) })
    | none => (e, s)
  | .bank _ _ => match bankOfCore s core with
    | some b => ({ e with flags := b.flags }, { s with banks := s.banks.filter (fun x => x.core != core) })
    | none => (e, s)
  | _ => (e, s)

/-- The completion of the head entry of a queue. -/
def completeEntry (s : State) (core q : Nat) (e : Entry) : State :=
  let (e, s) := endParts s core e
  s.modCore core (fun c => (c.setQueue q ((c.queue q).complete e)).entryLeaves e e.err)

/-- R133. The entry at the head of queue `here.idx` completes. -/
def execEntryComplete (s : State) : Out :=
  let core := s.here.core
  let q := s.here.idx
  match ((s.core core).queue q).entries with
  | e :: _ => .next (if entryDone s core q e then completeEntry s core q e else s)
  | [] => .next s

/-- The marker at the head of a queue. -/
def headMarker (c : Core) (q : Nat) : Option (Nat × Nat) :=
  match (c.queue q).entries with
  | e :: _ => match e.cmd with
    | .marker id set => some (id, set)
    | _ => none
  | [] => none

/-- R132. The markers of the `qfence` whose marker is at the head of queue `here.idx` leave together, once each is at its head. -/
def execQfenceMarkerComplete (s : State) : Out :=
  let core := s.here.core
  let c := s.core core
  match headMarker c s.here.idx with
  | none => .next s
  | some (id, set) =>
    let qs := (upto 6).filter (fun q => bit set q)
    if qs.all (fun q => headMarker c q == some (id, set)) then
      .next (s.modCore core (fun c => qs.foldl (fun c q => c.setQueue q { c.queue q with entries := (c.queue q).entries.drop 1 }) c))
    else .next s

end Sys2Proof.Machine
end

