-- ==== Sys2Proof/Machine/Cross.lean ====
section
/-! DEFINITION. Cross-lane and link instructions, majors 0x1E to 0x21 (R239, R281 to R293). -/

namespace Sys2Proof.Machine

/-! ## Moves (R283 to R287) -/

/-- A move: destination element i takes the bits of source position `f i`, 0 where there is none or it lies beyond E (R283). -/
def xlMove (s : State) (i : Instr) (d a : VName) (w : Nat) (f : Convoy → Nat → Option Nat) : Out :=
  asMember s i (fun s => s.modCv (fun cv =>
    let x := cv.rv a
    let e := cv.elems
    cv.run d w (fun n => (match f cv n with
      | some j => if j < e then elem x w j else 0
      | none => 0, 0))))

/-- R284. -/
def execVperm (c : Bool) (d a b : VName) (sz : Size) (s : State) : Out :=
  xlMove s (.vperm c d a b sz) d a sz.bits (fun cv n => some (elem (cv.rv b) sz.bits n))

/-- R284. -/
def execVslup (c : Bool) (d a : VName) (b : GName) (sz : Size) (s : State) : Out :=
  xlMove s (.vslup c d a b sz) d a sz.bits (fun cv n => if (cv.rg b).toNat ≤ n then some (n - (cv.rg b).toNat) else none)

/-- R284. -/
def execVsldn (c : Bool) (d a : VName) (b : GName) (sz : Size) (s : State) : Out :=
  xlMove s (.vsldn c d a b sz) d a sz.bits (fun cv n => some (n + (cv.rg b).toNat))

/-- R284. -/
def execVbcast (c : Bool) (d a : VName) (b : GName) (sz : Size) (s : State) : Out :=
  xlMove s (.vbcast c d a b sz) d a sz.bits (fun cv _ => some (cv.rg b).toNat)

/-- R285. -/
def execVtrans (c : Bool) (d a : VName) (sz : Size) (s : State) : Out :=
  xlMove s (.vtrans c d a sz) d a sz.bits (fun cv n => some (n % cv.rows * cv.cols + n / cv.rows))

/-- R287. -/
def execVunzip (c : Bool) (d a : VName) (sz : Size) (s : State) : Out :=
  xlMove s (.vunzip c d a sz) d a sz.bits (fun cv n =>
    let h := (cv.elems + 1) / 2
    some (if n < h then 2 * n else 2 * (n - h) + 1))

/-- R287. -/
def execVzip (c : Bool) (d a b : VName) (sz : Size) (s : State) : Out :=
  asMember s (.vzip c d a b sz) (fun s => s.modCv (fun cv =>
    let x := cv.rv a
    let y := cv.rv b
    cv.run d sz.bits (fun n => (elem (if n % 2 = 0 then x else y) sz.bits (n / 2), 0))))

/-- R286. The mask chooses; every position below E is written. -/
def execVcomp (c : Bool) (d a : VName) (sz : Size) (s : State) : Out :=
  asMember s (.vcomp c d a sz) (fun s => s.modCv (fun cv =>
    let x := cv.rv a
    let src := cv.active
    cv.putV d (vecRun (cv.rv d) sz.bits cv.elems (BitVec.allOnes 512) false
      (fun n => (match src[n]? with
        | some j => elem x sz.bits j
        | none => 0, 0)))))

/-- R286. The j-th active position takes element j. -/
def execVexpd (c : Bool) (d a : VName) (xt : XType) (s : State) : Out :=
  asMember s (.vexpd c d a xt) (fun s => s.modCv (fun cv =>
    let x := cv.rv a
    let act := cv.active
    cv.run d (xtBits xt) (fun n => (elem x (xtBits xt) ((act.filter (fun j => decide (j < n))).length), 0))))

/-! ## Reductions (R239, R288) -/

/-- One level of the tree: an absent node gives its partner. -/
def pairUp {β : Type} (f : β → β → β) : List (Option β) → List (Option β)
  | some x :: some y :: l => some (f x y) :: pairUp f l
  | some x :: none :: l => some x :: pairUp f l
  | none :: y :: l => y :: pairUp f l
  | l => l

/-- The tree's root, by levels (R239). -/
def treeOf {β : Type} (f : β → β → β) : Nat → List (Option β) → Option β
  | 0, l => l.head?.join
  | n + 1, l => treeOf f n (pairUp f l)

def reduce {β : Type} (f : β → β → β) (l : List (Option β)) : Option β := treeOf f 9 l

/-- Element 0 takes the result; elements 1 to E − 1 stay, or become 0 under ZERO (R288). -/
def putRed (cv : Convoy) (d : VName) (w : Nat) (r : Res) : Convoy :=
  cv.putV d (vecRun (cv.rv d) w cv.elems 1 cv.pfx.zero (fun _ => r))

/-- The leaves of an integer reduction. -/
def intLeaves (cv : Convoy) (a : VName) (w : Nat) : List (Option Nat) :=
  (upto cv.elems).map (fun i => if cv.gmask.getLsbD i then some (elem (cv.rv a) w i) else none)

/-- The leaves of a float reduction: the value, with NV for a signalling NaN (R288). -/
def fltLeaves (cv : Convoy) (a : VName) (f : Fmt) : List (Option (FVal × Nat)) :=
  (upto cv.elems).map (fun i =>
    if cv.gmask.getLsbD i then
      let v := f.read (elem (cv.rv a) f.width i)
      some (v, sigNV [v])
    else none)

def xtFmt : XType → Fmt
  | .bf16 => fmtBF16
  | .f16 => fmtF16
  | _ => fmtF32

def xtSigned (xt : XType) : Bool := xt == .i8 || xt == .i16 || xt == .i32 || xt == .i64

/-- One Combine of a float sum: rounded to F32 (R239). -/
def sumF32 (rm : RMode) (u : Nat) (x y : FVal × Nat) : FVal × Nat :=
  let r := rounded fmtF32 (exAdd x.1 y.1 rm) rm u
  (fmtF32.read r.1, r.2 ||| x.2 ||| y.2)

/-- One Combine of a float maximum or minimum (R265). -/
def mmF (max : Bool) (x y : FVal × Nat) : FVal × Nat :=
  let e := exMinMax max x.1 y.1
  let r := fmtF32.put e.1 .rne 0
  (fmtF32.read r.1, e.2 ||| x.2 ||| y.2)

/-- A float result into the element type. -/
def redOut (f : Fmt) (rm : RMode) (u : Nat) (x : FVal × Nat) : Res := let r := f.put x.1.exact rm u; (r.1, r.2 ||| x.2)

/-- R288. -/
def execVrsum (c : Bool) (d a : VName) (xt : XType) (s : State) : Out :=
  asMember s (.vrsum c d a xt) (fun s => s.modCv (fun cv =>
    let w := xtBits xt
    if xtFlt xt then
      let f := xtFmt xt
      let u := cv.rnd w 0
      match reduce (sumF32 cv.mode u) (fltLeaves cv a f) with
      | some r => putRed cv d w (redOut f cv.mode u r)
      | none => putRed cv d w (0, 0)
    else
      match reduce (fun x y => (x + y) % 2 ^ w) (intLeaves cv a w) with
      | some r => putRed cv d w (r, 0)
      | none => putRed cv d w (0, 0)))

/-- A maximum or minimum reduction (R288). -/
def redMM (s : State) (i : Instr) (d a : VName) (xt : XType) (max : Bool) : Out :=
  asMember s i (fun s => s.modCv (fun cv =>
    let w := xtBits xt
    if xtFlt xt then
      let f := xtFmt xt
      match reduce (mmF max) (fltLeaves cv a f) with
      | some r => putRed cv d w (redOut f .rne 0 r)
      | none => putRed cv d w (f.infBits max, 0)
    else
      let sg := xtSigned xt
      let op (x y : Nat) : Nat := if (decide (valOf sg w x ≤ valOf sg w y)) == max then y else x
      let empty := if sg then (if max then 2 ^ (w - 1) else 2 ^ (w - 1) - 1) else (if max then 0 else 2 ^ w - 1)
      putRed cv d w ((reduce op (intLeaves cv a w)).getD empty, 0)))

/-- R288. -/
def execVrmax (c : Bool) (d a : VName) (xt : XType) (s : State) : Out := redMM s (.vrmax c d a xt) d a xt true

/-- R288. -/
def execVrmin (c : Bool) (d a : VName) (xt : XType) (s : State) : Out := redMM s (.vrmin c d a xt) d a xt false

/-- R288. The empty value is all ones. -/
def execVrand (c : Bool) (d a : VName) (xt : XType) (s : State) : Out :=
  asMember s (.vrand c d a xt) (fun s => s.modCv (fun cv =>
    let w := xtBits xt
    putRed cv d w ((reduce (fun x y => x &&& y) (intLeaves cv a w)).getD (2 ^ w - 1), 0)))

/-- R288. -/
def execVror (c : Bool) (d a : VName) (xt : XType) (s : State) : Out :=
  asMember s (.vror c d a xt) (fun s => s.modCv (fun cv =>
    let w := xtBits xt
    putRed cv d w ((reduce (fun x y => x ||| y) (intLeaves cv a w)).getD 0, 0)))

/-! ## The scan (R289) -/

/-- A running sum: `add` combines the carry with an element, `out` writes it; each gives flags raised at its step. -/
def scanRun {β : Type} (cv : Convoy) (d : VName) (w : Nat) (first : Nat → β × Nat) (add : Nat → β → β × Nat) (out : Nat → β → Res) : VOut :=
  let act := cv.gmask
  ((upto cv.elems).foldl (fun (acc : VOut × Option β) i =>
    if act.getLsbD i then
      let (b, fl) := match acc.2 with
        | none => first i
        | some x => add i x
      let r := out i b
      (acc.1.put w i (r.1, r.2 ||| fl), some b)
    else (if cv.pfx.zero then acc.1.put w i (0, 0) else acc.1, acc.2)) (({ val := cv.rv d } : VOut), none)).1

/-- R289. -/
def execVscan (c : Bool) (d a : VName) (xt : XType) (s : State) : Out :=
  asMember s (.vscan c d a xt) (fun s => s.modCv (fun cv =>
    let w := xtBits xt
    let x := cv.rv a
    if xtFlt xt then
      let f := xtFmt xt
      let rd (i : Nat) : FVal := f.read (elem x w i)
      cv.putV d (scanRun cv d w (fun i => (rd i, sigNV [rd i]))
        (fun i y => let r := rounded fmtF32 (exAdd y (rd i) cv.mode) cv.mode (cv.rnd w i); (fmtF32.read r.1, r.2))
        (fun i y => f.put y.exact cv.mode (cv.rnd w i)))
    else
      cv.putV d (scanRun cv d w (fun i => (elem x w i, 0)) (fun i y => ((y + elem x w i) % 2 ^ w, 0)) (fun _ y => (y, 0)))))

/-! ## Links (R168, R290, R291) -/

/-- R290. The whole register leaves for the next micro-thread's FIFO at retirement. -/
def execVlsnd (c : Bool) (a : VName) (s : State) : Out :=
  asMember s (.vlsnd c a) (fun s => s.modCv (fun cv => { cv with send := some { val := cv.rv a } }))

/-- R291. The oldest entry, or zero with LNK where the FIFO is empty: the previous micro-thread is then idle (R168). -/
def execVlrcv (c : Bool) (d : VName) (s : State) : Out :=
  asMember s (.vlrcv c d) (fun s =>
    match s.cv.fifo with
    | v :: rest =>
      let s := s.modCv (fun cv => { cv.wv d v.val (BitVec.allOnes 4096) with fifo := rest, took := true })
      match (upto 64).find? (fun w => v.poison.getLsbD w) with
      | some w => poisonFault s 5 (Config.linkGranule s.cv.core s.cv.mt w).toNat
      | none => s
    | [] => s.modCv (fun cv => (cv.wv d 0 (BitVec.allOnes 4096)).raiseLnk))

end Sys2Proof.Machine
end

