-- ==== Sys2Proof/Machine/Rv.lean ====
section
/-! DEFINITION. What the control thread's RV64IMFD, Zba and Zbb operations compute (R144): values of x and f registers. PRESUMED: as
the RISC-V unprivileged manual gives them (log 9). -/

namespace Sys2Proof.Machine

/-! ## Integers -/

/-- The low 32 bits, sign-extended. -/
def sx32 (x : Word64) : Word64 := (x.setWidth 32).signExtend 64

/-- The low 32 bits, zero-extended. -/
def zx32 (x : Word64) : Word64 := (x.setWidth 32).setWidth 64

/-- Register arithmetic of 64 bits. -/
def rvAlu64 (op : RvAlu) (a b : Word64) : Word64 :=
  let sh := (b &&& 63).toNat
  match op with
  | .add => a + b
  | .sub => a - b
  | .sll => a <<< sh
  | .slt => if a.slt b then 1 else 0
  | .sltu => if a.ult b then 1 else 0
  | .xor => a ^^^ b
  | .srl => a >>> sh
  | .sra => a.sshiftRight sh
  | .or => a ||| b
  | .and => a &&& b

/-- Register arithmetic; the 32-bit forms work on the low halves. -/
def rvAlu (op : RvAlu) (w : Bool) (a b : Word64) : Word64 :=
  if w then
    let sh := (b &&& 31).toNat
    let x : Word32 := a.setWidth 32
    match op with
    | .sll => (x <<< sh).signExtend 64
    | .srl => (x >>> sh).signExtend 64
    | .sra => (x.sshiftRight sh).signExtend 64
    | op => sx32 (rvAlu64 op a b)
  else rvAlu64 op a b

/-- Signed division with RISC-V's corners: by 0 gives −1, the most negative number by −1 itself. -/
def rvDivS (a b : Int) (w : Nat) : Int := if b = 0 then -1 else if a = -(2 ^ (w - 1)) ∧ b = -1 then a else a.tdiv b
def rvRemS (a b : Int) (w : Nat) : Int := if b = 0 then a else if a = -(2 ^ (w - 1)) ∧ b = -1 then 0 else a.tmod b

/-- The M extension at a width. -/
def rvMulAt {w : Nat} (op : RvMul) (a b : BitVec w) : BitVec w :=
  match op with
  | .mul => a * b
  | .mulh => BitVec.ofInt w ((a.toInt * b.toInt).fdiv (2 ^ w))
  | .mulhsu => BitVec.ofInt w ((a.toInt * b.toNat).fdiv (2 ^ w))
  | .mulhu => BitVec.ofNat w (a.toNat * b.toNat / 2 ^ w)
  | .div => BitVec.ofInt w (rvDivS a.toInt b.toInt w)
  | .divu => if b = 0 then BitVec.allOnes w else a / b
  | .rem => BitVec.ofInt w (rvRemS a.toInt b.toInt w)
  | .remu => if b = 0 then a else a % b

def rvMul (op : RvMul) (w : Bool) (a b : Word64) : Word64 :=
  if w then (rvMulAt op (a.setWidth 32) (b.setWidth 32)).signExtend 64 else rvMulAt op a b

/-- Two-source forms of Zba and Zbb. -/
def rvB2 (op : RvB2) (a b : Word64) : Word64 :=
  let a32 : Word32 := a.setWidth 32
  match op with
  | .addUw => b + zx32 a
  | .sh1add => b + (a <<< 1)
  | .sh2add => b + (a <<< 2)
  | .sh3add => b + (a <<< 3)
  | .sh1addUw => b + (zx32 a <<< 1)
  | .sh2addUw => b + (zx32 a <<< 2)
  | .sh3addUw => b + (zx32 a <<< 3)
  | .andn => a &&& ~~~b
  | .orn => a ||| ~~~b
  | .xnor => ~~~(a ^^^ b)
  | .max => if a.slt b then b else a
  | .maxu => if a.ult b then b else a
  | .min => if b.slt a then b else a
  | .minu => if b.ult a then b else a
  | .rol => a.rotateLeft (b &&& 63).toNat
  | .ror => a.rotateRight (b &&& 63).toNat
  | .rolw => (a32.rotateLeft (b &&& 31).toNat).signExtend 64
  | .rorw => (a32.rotateRight (b &&& 31).toNat).signExtend 64

/-- Leading zeros, trailing zeros and ones of the low `w` bits. -/
def rvClz (w x : Nat) : Nat := if x = 0 then w else w - 1 - Nat.log2 x
def rvCtz (w x : Nat) : Nat := ((upto w).find? (fun i => x.testBit i)).getD w
def rvPop (w x : Nat) : Nat := ((upto w).filter (fun i => x.testBit i)).length

/-- One-source forms of Zbb. -/
def rvB1 (op : RvB1) (a : Word64) : Word64 :=
  let lo := a.toNat % 2 ^ 32
  match op with
  | .clz => BitVec.ofNat 64 (rvClz 64 a.toNat)
  | .ctz => BitVec.ofNat 64 (rvCtz 64 a.toNat)
  | .cpop => BitVec.ofNat 64 (rvPop 64 a.toNat)
  | .clzw => BitVec.ofNat 64 (rvClz 32 lo)
  | .ctzw => BitVec.ofNat 64 (rvCtz 32 lo)
  | .cpopw => BitVec.ofNat 64 (rvPop 32 lo)
  | .sextB => (a.setWidth 8).signExtend 64
  | .sextH => (a.setWidth 16).signExtend 64
  | .zextH => (a.setWidth 16).setWidth 64
  | .orcB => BitVec.ofNat 64 (leNat ((upto 8).map (fun i => if bits a.toNat (8 * i) 8 = 0 then 0 else 255)))
  | .rev8 => BitVec.ofNat 64 (leNat (leBytes 8 a.toNat).reverse)

/-- Forms of Zba and Zbb with a shift amount. -/
def rvBi (op : RvBi) (a : Word64) (sh : BitVec 6) : Word64 :=
  match op with
  | .slliUw => zx32 a <<< sh.toNat
  | .rori => a.rotateRight sh.toNat
  | .roriw => (((a.setWidth 32 : Word32)).rotateRight (sh.toNat % 32)).signExtend 64

/-- Whether a branch is taken. -/
def rvTaken (c : RvBr) (a b : Word64) : Bool :=
  match c with
  | .eq => a == b
  | .ne => a != b
  | .lt => a.slt b
  | .ge => !a.slt b
  | .ltu => a.ult b
  | .geu => !a.ult b

/-! ## Floats -/

def rvFmt (dbl : Bool) : Fmt := if dbl then fmtF64 else fmtF32

/-- The rounding mode of a word, dynamic from frm; none where it is reserved. -/
def rvMode (c : Ct) (rm : BitVec 3) : Option RMode :=
  match (if rm = 7 then c.fcsr.extractLsb' 5 3 else rm).toNat with
  | 0 => some .rne | 1 => some .rtz | 2 => some .rdn | 3 => some .rup | 4 => some .rna | _ => none

/-- The bits of an f register at a precision: a single that is not boxed reads as the canonical NaN. -/
def rvUnbox (dbl : Bool) (x : Word64) : Nat :=
  if dbl then x.toNat else if bits x.toNat 32 32 = 2 ^ 32 - 1 then bits x.toNat 0 32 else fmtF32.qnan

def rvBox (dbl : Bool) (x : Nat) : Word64 := BitVec.ofNat 64 (if dbl then x else 0xFFFFFFFF00000000 + x % 2 ^ 32)

/-- A float register's value. -/
def rvVal (dbl : Bool) (x : Word64) : FVal := (rvFmt dbl).read (rvUnbox dbl x)

/-- An exact result into an f register, with its flags. -/
def rvRound (dbl : Bool) (e : Exact × Nat) (rm : RMode) : Word64 × Nat :=
  let r := (rvFmt dbl).put e.1 rm 0
  (rvBox dbl r.1, r.2 ||| e.2)

def rvFop (op : RvFop) (dbl : Bool) (a b : Word64) (rm : RMode) : Word64 × Nat :=
  let x := rvVal dbl a
  let y := rvVal dbl b
  rvRound dbl (match op with
    | .add => exAdd x y rm
    | .sub => exAdd x y.neg rm
    | .mul => exMul x y
    | .div => exDiv x y
    | .sqrt => exSqrt x) rm

def rvFma (op : RvFma) (dbl : Bool) (a b c : Word64) (rm : RMode) : Word64 × Nat :=
  let x := rvVal dbl a
  let y := rvVal dbl b
  let z := rvVal dbl c
  rvRound dbl (match op with
    | .madd => exFma x y z rm
    | .msub => exFma x y z.neg rm
    | .nmsub => exFma x.neg y z rm
    | .nmadd => exFma x.neg y z.neg rm) rm

/-- Sign injection, minimum and maximum. -/
def rvFsel (op : RvFsel) (dbl : Bool) (a b : Word64) : Word64 × Nat :=
  let w := if dbl then 63 else 31
  let x := rvUnbox dbl a
  let y := rvUnbox dbl b
  let withSign (s : Bool) : Word64 × Nat := (rvBox dbl (x % 2 ^ w + if s then 2 ^ w else 0), 0)
  match op with
  | .sgnj => withSign (bit y w)
  | .sgnjn => withSign (!bit y w)
  | .sgnjx => withSign (bit x w != bit y w)
  | .min => rvRound dbl (exMinMax false (rvVal dbl a) (rvVal dbl b)) .rne
  | .max => rvRound dbl (exMinMax true (rvVal dbl a) (rvVal dbl b)) .rne

/-- Comparisons: `feq` raises NV for a signalling NaN, the others for any NaN. -/
def rvFcmp (op : RvFcmp) (dbl : Bool) (a b : Word64) : Word64 × Nat :=
  let x := rvVal dbl a
  let y := rvVal dbl b
  let any := if isNan x || isNan y then fNV else 0
  let r (p : Bool) : Word64 := if p then 1 else 0
  match op with
  | .eq => (r (fEqual x y), sigNV [x, y])
  | .lt => (r (fLess false x y), any)
  | .le => (r (fLess false x y || fEqual x y), any)

/-- The class word. -/
def rvClass (dbl : Bool) (a : Word64) : Word64 :=
  let f := rvFmt dbl
  let x := rvUnbox dbl a
  let neg := bit x (f.eb + f.fb)
  let i : Nat := match f.read x with
    | .inf n => if n then 0 else 7
    | .nan s => if s then 8 else 9
    | .fin _ m _ => if m = 0 then (if neg then 3 else 4) else if bits x f.fb f.eb = 0 then (if neg then 2 else 5) else if neg then 1 else 6
  BitVec.ofNat 64 (2 ^ i)

/-- The range of an integer type. -/
def rvRange (t : RvInt) : Int × Int :=
  match t with
  | .w => (-(2 ^ 31), 2 ^ 31 - 1)
  | .wu => (0, 2 ^ 32 - 1)
  | .l => (-(2 ^ 63), 2 ^ 63 - 1)
  | .lu => (0, 2 ^ 64 - 1)

/-- An integer of a type into an x register; 32-bit ones are sign-extended. -/
def rvIntBits (t : RvInt) (v : Int) : Word64 :=
  match t with
  | .w | .wu => sx32 (BitVec.ofInt 64 v)
  | .l | .lu => BitVec.ofInt 64 v

/-- A float to an integer: out of range it saturates with NV, and NaN gives the largest. -/
def rvToInt (t : RvInt) (dbl : Bool) (a : Word64) (rm : RMode) : Word64 × Nat :=
  let (lo, hi) := rvRange t
  match rvVal dbl a with
  | .nan _ => (rvIntBits t hi, fNV)
  | .inf n => (rvIntBits t (if n then lo else hi), fNV)
  | .fin n m e =>
    if m = 0 then (0, 0)
    else
      let (q, inexact) := roundAt (magOf m e) 0 rm n 0 16
      let v : Int := if n then -(q : Int) else q
      if v < lo then (rvIntBits t lo, fNV)
      else if hi < v then (rvIntBits t hi, fNV)
      else (rvIntBits t v, if inexact then fNX else 0)

/-- An integer to a float. -/
def rvFromInt (t : RvInt) (dbl : Bool) (x : Word64) (rm : RMode) : Word64 × Nat :=
  let v : Int := match t with
    | .w => (x.setWidth 32 : Word32).toInt
    | .wu => (x.setWidth 32 : Word32).toNat
    | .l => x.toInt
    | .lu => x.toNat
  rvRound dbl (exactOf v 0 false, 0) rm

/-- Between the precisions. -/
def rvResize (toDbl : Bool) (a : Word64) (rm : RMode) : Word64 × Nat :=
  let x := rvVal (!toDbl) a
  rvRound toDbl (x.exact, sigNV [x]) rm

end Sys2Proof.Machine
end

