-- ==== Sys2Proof/Machine/Csr.lean ====
section
/-! DEFINITION. The control thread's CSRs (R144, R380, R385, R387) and the operations of RvOp but for memory. PRESUMED: the RISC-V
privileged manual's CSRs of a hart with M and U modes and without counters of its own (log 9). -/

namespace Sys2Proof.Machine

/-! ## mstatus -/

def msFS : Word64 := 0x6000
def msMPRV : Word64 := 0x20000
def msTW : Word64 := 0x200000
def msUXL : Word64 := 0x200000000

/-- Whether the float state is off, so that float words are illegal. -/
def Ct.floatOff (c : Ct) : Bool := c.mstatus &&& msFS == 0

/-- A write of float state leaves FS dirty. -/
def Ct.touchFs (c : Ct) : Ct := { c with mstatus := c.mstatus ||| msFS }

/-- mstatus as it reads: SD summarises FS. -/
def Ct.statusWord (c : Ct) : Word64 := if c.mstatus &&& msFS = msFS then c.mstatus ||| 0x8000000000000000 else c.mstatus

/-- A written mstatus: MIE, MPIE, FS, MPRV and TW as written, MPP only M or U. -/
def statusWrite (old v : Word64) : Word64 :=
  let keep := v &&& (msMIE ||| msMPIE ||| msFS ||| msMPRV ||| msTW)
  let mpp := if v &&& msMPP = msMPP ∨ v &&& msMPP = 0 then v &&& msMPP else old &&& msMPP
  keep ||| mpp ||| msUXL

/-! ## Reads and writes of CSRs -/

/-- mcycle after the cycles that have passed since it was last read (R369, log 8). -/
def passMcycle (s : State) : State :=
  if s.ct.mcountinhibit.getLsbD 0 then s
  else { s with fresh := s.fresh + 1 }.modCt (fun c => { c with mcycle := c.mcycle + Config.cycles s.fresh })

/-- A CSR's value; none where there is no such CSR. -/
def csrRead (s : State) (num : Nat) : Option (Word64 × State) :=
  let c := s.ct
  let k := s.core s.curCore
  let v (x : Word64) : Option (Word64 × State) := some (x, s)
  match num with
  | 0x001 => if c.floatOff then none else v ((c.fcsr &&& 31).setWidth 64)
  | 0x002 => if c.floatOff then none else v ((c.fcsr >>> 5).setWidth 64)
  | 0x003 => if c.floatOff then none else v (c.fcsr.setWidth 64)
  | 0x300 => v c.statusWord
  | 0x301 => v 0x800000000010112D
  | 0x304 => v c.mie
  | 0x305 => v c.mtvec
  | 0x306 => v 0
  | 0x30A => v 0
  | 0x320 => v c.mcountinhibit
  | 0x340 => v c.mscratch
  | 0x341 => v c.mepc
  | 0x342 => v c.mcause
  | 0x343 => v c.mtval
  | 0x344 => v k.mip
  | 0x7C0 => v 0
  | 0x800 => v (c.xbscope.setWidth 64)
  | 0xB00 => let s := passMcycle s; some (s.ct.mcycle, s)
  | 0xB02 => v c.minstret
  | 0xF11 => v (Config.implId 0xF11)
  | 0xF12 => v (Config.implId 0xF12)
  | 0xF13 => v (Config.implId 0xF13)
  | 0xF14 => v (BitVec.ofNat 64 s.curCore)
  | 0xF15 => v (Config.implId 0xF15)
  | 0xFC0 => v (BitVec.ofNat 64 c.xbpf.length)
  | 0xFC9 => v k.xbfltp
  | n =>
    if 0xFC1 ≤ n ∧ n ≤ 0xFC8 then v (c.xbpf.getD (n - 0xFC1) 0)
    else if (0xB03 ≤ n ∧ n ≤ 0xB1F) ∨ (0x323 ≤ n ∧ n ≤ 0x33F) then v 0
    else none

/-- R387. A faulted micro-thread that a resume mask names is ready again at its HEAD; kinds 17 and 18 are not resumed. A skip bit
counts for kind 15. -/
def resumeMt (resume skip : Nat) (i : Nat) (m : Mt) : Mt :=
  let k := recordKind m.record
  if bit resume i && m.code == 4 && k != kPOISON && k != kGANGSTOP then { m with code := 1, skip := bit skip i && k == kBRK } else m

/-- A write of xbresume. -/
def writeXbresume (s : State) (v : Word64) : State :=
  s.modCore s.curCore (fun c => { c with mts := tmap {} (resumeMt (bits v.toNat 0 32) (bits v.toNat 32 32)) c.mts })

/-- A write of a CSR that csrRead knows; fields that software does not write keep their values. -/
def csrWrite (s : State) (num : Nat) (v : Word64) : State :=
  match num with
  | 0x001 => s.modCt (fun c => { c with fcsr := (c.fcsr &&& 0xE0) ||| (v.setWidth 32 &&& 31) }.touchFs)
  | 0x002 => s.modCt (fun c => { c with fcsr := (c.fcsr &&& 31) ||| ((v.setWidth 32 &&& 7) <<< 5) }.touchFs)
  | 0x003 => s.modCt (fun c => { c with fcsr := v.setWidth 32 &&& 0xFF }.touchFs)
  | 0x300 => s.modCt (fun c => { c with mstatus := statusWrite c.mstatus v })
  | 0x304 => s.modCt (fun c => { c with mie := v &&& 0x10888 })
  | 0x305 => s.modCt (fun c => { c with mtvec := v &&& ~~~2 })
  | 0x320 => s.modCt (fun c => { c with mcountinhibit := v &&& 5 })
  | 0x340 => s.modCt (fun c => { c with mscratch := v })
  | 0x341 => s.modCt (fun c => { c with mepc := v &&& ~~~1 })
  | 0x342 => s.modCt (fun c => { c with mcause := v })
  | 0x343 => s.modCt (fun c => { c with mtval := v })
  | 0x7C0 => writeXbresume s v
  | 0x800 => if v.toNat % 8 = 7 then s else s.modCt (fun c => { c with xbscope := v.setWidth 3 })
  | 0xB00 => s.modCt (fun c => { c with mcycle := v })
  | 0xB02 => s.modCt (fun c => { c with minstret := v })
  | _ => s

/-- Whether the mode may touch a CSR (R380). -/
def csrAllowed (c : Ct) (num : Nat) (writes : Bool) : Bool := (c.machine || bits num 8 2 == 0) && !(writes && bits num 10 2 == 3)

/-- A CSR instruction: the CSR is read, then written, set or cleared; a set or clear with x0 or 0 writes nothing. -/
def csrOp (s : State) (op : RvCsr) (imm : Bool) (rd rs1 : XName) (num : Nat) (len : RvLen) : State :=
  let src : Word64 := if imm then rs1.setWidth 64 else s.ct.rx rs1
  let writes := op == .rw || rs1 != 0
  if !csrAllowed s.ct num writes then ctIllegal s
  else match csrRead s num with
    | none => ctIllegal s
    | some (old, s) =>
      let new := match op with
        | .rw => src
        | .rs => old ||| src
        | .rc => old &&& ~~~src
      let s := (ctNext s len).modCt (fun c => c.wx rd old)
      if writes then csrWrite s num new else s

/-- R380. -/
def execXbscopeWrite (op : RvCsr) (imm : Bool) (rd rs1 : XName) (s : State) : Out := .next (csrOp s op imm rd rs1 0x800 .full)

/-- R387. -/
def execXbresumeWrite (op : RvCsr) (imm : Bool) (rd rs1 : XName) (s : State) : Out := .next (csrOp s op imm rd rs1 0x7C0 .full)

/-! ## Instructions -/

/-- An x register takes a value, and the next instruction follows. -/
def ctSet (s : State) (len : RvLen) (rd : XName) (v : Word64) : State := (ctNext s len).modCt (fun c => c.wx rd v)

/-- Flags are accrued. -/
def Ct.accrue (c : Ct) (flags : Nat) : Ct := if flags = 0 then c else { c with fcsr := c.fcsr ||| BitVec.ofNat 32 flags }.touchFs

/-- A float result in an f register. -/
def ctSetF (s : State) (len : RvLen) (rd : XName) (r : Word64 × Nat) : State :=
  (ctNext s len).modCt (fun c => ((c.wf rd r.1).touchFs).accrue r.2)

/-- A float operation's result in an x register. -/
def ctSetFX (s : State) (len : RvLen) (rd : XName) (r : Word64 × Nat) : State := (ctNext s len).modCt (fun c => (c.wx rd r.1).accrue r.2)

/-- A rounding mode, or the illegal-instruction exception. -/
def withMode (s : State) (rm : BitVec 3) (f : RMode → State) : State :=
  if s.ct.floatOff then ctIllegal s
  else match rvMode s.ct rm with
    | some m => f m
    | none => ctIllegal s

/-- A float word that does not round. -/
def withFloat (s : State) (t : State) : State := if s.ct.floatOff then ctIllegal s else t

/-- A jump by a displacement in halfwords. -/
def jumpBy {w : Nat} (pc : Word64) (imm : BitVec w) : Word64 := pc + (imm.signExtend 64 <<< 1)

/-- The operations of RvOp. -/
def rvExec (s : State) (op : RvOp) (len : RvLen) : State :=
  let c := s.ct
  match op with
  | .lui rd imm => ctSet s len rd (((imm ++ 0#12 : Word32)).signExtend 64)
  | .auipc rd imm => ctSet s len rd (c.pc + ((imm ++ 0#12 : Word32)).signExtend 64)
  | .jal rd imm => (ctGo s (jumpBy c.pc imm)).modCt (fun k => k.wx rd (c.pc + rvBytes len))
  | .jalr rd rs1 imm => (ctGo s ((c.rx rs1 + imm.signExtend 64) &&& ~~~1)).modCt (fun k => k.wx rd (c.pc + rvBytes len))
  | .branch b rs1 rs2 imm => if rvTaken b (c.rx rs1) (c.rx rs2) then ctGo s (jumpBy c.pc imm) else ctNext s len
  | .aluImm o w rd rs1 imm => ctSet s len rd (rvAlu o w (c.rx rs1) (imm.signExtend 64))
  | .shiftImm o w rd rs1 sh => ctSet s len rd (rvAlu o w (c.rx rs1) (sh.setWidth 64))
  | .alu o w rd rs1 rs2 => ctSet s len rd (rvAlu o w (c.rx rs1) (c.rx rs2))
  | .mul o w rd rs1 rs2 => ctSet s len rd (rvMul o w (c.rx rs1) (c.rx rs2))
  | .b2 o rd rs1 rs2 => ctSet s len rd (rvB2 o (c.rx rs1) (c.rx rs2))
  | .b1 o rd rs1 => ctSet s len rd (rvB1 o (c.rx rs1))
  | .bi o rd rs1 sh => ctSet s len rd (rvBi o (c.rx rs1) sh)
  | .csr o imm rd rs1 num => csrOp s o imm rd rs1 num.toNat len
  | .ebreak => ctTrap s 3 0
  | .mret => if c.machine then (s.modCt returnTrap).modCt (fun k => { k with minstret := if k.mcountinhibit.getLsbD 2 then k.minstret else k.minstret + 1 }) else ctIllegal s
  | .wfi => if !c.machine && c.mstatus &&& msTW != 0 then ctIllegal s else ctNext s len
  | .fma o dbl rd rs1 rs2 rs3 rm => withMode s rm (fun m => ctSetF s len rd (rvFma o dbl (c.rf rs1) (c.rf rs2) (c.rf rs3) m))
  | .fop o dbl rd rs1 rs2 rm => withMode s rm (fun m => ctSetF s len rd (rvFop o dbl (c.rf rs1) (c.rf rs2) m))
  | .fsel o dbl rd rs1 rs2 => withFloat s (ctSetF s len rd (rvFsel o dbl (c.rf rs1) (c.rf rs2)))
  | .fcmp o dbl rd rs1 rs2 => withFloat s (ctSetFX s len rd (rvFcmp o dbl (c.rf rs1) (c.rf rs2)))
  | .fclass dbl rd rs1 => withFloat s (ctSetFX s len rd (rvClass dbl (c.rf rs1), 0))
  | .fcvtToInt t dbl rd rs1 rm => withMode s rm (fun m => ctSetFX s len rd (rvToInt t dbl (c.rf rs1) m))
  | .fcvtFromInt t dbl rd rs1 rm => withMode s rm (fun m => ctSetF s len rd (rvFromInt t dbl (c.rx rs1) m))
  | .fcvtSD rd rs1 rm => withMode s rm (fun m => ctSetF s len rd (rvResize false (c.rf rs1) m))
  | .fcvtDS rd rs1 rm => withMode s rm (fun m => ctSetF s len rd (rvResize true (c.rf rs1) m))
  | .fmvToX dbl rd rs1 => withFloat s (ctSetFX s len rd (if dbl then c.rf rs1 else sx32 (c.rf rs1), 0))
  | .fmvFromX dbl rd rs1 => withFloat s (ctSetF s len rd (rvBox dbl (c.rx rs1).toNat, 0))
  | .illegal _ => ctIllegal s

/-- R144. -/
def execCtRiscvInstruction (op : RvOp) (len : RvLen) (s : State) : Out := .next (rvExec s op len)

end Sys2Proof.Machine
end

