-- ==== Sys2Proof/Machine/MemEvents.lean ====
section
/-! DEFINITION. What the memory system does by itself: page walks, L1 fills and timers (R24, R62, R64), writes, fills, evictions and
atomics at a home slice (R66 to R68, R122, R127), prefetches (R71, R72), answers of other nodes (R14, R118), ports (R397, R398),
and detected errors (R389, R391). -/

namespace Sys2Proof.Machine

/-- A PA in memory, not in the device window. -/
def inMemory (s : State) (pa : Nat) : Bool := (tableAt s pa).toOption.isSome

/-! ## Walks and the L1 -/

/-- R24. The walker of core `here.core` reads the tables for a VA of a context, and fills the TLB where the walk succeeds. -/
def execPageWalk (ctx : BitVec 4) (va : Word64) (s : State) : Out := .next (pageWalk s s.here.core ctx.toNat va.toNat).2

/-- The line that a fill makes room with: the one named, where its set is full and it lies there clean (R71). -/
def evictFor (s : State) (core line : Nat) (victim : Option Nat) : State :=
  let ways := l1Ways (s.core core) line
  match victim with
  | some v => if ways.contains v && !ways.contains line && decide (8 ≤ ways.length) && ((s.core core).line v).dirty == 0 then evictLine s core v else s
  | none => s

/-- An 8-byte entry as the home slice would give it, with no effect. -/
def peekEntry (s : State) (pa : Nat) : Nat :=
  let l := s.slice (pa / 128)
  (upto 8).foldl (fun v i =>
    let o := pa % 128 + i
    v + (if l.held.getLsbD o then (l.data.extractLsb' (8 * o) 8).toNat else (s.arrByte (pa + i)).toNat) * 2 ^ (8 * i)) 0

/-- Whether a leaf maps a PA with NS = 1. -/
def leafNs (s : State) (e pbits pa : Nat) : Bool :=
  bit e 63 && (match plWindow s (bits e 57 5) with
    | some (base, _) => (base + bits e 12 32 * 4096) / 2 ^ pbits == pa / 2 ^ pbits
    | none => false)

/-- Whether a page of a table of a level, or of a table below it, maps a PA with NS = 1. -/
def tableNs (s : State) (pa : Nat) : Nat → Nat → Bool
  | level, tab => (upto 512).any (fun i =>
    let e := peekEntry s (tab + 8 * i)
    bit e 0 && (if bit e 1 then leafNs s e (pageBits e) pa else match level with
      | 0 => false
      | l + 1 => tableNs s pa l (bits e 12 32 * 4096)))

/-- Whether a span or a page that covers a PA has NS = 1 (R29): a page that a TLB holds, or that the tables of a valid context map. -/
def noSpec (s : State) (pa : Nat) : Bool :=
  s.span.any (fun e =>
    let x := e.2.toNat
    bit x 0 && bit x 63 && (match plWindow s (bits x 57 5) with
      | some (base, _) => base + bits x 25 19 * 2 ^ 25 == pa / 2 ^ 25 * 2 ^ 25
      | none => false)) ||
  s.cores.any (fun c => c.2.tlb.any (fun t => leafNs s t.leaf.toNat t.pbits pa)) ||
  s.ctxd.any (fun c => c.2.getLsbD 0 && tableNs s pa 3 (bits c.2.toNat 12 32 * 4096))

/-- What a prefetcher may fetch for an L1: memory, no NS page or span, no region with an in-place operation, and within a 4 KiB of PA that
the L1 holds a line of (R29, R72). -/
def mayPrefetch (s : State) (core pa : Nat) : Bool :=
  inMemory s pa && !noSpec s pa && !inPlaceBusy s pa && (s.core core).l1.any (fun e => e.1 / 32 == pa / 4096)

/-- A prefetch's sectors of a line come, with the line that makes room where one is named; it leaves only where they do come. -/
def fillWith (s : State) (core line : Nat) (victim : Option Nat) (secs : BitVec 4) : State :=
  let t := prefetchSectors (evictFor s core line victim) core line secs
  if ((t.core core).line line).valid &&& secs == secs then t else s

/-- R62. The sector at `here.pa` arrives at the L1 of core `here.core` and merges under the dirty mask. A load's own fills are part of
the load (log 1), so this one is a prefetch's, with its limits; one issued before an in-place operation was accepted still completes
(R71, R72). -/
def execL1Fill (victim : Option Nat) (s : State) : Out :=
  let pa := s.here.pa
  let core := s.here.core
  let line := pa / 128
  let sec : BitVec 4 := onesAt 4 (pa % 128 / 32) 1
  if s.prefs.contains (core, line) then
    .next (fillWith { s with prefs := s.prefs.erase (core, line) } core line victim 15)
  else if mayPrefetch s core pa && !fillPoisoned s line && ((s.core core).line line).valid &&& sec == 0 then
    .next (fillWith s core line victim sec)
  else .next s

/-- R64. The timer of the sector at `here.pa` expires: its dirty bytes are written back. -/
def execSectorTimerExpiry (s : State) : Out :=
  let pa := s.here.pa
  .next (writeBack s s.here.core (pa / 128) (sectorMask (onesAt 4 (pa % 128 / 32) 1)))

/-! ## Home slices -/

/-- R67. A write of bytes of a line arrives at its home slice and is performed, every clean copy in an L1 dropped. -/
def execHomeSliceWrite (line : Nat) (mask : LineMask) (data : LineData) (s : State) : Out :=
  if inMemory s (128 * line) then .next (sliceWrite (closeLine s line) line mask data .other 0 none) else .next s

/-- What a home slice may fill with no access of a program: memory, no NS page or span, no region with an in-place operation (R29, R72). -/
def mayFill (s : State) (pa : Nat) : Bool := inMemory s pa && !noSpec s pa && !inPlaceBusy s pa

/-- R68. The home slice fills the line at `here.pa` from the arrays, and where it serves a fill of the L1 of core `here.core` hands it the line.
A fill that an access asks for is part of the access (log 1), so this one has a prefetch's limits, the slice's (R29, R72) and the L1's. A data
line of the slice's set makes room only where the slice does not hold the line and every way is in use; the directory drops nothing for a fill
of the slice alone, since no L1 takes the line (R67, R420). -/
def execHomeSliceFill (evict : Option Nat) (serves : Bool) (s : State) : Out :=
  let line := s.here.pa / 128
  if !mayFill s s.here.pa then .next s else
  let takes := serves && mayPrefetch s s.here.core s.here.pa
  let s := match evict with
    | some v => if !(s.slice line).live && decide (12 ≤ (sliceWays s line).length) && (sliceWays s line).contains v then evictSlice s v else s
    | none => s
  let s := sliceFill (closeLine s line) line 15
  .next (if takes then fillWith s s.here.core line none 15 else s)

/-- An integer atomic at the home slice of a PA (R122); one that is not naturally aligned performs nothing. -/
def sliceAtomic (s : State) (pa : Nat) (size : Size) (op : AmoOp) (x : Word64) : State :=
  let n := size.bits / 8
  if pa % n ≠ 0 then s else
  let line := pa / 128
  let (r, s) := sliceLoad (closeLine s line) line (pa % 128) n
  let new := amoInt op (8 * n) r.val (x.toNat % 2 ^ (8 * n))
  sliceWrite s line (lineSpan (pa % 128) n) (BitVec.ofNat 1024 (new * 2 ^ (8 * (pa % 128)))) .other r.poison none

/-- R122. An atomic request is read, combined and written indivisibly at the home slice of `here.pa`. -/
def execAtomicAtSlice (size : Size) (op : AmoOp) (x : Word64) (s : State) : Out :=
  if inMemory s s.here.pa then .next (sliceAtomic s s.here.pa size op x) else .next s

/-- Whether a packet may be performed now: none of its sender to the same slice waits before it (R126). -/
def packetFirst (s : State) (before : List VrstPkt) (p : VrstPkt) : Bool :=
  !(before.any (fun q => q.dev.isNone && !q.batch && q.sid == p.sid && sliceNo s (128 * q.line) == sliceNo s (128 * p.line)))

/-- The first packet to a line that is in no batch, with those sent before it. -/
def findPacket (line : Nat) : List VrstPkt → List VrstPkt → Option (List VrstPkt × VrstPkt × List VrstPkt)
  | _, [] => none
  | pre, p :: l => if p.line == line && p.dev.isNone && !p.batch then some (pre, p, l) else findPacket line (pre ++ [p]) l

/-- R126. The next remote-reduce packet to the line of `here.pa` is added there, as another write of its line that
closes a batch; packets in a batch wait for its close (R127). -/
def execVrstPacket (s : State) : Out :=
  match findPacket (s.here.pa / 128) [] s.vrst with
  | some (pre, p, post) => if packetFirst s pre p then .next (applyPacket (closeBatch { s with vrst := pre ++ post } p.line) p) else .next s
  | none => .next s

/-! ## Prefetchers (R71, R72) -/

/-- The home slice's prefetcher takes a line from the arrays, where it meets no poison and finds room (R71). -/
def slicePrefetch (s : State) (line : Nat) : State :=
  if fillPoisoned s line then s else
  match cleanSliceRoom s line with
  | some s => sliceFill (closeLine s line) line 15
  | none => s

/-- A prefetch is done now; where the next move is a delay it is issued now and done later (R72, log 52). -/
def prefetchOr (s : State) (core line : Nat) (now : State → State) : State :=
  match s.sched with
  | .delay :: l => { s with sched := l, prefs := s.prefs ++ [(core, line)] }
  | _ => now s

/-- R71, R72. A prefetcher fills the line of `here.pa`: the stride prefetcher of the L1 of core `here.core` (`here.sub` = 0), or the home
slice, after the line before it in its 4 KiB. The slice's prefetches that are still to be done come here too, the L1's by L1_FILL. -/
def execHwPrefetch (s : State) : Out :=
  let pa := s.here.pa
  let line := pa / 128
  if s.here.sub = 0 then
    .next (if mayPrefetch s s.here.core pa then prefetchOr s s.here.core line (fun s => prefetchLine s s.here.core pa) else s)
  else if s.prefs.contains (1024, line) then .next (slicePrefetch { s with prefs := s.prefs.erase (1024, line) } line)
  else if !mayFill s pa || line % 32 == 0 || !(s.slice (line - 1)).live then .next s
  else .next (prefetchOr s 1024 line (fun s => slicePrefetch s line))

/-! ## Other nodes (R14, R118, R129, R397, R398) -/

/-- The oldest access posted to a device is answered. -/
def answered (s : State) (core dev : Nat) : State :=
  let k := core * 2048 + dev
  { s with posted := tset [] s.posted k ((tget [] s.posted k).drop 1) }

/-- Whether a core has an access posted to a device. -/
def hasPosted (s : State) (core dev : Nat) : Bool := tget [] s.posted (core * 2048 + dev) != []

/-- The oldest write posted to a device is refused (R14): the event names its own VA. -/
def postedError (s : State) (core dev : Nat) : State :=
  match tget [] s.posted (core * 2048 + dev) with
  | (_, va) :: _ => refusedWrite (answered s core dev) core dev va
  | [] => s

/-- Every posted access comes back with an access error, since no port is left (R398, log 10). -/
def allRefused (s : State) : State :=
  s.posted.foldl (fun s e => e.2.foldl (fun s a => refusedWrite s (e.1 / 2048) (e.1 % 2048) a.2) s) { s with posted := [] }

/-- R398. Port `here.idx` goes down; the fabric routes around it, and where it was the last one nothing posted can be answered. -/
def execPortDown (s : State) : Out :=
  let s := { s with ports := s.ports &&& ~~~(onesAt 18 s.here.idx 1) }
  .next (if s.ports = 0 then allRefused s else s)

/-- R397. The link layer sends the flit again until it arrives whole; nothing else is visible. -/
def execFlitCrcRetry (s : State) : Out := .next s

/-! ## Detected errors (R389, R391) -/

/-- A pool word becomes poisoned. -/
def poisonPool (s : State) (core off : Nat) : State :=
  countRel (s.modCore core (fun c => { c with poolPoison := keyIn (off / 8 * 8) c.poolPoison })) core 0x20

/-- An L1 sector with an uncorrectable error: a clean one is dropped, a dirty one is poisoned. -/
def errorL1 (s : State) (core pa : Nat) : State :=
  let line := pa / 128
  let k := pa % 128 / 32
  let l := (s.core core).line line
  let sec : BitVec 4 := onesAt 4 k 1
  if l.dirty.extractLsb' (32 * k) 32 != 0 then
    countRel (s.modCore core (fun c => c.setLine line { l with poison := l.poison ||| sec })) core 0x20
  else if l.valid &&& sec != 0 then
    let l' := { l with valid := l.valid &&& ~~~sec, poison := l.poison &&& ~~~sec }
    s.modCore core (fun c => c.setLine line (if l'.valid = 0 && l'.dirty = 0 then {} else l'))
  else s

/-- A slice sector with an uncorrectable error: one whose bytes the arrays hold is dropped, another is poisoned. -/
def errorSlice (s : State) (pa : Nat) : State :=
  let line := pa / 128
  let k := pa % 128 / 32
  let l := s.slice line
  let span := onesAt 128 (32 * k) 32
  let sec : BitVec 4 := onesAt 4 k 1
  if l.held &&& span = 0 then s
  else if (l.dirty ||| l.guarded) &&& span = 0 then
    let l' := { l with held := l.held &&& ~~~span, poison := l.poison &&& ~~~sec }
    s.setSlice line (if l'.held = 0 then {} else l')
  else countDie (s.setSlice line { l with poison := l.poison ||| sec }) (homeDie s pa) 0x20 (pa / 32 * 32)

/-- A span entry with an uncorrectable error: one with CRIT = 1 is read from its twin, which the corrected errors count, until the twin is
lost too; an entry without a whole copy is lost until it is written (R22, R31, R389). -/
def errorSpan (s : State) (die ctx idx : Nat) : State :=
  let k := spanKey die ctx idx
  if (tget 0 s.span k).getLsbD 62 && tget 0 s.spanErr k == 0 then countDie { s with spanErr := tset 0 s.spanErr k 1 } die 0 0
  else countDie { s with spanErr := tset 0 s.spanErr k 2 } die 0x20 0

/-- R389. An uncorrectable error is found in a granule: a redundant copy is dropped, an only copy becomes poison. -/
def execDoubleBitError (loc : Place) (s : State) : Out :=
  match loc with
  | .l1 core pa => .next (errorL1 s core pa)
  | .slice pa => .next (errorSlice s pa)
  | .array pa => .next (if inMemory s pa then
      countDie { s with arrPoison := keyIn (pa / 32) s.arrPoison } (homeDie s pa) 0x20 (pa / 32 * 32) else s)
  | .reg core mt p word => .next (poisonPool s core ((mt * (s.core core).info.p + p) * 512 + 8 * word))
  | .scratch core a => .next (poisonPool s core ((s.core core).scrBase + a))
  | .acc core a => .next (poisonPool s core ((s.core core).accBase + a))
  | .talus core mt a => .next (poisonPool s core ((s.core core).talusAt mt a))
  | .link core mt a => .next (match ((s.core core).mt mt).fifo[a / 512]? with
      | some _ => countRel (s.modCore core (fun c =>
          let m := c.mt mt
          c.setMt mt { m with fifo := m.fifo.modify (a / 512) (fun v => { v with poison := v.poison ||| onesAt 64 (a % 512 / 8) 1 }) })) core 0x20
      | none => s)
  | .lodeLine core pa => .next (s.modCore core (fun c => { c with lodeCache := c.lodeCache.filter (fun e => e.1 != pa / 128) }))
  | .span die ctx idx => .next (errorSpan s die ctx idx)

/-! ## What the hardware meets by itself (log 50) -/

/-- R388. A corrected single-bit error counts: in the core's counters, or in its die's for a slice, the arrays or the span store. -/
def correctedError (s : State) (loc : Place) : State :=
  match loc with
  | .l1 core _ => countRel s core 0
  | .reg core _ _ _ => countRel s core 0
  | .scratch core _ => countRel s core 0
  | .acc core _ => countRel s core 0
  | .talus core _ _ => countRel s core 0
  | .link core _ _ => countRel s core 0
  | .lodeLine core _ => countRel s core 0
  | .slice pa => if inMemory s pa then countDie s (homeDie s pa) 0 (pa / 32 * 32) else s
  | .array pa => if inMemory s pa then countDie s (homeDie s pa) 0 (pa / 32 * 32) else s
  | .span die _ _ => countDie s die 0 0

/-- R27. A parity error: the entry is invalid, so that the next access walks again, and the event counts. -/
def tlbParity (s : State) (core n : Nat) : State :=
  if n < (s.core core).tlb.length then countRel (s.modCore core (fun c => { c with tlb := c.tlb.eraseIdx n })) core 0x28 else s

def walkParity (s : State) (core n : Nat) : State :=
  if n < (s.core core).walk.length then countRel (s.modCore core (fun c => { c with walk := c.walk.eraseIdx n })) core 0x28 else s

/-- R31. The two banks of a span entry with CRIT = 1 disagree in four reads: each lookup raises UNST and logs its event, until the banks agree
again. -/
def spanTorn (s : State) (die ctx idx : Nat) : State :=
  let k := spanKey die ctx idx
  if (tget 0 s.span k).getLsbD 62 && decide (tget 0 s.spanErr k < 2) then { s with spanErr := tset 0 s.spanErr k 3 } else s

/-- R22. The damaged copy of a span entry is written again from its twin, or its banks agree again. -/
def spanRepair (s : State) (die ctx idx : Nat) : State :=
  let k := spanKey die ctx idx
  if tget 0 s.spanErr k = 2 then s else { s with spanErr := tset 0 s.spanErr k 0 }

/-- Whether an element's value is finite, and its scales are numbers. -/
def MatVal.finite (v : MatVal) : Bool := !v.inv && v.parts.all (fun p => match p with
  | .fin _ _ _ => true
  | _ => false)

/-- Whether the slab checks chunk n of a row: every product of it is finite (R396). -/
def chunkChecked (c : Core) (j : MatJob) (i n : Nat) : Bool :=
  let src := match j.idx with
    | some l => l.getD i 0
    | none => i
  let ks := (upto (min 32 (j.kk - 32 * n))).map (fun k => 32 * n + k)
  ks.all (fun k => (matElem c j.a src k).finite && (upto j.n).all (fun col => (if j.t then matElem c j.b col k else matElem c j.b k col).finite))

/-- R396. A slab of the running `mmac` of a core finds a second mismatch in a chunk of its rows that it checks: those rows of the entry's
tile become poison, CSUMF of the die counts, and the entry goes on. -/
def checksumError (s : State) (core slab : Nat) : State :=
  let c := s.core core
  match running c 1 with
  | some e => match matJob e.cmd with
    | some j =>
      let done := min j.m (min (32 * slab + 32) (e.restart.getD 0))
      let rows := (upto (done - 32 * slab)).map (fun r => 32 * slab + r)
      if e.err = 0 && rows.any (fun i => (upto ((j.kk + 31) / 32)).any (fun n => chunkChecked c j i n)) then
        let words := (((upto (min j.m (32 * slab + 32) - 32 * slab)).map (fun r =>
          (upto 128).map (fun w => c.accBase + j.at_ (32 * slab + r) 0 * 4 + 8 * w)))).flatten
        countDie (setEngine s core { c with poolPoison := words.foldl (fun l o => keyIn o l) c.poolPoison }) (dieOf core) 0x18 0
      else s
    | none => s
  | none => s

/-- What a hardware event does. -/
def hwEvent (s : State) (e : HwEvent) : State :=
  match e with
  | .corrected loc => correctedError s loc
  | .tlbParity core n => tlbParity s core n
  | .walkParity core n => walkParity s core n
  | .leafTorn core => s.modCore core (fun c => { c with torn := true })
  | .spanTorn die ctx idx => spanTorn s die ctx idx
  | .spanRepair die ctx idx => spanRepair s die ctx idx
  | .checksum core slab => checksumError s core slab
  | .storeEnters core who => storeEnters s core who

end Sys2Proof.Machine
end

