-- ==== Sys2Proof/Machine/Save.lean ====
section
/-! DEFINITION. Saved launches (R194 to R200, R393): the pool as bytes (R43, R48, R58, R59), shadow slots and shares, what a save keeps
of a core, and what a resume brings back. -/

namespace Sys2Proof

/-- What a resume reads of a core from a share whose bytes have changed since the image was left there, drawn at a count (R196, log 39). -/
opaque Config.freeImage : Nat → Machine.Core

namespace Machine

/-! ## The pool as bytes -/

/-- Consecutive bytes put into a table. -/
def putBytes (m : List Host.Cell) (a : Nat) (bs : List Byte) : List Host.Cell := tsetRange 0 m a bs

/-- The resident stream bytes of a micro-thread's talus (R333). -/
def residentRange (c : Core) (m : Mt) : Nat × Nat := (4096 * spillOf (tsdBytes m.regs.tsd) c.info.chunks, tsdBytes m.regs.tsd)

/-- The pool of a core, as bytes at pool offsets: register region, scratchpad, accumulator and talus partitions (R43). -/
def poolCells (c : Core) : List Host.Cell :=
  let regs := c.mts.foldl (fun m e => e.2.regs.v.foldl (fun m r =>
    putBytes m ((e.1 * c.info.p + r.1) * 512) (leBytes 512 r.2.toNat)) m) []
  let scr := c.scratch.foldl (fun m e => tset 0 m (c.scrBase + e.1) e.2) regs
  let acc := c.acc.foldl (fun m e => putBytes m (c.accBase + 4 * e.1) (leBytes 4 e.2.toNat)) scr
  c.mts.foldl (fun m e => e.2.talus.foldl (fun m b => tset 0 m (c.talusAt e.1 b.1) b.2) m) acc

/-- A core with the pool contents that `rd` gives: `rd a n` is the number whose bytes lie from pool offset `a` (R393). -/
def withPool (c : Core) (rd : Nat → Nat → Nat) : Core :=
  let mtOf (i : Nat) (m : Mt) : Mt :=
    let v := (upto c.info.p).foldl (fun (t : Tab VReg) p => tset 0 t p (BitVec.ofNat 4096 (rd ((i * c.info.p + p) * 512) 512))) []
    let (lo, hi) := residentRange c m
    { m with
      regs := { m.regs with v := v }
      talus := (upto (hi - lo)).foldl (fun t k => tset 0 t (lo + k) (BitVec.ofNat 8 (rd (c.talusAt i (lo + k)) 1))) [] }
  { c with
    mts := tmap {} mtOf c.mts
    scratch := (upto c.scrBytes).foldl (fun t a => tset 0 t a (BitVec.ofNat 8 (rd (c.scrBase + a) 1))) []
    acc := (upto (c.accTiles * 8192)).foldl (fun t i => tset 0 t i (BitVec.ofNat 32 (rd (c.accBase + 4 * i) 4))) [] }

/-! ## Places of images (R195, R196) -/

/-- The cores of a partition, in rank order. -/
def partCores (s : State) (p : Nat) : List Nat := (upto 512).filter (fun c => quadPart s c == some p)

/-- The rank of a core among its partition's. -/
def rankOf (s : State) (core : Nat) : Nat :=
  match quadPart s core with
  | some p => ((partCores s p).filter (fun c => decide (c < core))).length
  | none => 0

def shareBytes : Nat := 6 * 2 ^ 20

/-- The PA of a share. -/
def sharePa (s : State) (p r : Nat) : Nat := bits (tget 0 s.pcfg p).toNat 24 20 * 2 ^ 24 + r * shareBytes

/-- Whether the shadow slot of a core holds an image. -/
def slotUsed (s : State) (core : Nat) : Bool := s.saved.any (fun v => (v.images.zip v.places).any (fun i => i.1.1 == core && i.2 == none))

/-- Whether a share of a partition holds an image. -/
def shareUsed (s : State) (p r : Nat) : Bool := s.saved.any (fun v => v.launch.part == p && v.places.contains (some r))

/-- R196. -/
def coreFreeable (s : State) (core : Nat) : Bool :=
  !slotUsed s core || (match quadPart s core with
    | some p => !shareUsed s p (rankOf s core)
    | none => false)

/-- The k-th line of a run of free values. -/
def openLine (seed k : Nat) : LineData :=
  BitVec.ofNat 1024 ((upto 16).foldl (fun v j => v + (Config.freeWord (seed + 16 * k + j)).toNat * 2 ^ (64 * j)) 0)

/-- Whole lines of a share, from line `lo` to line `hi - 1`, that take image bytes whose layout is open: free values (log 40). -/
def writeOpen (s : State) (pa lo hi : Nat) : State :=
  (upto (hi - lo)).foldl (fun t k =>
    let line := pa / 128 + lo + k
    sliceWrite (closeLine t line) line (BitVec.allOnes 128) (openLine s.fresh k) .other 0 none) { s with fresh := s.fresh + 16 * (hi - lo) }

/-- The image in the slot of a core moves to the core's share (R195). -/
def moveImage (s : State) (core : Nat) : State :=
  let r := rankOf s core
  let seed := s.fresh
  let s := match quadPart s core with
    | some p => writeOpen s (sharePa s p r) 0 (shareBytes / 128)
    | none => s
  let mine (i : (Nat × Core) × Option Nat) : Bool := i.1.1 == core && i.2 == none
  { s with saved := s.saved.map (fun v =>
      if v.saving then v else { v with
        places := (v.images.zip v.places).map (fun i => if mine i then some r else i.2)
        seeds := ((v.images.zip v.places).zip (upto v.images.length)).map (fun i => if mine i.1 then seed else v.seeds.getD i.2 0) }) }

/-- Whether the share at a PA still holds, from its line `lo` on, the bytes that an image left there (log 39). -/
def shareHolds (s : State) (pa lo seed : Nat) : Bool × State :=
  (upto (shareBytes / 128 - lo)).foldl (fun (r : Bool × State) k =>
    let (ok, s) := r
    let line := pa / 128 + lo + k
    let (x, s) := sliceLoad (closeLine s line) line 0 128
    (ok && x.poison == 0 && x.val == (openLine seed k).toNat, s)) (true, s)

/-- A core whose pool contents are free values (log 39). -/
def openPool (s : State) (c : Core) : Core × State :=
  (withPool c (fun a n => ((upto ((n + 7) / 8)).foldl (fun v k => v + (Config.freeWord (s.fresh + a + 8 * k)).toNat * 2 ^ (64 * k)) 0) % 2 ^ (8 * n)),
    { s with fresh := s.fresh + 2 ^ 23 })

/-- What a resume reads from a share whose bytes have changed since, as far as no rule gives their layout: the micro-threads' registers, addresses
and queues, the control thread, the engine queues, the tensor table and the tags are a free value. What is no part of an image's bytes stays:
the launch, the slabs attached and whether the control thread runs (R195, R197, log 39). -/
def openState (s : State) (c : Core) : Core × State :=
  let f := Config.freeImage s.fresh
  let mt (i : Nat) : Mt :=
    let m := f.mt i
    { m with
      regs := { m.regs with v := (c.mt i).regs.v, mgr := (c.mt i).regs.mgr }
      talus := (c.mt i).talus, slabs := (c.mt i).slabs, code := if [0, 1, 4].contains m.code then m.code else 1
      lode := none, late := [], parked := none, moves := false }
  ({ c with
    mts := (upto c.info.n).foldl (fun t i => tset {} t i (mt i)) []
    ct := { f.ct with active := c.ct.active, late := [] }
    tags := f.tags, tens := f.tens, recency := f.recency, pairs := f.pairs, seen := f.seen, pending := f.pending
    queues := tmap {} (fun _ q => { q with entries := q.entries.map (fun e => { e with started := false }) }) f.queues
    stale := f.stale, ictl := f.ictl, rngc0 := f.rngc0, rngc1 := f.rngc1, rngk0 := f.rngk0, rngk1 := f.rngk1 },
    { s with fresh := s.fresh + 1 })

/-- An image that was moved to a share is read from there: as it was left, or free values where the share's bytes have changed since or are
poisoned (R195, R196, R391, log 39). -/
def readImage (s : State) (pa seed : Nat) (img : Core) : Core × State :=
  match shareHolds s pa 0 seed with
  | (true, s) => (img, s)
  | (false, s) =>
    let (c, s) := openPool s img
    let pz := (Config.freeImage s.fresh).poolPoison
    let (c, s) := openState s c
    ({ c with poolPoison := pz.filter (fun o => o % 8 == 0) }, s)

/-! ## Stopping (R194, R199, R200, R393) -/

/-- A started entry that a pre-emption does not drain: an unmatched collective, which keeps its place in its group (R199), or an `mmac`
under LEG, which stops at a row boundary (R200). -/
def withdraw (leg : Bool) (q : Nat) (e : Entry) : Entry :=
  if e.started && e.work && ((q == 3 && e.wr.isEmpty) || (q == 1 && leg)) then
    { e with started := false, work := q == 1, held := [], mr := [], mw := [], rd := [], got := [] }
  else e

/-- MRS of the enqueuing micro-thread takes the first row that a stopped `mmac` has not accumulated (R200). -/
def markRow (c : Core) : Core :=
  match (c.queue 1).entries with
  | e :: _ =>
    if e.started && e.work && decide (e.who < 32) then
      c.setMt e.who ((c.mt e.who).setMrs (BitVec.ofNat 32 (e.restart.getD 0)))
    else c
  | [] => c

/-- A convoy that has issued and waits under R174, or none: a convoy in flight retires or faults before its micro-thread stops. -/
def Mt.atBoundary (m : Mt) : Bool := m.parked.isNone || m.parked.any (fun p => p.waitsOpen)

/-- A micro-thread whose convoy waits gives it up unissued; a `bar` keeps its arrival pending (R104, R194, R197). -/
def abandonConvoy (m : Mt) : Mt :=
  if m.atBoundary then
    { m with parked := none, code := if m.parked.isSome then 1 else m.code, yieldLeft := 0, yieldFor := [], yieldAll := [], tagWait := none }
  else m

/-- A `mt.get` the control thread is stalled in is abandoned, and executed again on resume (R194). -/
def isPutOrStop : Pending → Bool
  | .get _ _ _ => false
  | _ => true

/-- Issue stops on a core, and its engines take up no further entry; under LEG SAVELODE enters the queue of mt0 (R194, R200). -/
def stopCore (c : Core) (gang : Bool) : Core :=
  let leg := c.info.leg && !gang
  let c := if leg then markRow c else c
  let c := { c with
    stopping := true
    mts := tmap {} (fun _ m => abandonConvoy m) c.mts
    queues := tmap {} (fun q (k : Queue) => { k with entries := k.entries.map (withdraw leg q) }) c.queues
    ct := { c.ct with resv := none, stalled := false, ending := false, fetched := none }
    pending := c.pending.filter isPutOrStop
    got := none }
  if leg then c.setMt 0 { c.mt 0 with lodeq := (c.mt 0).lodeq ++ [(c.info.sav, none)] } else c

/-- Whether a stopping core has drained: no convoy is in flight, no entry is started, and mt0 has run SAVELODE under LEG. -/
def coreDrained (c : Core) (gang : Bool) : Bool :=
  c.mts.all (fun e => e.2.atBoundary) && c.queues.all (fun e => e.2.entries.all (fun e => !e.started)) &&
    (gang || !c.info.leg || ((c.mt 0).isIdle && (c.mt 0).lodeq.isEmpty) || (c.mt 0).code == 4)

/-! ## Saving and freeing -/

/-- The image of a core: what the launch can see (R194). Under LEG the accumulator partition is not saved (R200). -/
def imageOf (c : Core) (gang : Bool) : Core :=
  { c with
    l1 := [], lodeCache := [], tlb := [], walk := [], stopping := false, halted := false, rel := [], lreq := 0, xreq := 0
    dbgctl := 0, trbase := 0, trsize := 0, trpos := 0, smpctl := 0, smpcnt := 0, trLast := 0
    acc := if c.info.leg && !gang then [] else c.acc }

/-- A core that runs no launch: what belongs to the core itself stays, its L1, TLB, counters and debug registers. -/
def freedCore (c : Core) : Core :=
  { c with
    launch := none, mts := [], scratch := [], tags := [], acc := [], poolPoison := [], tens := [], lodeCache := []
    queues := tmap {} (fun _ q => { q with entries := [] }) c.queues
    stopping := false, recency := [], pending := [], got := none, seen := [], pairs := false
    ct := { c.ct with active := false, stalled := false, ending := false, resv := none, fetched := none, late := [] } }

/-- The core that a launch resumes on: the image, over what belongs to the core itself; slabs are attached again with the saved MGR,
a pending arrival counts when its `bar` is issued again, q3 stays held after a timeout of this core (R143), and under LEG RESTLODE comes
first in the queue of mt0 (R197, R200). -/
def resumeCore (c img : Core) : Core :=
  let k := { img with
    l1 := c.l1, tlb := c.tlb, walk := c.walk, rel := c.rel, lreq := c.lreq, xreq := c.xreq, halted := c.halted
    dbgctl := c.dbgctl, trbase := c.trbase, trsize := c.trsize, trpos := c.trpos, smpctl := c.smpctl, smpcnt := c.smpcnt, trLast := c.trLast
    mts := tmap {} (fun _ m => { m with uncounted := m.pend }) img.mts
    ct := img.ct }
  let k := if (c.queue 3).timeout then k.setQueue 3 { k.queue 3 with held := (c.queue 3).held, timeout := true } else k
  if k.info.leg then k.setMt 0 { k.mt 0 with lodeq := (k.info.rest, none) :: (k.mt 0).lodeq } else k

/-- The share of a gang's image takes the pool in its first 4 MiB: whole lines at the home slices, poisoned words as poisoned sectors
(R393). -/
def writePool (s : State) (pa : Nat) (c : Core) : State :=
  let cells := poolCells c
  (upto 32768).foldl (fun s k =>
    let line := pa / 128 + k
    let pz := c.poolPoison.foldl (fun (p : BitVec 4) o => if o / 128 = k then p ||| onesAt 4 (o % 128 / 32) 1 else p) 0
    let data : LineData := BitVec.ofNat 1024 (leNat (trange 0 cells (128 * k) 128))
    sliceWrite (closeLine s line) line (BitVec.allOnes 128) data .other pz none) s

/-- A resumed gang member as its share holds it: the pool from the first 4 MiB, words of poisoned sectors poisoned (R391, R393), and the rest as it
was left, or free values where the bytes behind the pool have changed since (R196, log 39). -/
def readPool (s : State) (pa seed : Nat) (c : Core) : Core × State :=
  let (cells, pz, s) := (upto 32768).foldl (fun (r : List Host.Cell × List Nat × State) k =>
    let (cells, pz, s) := r
    let line := pa / 128 + k
    let (x, s) := sliceLoad (closeLine s line) line 0 128
    let bad := (upto 16).filterMap (fun w => if x.poison.getLsbD (w / 4) then some (128 * k + 8 * w) else none)
    (putBytes cells (128 * k) (leBytes 128 x.val), pz ++ bad, s)) ([], [], s)
  let (c, s) := match shareHolds s pa 32768 seed with
    | (true, s) => (c, s)
    | (false, s) => openState s c
  ({ withPool c (fun a n => leNat (trange 0 cells a n)) with poolPoison := pz }, s)

end Machine

end Sys2Proof
end

