-- ==== Sys2Proof/Machine/Sched.lean ====
section
/-! DEFINITION. The scheduler (R175 to R192): launch queues and records, refusals, placement, admission, resumption, and the choice of
launches to pre-empt. -/

namespace Sys2Proof.Machine

/-- A move that the device makes next. -/
def follow (s : State) (h : Here) (i : Instr) : State := { s with sched := .event h i :: s.sched }

/-- An admission pass follows (R190). -/
def passNext (s : State) : State := follow s {} .admissionPass

/-! ## The queues' memory (R178 to R181) -/

def lqKey (p q : Nat) : Nat := 16 * p + q
def lqOf (s : State) (p q : Nat) : LQueue := tget {} s.lq (lqKey p q)
def setLq (s : State) (p q : Nat) (x : LQueue) : State := { s with lq := tset {} s.lq (lqKey p q) x }
def LQueue.enabled (x : LQueue) : Bool := x.lqd.getLsbD 0
def LQueue.base (x : LQueue) : Nat := bits x.lqd.toNat 12 36 * 4096
def LQueue.size (x : LQueue) : Nat := 2 ^ bits x.lqd.toNat 8 4

/-- The context of a partition, and whether the partition is enabled (R177). -/
def partCtx (s : State) (p : Nat) : Nat := bits (tget 0 s.pcfg p).toNat 0 4
def partOn (s : State) (p : Nat) : Bool := (tget 0 s.pcfg p).getLsbD 4

/-- A queue error (R181): EN clears, ERR takes the code, and an event names the partition, the queue and the VA. -/
def queueError (s : State) (p q code va : Nat) : State :=
  let x := lqOf s p q
  let lqd := (x.lqd &&& ~~~0xE1) ||| BitVec.ofNat 64 (code * 32)
  logEvent (setLq s p q { x with lqd := lqd }) (lqKey p q) 0 0 va

/-- `n` bytes that the scheduler reads in a partition's context, at the home slices; or the queue error they meet. -/
def schedRead (s : State) (p q va n code : Nat) : Option Nat × State :=
  match spanXlat s 0 (partCtx s p) va { r := true } with
  | .error e => (none, queueError (logUnst s 0 [(va, e)]) p q code va)
  | .ok x =>
    match x.dev with
    | some _ =>
      let (bad, s) := farError s
      if bad then (none, queueError s p q code va) else
      let pz := Config.remotePoison s.fresh
      let (v, s) := drawBytes s n
      if pz then (none, queueError s p q 4 va) else (some v, s)
    | none =>
      let (v, _, pz, s) := homeRead (closeRange s x.pa n) x.pa n
      if pz then (none, queueError s p q 4 va) else (some v, s)

/-- A write that the scheduler makes at the home slices; a refused one is an error and is held (R181), as is one to another node that answers
with an access error (log 10). -/
def schedPut (s : State) (p q va n v : Nat) : Bool × State :=
  match spanXlat s 0 (partCtx s p) va { w := true } with
  | .error e => (false, queueError (logUnst s 0 [(va, e)]) p q 3 va)
  | .ok x =>
    match x.dev with
    | some _ =>
      let (bad, s) := farError s
      if bad then (false, queueError s p q 3 va) else (true, s)
    | none => (true, homeWrite (closeRange s x.pa n) x.pa (leBytes n v))

/-- How wide a field of the queue region is that the scheduler writes: STATUS 8 bytes, HEAD and DONE 4. -/
def fieldBytes (va : Nat) : Nat := if va % 256 = 0xF8 then 8 else 4

/-- A write of STATUS or HEAD: behind writes that are held, it is held too. -/
def schedWrite (s : State) (p q va v : Nat) : State :=
  let hold (s : State) : State :=
    let x := lqOf s p q
    setLq s p q { x with held := x.held ++ [(va, BitVec.ofNat 64 v)] }
  if (lqOf s p q).held.isEmpty then
    match schedPut s p q va (fieldBytes va) v with
    | (true, s) => s
    | (false, s) => hold s
  else hold s

/-- The writes that a queue holds are made in order, up to one that is refused again; a write of DONE is followed by a pass (R190). -/
def performHeld (p q : Nat) : List (Nat × Word64) → State → State
  | [], s => setLq s p q { lqOf s p q with held := [] }
  | (va, v) :: l, s =>
    match schedPut s p q va (fieldBytes va) v.toNat with
    | (true, s) => performHeld p q l (if va % 256 = 12 then passNext s else s)
    | (false, s) => setLq s p q { lqOf s p q with held := (va, v) :: l }

/-- A queue's header: TAIL, HEAD, DONE (R179). -/
structure QHeader where
  tail : Nat
  head : Nat
  done : Nat
  deriving DecidableEq, Repr

def readHeader (s : State) (p q : Nat) : Option QHeader × State :=
  match schedRead s p q (lqOf s p q).base 16 1 with
  | (none, s) => (none, s)
  | (some v, s) => (some ⟨bits v 0 32, bits v 64 32, bits v 96 32⟩, s)

/-- Serial arithmetic: a is at or past n (R77, R179). -/
def atOrPast (a n : Nat) : Bool := decide ((a + 2 ^ 32 - n % 2 ^ 32) % 2 ^ 32 < 2 ^ 31)

/-- The VA of record n (R179). -/
def recordVa (x : LQueue) (n : Nat) : Nat := x.base + 256 * (1 + n % x.size)

/-- DONE advances over every leading record whose STATUS is nonzero (R187). -/
def advanceGo (p q : Nat) : Nat → QHeader → State → QHeader × State
  | 0, h, s => (h, s)
  | n + 1, h, s =>
    if h.done = h.head then (h, s) else
    match schedRead s p q (recordVa (lqOf s p q) h.done + 0xF8) 8 2 with
    | (none, s) => (h, s)
    | (some 0, s) => (h, s)
    | (some _, s) => advanceGo p q n { h with done := (h.done + 1) % 2 ^ 32 } s

def advanceDone (s : State) (p q : Nat) : State :=
  match readHeader s p q with
  | (none, s) => s
  | (some h, s) =>
    let (h', s) := advanceGo p q (lqOf s p q).size h s
    if h'.done = h.done then s else passNext (schedWrite s p q ((lqOf s p q).base + 12) h'.done)

/-- STATUS of record n: CODE and REASON, and then DONE, which is held with a STATUS that is refused (R181, R187). -/
def setStatus (s : State) (p q n code reason : Nat) : State :=
  let s := schedWrite s p q (recordVa (lqOf s p q) n + 0xF8) (code * 2 ^ 56 + reason * 2 ^ 48)
  if (lqOf s p q).held.isEmpty then advanceDone s p q else s

/-- HEAD passes a record: the next one's waiting time starts anew. -/
def passHead (s : State) (p q head : Nat) : State :=
  let x := lqOf s p q
  schedWrite (setLq s p q { x with since := none }) p q (x.base + 8) ((head + 1) % 2 ^ 32)

/-! ## The launch record (R182 to R186) -/

/-- A field of a record of 256 bytes, read as one number. -/
def recField (r off n : Nat) : Nat := bits r (8 * off) (8 * n)
def recCtl (r : Nat) : Nat := recField r 0x14 4
def recPool (r : Nat) : Nat := recField r 0x10 4
def recNlev (r : Nat) : Nat := bits (recCtl r) 12 4
def recPrio (r : Nat) : Nat := bits (recCtl r) 0 2
def recMat (r : Nat) : Bool := bit (recCtl r) 27
def recPre (r : Nat) : Bool := bit (recCtl r) 26
def recLevel (r i : Nat) : Nat := recField r (0x30 + 4 * i) 4
def lvCount (e : Nat) : Nat := bits e 0 16
def lvDom (e : Nat) : Nat := bits e 20 4
def recAfter (r i : Nat) : Nat := recField r (0x50 + 8 * i) 8
def recPreload (r i : Nat) : Nat := recField r (0x70 + 8 * i) 8

/-- REASON 1: a reserved field is nonzero, the pool partition word's among them (R44). -/
def recReserved (r : Nat) : Bool :=
  let c := recCtl r
  bits c 28 4 != 0 || bits (recPool r) 28 4 != 0 || bits c 19 4 != 0 || bits c 2 10 != 0 || bits (recField r 0x28 8) 11 21 != 0 || recField r 0xF0 8 != 0 ||
    (upto 8).any (fun i => bits (recLevel r i) 28 4 != 0 || bits (recLevel r i) 16 4 != 0) ||
    (upto 4).any (fun i => bits (recAfter r i) 60 3 != 0 || bits (recAfter r i) 32 24 != 0) ||
    (upto 8).any (fun i => bits (recPreload r i) 48 9 != 0)

/-- REASON 2 (R45). P is judged where the level table gives a count of micro-threads. -/
def recPoolBad (r : Nat) : Bool :=
  let w := recPool r
  let n := lvCount (recLevel r 0)
  decide (64 < bits w 0 7 + bits w 7 7 + bits w 14 7 + bits w 21 7) || decide (8 < bits w 14 7) ||
    (decide (1 ≤ n) && decide (n ≤ 32) && decide (8 * (bits w 0 7 * 16 / n) < 8))

/-- REASON 3 (R184), also for a number of levels, a SCOPE or a DOM that R183 does not give (log 47). -/
def recLevelsBad (r : Nat) : Bool :=
  let nl := recNlev r
  let l (i : Nat) : Nat := recLevel r i
  nl == 0 || decide (8 < nl) || lvDom (l 0) != 1 || lvCount (l 0) == 0 || decide (32 < lvCount (l 0)) ||
    (upto 8).any (fun i => if i < nl then decide (6 < lvDom (l i)) || decide (6 < bits (l i) 24 4) || lvCount (l i) == 0 else l i != 0) ||
    (upto (nl - 1)).any (fun i => decide (lvDom (l (i + 1)) < lvDom (l i)) || lvDom (l i) == 6)

/-- Levels 1 and up that are placed on this device: all but a DOM level (R184). -/
def placedLevels (r : Nat) : List Nat :=
  ((upto (recNlev r - 1)).map (fun i => recLevel r (i + 1))).filter (fun e => lvDom e != 6)

/-! ## Placement (R170, R189) -/

/-- The unit of a hardware domain that a core lies in (R184). -/
def unitOf (dom core : Nat) : Nat :=
  match dom with
  | 0 => core | 1 => core | 2 => core / 4 | 3 => core / 64 | _ => 0

/-- A list cut into groups of n, a remainder dropped. -/
def groupsOf (n : Nat) : Nat → List (List Nat) → List (List Nat)
  | 0, _ => []
  | fuel + 1, l => if n = 0 ∨ l.length < n then [] else (l.take n).flatten :: groupsOf n fuel (l.drop n)

/-- The instances of the next level that instances of one level make up, each within one unit of its domain. -/
def raiseLevel (blocks : List (List Nat)) (e : Nat) : List (List Nat) :=
  let units := blocks.foldl (fun l b => insertNew (unitOf (lvDom e) (b.headD 0)) l) []
  (units.map (fun u =>
    let mine := blocks.filter (fun b => unitOf (lvDom e) (b.headD 0) == u)
    groupsOf (lvCount e) mine.length mine)).flatten

/-- The cores, in member order, that a launch of these levels takes among free ones; none where it does not fit. -/
def place (levels : List Nat) (free : List Nat) : Option (List Nat) :=
  (levels.foldl raiseLevel (free.map (fun c => [c]))).head?

/-- The launches that hold cores: those that run, and those whose save goes on. -/
def holders (s : State) : List Launch := s.launches ++ (s.saved.filter (fun v => v.saving)).map (fun v => v.launch)

/-- The free cores of a partition for a launch, with the launches of `gone` taken as freed (R189). -/
def freeCores (s : State) (p : Nat) (mat : Bool) (gone : List Launch) : List Nat :=
  let own := (holders s).filter (fun l => !gone.contains l)
  let busy (c : Nat) : Bool := own.any (fun l => l.cores.contains c ||
    ((mat || recMat (leNat l.record)) && l.cores.any (fun d => d / 4 == c / 4)))
  (partCores s p).filter (fun c => !busy c)

/-- The free cores in the order they are tried: from which one on is open (log 14). -/
def tryOrder (s : State) (free : List Nat) : List Nat × State :=
  let (w, s) := s.draw
  let k := if free.isEmpty then 0 else w.toNat % free.length
  (free.drop k ++ free.take k, s)

/-! ## Refusal (R187) -/

/-- What a preload list gives: the descriptors by identifier with the number of lines read stale; a REASON 7; or a descriptor that
cannot be read for poison. -/
inductive Preload where
  | ok (tens : List (Nat × TDesc)) (stale : Nat)
  | bad
  | poisoned (va : Nat)
  deriving DecidableEq, Repr

/-- One preloaded descriptor, read as `tdef` would (R186). -/
def preloadOne (s : State) (p e : Nat) : Preload × State :=
  if bits e 0 5 != 0 then (.bad, s)
  else
    match spanXlat s 0 (partCtx s p) (bits e 0 48) { r := true } with
    | .error c => (.bad, logUnst s 0 [(bits e 0 48, c)])
    | .ok x =>
      let (bad, s) := if x.dev.isSome then farError s else (false, s)
      if bad then (.bad, s) else
      let (v, st, pz, s) := match x.dev with
        | some _ =>
          let pz := Config.remotePoison s.fresh
          let (v, s) := drawBytes s 32
          (v, [], pz, s)
        | none => homeRead (closeRange s x.pa 32) x.pa 32
      let w (k : Nat) : Word64 := BitVec.ofNat 64 (bits v (64 * k) 64)
      let d : TDesc := ⟨w 0, w 1, w 2, w 3⟩
      if pz then (.poisoned (bits e 0 48), s) else if d.malformed then (.bad, s) else (.ok [(bits e 57 6, d)] st.length, s)

/-- The preload list of a record (R186). -/
def preloads (s : State) (p r : Nat) : Preload × State :=
  (upto 8).foldl (fun (acc : Preload × State) i =>
    match acc with
    | (.ok l n, s) =>
      if !bit (recPreload r i) 63 then (.ok l n, s)
      else match preloadOne s p (recPreload r i) with
        | (.ok l' n', s) => (.ok (l ++ l') (n + n'), s)
        | r => r
    | r => r) (.ok [] 0, s)

/-- Whether an after-list entry names the record's own queue at or past its own index (R185). -/
def afterSelf (q n r : Nat) : Bool :=
  (upto 4).any (fun i =>
    let a := recAfter r i
    bit a 63 && bits a 56 4 == q && atOrPast (bits a 0 32) n)

/-- What the scheduler finds of a record: it is refused, may be admitted, or its descriptors cannot be read. -/
inductive Verdict where
  | refused (reason : Nat)
  | fine (tens : List (Nat × TDesc)) (stale : Nat)
  | unread
  deriving DecidableEq, Repr

/-- The verdict on a record at index n of queue q of partition p: of the REASONs that apply, the lowest (R187). A poisoned descriptor is a
read that met poison (R181, log 14). -/
def judge (s : State) (p q n r : Nat) : Verdict × State :=
  let entry := recField r 0 8
  let lode := recField r 8 8
  let badLode (v : Nat) : Bool := v == 0 || v % 128 != 0
  if recReserved r then (.refused 1, s)
  else if recPoolBad r then (.refused 2, s)
  else if recLevelsBad r then (.refused 3, s)
  else if (place (placedLevels r) (partCores s p)).isNone then (.refused 4, s)
  else if bits (recCtl r) 16 3 ≠ p ∨ !partOn s p then (.refused 5, s)
  else if afterSelf q n r then (.refused 6, s)
  else
    match preloads s p r with
    | (.bad, s) => (.refused 7, s)
    | (.poisoned va, s) => (.unread, queueError s p q 4 va)
    | (.ok tens stale, s) =>
      if bit (recCtl r) 25 && (badLode (recField r 0x18 8) || badLode (recField r 0x20 8)) then (.refused 8, s)
      else if entry % 2 ≠ 0 ∨ 2 ^ 48 ≤ entry ∨ lode % 128 ≠ 0 ∨ 2 ^ 48 ≤ lode then (.refused 9, s)
      else (.fine tens stale, s)

/-! ## Heads (R180, R188) -/

/-- The record at HEAD of a queue, where one is published: its index and itself. -/
def headRecord (s : State) (p q : Nat) : Option (Nat × Nat) × State :=
  let x := lqOf s p q
  if !x.enabled then (none, s) else
  match readHeader s p q with
  | (none, s) => (none, s)
  | (some h, s) =>
    if h.tail = h.head ∨ !atOrPast h.tail h.head ∨ x.size ≤ (h.head + 2 ^ 32 - h.done) % 2 ^ 32 then (none, s)
    else
      match schedRead s p q (recordVa x h.head) 256 2 with
      | (none, s) => (none, s)
      | (some r, s) => (some (h.head, r), s)

/-- Whether the after-list of a record is satisfied (R185). A queue that is not enabled satisfies by its DONE as it stands (log 14). -/
def afterDone (s : State) (p r : Nat) : Bool × State :=
  (upto 4).foldl (fun (acc : Bool × State) i =>
    let (ok, s) := acc
    let a := recAfter r i
    if !bit a 63 || !ok then (ok, s)
    else
      match readHeader s p (bits a 56 4) with
      | (none, s) => (false, s)
      | (some h, s) => (atOrPast h.done (bits a 0 32 + 1), s)) (true, s)

/-- The eligible record at HEAD of a queue: its index, itself, its descriptors and the lines they were read stale from. A record is judged
at its admission, when its after-list is satisfied (R45, R188), unless that can never be (REASON 6); refused ones are passed one after
the other (R187). -/
def settleHead (p q : Nat) : Nat → State → Option (Nat × Nat × List (Nat × TDesc) × Nat) × State
  | 0, s => (none, s)
  | fuel + 1, s =>
    match headRecord s p q with
    | (none, s) => (none, s)
    | (some (n, r), s) =>
      match (if afterSelf q n r then (true, s) else afterDone s p r) with
      | (false, s) => (none, s)
      | (true, s) =>
        match judge s p q n r with
        | (.fine tens stale, s) => (some (n, r, tens, stale), s)
        | (.unread, s) => (none, s)
        | (.refused reason, s) => settleHead p q fuel (setStatus (passHead s p q n) p q n 2 reason)

/-- A candidate of an admission pass: the head of a queue, or a pre-empted launch by its place among the saved ones. -/
inductive Cand where
  | head (q n r : Nat) (tens : List (Nat × TDesc)) (stale : Nat)
  | saved (i : Nat)
  deriving DecidableEq, Repr

/-- Effective priority after waiting w ticks of 1 ms (R188). -/
def effPrio (prio w : Nat) : Nat := min 3 (prio + w / 8)

/-- The eligible heads of a partition, with effective priority and waiting time. -/
def headCands (s : State) (p : Nat) : List (Nat × Nat × Cand) × State :=
  (upto 16).foldl (fun (acc : List (Nat × Nat × Cand) × State) q =>
    let (l, s) := acc
    match settleHead p q 4096 s with
    | (none, s) => (l, s)
    | (some (n, r, tens, stale), s) =>
      let x := lqOf s p q
      let t := x.since.getD s.tick
      let s := setLq s p q { x with since := some t }
      let w := s.tick - t
      (l ++ [(effPrio (recPrio r) w, w, .head q n r tens stale)], s)) ([], s)

/-- The pre-empted launches of a partition that may be resumed. -/
def savedCands (s : State) (p : Nat) : List (Nat × Nat × Cand) :=
  (upto s.saved.length).filterMap (fun i => (s.saved[i]?).bind (fun v =>
    if v.launch.part = p ∧ v.ready then
      let w := s.tick - v.at_
      some (effPrio (recPrio (leNat v.launch.record)) w, w, .saved i)
    else none))

/-- The candidates in the order of R190: e descending; within one e the pre-empted launches, then the heads round-robin. -/
def orderCands (s : State) (p : Nat) (heads saved : List (Nat × Nat × Cand)) : List (Nat × Nat × Cand) :=
  ([3, 2, 1, 0].map (fun e =>
    let start := tget 0 s.lastq (4 * p + e)
    let mine := heads.filter (fun c => c.1 == e)
    let queueOf (c : Nat × Nat × Cand) : Nat := match c.2.2 with
      | .head q _ _ _ _ => q
      | .saved _ => 0
    saved.filter (fun c => c.1 == e) ++ mine.filter (fun c => decide (start ≤ queueOf c)) ++ mine.filter (fun c => decide (queueOf c < start)))).flatten

def candRecord (s : State) : Cand → Nat
  | .head _ _ r _ _ => r
  | .saved i => match s.saved[i]? with
    | some v => leNat v.launch.record
    | none => 0

/-! ## Admission (R191) -/

/-- A core's index at a level (R148, R170): level 1 and up; a DOM level's is the member index of GANG. -/
def levelIndex (l : CoreLaunch) (gang n : Nat) : Nat :=
  if l.nlev ≤ n then 0
  else if lvDom (l.level n).toNat = 6 then bits gang 0 11
  else l.member / l.gangSize (n - 1) % max 1 (lvCount (l.level n).toNat)

/-- A launched micro-thread at admission (R148), MTENTRY in its lode queue. -/
def newMt (l : CoreLaunch) (gang lode i : Nat) : Mt :=
  let g := (upto 7).foldl (fun (g : Tab Word64) n => tset 0 g (2 + n) (BitVec.ofNat 64 (levelIndex l gang (n + 1)))) []
  { regs := { g := tset 0 g 1 (BitVec.ofNat 64 i) }, code := 0, lodeq := if lode = 0 then [] else [(BitVec.ofNat 64 lode, none)] }

/-- The control thread at admission (R144): U mode at CTENTRY, x10 the index at level 1, x11 the record's VA. -/
def newCt (c : Ct) (entry x10 x11 : Nat) : Ct :=
  { c with
    x := tset 0 (tset 0 [] 10 (BitVec.ofNat 64 x10)) 11 (BitVec.ofNat 64 x11), f := [], pc := BitVec.ofNat 64 entry
    machine := false, xbscope := 4, resv := none, active := true, stalled := false, ending := false, fetched := none, late := [] }

/-- Admission in one core, in the order of R191: STALE starts from the lines its descriptors were read stale from (R91), and q3 stays held
after a timeout until system software releases it (R143). -/
def admitCore (c : Core) (l : CoreLaunch) (r recVa : Nat) (tens : List (Nat × TDesc)) (stale : Nat) : Core :=
  let gang := recField r 0x28 8
  { freedCore c with
    launch := some l
    mts := (upto l.n).foldl (fun (m : Tab Mt) i => tset {} m i (newMt l gang (recField r 8 8) i)) []
    tens := tens.foldl (fun (t : Tab TDesc) e => tset {} t e.1 e.2) []
    queues := tmap {} (fun _ q => { record := q.record, held := q.held && q.timeout, timeout := q.timeout }) c.queues
    stale := BitVec.ofNat 32 stale, ictl := 0, rngc0 := 0, rngc1 := 0, rngk0 := 0, rngk1 := 0, lreq := 0, xreq := 0
    ct := newCt c.ct (recField r 0 8) (levelIndex l gang 1) recVa }

/-- The hashes of a launch that a RECORD names, written before its first convoy issues (R404, R406): each region as read at the home
slices in the partition's context, its refused bytes as 0. -/
def regionBytes (s : State) (p va n : Nat) : List Byte × State :=
  (upto ((n + 127) / 128 + 1)).foldl (fun (acc : List Byte × State) k =>
    let lo := if k = 0 then va else (va / 128 + k) * 128
    let hi := min (va + n) ((va / 128 + k + 1) * 128)
    if hi ≤ lo then acc else
    match spanXlat acc.2 0 (partCtx acc.2 p) lo { r := true } with
    | .error c => (acc.1 ++ List.replicate (hi - lo) 0, logUnst acc.2 0 [(lo, c)])
    | .ok x =>
      match x.dev with
      | some _ =>
        let (bad, s) := farError acc.2
        if bad then (acc.1 ++ List.replicate (hi - lo) 0, s) else
        let (bs, s) := (upto (hi - lo)).foldl (fun (q : List Byte × State) _ =>
          let (w, s) := q.2.draw
          (q.1 ++ [w.setWidth 8], s)) ([], s)
        (acc.1 ++ bs, s)
      | none =>
        let (v, _, _, s) := homeRead (closeRange acc.2 x.pa (hi - lo)) x.pa (hi - lo)
        (acc.1 ++ leBytes (hi - lo) v, s)) ([], s)

/-- Whether a range is refused as a domain-global one: reserved bits, or a PA of this device that no memory has (R11). -/
def globalBad (s : State) (a n : Nat) : Bool :=
  a / 2 ^ 57 != 0 || bits a 44 2 != 0 ||
    (bits a 46 11 == s.devnum.toNat && !(inMemory s (a % 2 ^ 44) && inMemory s ((a + n - 1) % 2 ^ 44)))

/-- Bytes written at a domain-global address: at this device's home slices, or at another node (R11, R401). -/
def globalWrite (s : State) (a : Nat) (bs : List Byte) : State :=
  if bits a 46 11 = s.devnum.toNat ∧ !globalBad s a bs.length then
    homeWrite (closeRange s (a % 2 ^ 44) bs.length) (a % 2 ^ 44) bs
  else s

/-- `n` bytes read at a domain-global address; another node's are free values. -/
def globalRead (s : State) (a n : Nat) : List Byte × State :=
  if bits a 46 11 = s.devnum.toNat ∧ !globalBad s a n then
    let (v, _, _, s) := homeRead (closeRange s (a % 2 ^ 44) n) (a % 2 ^ 44) n
    (leBytes n v, s)
  else
    (upto n).foldl (fun (q : List Byte × State) _ =>
      let (w, s) := q.2.draw
      (q.1 ++ [w.setWidth 8], s)) ([], s)

/-- The replay record of a launch that is admitted, where a RECORD asked for it (R404). -/
def replayRecord (s : State) (p q n : Nat) (bytes : List Byte) : State :=
  match s.records.find? (fun k => k.part == p && k.queue == q && k.index == n) with
  | none => s
  | some k =>
    let (hs, s) := k.regions.foldl (fun (acc : List Byte × State) g =>
      let (bs, s) := regionBytes acc.2 p g.1 g.2
      (acc.1 ++ sha384 bs, s)) ([], s)
    let s := globalWrite s (k.arg + 256) ((bytes ++ hs ++ List.replicate 384 0).take 640)
    { s with records := s.records.filter (fun x => !(x.part == p && x.queue == q && x.index == n)) }

/-- What a core of a launch is given. -/
def coreLaunchOf (s : State) (p q n r i : Nat) : CoreLaunch :=
  { part := p, queue := q, index := n, ctx := partCtx s p, pool := BitVec.ofNat 32 (recPool r), ctl := BitVec.ofNat 32 (recCtl r)
    levels := (upto (recNlev r)).map (fun k => BitVec.ofNat 32 (recLevel r k)), n := lvCount (recLevel r 0), member := i
    sav := BitVec.ofNat 64 (recField r 0x18 8), rest := BitVec.ofNat 64 (recField r 0x20 8) }

/-- A head is admitted on the cores given, in member order, and HEAD advances (R191). -/
def admitHead (s : State) (p q n r e : Nat) (tens : List (Nat × TDesc)) (stale : Nat) (cores : List Nat) : State :=
  let bytes := leBytes 256 r
  let va := recordVa (lqOf s p q) n
  let s := replayRecord s p q n bytes
  let s := (cores.zip (upto cores.length)).foldl (fun s c =>
    s.modCore c.1 (fun k => admitCore k (coreLaunchOf s p q n r c.2) r va tens stale)) s
  let s := { s with
    launches := s.launches ++ [{ part := p, queue := q, index := n, record := bytes, recVa := va, cores := cores }]
    admitted := s.admitted ++ [(p, q, n)]
    lastq := tset 0 s.lastq (4 * p + e) ((q + 1) % 16) }
  passHead s p q n

/-- A member that a gang stop halted goes on, ready at its HEAD; one that was idle with lodes in its queue has the first of them as its
HEAD and is ready to take it (R152, R393, R394, log 39). -/
def wakeMember (m : Mt) : Mt :=
  let k := recordKind m.record
  if m.code = 4 ∧ (k = kPOISON ∨ k = kGANGSTOP) then { m with code := if m.wasIdle && !m.lodeq.isEmpty then 0 else 1, wasIdle := false } else m

/-- A saved launch resumes on the cores given, in member order (R196, R197). -/
def resumeSaved (s : State) (i : Nat) (cores : List Nat) : State :=
  match s.saved[i]? with
  | none => s
  | some v =>
    let s := (cores.zip (v.images.zip (v.places.zip v.seeds))).foldl (fun s c =>
      let (img, s) := match c.2.2.1 with
        | some r =>
          let pa := sharePa s v.launch.part r
          if v.gang then readPool s pa c.2.2.2 c.2.1.2 else readImage s pa c.2.2.2 c.2.1.2
        | none => (c.2.1.2, s)
      let img := if v.gang then { img with mts := tmap {} (fun _ m => wakeMember m) img.mts } else img
      s.modCore c.1 (fun k => resumeCore k img)) s
    { s with
      saved := s.saved.eraseIdx i
      launches := s.launches ++ [{ v.launch with cores := cores, chosen := false
                                                 ended := v.launch.ended.filterMap (fun c => (v.launch.cores.idxOf? c).bind (fun k => cores[k]?)) }] }

/-! ## The pass (R190) -/

/-- The running launches that X of effective priority e may have freed: lowest PRIO first, the latest admitted first among equals. -/
def victims (s : State) (p e : Nat) : List Launch :=
  let ok := s.launches.filter (fun l => l.part == p && recPre (leNat l.record) && decide (recPrio (leNat l.record) < e) &&
    l.cores.all (coreFreeable s))
  ([0, 1, 2, 3].map (fun k => (ok.filter (fun l => recPrio (leNat l.record) == k)).reverse)).flatten

/-- How many of them, at the least, free the cores that X needs; none where all of them do not. -/
def victimsNeeded (s : State) (p r : Nat) (l : List Launch) : Option Nat :=
  ((upto l.length).find? (fun k => (place (placedLevels r) (freeCores s p (recMat r) (l.take (k + 1)))).isSome)).map (fun k => k + 1)

/-- The chosen launches are pre-empted next. -/
def choose (s : State) (l : List Launch) : State :=
  let s := { s with launches := s.launches.map (fun x => if l.contains x then { x with chosen := true } else x) }
  l.foldl (fun s x => follow s { core := x.cores.headD 0 } .preemption) s

/-- What a pass does next. -/
inductive PassStep where
  | grant (c : Cand) (e : Nat) (cores : List Nat)
  | preempt (l : List Launch)
  | done
  deriving DecidableEq, Repr

/-- The first candidate that fits, blocks, or has room made for it. -/
def passStep (s : State) (p : Nat) : List (Nat × Nat × Cand) → PassStep × State
  | [] => (.done, s)
  | (e, w, c) :: l =>
    let r := candRecord s c
    let (free, s) := tryOrder s (freeCores s p (recMat r) [])
    match place (placedLevels r) free with
    | some cores => (.grant c e cores, s)
    | none =>
      if e = 3 ∧ 32 ≤ w then (.done, s)
      else
        let vs := victims s p e
        match victimsNeeded s p r vs with
        | some k => (.preempt (vs.take k), s)
        | none => passStep s p l

/-- A partition's pass, begun again after each admission. -/
def passPart (p : Nat) : Nat → State → State
  | 0, s => s
  | fuel + 1, s =>
    let (heads, s) := headCands s p
    match passStep s p (orderCands s p heads (savedCands s p)) with
    | (.grant (.head q n r tens stale) e cores, s) => passPart p fuel (admitHead s p q n r e tens stale cores)
    | (.grant (.saved i) _ cores, s) => passPart p fuel (resumeSaved s i cores)
    | (.preempt l, s) => choose s l
    | (.done, s) => s

/-- R190. The scheduler admits nothing on a device that did not start up verified (R411). -/
def execAdmissionPass (s : State) : Out :=
  if s.boot ≠ 0 then .next s else .next ((upto 8).foldl (fun s p => passPart p 513 s) s)

/-- R190. The 1 ms tick. -/
def execAdmissionTick (s : State) : Out := .next (passNext { s with tick := s.tick + 1 })

/-- R180. A write of TAIL was performed at its home slice. -/
def execTailWrite (s : State) : Out := .next (passNext s)

/-! ## Partition changes (R176, R196) -/

/-- Whether a QMAP write has to wait: its quad holds a core of an admitted launch, or it changes the ranks of a partition with a saved
launch. -/
def qmapWaits (s : State) (quad : Nat) (v : Word64) : Bool :=
  let old := (tget 0 s.qmap quad).toNat
  let new := v.toNat
  let part (x : Nat) : Option Nat := if bit x 3 then some (bits x 0 3) else none
  (holders s).any (fun l => l.cores.any (fun c => c / 4 == quad)) ||
    (part old != part new && s.saved.any (fun k => some k.launch.part == part old || some k.launch.part == part new))

/-- The held writes that nothing holds any longer take effect, before the scheduler admits again (R176). -/
def settleQmap (s : State) : State :=
  s.qmapHeld.foldl (fun s e =>
    if e.2 = 0 ∨ qmapWaits s e.1 (e.2 - 16) then s
    else { s with qmap := tset 0 s.qmap e.1 (e.2 - 16), qmapHeld := tset 0 s.qmapHeld e.1 0 }) s

/-! ## The end of a launch (R192) -/

/-- The launch that holds a core. -/
def launchOn (s : State) (core : Nat) : Option Launch := s.launches.find? (fun l => l.cores.contains core)

/-- Every core of a launch becomes free, its dirty bytes written back (R104, R192). -/
def freeLaunch (s : State) (l : Launch) : State :=
  let s := l.cores.foldl (fun s c => (writeBackAll (flushPackets s c) c).modCore c freedCore) s
  { s with launches := s.launches.filter (fun x => x != l) }

/-- A launch is completed: STATUS becomes 1, held writes of QMAP take effect, and a pass follows. -/
def completeLaunch (s : State) (l : Launch) : State := passNext (settleQmap (setStatus (freeLaunch s l) l.part l.queue l.index 1 0))

/-- Whether a core's part of its launch can end. -/
def partEnds (c : Core) : Bool :=
  c.ct.ending && !c.stopping && (upto c.info.n).all (fun i => (c.mt i).isIdle && (c.mt i).lodeq.isEmpty && (c.mt i).parked.isNone) &&
    c.queues.all (fun q => q.2.entries.isEmpty)

/-- R192. The part of core `here.core` ends; with the last core's part, the launch. -/
def execCorePartEnd (s : State) : Out :=
  let core := s.here.core
  match launchOn s core with
  | none => .next s
  | some l =>
    if partEnds (s.core core) && !l.ended.contains core then
      let l' := { l with ended := l.ended ++ [core] }
      let s := { s with launches := s.launches.map (fun x => if x == l then l' else x) }
      let s := s.modCore core (fun c => { c with ct := { c.ct with active := false } })
      if l'.cores.all (fun c => l'.ended.contains c) then .next (completeLaunch s l') else .next s
    else .next s

/-- A write of QMAP: one that sets a reserved bit is discarded (R177), one that has to wait is held, in place of one
that is held already (R176, log 47). -/
def writeQmap (s : State) (quad : Nat) (v : Word64) : State :=
  if v.toNat / 16 ≠ 0 ∨ 128 ≤ quad then s
  else if qmapWaits s quad v then { s with qmapHeld := tset 0 s.qmapHeld quad (v + 16) }
  else passNext { s with qmap := tset 0 s.qmap quad v, qmapHeld := tset 0 s.qmapHeld quad 0 }

/-- R176. -/
def execQmapWrite (quad : Nat) (value : Word64) (s : State) : Out := .next (writeQmap s quad value)

/-- R176. The held write of quad `here.idx` takes effect once nothing holds it. -/
def execQmapTakesEffect (s : State) : Out :=
  let quad := s.here.idx
  let h := tget 0 s.qmapHeld quad
  if h = 0 then .next s
  else
    let v := h - 16
    if qmapWaits s quad v then .next s
    else .next (passNext { s with qmap := tset 0 s.qmap quad v, qmapHeld := tset 0 s.qmapHeld quad 0 })

/-- An enabled queue reads its header afresh. Records from HEAD on have not been admitted, whatever was admitted at their places before; one
that HEAD has passed keeps its admission (R181, R405, log 24). -/
def enableQueue (s : State) (p q : Nat) : State :=
  match readHeader s p q with
  | (none, s) => s
  | (some h, s) => advanceDone { s with admitted := s.admitted.filter (fun k => !(k.1 == p && k.2.1 == q && atOrPast k.2.2 h.head)) } p q

/-- A write of LQD: one that sets a reserved bit is discarded; ERR is the scheduler's, and cleared when EN is set again, which performs
held writes and reads the header afresh; EN stays 0 for a size that is not allowed (R177, R178, R181). -/
def writeLqd (s : State) (p q : Nat) (v : Word64) : State :=
  let w := v.toNat
  if bits w 48 16 ≠ 0 ∨ bits w 1 4 ≠ 0 then s
  else
    let x := lqOf s p q
    let en := bit w 0 && decide (4 ≤ bits w 8 4) && decide (bits w 8 4 ≤ 12)
    let fresh := en && !x.enabled
    let keep : Word64 := v &&& 0x0000FFFFFFFFFF00
    let err : Word64 := if fresh then 0 else x.lqd &&& 0xE0
    let s := setLq s p q { x with lqd := keep ||| err ||| (if en then 1 else 0), since := if fresh then none else x.since }
    if fresh then enableQueue (performHeld p q x.held s) p q else s

/-- R181. -/
def execLqdWrite (part queue : Nat) (value : Word64) (s : State) : Out :=
  if part < 8 ∧ queue < 16 then .next (writeLqd s part queue value) else .next s

end Sys2Proof.Machine
end

