-- ==== Sys2Proof/Machine/Preempt.lean ====
section
/-! DEFINITION. Pre-emption (R194 to R200) and the gang (R393, R394): stopping a launch, its save once it has drained, and what system
software does with a saved gang. -/

namespace Sys2Proof.Machine

/-! ## Pre-emption -/

/-- No debug halt is asserted on the cores of a launch, and none of them is in the middle of a convoy (R198). -/
def mayStop (s : State) (l : Launch) : Bool := !s.cv.live && l.cores.all (fun c => !(s.core c).halted)

/-- A launch stops on all its cores and its save begins; stores that have retired are in the L1 (R106). -/
def beginSave (s : State) (l : Launch) (gang : Bool) : State :=
  let s := l.cores.foldl (fun s c => (drainCore s c).modCore c (fun k => stopCore k gang)) s
  { s with
    launches := s.launches.filter (fun x => x != l)
    saved := s.saved ++ [{ launch := { l with chosen := false }, images := [], places := [], at_ := 0, saving := true, gang := gang, ready := false }] }

/-- R194, steps 1 and 2: the launch that holds core `here.core` and has been chosen is stopped. -/
def execPreemption (s : State) : Out :=
  match launchOn s s.here.core with
  | some l => if l.chosen && recPre (leNat l.record) && mayStop s l then .next (beginSave s l false) else .next s
  | none => .next s

/-- A saved launch other than by its number. -/
def setSaved (s : State) (i : Nat) (v : Saved) : State := { s with saved := s.saved.set i v }

/-- A member that the gang stop halts at its convoy boundary: one that has already faulted keeps its own record. -/
def gangHalt (sid : Nat) (m : Mt) : Mt :=
  if m.code = 4 ∨ m.code = 7 ∨ !m.atBoundary then m
  else
    { m with
      wasIdle := m.code == 0
      code := 4
      record := mkRecord kGANGSTOP 0 0 0 false (if m.code = 0 then (m.lodeq.headD (m.next, none)).1 else m.next) [sid]
      parked := none, retry := false, skip := false, tagWait := none }

/-- The micro-threads of a core that stopped while a convoy of theirs was in flight give up what waits since, or halt with their gang. -/
def settleMts (s : State) (l : Launch) (gang : Bool) (c : Core) : Core :=
  let sid := (tget {} s.gangs l.part).sid
  { c with mts := tmap {} (fun _ m => if gang then gangHalt sid m else abandonConvoy m) c.mts }

/-- The images of a launch's cores, after the write-back of R104. -/
def takeImages (s : State) (l : Launch) (gang : Bool) : List (Nat × Core) × State :=
  let s := l.cores.foldl (fun s c =>
    let s := drainCore (s.modCore c (settleMts s l gang)) c
    writeBackAll (flushPackets s c) c) s
  (l.cores.map (fun c => (c, imageOf (s.core c) gang)), s)

/-- An image in a slot that the save needs moves first (R195). -/
def clearSlots (s : State) (l : Launch) : State := l.cores.foldl (fun s c => if slotUsed s c then moveImage s c else s) s

/-! ## Gang records (R394) -/

/-- One granule of a gang record. -/
def granuleWord (space core addr : Nat) : Word64 :=
  BitVec.ofNat 64 (space * 2 ^ 62 + dieOf core * 2 ^ 59 + core % 64 * 2 ^ 53 + addr % 2 ^ 44)

/-- The poisoned granules of a member core: memory sectors its micro-threads consumed, pool sectors as the share at `pa` holds them, and
link values. -/
def granulesOf (core pa : Nat) (c : Core) : List Word64 :=
  let mem := c.mts.filterMap (fun e =>
    let w0 := (e.2.record.getD 0 0).toNat
    if e.2.code = 4 ∧ bits w0 56 8 = kPOISON ∧ bits w0 48 8 = 0 then some ((e.2.record.getD 2 0).toNat) else none)
  let pool := c.poolPoison.foldl (fun l o => keyIn (o / 32 * 32) l) []
  let link := (c.mts.map (fun e => ((upto e.2.fifo.length).map (fun k =>
    let v := e.2.fifo.getD k ⟨0, 0⟩
    (upto 64).filterMap (fun w => if v.poison.getLsbD w then some (512 * k + 8 * w) else none))).flatten)).flatten
  (mem.foldl (fun l a => insertNew a l) []).map (granuleWord 0 core) ++ pool.map (fun o => granuleWord 1 core (pa + o)) ++
    link.map (granuleWord 2 core)

/-- A gang's images go to the shares of the cores they were saved from, the pool in bytes 0 to 4 MiB - 1, and the gang record is written. -/
def saveGang (s : State) (l : Launch) (images : List (Nat × Core)) : List (Option Nat) × List Nat × State :=
  let ranks := images.map (fun i => rankOf s i.1)
  let (seeds, s) := (images.zip ranks).foldl (fun (r : List Nat × State) i =>
    let pa := sharePa r.2 l.part i.2
    let s := writePool r.2 pa i.1.2
    (r.1 ++ [s.fresh], writeOpen s pa 32768 (shareBytes / 128))) ([], s)
  let all := ((images.zip ranks).map (fun i => granulesOf i.1.1 (sharePa s l.part i.2) i.1.2)).flatten
  let g := tget {} s.gangs l.part
  let g := { g with state := 2, more := decide (16 < all.length), ngr := all.length % 65536, granules := all.take 16 }
  (ranks.map some, seeds, { s with gangs := tset {} s.gangs l.part g })

/-- R194, steps 3 to 5: once every core of the launch whose save goes on at core `here.core` has drained, the launch is saved and its
cores become free. -/
def execPreemptSaveComplete (s : State) : Out :=
  match s.saved.findIdx? (fun v => v.saving && v.launch.cores.contains s.here.core) with
  | none => .next s
  | some i =>
    match s.saved[i]? with
    | none => .next s
    | some v =>
      if mayStop s v.launch && v.launch.cores.all (fun c => coreDrained (s.core c) v.gang) then
        let (images, s) := takeImages s v.launch v.gang
        let (places, seeds, s) := if v.gang then saveGang s v.launch images else (images.map (fun _ => none), images.map (fun _ => 0), clearSlots s v.launch)
        let s := setSaved s i { v with images := images, places := places, seeds := seeds, at_ := s.tick, saving := false, ready := !v.gang }
        .next (passNext (settleQmap (v.launch.cores.foldl (fun s c => s.modCore c freedCore) s)))
      else .next s

/-! ## The gang stop (R393) -/

/-- The lowest sender identifier among the poisoned members of a launch's gang (R393). -/
def poisonedSid (s : State) (l : Launch) : Nat :=
  let sids := (l.cores.map (fun c => ((s.core c).mts.filter (fun e => e.2.code == 4 && recordKind e.2.record == kPOISON)).map (fun e =>
    senderId s c e.1))).flatten
  sids.foldl min (sids.headD 0)

/-- The launch on a core whose gang is stopping. -/
def stoppingGang (s : State) (core : Nat) : Option Launch :=
  (s.saved.find? (fun v => v.saving && v.gang && v.launch.cores.contains core)).map (fun v => v.launch)

/-- R393. Micro-thread `here.idx` of core `here.core` consumed poison: every other member of its gang stops at its next convoy boundary. A
member whose convoy was in flight then and is poisoned too is named where its sender identifier is the lower (log 26). -/
def execGangStop (s : State) : Out :=
  let core := s.here.core
  let m := (s.core core).mt s.here.idx
  if m.code ≠ 4 ∨ recordKind m.record ≠ kPOISON then .next s else
  match launchOn s core with
  | some l =>
    if mayStop s l then
      let sid := poisonedSid s l
      let s := l.cores.foldl (fun s c => s.modCore c (fun k => { k with mts := tmap {} (fun _ m => gangHalt sid m) k.mts })) s
      let g : Gang := { state := 1, index := l.index, queue := l.queue, sid := sid }
      .next (beginSave { s with gangs := tset {} s.gangs l.part g } l true)
    else .next s
  | none => match stoppingGang s core with
    | some l => .next { s with gangs := tset {} s.gangs l.part { tget {} s.gangs l.part with sid := poisonedSid s l } }
    | none => .next s

/-! ## GACT (R394) -/

/-- Whether a sector of memory is poisoned where its live copy lies. -/
def sectorPoisoned (s : State) (pa : Nat) : Bool :=
  let l := s.slice (pa / 128)
  let k := pa % 128 / 32
  l.poison.getLsbD k || (l.held.extractLsb' (32 * k) 32 != BitVec.allOnes 32 && s.arrPoison.contains (pa / 32))

/-- Whether a listed granule keeps a gang from resuming. -/
def granuleHolds (s : State) (w : Word64) : Bool := 2 ≤ bits w.toNat 62 2 || sectorPoisoned s (bits w.toNat 0 44)

/-- The saved launch that a gang record names. -/
def gangSaved (s : State) (p : Nat) (g : Gang) : Option Nat :=
  s.saved.findIdx? (fun v => v.gang && !v.saving && !v.ready && v.launch.part == p && v.launch.queue == g.queue && v.launch.index == g.index)

/-- R394. System software resumes the saved gang of partition `here.idx`. -/
def execGangResume (s : State) : Out :=
  let p := s.here.idx
  let g := tget {} s.gangs p
  if g.state ≠ 2 ∨ g.more ∨ g.granules.any (granuleHolds s) then .next s
  else
    match gangSaved s p g with
    | none => .next s
    | some i =>
      match s.saved[i]? with
      | none => .next s
      | some v => .next (passNext (setSaved { s with gangs := tset {} s.gangs p { g with state := 0 } } i { v with ready := true, at_ := s.tick }))

/-- R394. System software aborts the saved gang of partition `here.idx`: STATUS CODE 3. -/
def execGangAbort (s : State) : Out :=
  let p := s.here.idx
  let g := tget {} s.gangs p
  if g.state ≠ 2 then .next s
  else
    match gangSaved s p g with
    | none => .next s
    | some i =>
      let s := { s with gangs := tset {} s.gangs p { g with state := 0 }, saved := s.saved.eraseIdx i }
      .next (passNext (settleQmap (setStatus s p g.queue g.index 3 0)))

end Sys2Proof.Machine
end

