-- ==== Sys2Proof/Machine/Mailbox.lean ====
section
/-! DEFINITION. The management mailbox (R401): SYNC-STATE (R402), PREEMPT, RECORD (R404, R405), DUMP (R409, R410) and ATTEST (R413). -/

namespace Sys2Proof.Machine

/-! ## Commands -/

def mcmdCode (v : Word64) : Nat := bits v.toNat 56 8
def mcmdParam (v : Word64) : Nat := bits v.toNat 0 8

/-- The result of a command whose work is done; BUSY clears with its completion. -/
def mailDone (s : State) (result : Nat) : State := { s with mdone := true, mresult := BitVec.ofNat 8 result }

/-- A command that is refused completes at once (R401). -/
def mailRefused (s : State) (result : Nat) : State := { s with mbusy := false, mdone := false, mresult := BitVec.ofNat 8 result }

/-- The operation of a command code. -/
def mailOp : Nat → Option Instr
  | 1 => some .syncState
  | 2 => some .preempt
  | 3 => some .record
  | 4 => some .dump
  | 5 => some .attest
  | _ => none

/-- A write of MCMD. A device that did not start up verified serves ATTEST alone (R411). -/
def writeMcmd (s : State) (v : Word64) : State :=
  if s.mbusy then { s with mdrop := true }
  else
    let s := { s with mcmd := v }
    if s.boot ≠ 0 ∧ mcmdCode v ≠ 5 then mailRefused s 3
    else if bits v.toNat 8 48 ≠ 0 then mailRefused s 1
    else match mailOp (mcmdCode v) with
      | none => mailRefused s 1
      | some op => follow { s with mbusy := true, mdone := false } {} op

/-- Whether a command of a code waits for its operation. -/
def mailRuns (s : State) (code : Nat) : Bool := s.mbusy && !s.mdone && mcmdCode s.mcmd == code

/-- MARG as an address, and the command's PARAM. -/
def State.mailArg (s : State) : Nat := s.marg.toNat
def State.mailParam (s : State) : Nat := mcmdParam s.mcmd

/-! ## SYNC-STATE (R402) -/

/-- DEVNUM and the ports that are up, as R402 and R410 write them. -/
def identityWord (s : State) : Nat := s.devnum.toNat + s.ports.toNat * 2 ^ 28

/-- The counts of a queue's header as they stand in memory; free values where it cannot be read. -/
def peekHeader (s : State) (p q : Nat) : QHeader × State :=
  match spanXlat s 0 (partCtx s p) (lqOf s p q).base { r := true } with
  | .ok x =>
    if x.dev.isNone then
      let (v, _, _, s) := homeRead (closeRange s x.pa 16) x.pa 16
      (⟨bits v 0 32, bits v 64 32, bits v 96 32⟩, s)
    else
      let (a, s) := s.draw
      let (b, s) := s.draw
      (⟨bits a.toNat 0 32, bits b.toNat 0 32, bits b.toNat 32 32⟩, s)
  | .error e =>
    let (a, s) := (logUnst s 0 [((lqOf s p q).base, e)]).draw
    let (b, s) := s.draw
    (⟨bits a.toNat 0 32, bits b.toNat 0 32, bits b.toNat 32 32⟩, s)

/-- The launch a core runs: index and queue, or all ones when it is free. -/
def launchWord (c : Core) : Nat :=
  match c.launch with
  | some l => l.index + l.queue * 2 ^ 32
  | none => 2 ^ 64 - 1

/-- The words of a gang record (R394). -/
def gangWords (g : Gang) : List Nat :=
  [g.index * 2 ^ 32 + g.queue * 256 + g.state, g.sid, (if g.more then 65536 else 0) + g.ngr] ++
    (upto 16).map (fun k => (g.granules.getD k 0).toNat)

def words64 (l : List Nat) : List Byte := (l.map (leBytes 8)).flatten

/-- A list of bytes cut or filled with zeros to a length. -/
def fitBytes (n : Nat) (l : List Byte) : List Byte := (l ++ List.replicate n 0).take n

/-- 32 bytes of a reliability event: counter offset 4, die 2, core 2, PA 8, CYC 8, zero (log 23). -/
def eventBytes (e : RelEvent) : List Byte := leBytes 4 e.off ++ leBytes 2 e.die ++ leBytes 2 e.core ++ leBytes 8 e.pa ++ leBytes 8 e.cyc.toNat ++ leBytes 8 0

/-- The fields of a core in the summary. -/
def syncCore (c : Core) : List Byte :=
  words64 ([c.xbfltp.toNat] ++ (upto 6).map (fun q => (c.queue q).count.toNat) ++ [launchWord c])

/-- The queues' part of the summary. -/
def syncQueues (s : State) : List Byte × State :=
  (upto 128).foldl (fun (r : List Byte × State) k =>
    let (h, t) := peekHeader r.2 (k / 16) (k % 16)
    (r.1 ++ leBytes 4 h.tail ++ leBytes 4 h.head ++ leBytes 4 h.done ++ leBytes 4 (bits (lqOf s (k / 16) (k % 16)).lqd.toNat 0 8), t)) ([], s)

/-- The summary, as bytes at offsets of the buffer. -/
def syncParts (s : State) : List (Nat × List Byte) × State :=
  let (queues, s) := syncQueues s
  ([(0, words64 [s.fw.toNat, s.syncs.toNat, identityWord s]),
    (0x40, words64 ((upto 8).map (fun p => (tget 0 s.pcfg p).toNat))),
    (0x80, (upto 64).map (fun k => BitVec.ofNat 8 (bits (tget 0 s.qmap (2 * k)).toNat 0 4 + 16 * bits (tget 0 s.qmap (2 * k + 1)).toNat 0 4))),
    (0x100, queues),
    (0x900, ((upto 512).map (fun c => syncCore (s.core c))).flatten),
    (0x8900, ((upto 8).map (fun p => fitBytes 256 (words64 (gangWords (tget {} s.gangs p))))).flatten),
    (0x9100, fitBytes 2048 ((s.events.map eventBytes).flatten))], s)

/-- R402. -/
def execSyncState (s : State) : Out :=
  if !mailRuns s 1 then .next s
  else if s.mailParam ≠ 0 ∨ s.mailArg % 64 ≠ 0 ∨ globalBad s s.mailArg 40960 then .next (mailRefused s 2)
  else
    let (l, s) := syncParts { s with syncs := s.syncs + 1 }
    .next (mailDone (l.foldl (fun s p => globalWrite s (s.mailArg + p.1) p.2) s) 0)

/-! ## PREEMPT (R401) -/

/-- R401. The pre-emptible launches of a partition are chosen, but for those that hold a core that is not freeable. -/
def execPreempt (s : State) : Out :=
  if !mailRuns s 2 then .next s
  else if 7 < s.mailParam ∨ s.mailArg ≠ 0 then .next (mailRefused s 2)
  else
    let mine := s.launches.filter (fun l => l.part == s.mailParam && recPre (leNat l.record))
    let go := mine.filter (fun l => l.cores.all (coreFreeable s))
    let s := choose { s with msaves := go.map (fun l => (l.part, l.queue, l.index)) } go
    .next (mailDone s (if go.length = mine.length then 0 else 3))

/-- Whether a launch that a PREEMPT chose has still to be saved. -/
def stillSaving (s : State) (k : Nat × Nat × Nat) : Bool :=
  let is (l : Launch) : Bool := l.part == k.1 && l.queue == k.2.1 && l.index == k.2.2
  s.launches.any (fun l => is l && l.chosen) || s.saved.any (fun v => v.saving && is v.launch)

/-! ## RECORD (R404, R405) -/

/-- Whether a launch has been admitted: the list of admissions names it, or it runs or is saved still. A record that HEAD passed with a refusal
has not. -/
def wasAdmitted (s : State) (p q n : Nat) : Bool :=
  let is (l : Launch) : Bool := l.part == p && l.queue == q && l.index == n
  s.admitted.contains (p, q, n) || s.launches.any is || s.saved.any (fun v => is v.launch)

/-- R404. A RECORD is done once it is arranged; the hashes are written at the admission (log 24). -/
def execRecord (s : State) : Out :=
  if !mailRuns s 3 then .next s
  else if s.mailParam ≠ 0 ∨ globalBad s s.mailArg 896 then .next (mailRefused s 2)
  else
    let (b, s) := globalRead s s.mailArg 144
    let w (k : Nat) : Nat := leNat ((b.drop (8 * k)).take 8)
    let p := bits (w 0) 0 3
    let q := bits (w 0) 4 4
    let n := bits (w 0) 32 32
    let regions := (upto (w 1)).map (fun k => (w (2 + 2 * k), w (3 + 2 * k)))
    if w 1 = 0 ∨ 8 < w 1 then .next (mailRefused s 2)
    else if regions.any (fun g => g.2 == 0 || decide (2 ^ 41 < g.1 + g.2)) then .next (mailRefused s 2)
    else if wasAdmitted s p q n then .next (mailRefused s 2)
    else
      let rest := s.records.filter (fun r => !(r.part == p && r.queue == q && r.index == n))
      .next (mailDone { s with records := rest ++ [⟨p, q, n, s.mailArg, regions⟩] } 0)

/-! ## DUMP (R409, R410) -/

/-- Bytes written to the dump buffer, and whether their destination takes them. -/
def dumpPut (s : State) (a : Nat) (bs : List Byte) : Bool × State :=
  if globalBad s a bs.length then (false, s)
  else if bits a 46 11 = s.devnum.toNat then (true, homeWrite (closeRange s (a % 2 ^ 44) bs.length) (a % 2 ^ 44) bs)
  else if s.ports = 0 then (false, s)
  else (!Config.accessError s.fresh, { s with fresh := s.fresh + 1 })

/-- Bytes of a dump record as a table. -/
def putWords (m : List Host.Cell) (a : Nat) (l : List Nat) : List Host.Cell := putBytes m a (words64 l)

/-- The record of a context. -/
def dumpMt (c : Core) (i at_ : Nat) (m : List Host.Cell) : List Host.Cell :=
  let t := c.mt i
  let r := t.regs
  let wordAt := match t.lode with
    | some l => (t.next - l.va).toNat / 4 % 32
    | none => 0
  let m := putWords m at_ [mtCode c i, t.next.toNat, wordAt + t.lodeq.length * 65536]
  let m := putWords m (at_ + 0x20) [r.fst.toNat, r.ffi.toNat, r.grc.toNat, r.shp.toNat, r.wb.toNat, r.eixNv.toNat, r.eixDz.toNat,
    r.eixOf.toNat, r.eixUf.toNat, r.eixNx.toNat, r.tsd.toNat, r.scb.toNat, r.scl.toNat, r.mgr.toNat, r.mrs.toNat, t.pend.toNat]
  let m := putWords m (at_ + 0x100) ((upto 64).map (fun n => (r.rg (BitVec.ofNat 6 n)).toNat))
  let m := (upto 24).foldl (fun m n => putBytes m (at_ + 0x300 + 64 * n) (leBytes 64 (r.rk (BitVec.ofNat 5 n)).toNat)) m
  let m := match t.lode with
    | some l => putBytes m (at_ + 0x900) (l.words.map (fun w => leBytes 4 w.toNat)).flatten
    | none => m
  let m := putWords m (at_ + 0x980) ((upto 8).map (fun n => tget 0 t.bars n))
  let m := putWords m (at_ + 0x9C0) [t.fifo.length]
  let m := putBytes m (at_ + 0xA00) (t.fifo.map (fun v => leBytes 512 v.val.toNat)).flatten
  putWords m (at_ + 0xE00) (t.lodeq.map (fun e => [e.1.toNat, (e.2.getD 0).toNat])).flatten

/-- The control thread's part of a core's record. -/
def dumpCt (c : Core) (m : List Host.Cell) : List Host.Cell :=
  let t := c.ct
  let m := putWords m 8 [t.pc.toNat, (if t.machine then 3 else 0) + (if t.stalled then 4 else 0)]
  let m := putWords m 0x100 ((upto 32).map (fun n => (t.rx (BitVec.ofNat 5 n)).toNat))
  let m := putWords m 0x200 ((upto 32).map (fun n => (t.rf (BitVec.ofNat 5 n)).toNat))
  putWords m 0x300 ([t.statusWord.toNat, t.mie.toNat, c.mip.toNat, t.mtvec.toNat, t.mepc.toNat, t.mcause.toNat, t.mtval.toNat,
    t.mscratch.toNat, t.fcsr.toNat, t.xbscope.toNat, c.xbfltp.toNat, t.xbpf.length] ++ (upto 8).map (fun k => (t.xbpf.getD k 0).toNat))

/-- The record of a core that runs a launch. -/
def dumpCore (c : Core) (pool : Bool) : List Host.Cell :=
  let m := dumpCt c (putWords [] 0 [launchWord c])
  let m := putWords m 0x400 ((upto 6).map (fun q => (c.queue q).count.toNat) ++ (upto 6).map (fun q => (c.queue q).qst.toNat) ++
    [c.stale.toNat, c.ictl.toNat, c.rngc0.toNat, c.rngc1.toNat, c.rngk0.toNat, c.rngk1.toNat, c.info.pool.toNat, if c.pairs then 1 else 0])
  let m := (upto 64).foldl (fun m n =>
    let d := tget {} c.tens n
    putWords m (0x800 + 32 * n) [d.w0.toNat, d.w1.toNat, d.w2.toNat, d.w3.toNat]) m
  let m := (upto c.info.n).foldl (fun m i => dumpMt c i (0x1000 + 0x1000 * i) m) m
  let m := (upto c.info.n).foldl (fun m i => putWords m (0x21000 + 160 * i) ((c.mt i).record.map (fun w => w.toNat))) m
  let m := putBytes m 0x22400 (trange 0 c.tags 0 2048)
  if pool then (poolCells c).foldl (fun m b => tset 0 m (0x40000 + b.1) b.2) m else m

/-- S. -/
def dumpStride (pool : Bool) : Nat := if pool then 0x440000 else 0x40000

/-- The bytes of a core's record. -/
def dumpBytes (c : Core) (pool : Bool) : List Byte :=
  if c.launch.isNone then List.replicate 8 255 ++ List.replicate (dumpStride pool - 8) 0
  else trange 0 (dumpCore c pool) 0 (dumpStride pool)

/-- The header. -/
def dumpHeader (s : State) (pool : Bool) (n : Nat) : List Byte :=
  fitBytes 4096 (words64 [s.fw.toNat, identityWord s, (tget 0 s.cyc 0).toNat, if pool then 1 else 0, dumpStride pool, n])

/-- A write of the dump that is refused ends the recording: a DUMP completes with RESULT 2. -/
def dumpStep (s : State) (a : Nat) (bs : List Byte) : State :=
  match s.dump with
  | none => s
  | some d =>
    if d.failed then s else
    match dumpPut s a bs with
    | (true, s) => s
    | (false, s) =>
      let s := { s with dump := some { d with failed := true } }
      if mailRuns s 4 then mailDone s 2 else s

/-- The recording is whole once a marker has come in on every link: the header takes n, and a DUMP is done. -/
def dumpEnd (s : State) : State :=
  match s.dump with
  | none => s
  | some d =>
    if d.failed || !d.open_.isEmpty then s
    else
      let s := if d.addr = 0 then s else dumpStep s (d.addr + 0x28) (words64 [d.entries])
      if mailRuns s 4 then mailDone s 0 else s

/-- The device records: its cores halt, their state goes to the buffer, and markers leave on every link. Address 0 records nothing. -/
def beginDump (s : State) (addr : Nat) (pool : Bool) : State :=
  let s := passCycles ((upto 512).foldl haltCore s) 0
  let ports := (upto 18).filter (fun k => s.ports.getLsbD k)
  let s := { s with dump := some ⟨pool, addr, ports, [], 0, false⟩ }
  let s := if addr = 0 then s else
    (upto 512).foldl (fun s c => dumpStep s (addr + 0x1000 + dumpStride pool * c) (dumpBytes (s.core c) pool))
      (dumpStep s addr (dumpHeader s pool 0))
  dumpEnd s

/-- Whether a marker has still to come in on a link; a recording that failed goes on to its last marker and writes nothing (R410). -/
def dumping (s : State) : Bool := s.dump.any (fun d => !d.open_.isEmpty)

/-- R409, R410. -/
def execDump (s : State) : Out :=
  if !mailRuns s 4 then .next s
  else if s.mailParam / 2 ≠ 0 ∨ s.mailArg % 4096 ≠ 0 ∨ s.mailArg / 2 ^ 57 ≠ 0 ∨ bits s.mailArg 44 2 ≠ 0 then .next (mailRefused s 2)
  else if dumping s then .next (mailDone s 0)
  else .next (beginDump s s.mailArg (bit s.mailParam 0))

/-- The cut is over once no channel is open and the debugger has released every core: a later marker begins another one. -/
def cutOver (s : State) : State := if dumping s || s.cores.any (fun c => c.2.halted) then s else { s with dump := none }

/-- R409. A marker flit arrives on a port: it begins the cut, and closes that link's channel. -/
def execMarkerFlit (port : Nat) (pool : Bool) (s : State) : Out :=
  if !s.ports.getLsbD port then .next s else
  let s := if dumping s then s else beginDump s s.mailArg pool
  .next (cutOver (dumpEnd (match s.dump with
    | some d => { s with dump := some { d with open_ := d.open_.filter (fun k => k != port) } }
    | none => s)))

/-- A flit that arrives while its link's channel is open is recorded as channel state; its 64 bytes are a free value (log 25). -/
def recordFlit (s : State) (port : Nat) : State :=
  match s.dump with
  | none => s
  | some d =>
    if d.open_.contains port && !d.failed then
      let (flit, s) := (upto 8).foldl (fun (r : List Byte × State) _ =>
        let (w, t) := r.2.draw
        (r.1 ++ leBytes 8 w.toNat, t)) ([], s)
      let k := tget 0 d.counts port
      let a := d.addr + 0x1000 + 512 * dumpStride d.pool + 128 * d.entries
      let s := { s with dump := some { d with counts := tset 0 d.counts port (k + 1), entries := d.entries + 1 } }
      if d.addr = 0 then s else dumpStep s a (fitBytes 64 (words64 [port, k]) ++ flit)
    else s

/-- Whether a flit has to wait for the debugger: its link's channel is closed and the halt stands (R409). -/
def flitWaits (s : State) (port : Nat) : Bool := s.dump.any (fun d => !d.open_.contains port) && s.cores.any (fun c => c.2.halted)

/-- A flit on port `here.idx`: none arrives on a port that is down (R398), but one that had arrived before is delivered (R409); one that comes
behind its link's marker waits, behind those of its link that wait already; another is recorded where its channel is open, and acts (R409). -/
def flitArrives (s : State) (i : Instr) (act : State → State) : State :=
  if !s.ports.getLsbD s.here.idx && !s.here.arrived then s
  else if flitWaits s s.here.idx then { s with flits := s.flits ++ [.event { s.here with arrived := true } i] }
  else act (recordFlit s s.here.idx)

/-! ## ATTEST (R413) -/

/-- The report's fields before the signature. -/
def reportFields (s : State) (nonce : List Byte) : List Byte :=
  leBytes 8 s.fw.toNat ++ fitBytes 48 Config.firmwareHash ++ fitBytes 48 Config.configHash ++ fitBytes 32 nonce ++ leBytes 8 s.boot.toNat

/-- The length of the report and the certificate behind it. -/
def reportBytes : Nat := 240 + Config.certificate.length

/-- R413. A device that lost its configuration record reads and writes at the partner's node, past its own memory (R411). -/
def execAttest (s : State) : Out :=
  if !mailRuns s 5 then .next s
  else if s.mailParam ≠ 0 ∨ globalBad s s.mailArg (64 + reportBytes) then .next (mailRefused s 2)
  else if s.boot = 2 then .next (mailDone s 0)
  else
    let (nonce, s) := globalRead s s.mailArg 32
    let f := reportFields s nonce
    .next (mailDone (globalWrite s (s.mailArg + 64) (f ++ fitBytes 96 (Config.signature (sha384 f)) ++ Config.certificate)) 0)

/-- R401. The command completes once its writes are performed and the saves it started are complete. -/
def execMailboxComplete (s : State) : Out :=
  if s.mbusy && s.mdone && !s.msaves.any (stillSaving s) then .next { s with mbusy := false, mdone := false, msaves := [] } else .next s

end Sys2Proof.Machine
end

