-- ==== Sys2Proof/Machine/Trace.lean ====
section
/-! DEFINITION. Trace events (R408): a member's begin and end, samples, and time marks, written into the arrays of the trace region. -/

namespace Sys2Proof.Machine

/-- PIPE of an event. -/
def Pipe.code : Pipe → Option Nat
  | .l => some 0
  | .s => some 1
  | .a => some 2
  | .x => some 3
  | .ctl => some 4
  | .none => Option.none

/-- An event's word. -/
def traceWord (dt pipe e mt mem head : Nat) : Nat :=
  dt * 2 ^ 50 + pipe * 2 ^ 47 + e * 2 ^ 46 + mt % 32 * 2 ^ 41 + mem % 4 * 2 ^ 39 + bits head 2 39

/-- The trace region's base and size in bytes (R407). -/
def Core.traceBase (c : Core) : Nat := bits c.trbase.toNat 12 32 * 4096
def Core.traceSize (c : Core) : Nat := bits c.trsize.toNat 12 20 * 4096

/-- One word at TRPOS, straight into the arrays; a place that is not in the SRAM window of the core's die takes none (R407). -/
def tracePut (s : State) (core w : Nat) : State :=
  let c := s.core core
  let size := c.traceSize
  if size = 0 then s
  else
    let at_ := c.trpos.toNat % size
    let pa := c.traceBase + at_ / 8 * 8
    let s := if windowOf s pa = .sram (dieOf core) then
        s.arrWrite (pa / 128) (lineSpan (pa % 128) 8) (BitVec.ofNat 1024 (w * 2 ^ (8 * (pa % 128))))
      else s
    s.modCore core (fun c => { c with trpos := BitVec.ofNat 64 ((at_ / 8 * 8 + 8) % size) })

/-- An event of a core, behind a time mark where DT does not hold the cycles since the one before. -/
def traceEvent (s : State) (core pipe e mt mem head : Nat) : State :=
  let s := passCycles s (dieOf core)
  let now := tget 0 s.cyc (dieOf core)
  let dt := (now - (s.core core).trLast).toNat
  let s := if 16383 < dt then tracePut s core (7 * 2 ^ 47 + bits now.toNat 0 47) else s
  (tracePut s core (traceWord (if 16383 < dt then 0 else dt) pipe e mt mem head)).modCore core (fun c => { c with trLast := now })

/-- Whether the core traces its pipes. -/
def Core.tracing (c : Core) : Bool := c.dbgctl.getLsbD 2 && c.traceSize != 0

/-- The event of a member that begins or ends; a prefix and a `nop` belong to no pipe. The second run of a convoy's members is none of its
own (log 28). -/
def traceMember (s : State) (e : Nat) (cv : Convoy) (i : Instr) : State :=
  if !(s.core cv.core).tracing || cv.final then s
  else match (info (s.core cv.core).tens cv.pfx i).pipe.code with
    | some p => traceEvent s cv.core p e cv.mt cv.member cv.head.toNat
    | none => s

/-- What a step adds behind its instruction: the end event of a member that did not have to wait. `t` is the state it ran in. -/
def traceEnd (t : State) (i : Instr) (u : State) : State := if t.cv.live && u.cv.live then traceMember u 1 t.cv i else u

/-- Whether a counter selected by SMPCTL has passed its period; cycles pass uncounted (log 8). -/
def Core.sampleDue (c : Core) : Bool :=
  c.dbgctl.getLsbD 3 && bits c.smpctl.toNat 32 4 != 0 && decide (0 < c.smpcnt) && decide (bits c.smpctl.toNat 0 32 ≤ c.smpcnt)

end Sys2Proof.Machine
end

