-- ==== Sys2Proof/Machine/Mgmt.lean ====
section
/-! DEFINITION. The management blocks (R32 to R36, R175 to R178, R383, R384, R394, R395, R399 to R401, R407, R422): which register an
address names, what a read answers, what a write does; span updates, invalidations, the debug halt, samples, start-up. -/

namespace Sys2Proof.Machine

/-! ## The register map -/

/-- The registers of a management block. -/
inductive MReg where
  | spidx | spdat (die : Nat) | spctl | tlbinv | ctxd (n : Nat)
  | dieRel (die off : Nat) | latewb (die : Nat)
  | lqd (p q : Nat) | qmap (q : Nat) | pcfg (p : Nat) | gang (p k : Nat) | gact (p : Nat) | cgda (g : Nat) | cgdb (g : Nat)
  | mcmd | marg | msts | devnum
  | engRec (core q k : Nat) | qrel (core : Nat) | coreRel (core off : Nat)
  | dbgctl (core : Nat) | trbase (core : Nat) | trsize (core : Nat) | trpos (core : Nat) | smpctl (core : Nat)
  | lreq (core : Nat) | xreq (core : Nat)
  deriving DecidableEq, Repr

/-- The register at an offset of a core's area. -/
def coreReg (core off : Nat) : Option MReg :=
  if off < 0x600 then (if off % 0x100 < 160 then some (.engRec core (off / 0x100) (off % 0x100 / 8)) else none)
  else if off = 0x800 then some (.qrel core)
  else if 0x900 ≤ off ∧ off ≤ 0x928 then some (.coreRel core (off - 0x900))
  else if off = 0xA00 then some (.dbgctl core)
  else if off = 0xA08 then some (.trbase core)
  else if off = 0xA10 then some (.trsize core)
  else if off = 0xA18 then some (.trpos core)
  else if off = 0xA20 then some (.smpctl core)
  else if off = 0xB00 then some (.lreq core)
  else if off = 0xB08 then some (.xreq core)
  else none

/-- The registers that die 0's block alone has. -/
def die0Reg (off : Nat) : Option MReg :=
  if 0x2000 ≤ off ∧ off < 0x2400 then some (.lqd ((off - 0x2000) / 128) ((off - 0x2000) / 8 % 16))
  else if 0x2400 ≤ off ∧ off < 0x2800 then some (.qmap ((off - 0x2400) / 8))
  else if 0x2800 ≤ off ∧ off < 0x2840 then some (.pcfg ((off - 0x2800) / 8))
  else if 0x3000 ≤ off ∧ off < 0x3800 then
    let p := (off - 0x3000) / 0x100
    let o := off % 0x100
    if o < 152 then some (.gang p (o / 8)) else if o = 0xF8 then some (.gact p) else none
  else if 0x4000 ≤ off ∧ off < 0x5000 then some (if off % 16 = 0 then .cgda ((off - 0x4000) / 16) else .cgdb ((off - 0x4000) / 16))
  else if off = 0x5000 then some .mcmd
  else if off = 0x5008 then some .marg
  else if off = 0x5010 then some .msts
  else if off = 0x5100 then some .devnum
  else none

/-- The register at an offset of the block of a die; the offset is a multiple of 8. -/
def dieReg (die off : Nat) : Option MReg :=
  if off = 0x1000 then some .spidx
  else if off = 0x1008 then some (.spdat die)
  else if off = 0x1010 then some .spctl
  else if off = 0x1020 then some .tlbinv
  else if 0x1100 ≤ off ∧ off < 0x1180 then some (.ctxd ((off - 0x1100) / 8))
  else if 0x3800 ≤ off ∧ off ≤ 0x3828 then some (.dieRel die (off - 0x3800))
  else if off = 0x3900 then some (.latewb die)
  else if 0x100000 ≤ off ∧ off < 0x140000 then coreReg (die * 64 + (off - 0x100000) / 0x1000) (off % 0x1000)
  else if die = 0 then die0Reg off
  else none

/-- Whether a device without a configuration record serves a register (R411). -/
def servedBare : MReg → Bool
  | .devnum | .marg | .msts | .mcmd => true
  | _ => false

/-- The register at a PA; none for an access error (R399). -/
def regAt (s : State) (pa : Nat) : Option MReg :=
  let o := pa - devBase
  if pa < devBase ∨ 8 * 0x1000000 ≤ o ∨ pa % 8 ≠ 0 then none
  else (dieReg (o / 0x1000000) (o % 0x1000000)).filter (fun r => s.boot != 2 || servedBare r)

/-! ## Reads -/

/-- The span entry that SPIDX selects. -/
def spSelected (s : State) : Nat := bits s.spidx.toNat 0 20

/-- A register's value; GACT, which the spec lets software write, reads as a free value. -/
def readReg (s : State) : MReg → Word64 × State
  | .spidx => (s.spidx, s)
  | .spdat die => (tget 0 s.span (spanKey die 0 0 + spSelected s), s)
  | .spctl => (BitVec.ofNat 64 ((if s.spBusy then 1 else 0) + if s.spDrop then 2 else 0), s)
  | .tlbinv => (s.tlbinv ||| BitVec.ofNat 64 ((if s.tlbBusy then 1 else 0) + if s.tlbDrop then 2 else 0), s)
  | .ctxd n => (tget 0 s.ctxd n, s)
  | .dieRel die off => (tget 0 s.rel (die * 64 + off), s)
  | .latewb die => ((tget 0 s.latewb die).setWidth 64, s)
  | .lqd p q => ((lqOf s p q).lqd, s)
  | .qmap q => (tget 0 s.qmap q, s)
  | .pcfg p => (tget 0 s.pcfg p, s)
  | .gang p k => (BitVec.ofNat 64 ((gangWords (tget {} s.gangs p)).getD k 0), s)
  | .gact _ => s.draw
  | .cgda g => (tget 0 s.cgda g, s)
  | .cgdb g => (tget 0 s.cgdb g, s)
  | .mcmd => (s.mcmd, s)
  | .marg => (s.marg, s)
  | .msts => (BitVec.ofNat 64 (s.mresult.toNat * 256 + (if s.mbusy then 1 else 0) + if s.mdrop then 2 else 0), s)
  | .devnum => (s.devnum.setWidth 64, s)
  | .engRec core q k => ((((s.core core).queue q).record).getD k 0, s)
  | .qrel _ => (0, s)
  | .coreRel core off => (tget 0 (s.core core).rel off, s)
  | .dbgctl core => ((s.core core).dbgctl, s)
  | .trbase core => ((s.core core).trbase, s)
  | .trsize core => ((s.core core).trsize, s)
  | .trpos core => ((s.core core).trpos, s)
  | .smpctl core => ((s.core core).smpctl, s)
  | .lreq core => ((s.core core).lreq, s)
  | .xreq core => ((s.core core).xreq, s)

/-- A read of 8 bytes of a management block; none is an access error. -/
def mgmtRead (s : State) (pa : Nat) : Option (Word64 × State) := (regAt s pa).map (readReg s)

/-! ## Span updates (R33, R34) -/

/-- A write of SPIDX. -/
def writeSpidx (s : State) (v : Word64) : State := if s.spBusy then { s with spDrop := true } else { s with spidx := v &&& 0xFFFFF }

/-- A write of SPDAT: every die's store takes the entry at once, within the BUSY time (R33, log 44), and the update goes on until no access
holds the old one. -/
def writeSpdat (s : State) (v : Word64) : State :=
  if s.spBusy then { s with spDrop := true }
  else
    let n := spSelected s
    let t := (upto 8).foldl (fun (t : Tab Word64 × Tab Nat) d => (tset 0 t.1 (spanKey d 0 0 + n) v, tset 0 t.2 (spanKey d 0 0 + n) 0)) (s.span, s.spanErr)
    { s with span := t.1, spanErr := t.2, spBusy := true, spPend := some (n, v) }

/-- R33. -/
def execSpanUpdate (value : Word64) (s : State) : Out := .next (writeSpdat s value)

/-- Whether an entry that has not completed holds a translation through a span entry. -/
def entryHolds (n : Nat) (e : Entry) : Bool := e.held.any (fun k => k % 2 ^ 20 == n)

/-- Whether a core has a convoy in flight that may have translated in a context. -/
def convoyHolds (s : State) (ctx core : Nat) (c : Core) : Bool :=
  c.info.ctx == ctx && (c.mts.any (fun m => m.2.parked.isSome) || (s.cv.live && s.cv.core == core))

/-- R34. BUSY clears once every access and command that translated through the old entry has completed. -/
def execSpanUpdateComplete (s : State) : Out :=
  match s.spPend with
  | none => .next s
  | some (n, _) =>
    if s.cores.any (fun c => convoyHolds s (n / 65536) c.1 c.2 || c.2.queues.any (fun q => q.2.entries.any (entryHolds n))) then .next s
    else .next { s with spBusy := false, spPend := none }

/-! ## Invalidation (R36) -/

def tlbVa (v : Word64) : Nat := bits v.toNat 12 36 * 4096
def tlbCtx (v : Word64) : Nat := bits v.toNat 8 4
def tlbMode (v : Word64) : Nat := bits v.toNat 6 2

/-- The device and the first PA of the page that a TLB entry maps; none for a page of no window. -/
def entryPage (s : State) (t : TlbEntry) : Option (Option Nat × Nat) :=
  let e := t.leaf.toNat
  let dev := bits e 46 11
  (plWindow s (bits e 57 5)).map (fun w => (if bit e 45 && dev != s.devnum.toNat then some dev else none, w.1 + bits e 12 32 * 4096))

/-- The stores of a core that have still to enter its L1: those that are late, and those of convoys in flight. -/
def storesAhead (s : State) (core : Nat) (c : Core) : List Store :=
  c.ct.late.flatten ++ (c.mts.map (fun m => m.2.late.flatten ++ (m.2.parked.map (fun v => v.stores)).getD [])).flatten ++
    (if s.cv.live && s.cv.core == core then s.cv.stores else [])

/-- The bytes of a line that stores of a core hold and that its home slice has not. -/
def bytesAhead (s : State) (core : Nat) (c : Core) (line : Nat) : LineMask :=
  (storesAhead s core c).foldl (fun m st => if st.dev.isSome then m else
    (pieces (st.bytes.length + 1) st.pa st.bytes.length).foldl (fun m p => if p.1 = line then m ||| lineSpan p.2.1 p.2.2 else m) m)
    (c.line line).dirty

/-- Whether a core has stores to a device on their way, by core and device: posted, or still to be posted by a convoy in flight. -/
def postedAhead (s : State) (k : Nat) : Bool :=
  !(tget [] s.posted k).isEmpty || (storesAhead s (k / 2048) (s.core (k / 2048))).any (fun st => st.dev == some (k % 2048))

/-- What an invalidation that drops an entry has to wait for on a core (R36). -/
def droppedWaits (s : State) (core : Nat) (c : Core) (t : TlbEntry) : List (Nat × Nat × LineMask) × List Nat :=
  match entryPage s t with
  | none => ([], [])
  | some (some dev, _) => ([], if postedAhead s (core * 2048 + dev) then [core * 2048 + dev] else [])
  | some (none, pa) =>
    let lines := c.l1.map Prod.fst ++ ((storesAhead s core c).map (fun st => [st.pa / 128, (st.pa + st.bytes.length - 1) / 128])).flatten
    let mine := (lines.filter (fun n => 128 * n / 2 ^ t.pbits == pa / 2 ^ t.pbits)).eraseDups
    ((mine.map (fun n => (core, n, bytesAhead s core c n))).filter (fun w => w.2.2 != 0), [])

/-- The entries of every core that stay; what the dropped ones wait for goes down, beside what is waited for already (R36, log 54). -/
def keepEntries (s : State) (t : TlbEntry → Bool) (w : WalkEntry → Bool) : State :=
  let r := (s.cores.map (fun c => (c.2.tlb.filter (fun e => !t e)).map (droppedWaits s c.1 c.2))).flatten
  { s with
    cores := tmap {} (fun _ c => { c with tlb := c.tlb.filter t, walk := c.walk.filter w }) s.cores
    tlbWaits := s.tlbWaits ++ (r.map Prod.fst).flatten
    tlbPosts := (s.tlbPosts ++ (r.map Prod.snd).flatten).eraseDups }

/-- R36. MODE 0: the TLB entries whose range holds VA and the walk-cache entries of CTX. -/
def execTlbinvPage (s : State) : Out :=
  let ctx := tlbCtx s.tlbinv
  let va := tlbVa s.tlbinv
  .next (keepEntries s (fun t => t.ctx != ctx || t.base != va / 2 ^ t.pbits * 2 ^ t.pbits) (fun w => w.ctx != ctx))

/-- R36. MODE 1: every entry of CTX. -/
def execTlbinvContext (s : State) : Out :=
  let ctx := tlbCtx s.tlbinv
  .next (keepEntries s (fun t => t.ctx != ctx) (fun w => w.ctx != ctx))

/-- R36. MODE 2: every entry. -/
def execTlbinvAll (s : State) : Out := .next (keepEntries s (fun _ => false) (fun _ => false))

/-- A write of TLBINV. -/
def writeTlbinv (s : State) (v : Word64) : State :=
  if s.tlbBusy ∨ tlbMode v = 3 ∨ bits v.toNat 48 16 ≠ 0 ∨ bits v.toNat 2 4 ≠ 0 then { s with tlbDrop := true }
  else
    let s := { s with tlbinv := v &&& 0x0000FFFFFFFFFFC0, tlbDrop := s.tlbDrop && !v.getLsbD 1 }
    if v.getLsbD 0 then
      follow { s with tlbBusy := true } {} (match tlbMode v with
        | 0 => .tlbinvPage
        | 1 => .tlbinvContext
        | _ => .tlbinvAll)
    else s

/-- Whether a store made through a dropped entry has still to reach its home slice, or to be answered by its device. -/
def tlbWaiting (s : State) : Bool :=
  s.tlbWaits.any (fun w => bytesAhead s w.1 (s.core w.1) w.2.1 &&& w.2.2 != 0) || s.tlbPosts.any (postedAhead s)

/-- R36. BUSY clears once no convoy in flight holds an access made through a dropped entry and no scalar store made through one is
still on its way. -/
def execTlbinvComplete (s : State) : Out :=
  if s.cores.any (fun c => convoyHolds s c.2.info.ctx c.1 c.2 && (tlbMode s.tlbinv == 2 || c.2.info.ctx == tlbCtx s.tlbinv)) || tlbWaiting s
  then .next s
  else .next { s with tlbBusy := false, tlbWaits := [], tlbPosts := [] }

/-! ## Debug (R142, R407, R408) -/

/-- What a halt of a launch's cores held back goes on: a pre-emption that was chosen, a gang stop (R198). -/
def afterHalt (s : State) (core : Nat) : State :=
  match launchOn s core with
  | none => s
  | some l =>
    let s := if l.chosen then follow s { core := core } .preemption else s
    let hit := (l.cores.map (fun c => (upto (s.core c).info.n).filterMap (fun i =>
      if ((s.core c).mt i).code = 4 ∧ recordKind ((s.core c).mt i).record = kPOISON then some (c, i) else none))).flatten
    match hit.head? with
    | some (c, i) => follow s { core := c, idx := i } .gangStop
    | none => s

/-- A core's agents go on; when no core is halted any more, waiting flits are delivered in the order they came (R409). -/
def releaseCore (s : State) (core : Nat) : State :=
  let s := s.modCore core (fun c => { c with halted := false, dbgctl := c.dbgctl &&& ~~~1 })
  let s := if s.cores.any (fun c => c.2.halted) then s else cutOver { s with sched := s.flits ++ s.sched, flits := [] }
  afterHalt s core

/-- R142. -/
def execDebugHalt (s : State) : Out := .next (haltCore s s.here.core)

/-- R142. -/
def execDebugRelease (s : State) : Out := .next (if (s.core s.here.core).halted then releaseCore s s.here.core else s)

/-- A write of DBGCTL. -/
def writeDbgctl (s : State) (core : Nat) (v : Word64) : State :=
  if v.toNat / 16 ≠ 0 then s
  else
    let was := (s.core core).halted
    let s := s.modCore core (fun c => { c with dbgctl := v })
    if v.getLsbD 0 then haltCore s core else if was then releaseCore s core else s

/-- R408. A sample names the convoy that the lane of micro-thread `here.idx` is about to issue, and the counter restarts; a period of cycles
passes when this operation says so (log 8). -/
def execSample (s : State) : Out :=
  let core := s.here.core
  let c := s.core core
  let cycles := c.dbgctl.getLsbD 3 && bits c.smpctl.toNat 32 4 == 0
  match lanePick c (s.here.idx % 8) with
  | some i =>
    if cycles || c.sampleDue then
      let n := match nextMembers c i with
        | some ms => ms.length
        | none => 1
      let s := if c.traceSize = 0 then s else traceEvent s core 6 0 i (n - 1) (c.mt i).next.toNat
      .next (s.modCore core (fun c => { c with smpcnt := 0 }))
    else .next s
  | none => .next s

/-! ## Queue release (R384) -/

/-- A write of QREL. -/
def writeQrel (s : State) (core : Nat) (v : Word64) : State :=
  if v.toNat / 64 ≠ 0 then s
  else s.modCore core (fun c => (upto 6).foldl (fun c q =>
    if v.getLsbD q && (c.queue q).held then c.setQueue q { c.queue q with held := false, timeout := false } else c) c)

/-- R384. -/
def execQueueRelease (value : Word64) (s : State) : Out := .next (writeQrel s s.here.core value)

/-! ## Writes -/

/-- A write of PCFG: discarded with a reserved bit, or while the partition has an admitted launch (R177). -/
def writePcfg (s : State) (p : Nat) (v : Word64) : State :=
  if bits v.toNat 44 20 ≠ 0 ∨ bits v.toNat 5 19 ≠ 0 ∨ s.launches.any (fun l => l.part == p) ∨ s.saved.any (fun k => k.launch.part == p) then s
  else { s with pcfg := tset 0 s.pcfg p v }

/-- Whether a core of the device holds a started q3 entry of a group (R400). -/
def groupBusy (s : State) (g : Nat) : Bool := s.cores.any (fun c => (collOf s c.1 g).isSome)

/-- A write of GACT (R394). -/
def writeGact (s : State) (p : Nat) (v : Word64) : State :=
  if (tget {} s.gangs p).state ≠ 2 then s
  else if v = 1 then follow s { idx := p } .gangResume
  else if v = 2 then follow s { idx := p } .gangAbort
  else s

/-- A write of one of a core's debug registers: discarded with a reserved bit (R407). -/
def writeDebug (s : State) (core : Nat) (v keep : Word64) (f : Core → Core) : State := if v &&& ~~~keep = 0 then s.modCore core f else s

/-- What a write of a register does; a write of one that software does not write is discarded. Reserved bits
whose rule names no outcome are dropped, those of SPCTL and MSTS among them (log 38). -/
def writeReg (s : State) (v : Word64) : MReg → State
  | .spidx => writeSpidx s v
  | .spdat _ => writeSpdat s v
  | .spctl => if v.getLsbD 1 then { s with spDrop := false } else s
  | .tlbinv => writeTlbinv s v
  | .ctxd n => { s with ctxd := tset 0 s.ctxd n (v &&& 0x00000FFFFFFFF001) }
  | .lqd p q => writeLqd s p q v
  | .qmap q => writeQmap s q v
  | .pcfg p => writePcfg s p v
  | .gact p => writeGact s p v
  | .cgda g => if groupBusy s g then s else { s with cgda := tset 0 s.cgda g (v &&& 0x800FFC00FFFFFFFF) }
  | .cgdb g => if groupBusy s g then s else { s with cgdb := tset 0 s.cgdb g (v &&& 0x00000FFFFFFFFFFF) }
  | .mcmd => writeMcmd s v
  | .marg => { s with marg := v }
  | .msts => if v.getLsbD 1 then { s with mdrop := false } else s
  | .qrel core => writeQrel s core v
  | .dbgctl core => writeDbgctl s core v
  | .trbase core => writeDebug s core v 0x00000FFFFFFFF000 (fun c => { c with trbase := v })
  | .trsize core => writeDebug s core v 0x00000000FFFFF000 (fun c => { c with trsize := v })
  | .trpos core => writeDebug s core v 0x00000FFFFFFFFFFF (fun c => { c with trpos := v })
  | .smpctl core => writeDebug s core v 0x0000000FFFFFFFFF (fun c => { c with smpctl := v })
  | .dieRel _ _ | .latewb _ | .gang _ _ | .devnum | .engRec _ _ _ | .coreRel _ _ | .lreq _ | .xreq _ => s

/-- A write of 8 bytes of a management block; none is an access error. -/
def mgmtWrite (s : State) (pa : Nat) (v : Word64) : Option State := (regAt s pa).map (writeReg s v)

/-- R32, R399. A write of a register; an access error writes nothing. -/
def execRegisterWrite (pa : Nat) (value : Word64) (s : State) : Out := .next ((mgmtWrite s pa value).getD s)

/-! ## The device (R411, R414) -/

/-- R414. The clock goes down by 50 MHz, or up again to 1.1 GHz at most; nothing else changes. -/
def execClockThrottle (down : Bool) (s : State) : Out :=
  .next { s with clock := if down then s.clock - 50 else min 1100 (s.clock + 50) }

/-- R411. The device starts up: `status` is 0 verified, 1 firmware failed, 2 configuration record failed; the identity is the
record's, or device 2,047 with no interleaved window. A status that is none of these, and a share above 64 GiB, which no record names
(R9), begin nothing. -/
def execDeviceStartup (status : BitVec 2) (dev : BitVec 11) (share : BitVec 7) (ports : BitVec 18) (fw : Word64) (s : State) : Out :=
  if status = 3 ∨ 64 < share.toNat then .next s else .next { State.reset with
    here := s.here, sched := s.sched, fresh := s.fresh
    boot := status
    devnum := if status = 2 then 2047 else dev
    share := if status = 2 then 0 else share.toNat
    ports := ports
    fw := fw }

end Sys2Proof.Machine
end

