-- ==== Sys2Proof/Machine/Fabric.lean ====
section
/-! DEFINITION. Requests that arrive over the fabric (R11, R122, R129, R130, R399). -/

namespace Sys2Proof.Machine

/-- One element of an atomic that another node sent. -/
def rowElem (size : Size) (ft : Option FType) (op : AmoOp) (rm : RMode) (old : Nat) (x : Nat × Nat) : Nat :=
  match ft with
  | some f => (amoFlt op (ftFmt f) old x.1 rm x.2).1
  | none => amoInt op size.bits old (x.1 % 2 ^ size.bits)

/-- The width of its elements in bytes. -/
def rowWidth (size : Size) (ft : Option FType) : Nat :=
  match ft with
  | some f => ftBits f / 8
  | none => size.bits / 8

/-- A row of atomics, read, combined and written as one at its home slice; one that does not lie in a line performs nothing (R122, R125). -/
def rowAtSlice (s : State) (pa : Nat) (size : Size) (ft : Option FType) (op : AmoOp) (rm : RMode) (xs : List (Nat × Nat)) : State :=
  let w := rowWidth size ft
  let n := w * xs.length
  if pa % w ≠ 0 ∨ 128 < pa % 128 + n then s else
  let (r, s) := sliceLoad (closeLine s (pa / 128)) (pa / 128) (pa % 128) n
  let v := (upto xs.length).foldl (fun v i => v + rowElem size ft op rm (bits r.val (8 * w * i) (8 * w)) (xs.getD i (0, 0)) * 2 ^ (8 * w * i)) 0
  sliceWrite s (pa / 128) (lineSpan (pa % 128) n) (BitVec.ofNat 1024 (v * 2 ^ (8 * (pa % 128)))) .other r.poison none

/-- A remote-reduce packet of another node (R126): one of a deterministic launch enters the line's batch (R127). A launch of that device
alone is named by the device too; one over several devices goes by its gang tag (log 45). -/
def reduceArrives (s : State) (line sid : Nat) (bf : Bool) (rm : RMode) (elems : List (Nat × Nat × Nat)) (det : Option (Nat × Nat × Nat)) :
    State :=
  let ok := elems.filter (fun e => decide (e.1 + (if bf then 2 else 4) ≤ 128))
  let p : VrstPkt := { sid := sid, core := 512 + sid / 32768, line := line, bf := bf, rm := rm, elems := ok.map (fun e => (e.1, fmtF32.read e.2.1, e.2.2)) }
  match det with
  | none => applyPacket (closeLine s line) p
  | some (part, queue, index) => sendPacket s { p with
      batch := true
      lid := if part = 32768 then (part, queue, 0) else (8 * (sid / 32768 + 1) + part % 8, queue, index) }

/-- A request to memory, performed at the home slices; what it reads leaves for the requester. -/
def memRequest (s : State) (pa : Nat) (req : FabReq) : State :=
  match req with
  | .read n => if inMemory s pa && inMemory s (pa + n - 1) then (homeRead (closeRange s pa n) pa n).2.2.2 else s
  | .write bytes =>
    if inMemory s pa && inMemory s (pa + bytes.length - 1) then homeWrite (closeRange s pa bytes.length) pa bytes else s
  | .amo size op x => if inMemory s pa then sliceAtomic s pa size op x else s
  | .amoRow size ft op rm xs => if inMemory s pa then rowAtSlice s pa size ft op rm xs else s
  | .reduce sid bf rm elems det => if inMemory s pa then reduceArrives s (pa / 128) sid bf rm elems det else s
  | .poisoned bytes =>
    if inMemory s pa && inMemory s (pa + bytes.length - 1) then homeWrite (closeRange s pa bytes.length) pa bytes none true else s

/-- A request to the device window: 8 bytes of a register, naturally aligned (R399). -/
def mgmtRequest (s : State) (pa : Nat) (req : FabReq) : State :=
  match req with
  | .read n => if n = 8 then ((mgmtRead s pa).map Prod.snd).getD s else s
  | .write bytes => if bytes.length = 8 then (mgmtWrite s pa (BitVec.ofNat 64 (leNat bytes))).getD s else s
  | .amo _ _ _ | .amoRow _ _ _ _ _ | .reduce _ _ _ _ _ | .poisoned _ => s

/-- R129. A request from node `src`, on port `here.idx`, at a domain-global address. One that is refused, with an access error to its
sender, changes nothing: reserved bits (R11), another device's number, no register, no memory, or a device that has not started (R411).
A device without a configuration record answers its link partners alone (R411). -/
def execFabricRequest (src addr : Nat) (req : FabReq) (s : State) : Out :=
  let pa := addr % 2 ^ 44
  .next (flitArrives s (.fabricRequest src addr req) (fun s =>
    if bits addr 44 2 ≠ 0 ∨ addr / 2 ^ 46 ≠ s.devnum.toNat then s
    else if s.boot = 2 ∧ src ≠ Config.linkPartner s.here.idx then s
    else if windowOf s pa = .device then mgmtRequest s pa req
    else if s.boot ≠ 0 then s
    else memRequest s pa req))

/-- R14. The oldest write that core `here.core` posted to a device, at the VA that the answer names, is refused; the answer comes in on port
`here.idx`. -/
def execAccessErrorResponse (dev : Nat) (va : Word64) (s : State) : Out :=
  .next (flitArrives s (.accessErrorResponse dev va) (fun s =>
    if (tget [] s.posted (s.here.core * 2048 + dev)).head?.any (fun a => a.2 == va.toNat) then postedError s s.here.core dev else s))

/-- R118. A device answers, on port `here.idx`, the oldest access that core `here.core` posted to it: performed, or an access error. What it
answers to a load or an atomic arrives with the load (log 10). -/
def execFabricResponse (dev : Nat) (error : Bool) (s : State) : Out :=
  .next (flitArrives s (.fabricResponse dev error) (fun s =>
    if error then postedError s s.here.core dev
    else if hasPosted s s.here.core dev then answered s s.here.core dev else s))

end Sys2Proof.Machine
end

