-- ==== Sys2Proof/Machine/Fetch.lean ====
section
/-! DEFINITION. What acts next: a member of the convoy in flight, a move of the schedule, or the current agent's next
instruction (log 1, log 2), and the control thread's instruction fetch (R23, R30, R60). -/

namespace Sys2Proof.Machine

/-! ## The control thread's fetch -/

/-- The translation of an instruction fetch: pages in U mode, none in M mode (R23). The device window holds no instructions (R399). -/
def ctFetchXlat (s : State) (core : Nat) (pc : Nat) : Except XCause Xlat × State :=
  if (s.core core).ct.machine then
    (match bareXlat s pc with
      | .ok x => if x.devt then .error .abs else .ok x
      | .error c => .error c, s)
  else pageXlat s core (s.ctxOf core) pc { x := true }

/-- Two bytes of an instruction, read through the L1 as a control-thread load would (R60). -/
def ctFetchHalf (s : State) (core : Nat) (pc : Nat) (t : Tally) : Except XCause Nat × Tally × State :=
  match ctFetchXlat s core pc with
  | (.error c, s) => (.error c, t, s)
  | (.ok x, s) =>
    let (v, t, s) := agentLoad s core 32 x 2 [] t 0 pc
    (if t.abs.isEmpty then .ok v else .error .abs, t, s)

/-- The bytes of the instruction at the pc: a 16-bit word of the C extension, or a 32-bit word, one request where it goes to another node
(R422); or the address of a half whose fetch is refused. -/
def ctFetchBytes (s : State) (core : Nat) (pc : Word64) : Except (Word64 × XCause) Nat × Tally × State :=
  match ctFetchHalf s core pc.toNat {} with
  | (.error c, t, s) => (.error (pc, c), t, s)
  | (.ok lo, t, s) =>
    if lo % 4 = 3 then
      match ctFetchHalf s core (pc + 2).toNat t with
      | (.error c, t, s) => (.error (pc + 2, c), t, s)
      | (.ok hi, t, s) => (.ok (lo + 65536 * hi), { t with far := t.far.take 1 }, s)
    else (.ok lo, t, s)

/-- The control thread's next instruction, fetched once until it is done. A refused fetch is an instruction page fault, kind 2, and one that
reads a poisoned granule is kind 3 (R392). A stale fetch counts and never traps (R60); a load of the same line by the instruction counts
apart (R91, log 55). -/
def ctFetch (s : State) (core : Nat) : Instr × State :=
  let pc := (s.core core).ct.pc
  match (s.core core).ct.fetched with
  | some w => (decodeCt w, s)
  | none => match ctFetchBytes s core pc with
    | (.error (va, _), t, s) => (.ctPageFault va 2, tallied s core t)
    | (.ok w, t, s) =>
      let s := tallied s core t
      if t.poison.isSome then (.ctPageFault pc 3, s)
      else (decodeCt (BitVec.ofNat 32 w), s.modCore core (fun c => { c with ct := { c.ct with fetched := some (BitVec.ofNat 32 w) } }))

/-- An instruction of the control thread that its stores entering the L1 late do not enter before: a load, which may overtake them, a store,
which goes behind them, or one that works on registers alone (R106). -/
def ctOvertakes : Instr → Bool
  | .ctLoadStore _ _ _ _ _ => true
  | .ctRiscvInstruction op _ => match op with
    | .csr _ _ _ _ _ | .ebreak | .mret | .wfi | .illegal _ => false
    | _ => true
  | _ => false

/-- Whether the control thread takes the interrupt of cause 16 (R385): mip and mie bit 16, and MIE where it runs in M mode. -/
def ctInterrupts (c : Core) : Bool :=
  c.mip.getLsbD 16 && c.ct.mie.getLsbD 16 && (!c.ct.machine || (c.ct.mstatus &&& msMIE) != 0)

/-! ## Whose turn -/

/-- The operation of a micro-thread's turn. Under a debug halt, and while its core stops for a pre-emption, a convoy that has issued still
goes on (R142, R194). -/
def mtTurn (c : Core) (i : Nat) : Option Instr :=
  let m := c.mt i
  if c.launch.isNone || m.code = 7 then none
  else if !c.issues i then (if m.parked.isSome then some .convoyRetire else none)
  else match pendingFor c i with
    | some op => some op
    | none =>
      if m.code = 4 then none
      else if m.parked.isSome then some .convoyRetire
      else if m.code = 0 then (if m.lodeq.isEmpty then none else some .lodeTake)
      else if m.lode.isNone then some .lodeFill
      else if c.sampleDue && (lanePick c (i % 8)).isSome then some .sample
      else some .convoyIssue

/-- The convoy in flight lets other agents act before it goes on. -/
def holdsNow (s : State) : Bool := s.cv.mayHold && (match s.sched with
  | .hold :: _ => true
  | _ => false)

/-- The turn of the current agent. -/
def agentTurn (s : State) : Option (Instr × State) :=
  let c := s.core s.curCore
  match s.cur with
  | .mt i => (mtTurn c i).map (fun op => (op, { s with here := { core := s.curCore, idx := i } }))
  | .ct =>
    if !c.ct.active || c.halted || c.stopping then none
    else if ctInterrupts c then some (.faultInterrupt, drainCt { s with here := { core := s.curCore } } s.curCore)
    else
      let (i, s) := ctFetch { s with here := { core := s.curCore } } s.curCore
      some (i, if ctOvertakes i then s else drainCt s s.curCore)

/-- The next operation and the state it acts on: a word of the convoy in flight, its retirement or fault; the head of the
schedule; the turn of the current agent. None where nothing can act, or the schedule's head is no operation. -/
def nextInstr (s : State) : Option (Instr × State) :=
  if s.cv.live then
    if holdsNow s then none else
    match s.cv.todo with
    | w :: ws =>
      match decodeMt w with
      | .ok i =>
        let again := s.cv.wait == .member
        let s := s.modCv (fun cv => { cv with todo := ws, widx := cv.widx + 1, wait := if again then .none else cv.wait })
        some (i, if again then s else traceMember s 0 s.cv i)
      | .error _ => some (.nop false, s.modCv (fun cv => { cv with todo := ws, widx := cv.widx + 1 }))
    | [] =>
      let s := { s with here := { core := s.cv.core, idx := s.cv.mt } }
      some (if s.cv.cands.isEmpty then .convoyRetire else .convoyFault, s)
  else
    match s.sched with
    | .event h i :: l => some (i, { s with sched := l, here := h })
    | .run c who :: l => agentTurn { s with sched := l, curCore := c, cur := who }
    | [] => agentTurn s
    | _ => none

/-- A step in which no instruction acts: a scheduled turn is used up, a hardware event takes place, the convoy in flight is held, and a delay
that nothing took is over. -/
def idleStep (s : State) : State :=
  match s.sched with
  | .run c who :: l => { s with sched := l, curCore := c, cur := who }
  | .hw e :: l => hwEvent { s with sched := l } e
  | .hold :: l => holdConvoy { s with sched := l }
  | .delay :: l => { s with sched := l }
  | _ => s

end Sys2Proof.Machine
end

