-- ==== Sys2Proof/Machine/CtMem.lean ====
section
/-! DEFINITION. The control thread's accesses (R23, R60, R109, R110, R122, R124, R392, R399): loads, stores, AMOs, LR and SC, fences, page
faults and the run-ahead of R41. -/

namespace Sys2Proof.Machine

/-! ## Translation -/

/-- Whether data accesses are translated: in U mode (R23). MPRV changes nothing (log 9). -/
def Ct.dataPaged (c : Ct) : Bool := !c.machine

/-- A data access at a VA. -/
def ctXlat (s : State) (core va : Nat) (need : Need) : Except XCause Xlat × State :=
  if (s.core core).ct.dataPaged then pageXlat s core (s.ctxOf core) va need else (bareXlat s va, s)

/-- The smallest pages an access may span. -/
def ctPage : Nat := 4096

/-- The pieces of an access, each translated, or the VA and the cause of the first that is refused. -/
def ctPieces (s : State) (core : Nat) (va n : Nat) (need : Need) : Except (Nat × XCause) (List (Nat × Nat × Nat × Xlat)) × State :=
  (splitAt ctPage va n).foldl (fun (r : Except (Nat × XCause) (List (Nat × Nat × Nat × Xlat)) × State) p =>
    match r with
    | (.error e, s) => (.error e, s)
    | (.ok l, s) => match ctXlat s core p.1 need with
      | (.error c, s) => (.error (p.1, c), s)
      | (.ok x, s) => (.ok (l ++ [(p.1, p.2.1, p.2.2, x)]), s)) (.ok [], s)

/-! ## Traps of an access -/

/-- The kinds of an access, as xbpf codes them (R42). -/
def kindLoad : Nat := 0
def kindStore : Nat := 1
def kindFetch : Nat := 2

/-- RISC-V's page-fault cause of a kind, and its access-fault cause. -/
def pageCause (kind : Nat) : Nat := if kind = kindFetch then 12 else if kind = kindStore then 15 else 13
def accessCause (kind : Nat) : Nat := if kind = kindFetch then 1 else if kind = kindStore then 7 else 5

/-- POISON of R387. -/
def causePoison : Nat := 26
/-- LODEALIGN of R387. -/
def causeLodeAlign : Nat := 24

/-! ## Run-ahead (R41, R42) -/

/-- A run-ahead: the state it works on, the registers whose values are unknown, the pages collected. -/
structure Ahead where
  s : State
  ux : List Nat := []
  uf : List Nat := []
  pages : List (Nat × Nat) := []
  deriving DecidableEq, Repr

def Ahead.knowsX (a : Ahead) (r : XName) : Bool := !a.ux.contains r.toNat
def Ahead.knowsF (a : Ahead) (r : XName) : Bool := !a.uf.contains r.toNat
def Ahead.setX (a : Ahead) (r : XName) (known : Bool) : Ahead := { a with ux := if known || r == 0 then keyOut r.toNat a.ux else insertNew r.toNat a.ux }
def Ahead.setF (a : Ahead) (r : XName) (known : Bool) : Ahead := { a with uf := if known then keyOut r.toNat a.uf else insertNew r.toNat a.uf }

/-- A further faulting page, unless it is the primary fault's or collected already. -/
def Ahead.collect (a : Ahead) (primary va kind : Nat) : Ahead :=
  let page := bits va 12 36 * 4096
  if page = primary ∨ a.pages.any (fun p => p.1 == page) ∨ 8 ≤ a.pages.length then a else { a with pages := a.pages ++ [(page, kind)] }

def memIsStore : RvMem → Bool
  | .sb | .sh | .sw | .sd | .fsw | .fsd => true
  | _ => false

def memIsFloat : RvMem → Bool
  | .flw | .fld | .fsw | .fsd => true
  | _ => false

def memBytes : RvMem → Nat
  | .lb | .lbu | .sb => 1
  | .lh | .lhu | .sh => 2
  | .lw | .lwu | .sw | .flw | .fsw => 4
  | .ld | .sd | .fld | .fsd => 8

/-- The x registers, and the f registers, that an operation reads. -/
def opReads : RvOp → List XName × List XName
  | .jalr _ a _ => ([a], [])
  | .branch _ a b _ => ([a, b], [])
  | .aluImm _ _ _ a _ => ([a], [])
  | .shiftImm _ _ _ a _ => ([a], [])
  | .alu _ _ _ a b => ([a, b], [])
  | .mul _ _ _ a b => ([a, b], [])
  | .b2 _ _ a b => ([a, b], [])
  | .b1 _ _ a => ([a], [])
  | .bi _ _ a _ => ([a], [])
  | .csr _ _ _ a _ => ([a], [])
  | .fma _ _ _ a b c _ => ([], [a, b, c])
  | .fop _ _ _ a b _ => ([], [a, b])
  | .fsel _ _ _ a b => ([], [a, b])
  | .fcmp _ _ _ a b => ([], [a, b])
  | .fclass _ _ a => ([], [a])
  | .fcvtToInt _ _ _ a _ => ([], [a])
  | .fcvtFromInt _ _ _ a _ => ([a], [])
  | .fcvtSD _ a _ => ([], [a])
  | .fcvtDS _ a _ => ([], [a])
  | .fmvToX _ _ a => ([], [a])
  | .fmvFromX _ _ a => ([a], [])
  | .lui _ _ | .auipc _ _ | .jal _ _ | .ebreak | .mret | .wfi | .illegal _ => ([], [])

/-- The register an operation writes, and whether it is an f register. -/
def opWrites : RvOp → Option (XName × Bool)
  | .lui d _ | .auipc d _ | .jal d _ | .jalr d _ _ | .aluImm _ _ d _ _ | .shiftImm _ _ d _ _ | .alu _ _ d _ _ | .mul _ _ d _ _ |
    .b2 _ d _ _ | .b1 _ d _ | .bi _ d _ _ | .csr _ _ d _ _ | .fcmp _ _ d _ _ | .fclass _ d _ | .fcvtToInt _ _ d _ _ | .fmvToX _ d _ => some (d, false)
  | .fma _ _ d _ _ _ _ | .fop _ _ d _ _ _ | .fsel _ _ d _ _ | .fcvtFromInt _ _ d _ _ | .fcvtSD d _ _ | .fcvtDS d _ _ | .fmvFromX _ d _ => some (d, true)
  | .branch _ _ _ _ | .ebreak | .mret | .wfi | .illegal _ => none

/-- Whether an operation ends a run-ahead for what it is: a CSR access, `ebreak`, and what would trap. -/
def opEndsAhead : RvOp → Bool
  | .csr _ _ _ _ _ | .ebreak | .mret | .illegal _ => true
  | _ => false

/-- A branch or jump that an unknown register decides ends it too. -/
def opSteers : RvOp → Bool
  | .jalr _ _ _ | .branch _ _ _ _ => true
  | _ => false

/-- The value of a load for its register. -/
def extendLoad (op : RvMem) (v : Nat) : Word64 :=
  match op with
  | .lb => BitVec.ofInt 64 (sxt 8 v)
  | .lh => BitVec.ofInt 64 (sxt 16 v)
  | .lw => BitVec.ofInt 64 (sxt 32 v)
  | .flw => rvBox false v
  | _ => BitVec.ofNat 64 v

/-- The bytes of translated pieces, read by the control thread, which sees its own stores that are still to enter the L1 (R101, R106). -/
def ctReadPieces (s : State) (core : Nat) (l : List (Nat × Nat × Nat × Xlat)) : Nat × Tally × State :=
  l.foldl (fun (r : Nat × Tally × State) p =>
    let (v, t, s) := r
    let (va, at_, n, x) := p
    let (w, t, s) := agentLoad s core 32 x n (s.core core).ct.late.flatten t 0 va
    (v + w * 2 ^ (8 * at_), t, s)) (0, {}, s)

/-- A load of the run-ahead: an unknown address, a refused page, an NS or DEVT page, poison and a refusing node give unknown. -/
def aheadLoad (a : Ahead) (core primary : Nat) (op : RvMem) (rd rs1 : XName) (imm : BitVec 12) : Ahead :=
  let put (a : Ahead) (v : Option Nat) : Ahead :=
    let set := fun (c : Ct) => match v with
      | some x => if (memIsFloat op) then c.wf rd (extendLoad op x) else c.wx rd (extendLoad op x)
      | none => c
    let a := { a with s := a.s.modCt set }
    if (memIsFloat op) then a.setF rd v.isSome else a.setX rd v.isSome
  if !a.knowsX rs1 then put a none
  else
    let va := (a.s.ct.rx rs1 + imm.signExtend 64).toNat
    match ctPieces a.s core va (memBytes op) { r := true } with
    | (.error (p, c), s) => put (if c = .inv then { a with s := s }.collect primary p kindLoad else { a with s := s }) none
    | (.ok l, s) =>
      if l.any (fun p => p.2.2.2.ns || p.2.2.2.devt) then put { a with s := s } none
      else
        let (v, t, s) := ctReadPieces s core l
        put { a with s := s } (if t.poison.isSome || !t.abs.isEmpty then none else some v)

/-- A store or an atomic of the run-ahead is not performed; its page may be collected. -/
def aheadTouch (a : Ahead) (core primary : Nat) (rs1 : XName) (imm : Word64) (n : Nat) (need : Need) (kind : Nat) : Ahead :=
  if !a.knowsX rs1 then a
  else match ctPieces a.s core (a.s.ct.rx rs1 + imm).toNat n need with
    | (.error (p, c), s) => if c = .inv then { a with s := s }.collect primary p kind else { a with s := s }
    | (.ok _, s) => { a with s := s }

/-- An operation of the run-ahead; none where it ends. -/
def aheadOp (a : Ahead) (op : RvOp) (len : RvLen) : Option Ahead :=
  let known := (opReads op).1.all a.knowsX && (opReads op).2.all a.knowsF
  if (opEndsAhead op) || ((opSteers op) && !known) then none
  else
    let t := rvExec a.s op len
    if t.ct.machine then none
    else
      let a := { a with s := if known then t else ctNext a.s len }
      some (match opWrites op with
        | some (d, true) => a.setF d known
        | some (d, false) => a.setX d known
        | none => a)

/-- One instruction of the run-ahead; `false` where it ends. -/
def aheadStep (core primary : Nat) (a : Ahead) : Bool × Ahead :=
  if 8 ≤ a.pages.length then (false, a) else
  let pc := a.s.ct.pc
  let on (a : Ahead) (len : RvLen) : Bool × Ahead := (true, { a with s := ctNext a.s len })
  match ctFetchBytes a.s core pc with
  | (.error (va, c), _, s) => (false, if c = .inv then { a with s := s }.collect primary va.toNat kindFetch else { a with s := s })
  | (.ok w, t, s) =>
    let a := { a with s := s }
    if t.poison.isSome then (false, a)
    else match decodeCt (BitVec.ofNat 32 w) with
      | .ctLoadStore op r rs1 imm len =>
        if (memIsFloat op) && a.s.ct.floatOff then (false, a)
        else if (memIsStore op) then on (aheadTouch a core primary rs1 (imm.signExtend 64) (memBytes op) { w := true } kindStore) len
        else on (aheadLoad a core primary op r rs1 imm) len
      | .ctAmo _ dbl _ _ rd rs1 _ => on ((aheadTouch a core primary rs1 0 (if dbl then 8 else 4) { r := true, w := true } kindStore).setX rd false) .full
      | .ctLr dbl _ _ rd rs1 => on ((aheadTouch a core primary rs1 0 (if dbl then 8 else 4) { r := true } kindLoad).setX rd false) .full
      | .ctSc dbl _ _ rd rs1 _ => on ((aheadTouch a core primary rs1 0 (if dbl then 8 else 4) { w := true } kindStore).setX rd false) .full
      | .ctRiscvInstruction op len => match aheadOp a op len with
        | some a => (true, a)
        | none => (false, a)
      | _ => (false, a)

/-- At most so many instructions. -/
def aheadRun (core primary : Nat) : Nat → Ahead → Ahead
  | 0, a => a
  | n + 1, a => match aheadStep core primary a with
    | (true, a) => aheadRun core primary n a
    | (false, a) => a

/-- Run-ahead after a fault of cause INV: the access yields unknown (a load's register), the path goes on behind it, and then the
checkpoint is restored. What stays are xbpf, the TLB, the walk cache and the caches. -/
def runAhead (s : State) (core va kind : Nat) (dst : Option (XName × Bool)) (len : RvLen) : State :=
  let c := s.core core
  let start : Ahead := { s := ctNext s len }
  let start := match dst with
    | some (d, true) => start.setF d false
    | some (d, false) => start.setX d false
    | none => start
  let a := if kind = kindFetch then start else aheadRun core (bits va 12 36 * 4096) 256 start
  a.s.modCore core (fun k => { k with
    ct := { c.ct with xbpf := a.pages.map (fun p => BitVec.ofNat 64 (p.1 + p.2)) }
    stale := c.stale, lreq := c.lreq, xreq := c.xreq, smpcnt := c.smpcnt })

/-- The trap of a refused access: an access fault where it is not translated, a page fault where it is, after run-ahead for INV. -/
def accessTrap (s : State) (core va kind : Nat) (cause : XCause) (paged : Bool) (dst : Option (XName × Bool)) (len : RvLen) : State :=
  if !paged then ctTrap s (accessCause kind) (BitVec.ofNat 64 va)
  else
    let s := if cause = .inv ∧ !(s.core core).ct.machine then runAhead s core va kind dst len else s
    ctTrap s (pageCause kind) (BitVec.ofNat 64 va)

/-- R41. The trap of a fetch that is refused (kind 2) or poisoned (kind 3), or of an access at a VA (0 load, 1 store). -/
def execCtPageFault (va : Word64) (kind : BitVec 2) (s : State) : Out :=
  let core := s.curCore
  if kind = 3 then .next (ctTrap s causePoison va)
  else
    let k := kind.toNat
    let fetch := k == kindFetch
    let (r, s) := if fetch then ctFetchXlat s core va.toNat else ctXlat s core va.toNat { r := k == kindLoad, w := k == kindStore }
    let cause := match r with
      | .error c => c
      | .ok _ => .abs
    .next (accessTrap s core va.toNat k cause (if fetch then !(s.core core).ct.machine else (s.core core).ct.dataPaged) none .full)

/-! ## Loads and stores (R23, R60, R399) -/

/-- The device window as an M-mode load reaches it: 8 bytes, aligned. -/
def deviceLoad (s : State) (pa n : Nat) : Option (Nat × State) := if n = 8 then (mgmtRead s pa).map (fun r => (r.1.toNat, r.2)) else none
def deviceStore (s : State) (pa n v : Nat) : Option State := if n = 8 then mgmtWrite s pa (BitVec.ofNat 64 v) else none

/-- Whether an access goes to this device's device window. -/
def toDevice (s : State) (l : List (Nat × Nat × Nat × Xlat)) : Bool :=
  l.any (fun p => p.2.2.2.dev.isNone && windowOf s p.2.2.2.pa == .device)

/-- Whether an access goes through the L1 to memory of this device. -/
def plainPieces (l : List (Nat × Nat × Nat × Xlat)) : Bool := l.all (fun p => p.2.2.2.dev.isNone && !p.2.2.2.devt)

/-- Whether the granule of a PA is poisoned as a core meets it: in its L1, or, where that holds none of the sector's bytes, at home. -/
def granulePoisoned (s : State) (core pa : Nat) : Bool :=
  let l := (s.core core).line (pa / 128)
  let k := pa % 128 / 32
  l.poison.getLsbD k || (!l.valid.getLsbD k && sectorPoisoned s pa)

/-- Whether a write of translated pieces meets a poisoned granule on this device. -/
def poisonedPieces (s : State) (core : Nat) (l : List (Nat × Nat × Nat × Xlat)) : Bool :=
  l.any (fun p => p.2.2.2.dev.isNone && (granulePoisoned s core p.2.2.2.pa || granulePoisoned s core (p.2.2.2.pa + p.2.2.1 - 1)))

/-- Stores of the control thread leave for the L1 behind those that are still to enter it: at once, or, where the next move is a delay, with
those, while later loads may come first (R106, log 52). -/
def ctLeave (s : State) (core : Nat) (l : List (Nat × Nat × Nat × Xlat)) (v : Nat) : State :=
  let st := l.map (fun p => ({ pa := p.2.2.2.pa, bytes := leBytes p.2.2.1 (v / 2 ^ (8 * p.2.1)), dev := p.2.2.2.dev, va := p.1 } : Store))
  match s.sched with
  | .delay :: sc =>
    if plainPieces l then { s with sched := sc }.modCore core (fun c => { c with ct := { c.ct with late := c.ct.late ++ [st] } })
    else commitStores (drainCt s core) core 32 st
  | _ => commitStores (drainCt s core) core 32 st

/-- A load of the control thread. -/
def ctLoad (s : State) (op : RvMem) (rd rs1 : XName) (imm : BitVec 12) (len : RvLen) : State :=
  let core := s.curCore
  let va := (s.ct.rx rs1 + imm.signExtend 64).toNat
  let paged := s.ct.dataPaged
  let put (s : State) (v : Nat) : State :=
    (ctNext s len).modCt (fun c => if (memIsFloat op) then (c.wf rd (extendLoad op v)).touchFs else c.wx rd (extendLoad op v))
  match ctPieces s core va (memBytes op) { r := true } with
  | (.error (p, c), s) => accessTrap s core p kindLoad c paged (some (rd, (memIsFloat op))) len
  | (.ok l, s) =>
    let s := if plainPieces l then s else drainCt s core
    if toDevice s l then
      match deviceLoad s va (memBytes op) with
      | some (v, s) => put (countReq s core va) v
      | none => ctTrap s (accessCause kindLoad) (BitVec.ofNat 64 va)
    else
      let (v, t, s) := ctReadPieces s core l
      let s := tallied s core t
      if t.poison.isSome then ctTrap s causePoison (BitVec.ofNat 64 va)
      else match t.abs with
        | (_, p) :: _ => accessTrap s core p kindLoad .abs paged none len
        | [] => put s v

/-- A store of the control thread enters the L1, is posted to another node, or writes a register; one to a poisoned granule traps (R392). -/
def ctStore (s : State) (op : RvMem) (rs2 rs1 : XName) (imm : BitVec 12) (len : RvLen) : State :=
  let core := s.curCore
  let va := (s.ct.rx rs1 + imm.signExtend 64).toNat
  let v := if (memIsFloat op) then (s.ct.rf rs2).toNat else (s.ct.rx rs2).toNat
  let paged := s.ct.dataPaged
  match ctPieces s core va (memBytes op) { w := true } with
  | (.error (p, c), s) => accessTrap s core p kindStore c paged none len
  | (.ok l, s) =>
    if toDevice s l then
      match deviceStore (ctNext (drainCt s core) len) va (memBytes op) v with
      | some s => countReq s core va
      | none => ctTrap s (accessCause kindStore) (BitVec.ofNat 64 va)
    else if poisonedPieces s core l then ctTrap s causePoison (BitVec.ofNat 64 va)
    else ctNext (ctLeave s core l v) len

/-- R23. -/
def execCtLoadStore (op : RvMem) (r rs1 : XName) (imm : BitVec 12) (len : RvLen) (s : State) : Out :=
  if (memIsFloat op) && s.ct.floatOff then .next (ctIllegal s)
  else if (memIsStore op) then .next (ctStore s op r rs1 imm len)
  else .next (ctLoad s op r rs1 imm len)

/-! ## Releases and fences (R109, R380) -/

/-- The scope of the control thread's fences and aq and rl bits: xbscope, MT taken as CORE. -/
def Ct.scope (c : Ct) : Scope := if c.xbscope = 0 then .core else Scope.ofCode c.xbscope

/-- A release at the scope of xbscope, and whether it has still to wait. -/
def ctRelease (s : State) : Bool × State :=
  let s' := releaseWork s s.curCore s.ct.scope
  (releaseWaits s' s.curCore 32 s.ct.scope, s')

/-- R109. A predecessor set with W moves data as a release does. -/
def execCtFence (tso : Bool) (pred _succ : BitVec 4) (_rd _rs1 : XName) (s : State) : Out :=
  let w := tso || pred.getLsbD 0
  let (waits, s) := if w then ctRelease s else (false, s)
  .next (if waits then s else ctNext s .full)

/-- R109. Earlier stores have entered the L1, through which instructions are fetched. -/
def execCtFenceI (_rd _rs1 : XName) (_imm : BitVec 12) (s : State) : Out := .next (ctNext s .full)

/-! ## Atomics (R110, R122, R124) -/

/-- An AMO's new value. -/
def rvAmoNew (op : RvAmo) (w old x : Nat) : Nat :=
  match op with
  | .swap => x
  | .add => (old + x) % 2 ^ w
  | .xor => Nat.xor old x
  | .and => old &&& x
  | .or => old ||| x
  | .min => if sxt w old ≤ sxt w x then old else x
  | .max => if sxt w x ≤ sxt w old then old else x
  | .minu => min old x
  | .maxu => max old x

/-- An atomic's address, translated; or the trap: a misaligned address, or one that is refused, whose result a run-ahead does not know (R41).
The device window takes no atomic. -/
def atomicXlat (s : State) (va n : Nat) (need : Need) (kind : Nat) (rd : XName) : Except State Xlat × State :=
  let core := s.curCore
  let paged := s.ct.dataPaged
  if va % n ≠ 0 then (.error (ctTrap s (if kind = kindLoad then 4 else 6) (BitVec.ofNat 64 va)), s)
  else match ctXlat s core va need with
    | (.error c, s) => (.error (accessTrap s core va kind c paged (some (rd, false)) .full), s)
    | (.ok x, s) =>
      if x.dev.isNone && windowOf s x.pa == .device then (.error (ctTrap s (accessCause kind) (BitVec.ofNat 64 va)), s) else (.ok x, s)

/-- The value at the home slice that an atomic reads; or its trap. -/
def atomicOld (s : State) (x : Xlat) (va n kind : Nat) : Except State Nat × State :=
  let core := s.curCore
  let (v, t, s) := atomicRead s core x n [] {} 0 va
  let s := tallied s core t
  if t.poison.isSome then (.error (ctTrap s causePoison (BitVec.ofNat 64 va)), s)
  else if !t.abs.isEmpty then (.error (accessTrap s core va kind .abs s.ct.dataPaged none .full), s)
  else (.ok v, s)

def amoBytes (dbl : Bool) : Nat := if dbl then 8 else 4

/-- A loaded word for its register. -/
def amoReg (dbl : Bool) (v : Nat) : Word64 := if dbl then BitVec.ofNat 64 v else BitVec.ofInt 64 (sxt 32 v)

/-- With the rl bit, the access is a release: it waits for what a release waits for. -/
def withRelease (s : State) (rl : Bool) (f : State → State) : State :=
  if rl then
    match ctRelease s with
    | (true, s) => s
    | (false, s) => f s
  else f s

/-- R122. -/
def execCtAmo (op : RvAmo) (dbl _aq rl : Bool) (rd rs1 rs2 : XName) (s : State) : Out :=
  .next (withRelease s rl (fun s =>
    let n := amoBytes dbl
    let va := (s.ct.rx rs1).toNat
    match atomicXlat s va n { r := true, w := true } kindStore rd with
    | (.error t, _) => t
    | (.ok x, s) => match atomicOld s x va n kindStore with
      | (.error t, _) => t
      | (.ok old, s) =>
        let new := rvAmoNew op (8 * n) old ((s.ct.rx rs2).toNat % 2 ^ (8 * n))
        ctSet (commitStore s s.curCore 32 { pa := x.pa, bytes := leBytes n new, dev := x.dev, va := va, atomic := true }) .full rd (amoReg dbl old)))

/-- The sector a reservation is placed on: a PA's, or one of another node. -/
def reserveKey (x : Xlat) : Nat :=
  match x.dev with
  | some d => x.pa / 32 + (d + 1) * 2 ^ 40
  | none => x.pa / 32

/-- R124. -/
def execCtLr (dbl _aq rl : Bool) (rd rs1 : XName) (s : State) : Out :=
  .next (withRelease s rl (fun s =>
    let n := amoBytes dbl
    let va := (s.ct.rx rs1).toNat
    match atomicXlat s va n { r := true } kindLoad rd with
    | (.error t, _) => t
    | (.ok x, s) => match atomicOld s x va n kindLoad with
      | (.error t, _) => t
      | (.ok old, s) => (ctSet s .full rd (amoReg dbl old)).modCt (fun c => { c with resv := some (reserveKey x) })))

/-- Whether another node still holds a reservation is its own matter: a free value (log 10). -/
def scHolds (s : State) (x : Xlat) : Bool × State :=
  if s.ct.resv ≠ some (reserveKey x) then (false, s)
  else match x.dev with
    | none => (true, s)
    | some _ => let (w, s) := s.draw; (w.getLsbD 0, s)

/-- R110, R124. The L1 writes the sector's dirty bytes back first, which counts as a write to it. -/
def execCtSc (dbl _aq rl : Bool) (rd rs1 rs2 : XName) (s : State) : Out :=
  .next (withRelease s rl (fun s =>
    let n := amoBytes dbl
    let va := (s.ct.rx rs1).toNat
    match atomicXlat s va n { w := true } kindStore rd with
    | (.error t, _) => t
    | (.ok x, s) =>
      if x.dev.isNone && s.ct.resv == some (reserveKey x) && granulePoisoned s s.curCore x.pa then ctTrap s causePoison (BitVec.ofNat 64 va) else
      let s := if x.dev.isNone then countReq (flushSectors (closeRange s x.pa n) s.curCore (x.pa / 128) (lineSpan (x.pa % 128) n)) s.curCore x.pa else countXreq s s.curCore
      let (ok, s) := scHolds s x
      let s := if ok then commitStore s s.curCore 32 { pa := x.pa, bytes := leBytes n (s.ct.rx rs2).toNat, dev := x.dev, va := va, atomic := true } else s
      (ctSet s .full rd (if ok then 0 else 1)).modCt (fun c => { c with resv := none })))

end Sys2Proof.Machine
end

