-- ==== Sys2Proof/Machine/Thread.lean ====
section
/-! DEFINITION. The Xbamroth instructions (R108, R145, R152, R156, R159, R169, R172, R375 to R379), the end of a core's part (R192), and
the fault interrupt (R385). An instruction that has to wait leaves the pc where it is, and is executed again at the control thread's
next turn (R376). -/

namespace Sys2Proof.Machine

/-- The control thread stalls in its instruction. -/
def ctStall (s : State) : State := s.modCt (fun c => { c with stalled := true })

/-- The current core, and the same core changed. -/
def State.cc (s : State) : Core := s.core s.curCore
def State.modCc (s : State) (f : Core → Core) : State := s.modCore s.curCore f

/-- The launched micro-threads that a mask names. -/
def named (c : Core) (mask : Nat) : List Nat := (upto c.info.n).filter (fun i => bit mask i)

/-! ## Lodes (R152) -/

/-- One lode into the queues of the micro-threads given, once all have room. -/
def sendLode (s : State) (va : Word64) (ts : List Nat) (arg : Option Word64) : State :=
  if va.toNat % 128 ≠ 0 then ctTrap s causeLodeAlign va
  else if ts.any (fun i => decide (16 ≤ (s.cc.mt i).lodeq.length)) then ctStall s
  else
    ctNext (s.modCc (fun c => ts.foldl (fun c i => c.setMt i { c.mt i with lodeq := (c.mt i).lodeq ++ [(va, arg)] }) c)) .full

/-- R152. -/
def execMtBcast (rs1 rs2 : XName) (s : State) : Out := .next (sendLode s (s.ct.rx rs1) (named s.cc (s.ct.rx rs2).toNat) none)

/-- R152. -/
def execMtSend (rs1 rs2 : XName) (m : BitVec 5) (s : State) : Out :=
  .next (sendLode s (s.ct.rx rs1) (named s.cc (2 ^ m.toNat)) (some (s.ct.rx rs2)))

/-- R108. A `mt.stop` that a micro-thread has still to take keeps it from counting as stopped. -/
def execMtWait (rs1 : XName) (s : State) : Out :=
  let c := s.cc
  if (named c (s.ct.rx rs1).toNat).all (fun i => (c.mt i).isIdle && !c.pending.any (isStop i)) then .next (ctNext s .full) else .next (ctStall s)

/-! ## Registers (R377, R378) -/

/-- R377. -/
def execMtGet (rd rs1 : XName) (n : BitVec 6) (s : State) : Out :=
  let c := s.cc
  let i := (s.ct.rx rs1).toNat % 32
  if n = 0 ∨ c.info.n ≤ i then .next (ctSet s .full rd 0)
  else match c.got with
    | some (_, v) => .next (ctSet (s.modCc (fun c => { c with got := none })) .full rd v)
    | none =>
      if c.pending.any (isGet i) then .next (ctStall s)
      else .next (ctStall (s.modCc (fun c => { c with pending := c.pending ++ [.get i n rd] })))

/-- R377. -/
def execMtPut (rs1 : XName) (n : BitVec 6) (rs2 : XName) (s : State) : Out :=
  let i := (s.ct.rx rs1).toNat % 32
  if n = 0 ∨ s.cc.info.n ≤ i then .next (ctNext s .full)
  else
    let x := s.ct.rx rs2
    .next (ctNext (s.modCc (fun c => { c with pending := c.pending ++ [.put i n x] })) .full)

/-- R156. -/
def execMtStop (rs1 : XName) (s : State) : Out :=
  let ts := named s.cc (s.ct.rx rs1).toNat
  .next (ctNext (s.modCc (fun c => { c with pending := c.pending ++ ts.map .stop })) .full)

/-- R378. -/
def execMtStat (rd : XName) (h : Bool) (s : State) : Out :=
  let c := s.cc
  let base := if h then 16 else 0
  .next (ctSet s .full rd (BitVec.ofNat 64 ((upto 16).foldl (fun a j => a + mtCode c (base + j) * 8 ^ j) 0)))

/-- R378. -/
def execMtFlt (rd rs1 rs2 : XName) (s : State) : Out :=
  let c := s.cc
  let i := (s.ct.rx rs1).toNat % 32
  .next (ctSet s .full rd (if i < c.info.n then (c.mt i).record.getD (s.ct.rx rs2).toNat 0 else 0))

/-! ## The core's micro-threads together -/

/-- R169. -/
def execMtLnk (pairs : Bool) (s : State) : Out :=
  let c := s.cc
  if (upto c.info.n).all (fun i => (c.mt i).isIdle) then
    .next (ctNext (s.modCc (fun c => { c with pairs := pairs, mts := tmap {} (fun _ m => { m with fifo := [] }) c.mts })) .full)
  else .next (ctStall s)

/-- R172. -/
def execMtBar (rs1 : XName) (level : BitVec 3) (s : State) : Out :=
  let c := s.cc
  let m := (s.ct.rx rs1).toNat
  if c.info.nlev ≤ level.toNat then .next (ctIllegal s)
  else if (upto c.info.n).all (fun i => decide (m ≤ tget 0 (c.mt i).bars level.toNat)) then .next (ctNext s .full)
  else .next (ctStall s)

/-- R159. -/
def execMtSync (s : State) : Out := .next (ctNext (s.modCc (fun c => { c with lodeCache := [] })) .full)

/-! ## Engine entries (R379) -/

/-- The queues an accepted engine word enqueues on, and its command; none for any other word. -/
def engWord (s : State) (w : Word32) (opnd : Word64) (count : Nat) : Option (List Nat × EngCmd) :=
  let t (n : TName) : TDesc := tget {} s.cc.tens n.toNat
  match decodeMt w with
  | .ok (.mzero false z) => some ([1], .mzero z)
  | .ok (.qfence false set) => some ((upto 6).filter (fun q => set.getLsbD q), .marker s.markers set.toNat)
  | .ok (.cpy false d a b) => if b = 0 then some ([0], .cpy (t d) (t a)) else none
  | .ok (.gath false d a b) => if b = 0 then some ([2], .gath (t d) (t a)) else none
  | .ok (.scat false d a b) => if b = 0 then some ([2], .scat (t d) (t a)) else none
  | .ok (.coll false d a b) => if b = 0 then some ([3], .coll (t d) (t a)) else none
  | .ok (.bank false a b) => if a = 0 ∧ b = 0 then some ([4], .bank opnd (BitVec.ofNat 64 count)) else none
  | _ => none

/-- Whether an engine word takes an operand value. -/
def takesOperand : EngCmd → Bool
  | .mzero _ | .marker _ _ => false
  | _ => true

/-- R379. -/
def execMtEng (rs1 rs2 : XName) (s : State) : Out :=
  let x := (s.ct.rx rs1).toNat
  let w : Word32 := BitVec.ofNat 32 x
  let opnd := s.ct.rx rs2
  match engWord s w opnd (bits x 32 32) with
  | none => .next (ctIllegal s)
  | some (qs, cmd) =>
    if qs.any (fun q => s.cc.queueFull q) then .next (ctStall s)
    else
      let e : Entry := { cmd := cmd, word := w, who := 32, head := s.ct.pc, opnd := if takesOperand cmd then opnd else 0 }
      .next (ctNext (placeEntries { s with markers := s.markers + 1 } s.curCore (qs.map (fun q => (q, e)))) .full)

/-! ## The end of the part, and the interrupt -/

/-- R192. In U mode with a7 = 0 the control thread waits for the end of its core's part; any other `ecall` traps. -/
def execEcallEndPart (s : State) : Out :=
  if s.ct.machine then .next (ctTrap s 11 0)
  else if s.ct.rx 17 ≠ 0 then .next (ctTrap s 8 0)
  else .next (s.modCt (fun c => { c with ending := true }))

/-- R385. A stalled instruction is given up, and executed again after the handler returns (R376). -/
def execFaultInterrupt (s : State) : Out :=
  if ctInterrupts s.cc && s.cc.ct.active && !s.cc.halted && !s.cc.stopping then
    .next (s.modCc (fun c => { c with ct := takeTrap c.ct true 16 0, pending := c.pending.filter isPutOrStop, got := none }))
  else .next s

end Sys2Proof.Machine
end

