-- ==== Sys2Proof/Machine/Dispatch.lean ====
section
/-! DEFINITION. The meaning of every instruction and operation: one arm for each constructor. -/

namespace Sys2Proof.Machine

def exec (i : Instr) (s : State) : Host.Outcome State Fault Refusal :=
  match i with
  | .vadd c d a b sz => Sys2Proof.Machine.execVadd c d a b sz s
  | .vsub c d a b sz => Sys2Proof.Machine.execVsub c d a b sz s
  | .vmul c d a b sz => Sys2Proof.Machine.execVmul c d a b sz s
  | .vmulh c d a b sz => Sys2Proof.Machine.execVmulh c d a b sz s
  | .vmulhn c d a b sz => Sys2Proof.Machine.execVmulhn c d a b sz s
  | .vmin c d a b sz => Sys2Proof.Machine.execVmin c d a b sz s
  | .vmax c d a b sz => Sys2Proof.Machine.execVmax c d a b sz s
  | .vminn c d a b sz => Sys2Proof.Machine.execVminn c d a b sz s
  | .vmaxn c d a b sz => Sys2Proof.Machine.execVmaxn c d a b sz s
  | .vabs c d a sz => Sys2Proof.Machine.execVabs c d a sz s
  | .vneg c d a sz => Sys2Proof.Machine.execVneg c d a sz s
  | .vand c d a b sz => Sys2Proof.Machine.execVand c d a b sz s
  | .vor c d a b sz => Sys2Proof.Machine.execVor c d a b sz s
  | .vxor c d a b sz => Sys2Proof.Machine.execVxor c d a b sz s
  | .vandn c d a b sz => Sys2Proof.Machine.execVandn c d a b sz s
  | .vshl c d a b sz => Sys2Proof.Machine.execVshl c d a b sz s
  | .vshr c d a b sz => Sys2Proof.Machine.execVshr c d a b sz s
  | .vsra c d a b sz => Sys2Proof.Machine.execVsra c d a b sz s
  | .vrot c d a b sz => Sys2Proof.Machine.execVrot c d a b sz s
  | .vfsh c d a b sz => Sys2Proof.Machine.execVfsh c d a b sz s
  | .vbext c d a b sz => Sys2Proof.Machine.execVbext c d a b sz s
  | .vbins c d a b sz => Sys2Proof.Machine.execVbins c d a b sz s
  | .vclz c d a sz => Sys2Proof.Machine.execVclz c d a sz s
  | .vpopc c d a sz => Sys2Proof.Machine.execVpopc c d a sz s
  | .vmv c d a sz => Sys2Proof.Machine.execVmv c d a sz s
  | .vsel c d a b sz => Sys2Proof.Machine.execVsel c d a b sz s
  | .vcvt c d a sz => Sys2Proof.Machine.execVcvt c d a sz s
  | .vidx c d sz => Sys2Proof.Machine.execVidx c d sz s
  | .vaddi c d a sz im => Sys2Proof.Machine.execVaddi c d a sz im s
  | .vandi c d a sz im => Sys2Proof.Machine.execVandi c d a sz im s
  | .vori c d a sz im => Sys2Proof.Machine.execVori c d a sz im s
  | .vxori c d a sz im => Sys2Proof.Machine.execVxori c d a sz im s
  | .vshli c d a sz im => Sys2Proof.Machine.execVshli c d a sz im s
  | .vshri c d a sz im => Sys2Proof.Machine.execVshri c d a sz im s
  | .vsrai c d a sz im => Sys2Proof.Machine.execVsrai c d a sz im s
  | .vmvi c d sz im => Sys2Proof.Machine.execVmvi c d sz im s
  | .gadd c d a b => Sys2Proof.Machine.execGadd c d a b s
  | .gsub c d a b => Sys2Proof.Machine.execGsub c d a b s
  | .gmul c d a b => Sys2Proof.Machine.execGmul c d a b s
  | .gand c d a b => Sys2Proof.Machine.execGand c d a b s
  | .gor c d a b => Sys2Proof.Machine.execGor c d a b s
  | .gxor c d a b => Sys2Proof.Machine.execGxor c d a b s
  | .gshl c d a b => Sys2Proof.Machine.execGshl c d a b s
  | .gshr c d a b => Sys2Proof.Machine.execGshr c d a b s
  | .gsra c d a b => Sys2Proof.Machine.execGsra c d a b s
  | .gmv c d a => Sys2Proof.Machine.execGmv c d a s
  | .gaddi c d a im => Sys2Proof.Machine.execGaddi c d a im s
  | .gandi c d a im => Sys2Proof.Machine.execGandi c d a im s
  | .gshli c d a im => Sys2Proof.Machine.execGshli c d a im s
  | .glui c d im => Sys2Proof.Machine.execGlui c d im s
  | .vfadd c d a b ft => Sys2Proof.Machine.execVfadd c d a b ft s
  | .vfsub c d a b ft => Sys2Proof.Machine.execVfsub c d a b ft s
  | .vfmul c d a b ft => Sys2Proof.Machine.execVfmul c d a b ft s
  | .vfdiv c d a b ft => Sys2Proof.Machine.execVfdiv c d a b ft s
  | .vfma c d a b ft => Sys2Proof.Machine.execVfma c d a b ft s
  | .vfms c d a b ft => Sys2Proof.Machine.execVfms c d a b ft s
  | .vfnma c d a b ft => Sys2Proof.Machine.execVfnma c d a b ft s
  | .vfnms c d a b ft => Sys2Proof.Machine.execVfnms c d a b ft s
  | .vfmin c d a b ft => Sys2Proof.Machine.execVfmin c d a b ft s
  | .vfmax c d a b ft => Sys2Proof.Machine.execVfmax c d a b ft s
  | .vfabs c d a ft => Sys2Proof.Machine.execVfabs c d a ft s
  | .vfneg c d a ft => Sys2Proof.Machine.execVfneg c d a ft s
  | .vfsgn c d a b ft => Sys2Proof.Machine.execVfsgn c d a b ft s
  | .vfsqrt c d a ft => Sys2Proof.Machine.execVfsqrt c d a ft s
  | .vfrcp c d a ft => Sys2Proof.Machine.execVfrcp c d a ft s
  | .vfrsq c d a ft => Sys2Proof.Machine.execVfrsq c d a ft s
  | .vfexp2 c d a ft => Sys2Proof.Machine.execVfexp2 c d a ft s
  | .vflog2 c d a ft => Sys2Proof.Machine.execVflog2 c d a ft s
  | .vftanh c d a ft => Sys2Proof.Machine.execVftanh c d a ft s
  | .vfsigm c d a ft => Sys2Proof.Machine.execVfsigm c d a ft s
  | .vfcls c d a ft => Sys2Proof.Machine.execVfcls c d a ft s
  | .vfscale c d a b ft => Sys2Proof.Machine.execVfscale c d a b ft s
  | .vsrnd c d a b ft => Sys2Proof.Machine.execVsrnd c d a b ft s
  | .vfcvt c d a f => Sys2Proof.Machine.execVfcvt c d a f s
  | .vfcvtiInto c d a t ft => Sys2Proof.Machine.execVfcvtiInto c d a t ft s
  | .vfcvtiOut c d a t ft => Sys2Proof.Machine.execVfcvtiOut c d a t ft s
  | .vrng c d sz => Sys2Proof.Machine.execVrng c d sz s
  | .kwhilelt c d a b sz => Sys2Proof.Machine.execKwhilelt c d a b sz s
  | .kwhilele c d a b sz => Sys2Proof.Machine.execKwhilele c d a b sz s
  | .kcmp816 c d a b cond wide => Sys2Proof.Machine.execKcmp816 c d a b cond wide s
  | .kcmp3264 c d a b cond wide => Sys2Proof.Machine.execKcmp3264 c d a b cond wide s
  | .kfcmp c d a b cond ft => Sys2Proof.Machine.execKfcmp c d a b cond ft s
  | .kand c d a b => Sys2Proof.Machine.execKand c d a b s
  | .kor c d a b => Sys2Proof.Machine.execKor c d a b s
  | .kxor c d a b => Sys2Proof.Machine.execKxor c d a b s
  | .kandn c d a b => Sys2Proof.Machine.execKandn c d a b s
  | .knot c d a => Sys2Proof.Machine.execKnot c d a s
  | .kmv c d a => Sys2Proof.Machine.execKmv c d a s
  | .kpop c d a => Sys2Proof.Machine.execKpop c d a s
  | .kfirst c d a => Sys2Proof.Machine.execKfirst c d a s
  | .kset c d a => Sys2Proof.Machine.execKset c d a s
  | .kld c d a => Sys2Proof.Machine.execKld c d a s
  | .kst c d a => Sys2Proof.Machine.execKst c d a s
  | .vshapeImm c rows cols => Sys2Proof.Machine.execVshapeImm c rows cols s
  | .vshapeReg c a b => Sys2Proof.Machine.execVshapeReg c a b s
  | .tcoll c d t => Sys2Proof.Machine.execTcoll c d t s
  | .gsubbr a disp => Sys2Proof.Machine.execGsubbr a disp s
  | .vperm c d a b sz => Sys2Proof.Machine.execVperm c d a b sz s
  | .vzip c d a b sz => Sys2Proof.Machine.execVzip c d a b sz s
  | .vunzip c d a sz => Sys2Proof.Machine.execVunzip c d a sz s
  | .vslup c d a b sz => Sys2Proof.Machine.execVslup c d a b sz s
  | .vsldn c d a b sz => Sys2Proof.Machine.execVsldn c d a b sz s
  | .vbcast c d a b sz => Sys2Proof.Machine.execVbcast c d a b sz s
  | .vtrans c d a sz => Sys2Proof.Machine.execVtrans c d a sz s
  | .vcomp c d a sz => Sys2Proof.Machine.execVcomp c d a sz s
  | .vrsum c d a xt => Sys2Proof.Machine.execVrsum c d a xt s
  | .vrmax c d a xt => Sys2Proof.Machine.execVrmax c d a xt s
  | .vrmin c d a xt => Sys2Proof.Machine.execVrmin c d a xt s
  | .vrand c d a xt => Sys2Proof.Machine.execVrand c d a xt s
  | .vror c d a xt => Sys2Proof.Machine.execVror c d a xt s
  | .vscan c d a xt => Sys2Proof.Machine.execVscan c d a xt s
  | .vexpd c d a xt => Sys2Proof.Machine.execVexpd c d a xt s
  | .vlsnd c a => Sys2Proof.Machine.execVlsnd c a s
  | .vlrcv c d => Sys2Proof.Machine.execVlrcv c d s
  | .vld c d a sz off => Sys2Proof.Machine.execVld c d a sz off s
  | .vst c d a sz off => Sys2Proof.Machine.execVst c d a sz off s
  | .vlds c d a b sz => Sys2Proof.Machine.execVlds c d a b sz s
  | .vsts c d a b sz => Sys2Proof.Machine.execVsts c d a b sz s
  | .vldx c d a b sz => Sys2Proof.Machine.execVldx c d a b sz s
  | .vstx c d a b sz => Sys2Proof.Machine.execVstx c d a b sz s
  | .vldff c d a sz off => Sys2Proof.Machine.execVldff c d a sz off s
  | .vldra c d a sz off => Sys2Proof.Machine.execVldra c d a sz off s
  | .vldt c d t b tc => Sys2Proof.Machine.execVldt c d t b tc s
  | .vstt c d t b tc => Sys2Proof.Machine.execVstt c d t b tc s
  | .vldtag c d t b tc => Sys2Proof.Machine.execVldtag c d t b tc s
  | .gld c d a sext sz off => Sys2Proof.Machine.execGld c d a sext sz off s
  | .gst c d a sz off => Sys2Proof.Machine.execGst c d a sz off s
  | .vamo c d a b op => Sys2Proof.Machine.execVamo c d a b op s
  | .vamoRow c d a b op => Sys2Proof.Machine.execVamoRow c d a b op s
  | .gamo c d a b dbl op => Sys2Proof.Machine.execGamo c d a b dbl op s
  | .vrst c d a b bf => Sys2Proof.Machine.execVrst c d a b bf s
  | .pref c a => Sys2Proof.Machine.execPref c a s
  | .fence c scope el es ll ls => Sys2Proof.Machine.execFence c scope el es ll ls s
  | .clean c a b => Sys2Proof.Machine.execClean c a b s
  | .inval c a b => Sys2Proof.Machine.execInval c a b s
  | .settle c a => Sys2Proof.Machine.execSettle c a s
  | .renew c a scope => Sys2Proof.Machine.execRenew c a scope s
  | .setlc c d a scope => Sys2Proof.Machine.execSetlc c d a scope s
  | .iwc c d a => Sys2Proof.Machine.execIwc c d a s
  | .rmul c d a b rt => Sys2Proof.Machine.execRmul c d a b rt s
  | .umul c d a b rt => Sys2Proof.Machine.execUmul c d a b rt s
  | .radd c d a b rt => Sys2Proof.Machine.execRadd c d a b rt s
  | .uadd c d a b rt => Sys2Proof.Machine.execUadd c d a b rt s
  | .rfma c d a b rt => Sys2Proof.Machine.execRfma c d a b rt s
  | .ufma c d a b rt => Sys2Proof.Machine.execUfma c d a b rt s
  | .rnarrow c d a rt => Sys2Proof.Machine.execRnarrow c d a rt s
  | .unarrow c d a rt => Sys2Proof.Machine.execUnarrow c d a rt s
  | .rshr c d a b rt => Sys2Proof.Machine.execRshr c d a b rt s
  | .ushr c d a b rt => Sys2Proof.Machine.execUshr c d a b rt s
  | .rscale c d a b bf => Sys2Proof.Machine.execRscale c d a b bf s
  | .uscale c d a b bf => Sys2Proof.Machine.execUscale c d a b bf s
  | .rlrelu c d a rt k => Sys2Proof.Machine.execRlrelu c d a rt k s
  | .ulrelu c d a rt k => Sys2Proof.Machine.execUlrelu c d a rt k s
  | .tsave c a => Sys2Proof.Machine.execTsave c a s
  | .trest c a => Sys2Proof.Machine.execTrest c a s
  | .tmark c d => Sys2Proof.Machine.execTmark c d s
  | .tchk c a => Sys2Proof.Machine.execTchk c a s
  | .tdepth c d => Sys2Proof.Machine.execTdepth c d s
  | .mattach c a => Sys2Proof.Machine.execMattach c a s
  | .mdetach c => Sys2Proof.Machine.execMdetach c s
  | .mzero c z => Sys2Proof.Machine.execMzero c z s
  | .tdef c t a => Sys2Proof.Machine.execTdef c t a s
  | .tget c d t w => Sys2Proof.Machine.execTget c d t w s
  | .qfence c set => Sys2Proof.Machine.execQfence c set s
  | .qwait c q a => Sys2Proof.Machine.execQwait c q a s
  | .qcnt c d q => Sys2Proof.Machine.execQcnt c d q s
  | .mmac c z ta tb idx tc sat => Sys2Proof.Machine.execMmac c z ta tb idx tc sat s
  | .vzrd c v z b hi => Sys2Proof.Machine.execVzrd c v z b hi s
  | .vzwr c v z b hi => Sys2Proof.Machine.execVzwr c v z b hi s
  | .vzcrd c v z b => Sys2Proof.Machine.execVzcrd c v z b s
  | .vzcwr c v z b => Sys2Proof.Machine.execVzcwr c v z b s
  | .cpy c d a b => Sys2Proof.Machine.execCpy c d a b s
  | .gath c d a b => Sys2Proof.Machine.execGath c d a b s
  | .scat c d a b => Sys2Proof.Machine.execScat c d a b s
  | .coll c d a b => Sys2Proof.Machine.execColl c d a b s
  | .bank c a b => Sys2Proof.Machine.execBank c a b s
  | .br disp => Sys2Proof.Machine.execBr disp s
  | .jal a disp => Sys2Proof.Machine.execJal a disp s
  | .bcc a cond disp => Sys2Proof.Machine.execBcc a cond disp s
  | .bk k inv disp => Sys2Proof.Machine.execBk k inv disp s
  | .nop c => Sys2Proof.Machine.execNop c s
  | .stop c => Sys2Proof.Machine.execStop c s
  | .yield c => Sys2Proof.Machine.execYield c s
  | .bar c level => Sys2Proof.Machine.execBar c level s
  | .jr c a => Sys2Proof.Machine.execJr c a s
  | .lfetch c a => Sys2Proof.Machine.execLfetch c a s
  | .sread c d num => Sys2Proof.Machine.execSread c d num s
  | .swrite c d num => Sys2Proof.Machine.execSwrite c d num s
  | .trap c code => Sys2Proof.Machine.execTrap c code s
  | .brk c code => Sys2Proof.Machine.execBrk c code s
  | .wbase c n => Sys2Proof.Machine.execWbase c n s
  | .fclr c flags => Sys2Proof.Machine.execFclr c flags s
  | .poolq c d query => Sys2Proof.Machine.execPoolq c d query s
  | .maskSelect inv k => Sys2Proof.Machine.execMaskSelect inv k s
  | .rounding v mode => Sys2Proof.Machine.execRounding v mode s
  | .saturateAndZeroing sgn zero sat => Sys2Proof.Machine.execSaturateAndZeroing sgn zero sat s
  | .immediateExtension imm => Sys2Proof.Machine.execImmediateExtension imm s
  | .secondType code => Sys2Proof.Machine.execSecondType code s
  | .mtBcast rs1 rs2 => Sys2Proof.Machine.execMtBcast rs1 rs2 s
  | .mtSend rs1 rs2 m => Sys2Proof.Machine.execMtSend rs1 rs2 m s
  | .mtWait rs1 => Sys2Proof.Machine.execMtWait rs1 s
  | .mtGet rd rs1 n => Sys2Proof.Machine.execMtGet rd rs1 n s
  | .mtPut rs1 n rs2 => Sys2Proof.Machine.execMtPut rs1 n rs2 s
  | .mtStop rs1 => Sys2Proof.Machine.execMtStop rs1 s
  | .mtStat rd h => Sys2Proof.Machine.execMtStat rd h s
  | .mtFlt rd rs1 rs2 => Sys2Proof.Machine.execMtFlt rd rs1 rs2 s
  | .mtLnk pairs => Sys2Proof.Machine.execMtLnk pairs s
  | .mtBar rs1 level => Sys2Proof.Machine.execMtBar rs1 level s
  | .mtSync => Sys2Proof.Machine.execMtSync s
  | .mtEng rs1 rs2 => Sys2Proof.Machine.execMtEng rs1 rs2 s
  | .ecallEndPart => Sys2Proof.Machine.execEcallEndPart s
  | .ctFence tso pred succ rd rs1 => Sys2Proof.Machine.execCtFence tso pred succ rd rs1 s
  | .ctFenceI rd rs1 imm => Sys2Proof.Machine.execCtFenceI rd rs1 imm s
  | .ctLoadStore op r rs1 imm len => Sys2Proof.Machine.execCtLoadStore op r rs1 imm len s
  | .ctAmo op dbl aq rl rd rs1 rs2 => Sys2Proof.Machine.execCtAmo op dbl aq rl rd rs1 rs2 s
  | .ctLr dbl aq rl rd rs1 => Sys2Proof.Machine.execCtLr dbl aq rl rd rs1 s
  | .ctSc dbl aq rl rd rs1 rs2 => Sys2Proof.Machine.execCtSc dbl aq rl rd rs1 rs2 s
  | .ctPageFault va kind => Sys2Proof.Machine.execCtPageFault va kind s
  | .xbscopeWrite op imm rd rs1 => Sys2Proof.Machine.execXbscopeWrite op imm rd rs1 s
  | .xbresumeWrite op imm rd rs1 => Sys2Proof.Machine.execXbresumeWrite op imm rd rs1 s
  | .faultInterrupt => Sys2Proof.Machine.execFaultInterrupt s
  | .convoyIssue => Sys2Proof.Machine.execConvoyIssue s
  | .convoyRetire => Sys2Proof.Machine.execConvoyRetire s
  | .convoyFault => Sys2Proof.Machine.execConvoyFault s
  | .convoyReissue mirror member group => Sys2Proof.Machine.execConvoyReissue mirror member group s
  | .lodeTake => Sys2Proof.Machine.execLodeTake s
  | .lodeFill => Sys2Proof.Machine.execLodeFill s
  | .mtPutApply => Sys2Proof.Machine.execMtPutApply s
  | .mtGetSample => Sys2Proof.Machine.execMtGetSample s
  | .mtStopApply => Sys2Proof.Machine.execMtStopApply s
  | .barrierComplete => Sys2Proof.Machine.execBarrierComplete s
  | .linkWaitEnd => Sys2Proof.Machine.execLinkWaitEnd s
  | .pageWalk ctx va => Sys2Proof.Machine.execPageWalk ctx va s
  | .l1Fill victim => Sys2Proof.Machine.execL1Fill victim s
  | .sectorTimerExpiry => Sys2Proof.Machine.execSectorTimerExpiry s
  | .homeSliceWrite line mask data => Sys2Proof.Machine.execHomeSliceWrite line mask data s
  | .homeSliceFill evict serves => Sys2Proof.Machine.execHomeSliceFill evict serves s
  | .atomicAtSlice size op x => Sys2Proof.Machine.execAtomicAtSlice size op x s
  | .vrstPacket => Sys2Proof.Machine.execVrstPacket s
  | .hwPrefetch => Sys2Proof.Machine.execHwPrefetch s
  | .fabricRequest src addr req => Sys2Proof.Machine.execFabricRequest src addr req s
  | .accessErrorResponse dev va => Sys2Proof.Machine.execAccessErrorResponse dev va s
  | .portDown => Sys2Proof.Machine.execPortDown s
  | .settleEntry => Sys2Proof.Machine.execSettleEntry s
  | .settleStartNotice => Sys2Proof.Machine.execSettleStartNotice s
  | .settleSectorWrite => Sys2Proof.Machine.execSettleSectorWrite s
  | .renewEntry => Sys2Proof.Machine.execRenewEntry s
  | .bankEntry => Sys2Proof.Machine.execBankEntry s
  | .bankAccept => Sys2Proof.Machine.execBankAccept s
  | .tileStep => Sys2Proof.Machine.execTileStep s
  | .countNotice => Sys2Proof.Machine.execCountNotice s
  | .cpyEntry => Sys2Proof.Machine.execCpyEntry s
  | .tagSet => Sys2Proof.Machine.execTagSet s
  | .gathScatEntry => Sys2Proof.Machine.execGathScatEntry s
  | .mmacEntry => Sys2Proof.Machine.execMmacEntry s
  | .mzeroEntry => Sys2Proof.Machine.execMzeroEntry s
  | .collEntry => Sys2Proof.Machine.execCollEntry s
  | .collectiveMatch => Sys2Proof.Machine.execCollectiveMatch s
  | .collWatchdogTimeout => Sys2Proof.Machine.execCollWatchdogTimeout s
  | .qfenceMarkerComplete => Sys2Proof.Machine.execQfenceMarkerComplete s
  | .entryComplete => Sys2Proof.Machine.execEntryComplete s
  | .spanUpdate value => Sys2Proof.Machine.execSpanUpdate value s
  | .spanUpdateComplete => Sys2Proof.Machine.execSpanUpdateComplete s
  | .tlbinvPage => Sys2Proof.Machine.execTlbinvPage s
  | .tlbinvContext => Sys2Proof.Machine.execTlbinvContext s
  | .tlbinvAll => Sys2Proof.Machine.execTlbinvAll s
  | .tlbinvComplete => Sys2Proof.Machine.execTlbinvComplete s
  | .registerWrite pa value => Sys2Proof.Machine.execRegisterWrite pa value s
  | .qmapWrite quad value => Sys2Proof.Machine.execQmapWrite quad value s
  | .qmapTakesEffect => Sys2Proof.Machine.execQmapTakesEffect s
  | .lqdWrite part queue value => Sys2Proof.Machine.execLqdWrite part queue value s
  | .tailWrite => Sys2Proof.Machine.execTailWrite s
  | .admissionTick => Sys2Proof.Machine.execAdmissionTick s
  | .admissionPass => Sys2Proof.Machine.execAdmissionPass s
  | .preemption => Sys2Proof.Machine.execPreemption s
  | .preemptSaveComplete => Sys2Proof.Machine.execPreemptSaveComplete s
  | .corePartEnd => Sys2Proof.Machine.execCorePartEnd s
  | .queueRelease value => Sys2Proof.Machine.execQueueRelease value s
  | .poisonConsume loc => Sys2Proof.Machine.execPoisonConsume loc s
  | .gangStop => Sys2Proof.Machine.execGangStop s
  | .doubleBitError loc => Sys2Proof.Machine.execDoubleBitError loc s
  | .gangResume => Sys2Proof.Machine.execGangResume s
  | .gangAbort => Sys2Proof.Machine.execGangAbort s
  | .syncState => Sys2Proof.Machine.execSyncState s
  | .preempt => Sys2Proof.Machine.execPreempt s
  | .record => Sys2Proof.Machine.execRecord s
  | .dump => Sys2Proof.Machine.execDump s
  | .attest => Sys2Proof.Machine.execAttest s
  | .mailboxComplete => Sys2Proof.Machine.execMailboxComplete s
  | .markerFlit port pool => Sys2Proof.Machine.execMarkerFlit port pool s
  | .debugHalt => Sys2Proof.Machine.execDebugHalt s
  | .debugRelease => Sys2Proof.Machine.execDebugRelease s
  | .sample => Sys2Proof.Machine.execSample s
  | .clockThrottle down => Sys2Proof.Machine.execClockThrottle down s
  | .deviceStartup status dev share ports fw => Sys2Proof.Machine.execDeviceStartup status dev share ports fw s
  | .watchdogHaltNotice dev halted => Sys2Proof.Machine.execWatchdogHaltNotice dev halted s
  | .fabricResponse dev error => Sys2Proof.Machine.execFabricResponse dev error s
  | .flitCrcRetry => Sys2Proof.Machine.execFlitCrcRetry s
  | .ctRiscvInstruction op len => Sys2Proof.Machine.execCtRiscvInstruction op len s

end Sys2Proof.Machine
end

