-- ==== Sys2Proof/Machine/Place.lean ====
section
/-! DEFINITION. Placing one instruction where the next step runs it (log 6): a launch on core 0 with one micro-thread whose
convoy has issued with that word, or the core's control thread at an address that holds the word. -/

namespace Sys2Proof.Machine

/-- The launch facts of the placed word: N = 1, one level, 8 register units (P = 1,024), 16 scratchpad units, 8 accumulator
units, 8 talus units; MTENTRY 0. -/
def placeLaunch : CoreLaunch :=
  { pool := BitVec.ofNat 32 (8 + 16 * 2 ^ 7 + 8 * 2 ^ 14 + 8 * 2 ^ 21), ctl := 0x1000, n := 1 }

/-- The micro-thread's word: a convoy of one word in flight. -/
def placeMt (s : State) (w : Word32) : State :=
  let c := s.core 0
  let m : Mt := { c.mt 0 with code := 2 }
  let s := s.setCore 0 { c.setMt 0 m with launch := some placeLaunch }
  { s with sched := [], cv := { live := true, words := [w], todo := [w], nmemb := 1, shp := m.regs.shp, work := m.regs } }

/-- The control thread's word: four bytes at its pc, in M mode. -/
def placeCt (s : State) (w : Word32) : State :=
  let c := s.core 0
  let s := s.setCore 0 { c with launch := some placeLaunch, ct := { c.ct with active := true, machine := true, pc := 0, fetched := none } }
  { s with
    arrays := tsetRange 0 s.arrays 0 (leBytes 4 w.toNat)
    sched := []
    curCore := 0
    cur := .ct
    cv := {} }

def placeWord (s : State) (w : Word32) : State := if isCtWord w then placeCt s w else placeMt s w

end Sys2Proof.Machine
end

