-- ==== Sys2Proof/Machine/Step.lean ====
section
/-! DEFINITION. One step of the machine, and the placing of an instruction where the next step runs it. -/

namespace Sys2Proof.Machine

/-- One step: what acts next acts (log 2), and a member's end is traced (R408). -/
def step (s : State) : Host.Outcome State Fault Refusal :=
  match nextInstr s with
  | some (i, t) =>
    match exec i t with
    | .next u => .next (traceEnd t i u)
    | .fault f => .fault f
    | .refused r => .refused r
  | none => .next (idleStep s)

/-- The state in which the next step runs the instruction of a row of the opcode table (log 6). -/
def State.withFetchWord (s : State) (nbits w : Nat) : State := placeWord s (BitVec.ofNat 32 (w % 2 ^ nbits))

end Sys2Proof.Machine
end

