-- ==== Sys2Proof/Claims.lean ====
section
/-! DEFINITION. The words the claims are stated in: what a member of a convoy changes and leaves, and the arithmetic of the spec's
operations on words, written with the bit-vector operations of Lean rather than with the machine's own. -/

namespace Sys2Proof.Claims

open Sys2Proof.Machine

/-! ## Members of a convoy -/

/-- Nothing of an earlier member's fault (R318) or of poison (R392) holds the running member up. -/
def Clean (s : State) : Prop := s.cv.fltGld = [] ∧ (s.core s.cv.core).poolPoison = []

/-- The next state differs from the present one in the convoy in flight alone: memory, every core's registers and every other
unit are as before (R161, R165), and the member's prefixes are used up (R206). -/
def ConvoyOnly (s t : State) : Prop := t = { s with cv := t.cv } ∧ t.cv.pfx = {} ∧ t.cv.member = s.cv.member + 1

/-- The parts of a convoy other than its registers, masks of written bits, prefixes and member count are as before; what reads of FST and
EIX see stays too, where these change (R238, R370). -/
def RegsOnly (s t : State) : Prop :=
  ConvoyOnly s t ∧
  t.cv = { s.cv with pfx := {}, member := s.cv.member + 1, chain := t.cv.chain, work := t.cv.work, vmask := t.cv.vmask
                     hidden := s.cv.hide t.cv.work }

/-- The active elements that raise flags, ascending (R238). -/
def hitsOf (s : State) (flags : Nat → Nat) : Hits :=
  ((List.range s.cv.elems).filter (fun n => s.cv.gmask.getLsbD n && flags n != 0)).map (fun n => (n, flags n))

/-- The common effect of R243 and R263: within the shape an active element of `d` at width `w` takes `val`, an inactive one stays or
becomes 0 under ZERO; nothing else of any register changes, but for the flags raised. -/
def Takes (s t : State) (d : VName) (w : Nat) (val flags : Nat → Nat) : Prop :=
  RegsOnly s t ∧
    (∀ n, elem (t.cv.rv d) w n =
      if n < s.cv.elems then (if s.cv.gmask.getLsbD n then val n else if s.cv.pfx.zero then 0 else elem (s.cv.rv d) w n)
      else elem (s.cv.rv d) w n) ∧
    (∀ k, w * s.cv.elems ≤ k → k < 4096 → (t.cv.rv d).getLsbD k = (s.cv.rv d).getLsbD k) ∧
    (∀ n, n ≠ d → t.cv.rv n = s.cv.rv n) ∧
    t.cv.work = { s.cv.work.raise (hitsOf s flags) with v := t.cv.work.v }

/-- An instruction completes with that effect. -/
def Writes (s : State) (i : Instr) (d : VName) (w : Nat) (val flags : Nat → Nat) : Prop :=
  ∃ t, exec i s = .next t ∧ Takes s t d w val flags

/-- A member that writes one g register (R203: g0 takes no write) and nothing else. -/
def WritesG (s : State) (i : Instr) (d : GName) (x : Word64) : Prop :=
  ∃ t, exec i s = .next t ∧ RegsOnly s t ∧
    (∀ n, t.cv.rg n = if n = 0 then 0 else if n = d then x else s.cv.rg n) ∧
    t.cv.work = { s.cv.work with g := t.cv.work.g } ∧ t.cv.chain = s.cv.chain ∧ t.cv.vmask = s.cv.vmask

/-- A member that writes one mask register and nothing else. -/
def WritesK (s : State) (i : Instr) (d : KName) (x : KReg) : Prop :=
  ∃ t, exec i s = .next t ∧ RegsOnly s t ∧
    (∀ n, t.cv.rk n = if n = d then x else s.cv.rk n) ∧
    t.cv.work = { s.cv.work with k := t.cv.work.k } ∧ t.cv.chain = s.cv.chain ∧ t.cv.vmask = s.cv.vmask

/-! ## Words -/

/-- Element `n` of a register as a word of `w` bits. -/
def el (x : VReg) (w n : Nat) : BitVec w := x.extractLsb' (w * n) w

/-- An integer held within the signed or unsigned range of `w` bits (R245). -/
def clamp (sgn : Bool) (w : Nat) (x : Int) : Int :=
  if sgn then max (-(2 : Int) ^ (w - 1)) (min x ((2 : Int) ^ (w - 1) - 1)) else max 0 (min x ((2 : Int) ^ w - 1))

/-- The value of an operation with an exact integer result: the low `w` bits, or under SAT the result held within the range (R245). -/
def narrow (p : Pfx) (w : Nat) (x : Int) : Nat := (BitVec.ofInt w (if p.sat then clamp p.sgn w x else x)).toNat

/-- The flag SAT, where the exact result lies outside the range (R245). -/
def satFlag (p : Pfx) (w : Nat) (x : Int) : Nat := if p.sat && clamp p.sgn w x != x then fSAT else 0

/-- An element's value as a member reads it: signed under SGN (R245). -/
def num (p : Pfx) {w : Nat} (x : BitVec w) : Int := if p.sgn then x.toInt else x.toNat

/-- The high half of the signed and of the unsigned product (R246). -/
def mulHigh {w : Nat} (x y : BitVec w) : BitVec w := ((x.signExtend (2 * w) * y.signExtend (2 * w)).extractLsb' w w)
def mulHighU {w : Nat} (x y : BitVec w) : BitVec w := ((x.setWidth (2 * w) * y.setWidth (2 * w)).extractLsb' w w)

/-- How many bits are set (R247). -/
def ones {w : Nat} (x : BitVec w) : Nat := ((List.range w).filter (fun k => x.getLsbD k)).length

/-- How many bits stand above the highest set one (R247). -/
def leading {w : Nat} (x : BitVec w) : Nat := ((List.range w).find? (fun k => x.getLsbD (w - 1 - k))).getD w

/-- Position and length of a bit field: the low log2 w bits, and the log2 w bits above them plus 1 (R248). -/
def fieldPos (w : Nat) (y : BitVec w) : Nat := y.toNat % 2 ^ Nat.log2 w
def fieldLen (w : Nat) (y : BitVec w) : Nat := y.toNat / 2 ^ Nat.log2 w % 2 ^ Nat.log2 w + 1

/-- The immediate of major 0x07, with an extension prefix above it (R206, R251). -/
def imm6 (p : Pfx) (i : BitVec 6) : Int :=
  match p.ext with
  | none => i.toInt
  | some e => (e ++ i).toInt

/-- The shift count of major 0x07 (R251). -/
def cnt6 (p : Pfx) (i : BitVec 6) : Nat :=
  match p.ext with
  | none => i.toNat
  | some e => (e ++ i).toNat

/-! ## Masks -/

/-- A comparison writes the mask register `d`: the test for an active element, the old bit, or 0 under ZERO, for an inactive one,
0 from bit E up (R254). -/
def TestBits (s : State) (old new : KReg) (test : Nat → Bool) : Prop :=
  ∀ n, n < 512 → new.getLsbD n = (if n < s.cv.elems then (if s.cv.gmask.getLsbD n then test n else !s.cv.pfx.zero && old.getLsbD n) else false)

/-- The conditions of `kcmp` (R254). -/
def holds {w : Nat} (c : ICond) (x y : BitVec w) : Bool :=
  match c with
  | .eq => x == y
  | .ne => x != y
  | .lt => x.slt y
  | .le => x.sle y
  | .ltn => x.ult y
  | .len => x.ule y

/-- The index of the lowest set bit, −1 for none (R256). -/
def lowest (m : KReg) : Word64 := ((List.range 512).find? (fun n => m.getLsbD n)).elim (-1) (fun n => BitVec.ofNat 64 n)

/-! ## Control -/

/-- The address of the word that a member stands in, plus four times a signed displacement in words (R204). -/
def target (s : State) {n : Nat} (disp : BitVec n) : Word64 :=
  s.cv.head + BitVec.ofNat 64 (4 * (s.cv.widx - 1)) + BitVec.ofInt 64 (disp.toInt * 4)

/-- The address of the word behind the one a member stands in. -/
def after (s : State) : Word64 := s.cv.head + BitVec.ofNat 64 (4 * (s.cv.widx - 1)) + 4

/-! ## Floats -/

/-- The common effect of a float form (R263): each active element takes the bits of a rounded result and raises its flags. -/
def WritesF (s : State) (i : Instr) (d : VName) (w : Nat) (r : Nat → Res) : Prop :=
  Writes s i d w (fun n => (r n).1 % 2 ^ w) (fun n => (r n).2)

/-- An exact result rounded once, in the mode and with the random bits in force for the element (R235, R263). -/
def round1 (s : State) (ft : FType) (e : Nat → Exact × Nat) (n : Nat) : Res :=
  let r := (ftFmt ft).put (e n).1 s.cv.mode (s.cv.rnd (ftBits ft) n)
  (r.1, r.2 ||| (e n).2)

/-- The value of an element of a float register (R225). -/
def flt (ft : FType) (x : VReg) (n : Nat) : FVal := (ftFmt ft).read (elem x (ftBits ft) n)

/-! ## Reductions -/

/-- The active elements of a register, ascending. -/
def actives (s : State) (x : VReg) (w : Nat) : List (BitVec w) :=
  ((List.range s.cv.elems).filter (fun n => s.cv.gmask.getLsbD n)).map (fun n => el x w n)

/-- A reduction writes element 0, whatever the mask holds, and leaves the others, or clears them under ZERO (R288). -/
def WritesFirst (s : State) (i : Instr) (d : VName) (w : Nat) (val flags : Nat) : Prop :=
  ∃ t, exec i s = .next t ∧ RegsOnly s t ∧
    (∀ n, elem (t.cv.rv d) w n =
      if n = 0 then val else if n < s.cv.elems ∧ s.cv.pfx.zero then 0 else elem (s.cv.rv d) w n) ∧
    (∀ n, n ≠ d → t.cv.rv n = s.cv.rv n) ∧
    t.cv.work = { s.cv.work.raise (if flags = 0 then [] else [(0, flags)]) with v := t.cv.work.v }

/-- A node of the fixed tree of R239 over leaves of which some are absent. -/
def treeNode {β : Type} (f : β → β → β) (leaf : Nat → Option β) : Nat → Nat → Option β
  | 0, j => leaf j
  | m + 1, j => match treeNode f leaf m (2 * j), treeNode f leaf m (2 * j + 1) with
    | none, y => y
    | x, none => x
    | some x, some y => some (f x y)

/-- What a step of a float reduction or scan holds: a value, and the flags raised on the way (R232, R239). -/
def fltLeaf (x : FVal) : FVal × Nat := (x, if x = .nan true then fNV else 0)

/-- The sum of two of them, rounded to F32 (R239, R289). -/
def fltSum (rm : RMode) (u : Nat) (x y : FVal × Nat) : FVal × Nat :=
  let e := exAdd x.1 y.1 rm
  let r := fmtF32.put e.1 rm u
  (fmtF32.read r.1, r.2 ||| e.2 ||| x.2 ||| y.2)

/-- Their maximum or minimum, exactly (R265, R288). -/
def fltBest (max : Bool) (x y : FVal × Nat) : FVal × Nat :=
  let e := exMinMax max x.1 y.1
  (fmtF32.read (fmtF32.put e.1 .rne 0).1, e.2 ||| x.2 ||| y.2)

/-- One of them in the element format (R239, R289). -/
def fltOut (f : Fmt) (rm : RMode) (u : Nat) (x : FVal × Nat) : Res :=
  let r := f.put x.1.exact rm u
  (r.1 % 2 ^ f.width, r.2 ||| x.2)

/-- The carry of a float scan at an active element, with the flags of its last step (R289). -/
def fltCarry (s : State) (w : Nat) (x : Nat → FVal) (n : Nat) : Option (FVal × Nat) :=
  ((List.range (n + 1)).filter (fun j => s.cv.gmask.getLsbD j)).foldl (fun c j => some (match c with
    | none => fltLeaf (x j)
    | some v => fltSum s.cv.mode (s.cv.rnd w j) (v.1, 0) (x j, 0))) none

/-! ## Memory -/

/-- The lines that the home slice of a line holds. -/
def heldLines (s : State) (line : Nat) : List Nat :=
  (s.slices.map Prod.fst).filter (fun x => sliceNo s (128 * x) == sliceNo s (128 * line))

/-- No home slice holds as many lines as one of its sets has ways, so none has made room (R66). -/
def Roomy (s : State) : Prop := ∀ line, (heldLines s line).length < 12

/-- A byte at its home: the home slice's, where the slice holds it, and the settled image's otherwise (R66, R69). -/
def homeByte (s : State) (pa : Nat) : Byte :=
  let l := s.slice (pa / 128)
  if l.held.getLsbD (pa % 128) then l.data.extractLsb' (8 * (pa % 128)) 8 else s.arrByte pa

/-- A byte as the agents of a core read it: the L1's, where it is dirty there or its sector valid, and its home's otherwise (R62). -/
def seenByte (s : State) (core pa : Nat) : Byte :=
  let l := (s.core core).line (pa / 128)
  if l.dirty.getLsbD (pa % 128) || l.valid.getLsbD (pa % 128 / 32) then l.data.extractLsb' (8 * (pa % 128)) 8 else homeByte s pa

/-- The tables of cores and of home-slice lines are in their canonical form (an invariant of the model). -/
def Canonical (s : State) : Prop := twf ({} : Core) s.cores = true ∧ twf ({} : SliceLine) s.slices = true

/-- No remote reduce is on its way, and the clean bytes of a core's L1 are those of their homes. -/
def Coherent (s : State) (core : Nat) : Prop :=
  Canonical s ∧ s.vrst = [] ∧ ∀ pa, let l := (s.core core).line (pa / 128)
    l.valid.getLsbD (pa % 128 / 32) = true → l.dirty.getLsbD (pa % 128) = false → l.data.extractLsb' (8 * (pa % 128)) 8 = homeByte s pa

/-- A byte of the settled image once the sector writes that settles have sent to it have arrived (R80). -/
def landByte (s : State) (pa : Nat) : Byte :=
  (s.settles.map (fun st => st.sectors)).flatten.foldl (fun b e =>
    if e.1 = pa / 32 ∧ e.2.1.getLsbD (pa % 32) = true then e.2.2.1.extractLsb' (8 * (pa % 32)) 8 else b) (s.arrByte pa)

/-- The slices' clean bytes are those that the arrays hold or are about to, and nothing is on its way to a byte that a slice does not
hold (R69, R80). -/
def CleanSlices (s : State) : Prop := ∀ pa, let l := s.slice (pa / 128)
  (l.held.getLsbD (pa % 128) = true → l.dirty.getLsbD (pa % 128) = false → l.data.extractLsb' (8 * (pa % 128)) 8 = landByte s pa) ∧
  (l.held.getLsbD (pa % 128) = false → l.dirty.getLsbD (pa % 128) = false ∧ landByte s pa = s.arrByte pa)

/-- There is room for a line in its L1 set, in the directory and in the home slice, whatever their sets are (R60, R66, R67). -/
def RoomFor (s : State) (core line : Nat) : Prop :=
  (l1Ways (s.core core) line).length < 8 ∧ (tracked s (sliceNo s (128 * line))).length < 16 ∧ (heldLines s line).length < 12

/-- Between two states no byte at a home changes for want of room: no home slice is full, or what a full one gives up stands in the arrays. -/
def Steady (s t : State) : Prop := Roomy t ∨ CleanSlices s

/-- No core but this one has stored to a byte and still holds it in its L1. -/
def Quiet (s : State) (core pa : Nat) : Prop := ∀ c, c ≠ core → ((s.core c).line (pa / 128)).dirty.getLsbD (pa % 128) = false

/-- Nothing in memory, or on its way to the arrays, is poisoned (R391). -/
def NoPoison (s : State) : Prop :=
  s.arrPoison = [] ∧ (∀ st ∈ s.settles, ∀ e ∈ st.sectors, e.2.2.2 = false) ∧
  ∀ line, (s.slice line).poison = 0 ∧ ∀ c, ((s.core c).line line).poison = 0

/-- The byte that the latest of a convoy's staged stores to an address of a node holds. -/
def stagedByte (l : List Store) (dev : Option Nat) (pa : Nat) : Option Byte :=
  l.foldl (fun b st => if st.dev = dev ∧ st.pa ≤ pa ∧ pa < st.pa + st.bytes.length then some (st.bytes.getD (pa - st.pa) 0) else b) none

/-- A byte of this device as the running member reads it: stores of its micro-thread that have still to enter the L1, and an earlier member's,
come first (R101, R102, R106). -/
def readByte (s : State) (pa : Nat) : Byte := (stagedByte s.staged none pa).getD (seenByte s s.cv.core pa)

/-- The span translation of a byte that the running member addresses (R21), for a convoy that has waited in the span store it began with
(R34). -/
def lookup (s : State) (need : Need) (a : Nat) : Except XCause Xlat := cvXlat s need (a % 2 ^ 64)

/-- Every byte of every element in `ns` translates. `addr` gives an element's address, or none for one out of bounds. -/
def Reaches (s : State) (need : Need) (ns : List Nat) (bytes : Nat) (addr : Nat → Option Nat) : Prop :=
  ∀ n ∈ ns, ∀ a, addr n = some a → ∀ j, j < bytes → ∃ x, lookup s need (a + j) = .ok x

/-- They all lie on this device. -/
def AtHome (s : State) (need : Need) (ns : List Nat) (bytes : Nat) (addr : Nat → Option Nat) : Prop :=
  ∀ n ∈ ns, ∀ a, addr n = some a → ∀ j, j < bytes → ∀ x, lookup s need (a + j) = .ok x → x.dev = none

/-- The active elements of the running member. -/
def act (s : State) : List Nat := (List.range s.cv.elems).filter (fun n => s.cv.gmask.getLsbD n)

/-- The addresses of the contiguous, strided and indexed forms (R295, R296). -/
def unitAddr (s : State) (a : GName) (off : BitVec 8) (bytes : Nat) : Nat → Option Nat := fun n =>
  let k : Int := match s.cv.pfx.ext with
    | none => off.toInt
    | some e => (e ++ off).toInt
  some (s.cv.rg a + BitVec.ofInt 64 (k * bytes) + BitVec.ofNat 64 (n * bytes)).toNat
def strideAddr (s : State) (a b : GName) (bytes : Nat) : Nat → Option Nat := fun n =>
  some (s.cv.rg a + BitVec.ofNat 64 (n / s.cv.cols) * s.cv.rg b + BitVec.ofNat 64 (n % s.cv.cols * bytes)).toNat
def indexAddr (s : State) (a : GName) (b : VName) (bytes : Nat) : Nat → Option Nat := fun n =>
  some (s.cv.rg a + BitVec.ofNat 64 (elem (s.cv.rv b) (8 * bytes) n * bytes)).toNat

/-- The contiguous addresses from a g register, as the atomics and the mask forms use them (R257, R304, R307). -/
def plainAddr (s : State) (a : GName) (bytes : Nat) : Nat → Option Nat := fun n => some (s.cv.rg a + BitVec.ofNat 64 (n * bytes)).toNat

/-- Lines have moved: L1s and home slices have taken lines and given up others, whose dirty bytes went home and, from a full home slice, to
the arrays (R62, R65 to R67, R92); counters have counted. No register of any agent has changed. -/
def MovesLines (s t : State) : Prop :=
  t = { s with cv := t.cv, cores := t.cores, slices := t.slices, fresh := t.fresh, arrays := t.arrays, arrPoison := t.arrPoison
               latewb := t.latewb, settles := t.settles } ∧
  (∀ c, t.core c = { s.core c with
    l1 := (t.core c).l1, stale := (t.core c).stale, lreq := (t.core c).lreq, xreq := (t.core c).xreq, smpcnt := (t.core c).smpcnt
    ictl := (t.core c).ictl, ct := { (s.core c).ct with resv := (t.core c).ct.resv } }) ∧
  (Roomy t → t.arrays = s.arrays ∧ t.arrPoison = s.arrPoison ∧ t.latewb = s.latewb ∧ t.settles = s.settles ∧ ∀ c, (t.core c).ictl = (s.core c).ictl)

/-- As a core sees memory no byte has changed, but those that another core had still to give up. -/
def SeesSame (s t : State) (core : Nat) : Prop := Steady s t → ∀ pa, Quiet s core pa → seenByte t core pa = seenByte s core pa

/-- What a read may change: lines move. No byte changes for the core. -/
def ReadsOnly (s t : State) : Prop := MovesLines s t ∧ SeesSame s t s.cv.core

/-- The same of a scalar access, whose page walks fill TLB and walk cache, and log a CRIT leaf that did not agree (R27, R31). -/
def WalksAndReads (s t : State) : Prop :=
  (∃ u, MovesLines s u ∧ t = { u with cores := t.cores, events := t.events } ∧
    ∀ c, t.core c = { u.core c with tlb := (t.core c).tlb, walk := (t.core c).walk, torn := (t.core c).torn }) ∧
  ((∀ c, (s.core c).torn = false) → t.events = s.events) ∧ SeesSame s t s.cv.core

/-- The bytes of an element, where they lie on this device, after a step to `t`. -/
def HoldsBytes (s t : State) (need : Need) (bytes a : Nat) (v : Nat) : Prop :=
  Steady s t → ∀ j, j < bytes → ∀ x, lookup s need (a + j) = .ok x → x.dev = none → Quiet s s.cv.core x.pa →
    BitVec.ofNat 8 (v / 2 ^ (8 * j)) = readByte s x.pa

/-- What a convoy that runs twice keeps of the values it has read: a convoy that runs once keeps none, and the first of two runs adds to them
(log 28). -/
def Keeps (s t : State) : Prop :=
  (s.cv.final = false → ∃ l, t.cv.reads = s.cv.reads ++ l ∧ (s.cv.trial = false → l = []))

/-- A vector load (R294): it completes; an active element of `d` takes the bytes at its address, or 0 out of bounds, an inactive one
stays or becomes 0 under ZERO; nothing else of any register changes, and no byte of memory. Where nothing lies on another node and
nothing is poisoned, and stale reads do not trap, no fault is found. The bytes are those that memory holds as the member runs, but in the second
run of a convoy that runs twice, which takes what the first has read (log 28). -/
def Loads (s : State) (i : Instr) (d : VName) (w : Nat) (addr : Nat → Option Nat) : Prop :=
  ∃ t, exec i s = .next t ∧ ReadsOnly s t ∧
    t.cv = { s.cv with pfx := {}, member := s.cv.member + 1, chain := t.cv.chain, vmask := t.cv.vmask, cands := t.cv.cands, reads := t.cv.reads
                       work := { s.cv.work with v := t.cv.work.v } } ∧ Keeps s t ∧
    (∀ n, s.cv.elems ≤ n → elem (t.cv.rv d) w n = elem (s.cv.rv d) w n) ∧
    (∀ n, n < s.cv.elems → n ∉ act s → elem (t.cv.rv d) w n = if s.cv.pfx.zero then 0 else elem (s.cv.rv d) w n) ∧
    (∀ n ∈ act s, match addr n with
      | none => elem (t.cv.rv d) w n = 0
      | some a => s.cv.final = false → HoldsBytes s t { r := true } (w / 8) a (elem (t.cv.rv d) w n)) ∧
    (∀ n, n ≠ d → t.cv.rv n = s.cv.rv n) ∧
    (AtHome s { r := true } (act s) (w / 8) addr → NoPoison s → sttOn s = false → t.cv.cands = s.cv.cands)

/-- The last byte that a store's elements, in ascending order, write at an address of a node. -/
def lastByte (s : State) (ns : List Nat) (bytes : Nat) (addr : Nat → Option Nat) (val : Nat → Nat) (dev : Option Nat) (pa : Nat) : Option Byte :=
  ns.foldl (fun b n => (List.range bytes).foldl (fun b j => match addr n with
    | none => b
    | some a => match lookup s { w := true } (a + j) with
      | .ok x => if x.dev = dev ∧ x.pa = pa then some (BitVec.ofNat 8 (val n / 2 ^ (8 * j))) else b
      | .error _ => b) b) none

/-- A store of a convoy (R102): it completes, and stages each element's bytes at its address, an address written twice taking the
later element's; no register and nothing else of the machine changes before the convoy retires. -/
def Stages (s : State) (i : Instr) (ns : List Nat) (bytes : Nat) (addr : Nat → Option Nat) (val : Nat → Nat) : Prop :=
  ∃ t l, exec i s = .next t ∧
    t = { s with cv := { s.cv with pfx := {}, member := s.cv.member + 1, stores := s.cv.stores ++ l } } ∧
    (∀ st ∈ l, st.atomic = false ∧ st.poison = false) ∧
    ∀ dev pa, stagedByte l dev pa = lastByte s ns bytes addr val dev pa

/-- A member finds a fault and has no other effect, but that a span lookup that the banks do not agree on logs its event (R31). `rec_` is the
record it would be taken with (R381). -/
def Finds (s : State) (i : Instr) (phase : Nat) (ok : List Word64 → Prop) : Prop :=
  ∃ t rec_, exec i s = .next t ∧ ok rec_ ∧
    t = { s with cv := { s.cv with pfx := {}, member := s.cv.member + 1, cands := s.cv.cands ++ [(phase, rec_)] }, events := t.events } ∧
    (s.spanErr = [] → t.events = s.events)

/-- The kind of a record, and its field SUB (R381). -/
def kindOf (r : List Word64) : Nat := (r.getD 0 0).toNat / 2 ^ 56
def subOf (r : List Word64) : Nat := (r.getD 0 0).toNat / 2 ^ 48 % 256

/-- Where element `n` of a tensor access lies (R301): none out of bounds, or the address before it is reduced. -/
def tensPlace (s : State) (x : TDesc) (tr : Bool) (b : GName) (n : Nat) : Option Int :=
  let row := if tr then n % s.cv.rows else n / s.cv.cols
  let col := if tr then n / s.cv.rows else n % s.cv.cols
  let at_ := fun (j : Nat) => (s.cv.rg (b + BitVec.ofNat 6 j)).toNat + (if j = 0 then col else if j = 1 then row else 0)
  if x.rank ≠ 0 ∧ (x.rank = 1 → row = 0) ∧ (∀ j ∈ List.range x.rank, at_ j < x.dim j) then
    some (x.base + ((List.range x.rank).map (fun j => (at_ j : Int) * x.stride j)).sum * (x.width / 8 : Nat))
  else none

/-- The address of an element of a tensor in memory. -/
def tensMem (s : State) (x : TDesc) (tr : Bool) (b : GName) : Nat → Option Nat :=
  fun n => (tensPlace s x tr b n).map (fun a => (BitVec.ofInt 64 a).toNat)

/-- Every active element in bounds lies within the scratchpad (R51). -/
def InScratch (s : State) (x : TDesc) (place : Nat → Option Int) : Prop :=
  ∀ n ∈ act s, ∀ a, place n = some a → 0 ≤ a ∧ a + (x.width / 8 : Nat) ≤ (s.core s.cv.core).scrBytes

/-- A scratchpad byte as the running member reads it (R102, R111). -/
def overScr (s : State) (o : Nat) (b : Byte) : Byte := s.cv.scr.foldl (fun b e => if e.1 ≤ o ∧ o < e.1 + e.2.length then e.2.getD (o - e.1) 0 else b) b
def scrByte (s : State) (o : Nat) : Byte := overScr s o (tget 0 (s.core s.cv.core).scratch o)

/-- The same as a tag-checked read sees it: a word that a running `cpy` has written, in a slot whose tag it has still to set, is as it was
(R57). -/
def tagByte (s : State) (o : Nat) : Byte :=
  let c := s.core s.cv.core
  let was := (c.queue 0).entries.head?.elim [] (fun e => e.was)
  overScr s o (was.foldl (fun b w => if w.1 = o / 8 then BitVec.ofNat 8 (w.2.1 / 2 ^ (8 * (o % 8))) else b) (tget 0 c.scratch o))

/-- The slots of 2,048 bytes that a tagged read touches (R56, R302). -/
def Touches (s : State) (x : TDesc) (place : Nat → Option Int) (slot : Nat) : Prop :=
  slot < (s.core s.cv.core).scrBytes / 2048 ∧
  ∃ n ∈ act s, ∃ a : Nat, place n = some (a : Int) ∧ (slot = a / 2048 ∨ slot = (a + x.width / 8 - 1) / 2048)

/-- A scratchpad load (R301): as `Loads`, from the scratchpad as `byte` reads it, and nothing but the convoy changes. -/
def LoadsScratch (s : State) (i : Instr) (d : VName) (x : TDesc) (place : Nat → Option Int) (byte : Nat → Byte) : Prop :=
  ∃ t, exec i s = .next t ∧ RegsOnly s t ∧ t.cv.work = { s.cv.work with v := t.cv.work.v } ∧
    (∀ n, s.cv.elems ≤ n → elem (t.cv.rv d) x.width n = elem (s.cv.rv d) x.width n) ∧
    (∀ n, n < s.cv.elems → n ∉ act s → elem (t.cv.rv d) x.width n = if s.cv.pfx.zero then 0 else elem (s.cv.rv d) x.width n) ∧
    (∀ n ∈ act s, match place n with
      | none => elem (t.cv.rv d) x.width n = 0
      | some a => ∀ j, j < x.width / 8 → BitVec.ofNat 8 (elem (t.cv.rv d) x.width n / 2 ^ (8 * j)) = byte (a.toNat + j)) ∧
    (∀ n, n ≠ d → t.cv.rv n = s.cv.rv n)

/-- An integer atomic's new value (R304). -/
def amoWord {w : Nat} (op : AmoOp) (old x : BitVec w) : BitVec w :=
  match op with
  | .add => old + x
  | .min => if x.slt old then x else old
  | .max => if old.slt x then x else old
  | .minn => if x.ult old then x else old
  | .maxn => if old.ult x then x else old
  | .and => old &&& x
  | .or => old ||| x
  | .swap => x

/-- A float atomic's new value and flags (R304, R305). -/
def amoReal (s : State) (f : Fmt) (op : AmoOp) (n old x : Nat) : Res :=
  let out := fun (e : Exact × Nat) => let r := f.put e.1 s.cv.mode (s.cv.rnd f.width n); (r.1, r.2 ||| e.2)
  match op with
  | .add => out (exAdd (f.read old) (f.read x) s.cv.mode)
  | .min => out (exMinMax false (f.read old) (f.read x))
  | .max => out (exMinMax true (f.read old) (f.read x))
  | _ => (x, 0)

/-- The new value of an element, and its flags. -/
def amoNew (s : State) (f : NFmt) (op : AmoOp) (n old x : Nat) : Res :=
  match f with
  | .flt g => amoReal s g op n old x
  | g => ((amoWord op (BitVec.ofNat g.width old) (BitVec.ofNat g.width x)).toNat, 0)

/-- The need of an access that reads and writes. -/
def rw_ : Need := { r := true, w := true }

/-- A vector atomic (R305): the active elements of `d` take the old values, and their new ones are staged; flags are raised by
element, and no byte of memory changes before the convoy retires. -/
def Swaps (s : State) (i : Instr) (d b : VName) (op : AmoOp) (f : NFmt) (addr : Nat → Option Nat) : Prop :=
  ∃ t l, exec i s = .next t ∧ ReadsOnly s t ∧
    let w := f.width
    let new := fun n => amoNew s f op n (elem (t.cv.rv d) w n) (elem (s.cv.rv b) w n)
    t.cv = { s.cv with pfx := {}, member := s.cv.member + 1, chain := t.cv.chain, vmask := t.cv.vmask, cands := t.cv.cands
                       stores := s.cv.stores ++ l, work := t.cv.work, hidden := s.cv.hide t.cv.work, seen := t.cv.seen } ∧
    t.cv.work = { s.cv.work.raise (hitsOf s (fun n => (new n).2)) with v := t.cv.work.v } ∧
    (∀ n, s.cv.elems ≤ n → elem (t.cv.rv d) w n = elem (s.cv.rv d) w n) ∧
    (∀ n, n < s.cv.elems → n ∉ act s → elem (t.cv.rv d) w n = if s.cv.pfx.zero then 0 else elem (s.cv.rv d) w n) ∧
    (∀ n, n ≠ d → t.cv.rv n = s.cv.rv n) ∧
    (∀ n ∈ act s, ∀ a, addr n = some a → HoldsBytes s t rw_ (w / 8) a (elem (t.cv.rv d) w n)) ∧
    l.length = (act s).length ∧
    (∀ n ∈ act s, ∀ a x, addr n = some a → lookup s rw_ a = .ok x →
      ∃ st ∈ l, st.pa = x.pa ∧ st.dev = x.dev ∧ st.atomic = true ∧ st.bytes = leBytes (w / 8) (new n).1) ∧
    (AtHome s rw_ (act s) (w / 8) addr → NoPoison s → t.cv.cands = s.cv.cands)

/-- A member finds a fault that a later member's g register address depends on (R318). -/
def FindsG (s : State) (i : Instr) (d : GName) (phase : Nat) (ok : List Word64 → Prop) : Prop :=
  ∃ t rec_, exec i s = .next t ∧ ok rec_ ∧
    t.cv = { s.cv with pfx := {}, member := s.cv.member + 1, cands := s.cv.cands ++ [(phase, rec_)], fltGld := d :: s.cv.fltGld }

/-- A member that completes and leaves the machine as it was, but for its convoy, which changes as `f` says. -/
def Does (s : State) (i : Instr) (f : Convoy → Convoy) : Prop :=
  exec i s = .next { s with cv := { f s.cv with pfx := {}, member := s.cv.member + 1 } }

/-- A member that places one entry on a queue when its convoy retires (R112, R340). -/
def Enqueues (s : State) (i : Instr) (q : Nat) (cmd : EngCmd) (opnd : Word64) : Prop :=
  Does s i (fun cv => { cv with enq := cv.enq ++ [(q, { cmd := cmd, word := cv.word, who := cv.mt, head := cv.head, opnd := opnd })] })

/-- The convoy of the running member waits to retire, under a state code (R147), and its member will run again; no register of it takes
effect, and it keeps the tensor table and the span store that it began with (R34, R262). -/
def Waits (s : State) (i : Instr) (code : Nat) : Prop :=
  ∃ t p, exec i s = .next t ∧ t.cv.live = false ∧ ((t.core s.cv.core).mt s.cv.mt).parked = some p ∧ p.wait = .member ∧
    p.todo = s.cv.word :: s.cv.todo ∧ p.work = s.cv.work ∧ p.tens0 = some (startTens s) ∧ p.span0 = some (s.cv.span0.getD s.span) ∧
    ((t.core s.cv.core).mt s.cv.mt).code = code ∧ ((t.core s.cv.core).mt s.cv.mt).regs = ((s.core s.cv.core).mt s.cv.mt).regs

/-- Every byte of a range translates, below 2 TiB (R314). -/
def RangeReaches (s : State) (need : Need) (a n : Nat) : Prop := a + n ≤ 2 ^ 41 ∧ ∀ k, k < n → ∃ x, lookup s need (a + k) = .ok x

/-! ## The talus stack -/

/-- Chunks of the share, and the bytes and frames that the running member sees (R59, R331). -/
def chunks (s : State) : Nat := (s.core s.cv.core).info.poolTal * 16 / (s.core s.cv.core).info.n
def depth (s : State) : Nat := s.cv.work.tsd.toNat % 2 ^ 40
def frames (s : State) : Nat := s.cv.work.tsd.toNat / 2 ^ 40

/-- The length of the frame that a reversible member pushes: a bitmap, the slots, and the header (R322, R323). -/
def frameLen (s : State) (rt : RType) : Nat :=
  8 * (((act s).length + 63) / 64) + 8 * (((act s).length * rtBits rt + 63) / 64) + 8

/-- There is room for a frame in the share, which is not full, and in the counts (R333, R334). -/
def Room (s : State) (len : Nat) : Prop :=
  0 < chunks s ∧ depth s + len ≤ 4096 * chunks s ∧ s.cv.work.scb.toNat ≤ s.cv.work.scl.toNat ∧ frames s + 1 < 2 ^ 24 ∧ depth s + len < 2 ^ 40

/-- The seven classes of R321 with their operand forms. -/
def revPair (c : Bool) (d a b : VName) (g : GName) (rt : RType) (k : BitVec 5) : List (RevKind × Instr × Instr) :=
  [(.mul, .rmul c d a b rt, .umul c d a b rt), (.add, .radd c d a b rt, .uadd c d a b rt), (.fma, .rfma c d a b rt, .ufma c d a b rt),
   (.narrow, .rnarrow c d a rt, .unarrow c d a rt), (.shr, .rshr c d a g rt, .ushr c d a g rt),
   (.lrelu, .rlrelu c d a rt k, .ulrelu c d a rt k)] ++
  (if rtFlt rt then [(.scale, .rscale c d a g (rt == .bf16), .uscale c d a g (rt == .bf16))] else [])

/-- The integer result of a class (R325). -/
def revWord (k : RevKind) (rt : RType) {w : Nat} (x y z : BitVec w) (cnt : Nat) : Nat :=
  let val := fun (v : BitVec w) => if rtSigned rt then v.toInt else (v.toNat : Int)
  match k with
  | .mul => (x * y).toNat
  | .add => (x + y).toNat
  | .fma => (x * y + z).toNat
  | .narrow => (BitVec.ofInt (w / 2) (clamp (rtSigned rt) (w / 2) (val x))).toNat
  | .lrelu => if rtSigned rt && x.slt 0 then (x.sshiftRight cnt).toNat else x.toNat
  | _ => if rtSigned rt then (x.sshiftRight cnt).toNat else (x >>> cnt).toNat

/-- The integer that an undo gives from the result, the remainder and the operands of its forward member (R325, R330). -/
def undoWord (k : RevKind) (rt : RType) {v w : Nat} (y : BitVec v) (rem a b : BitVec w) (cnt : Nat) : Nat :=
  let val := fun (n : Nat) (x : BitVec n) => if rtSigned rt then x.toInt else (x.toNat : Int)
  let r : Int := match k with
    | .mul => if b = 0 then 0 else (val w rem * 2 ^ w + y.toNat).tdiv (val w b)
    | .add => val v y - val w b
    | .fma => val v y - val w a * val w b
    | .narrow => val v y + val w rem
    | .lrelu => if rtSigned rt && y.msb then val v y * 2 ^ cnt + val w rem else val v y
    | _ => val v y * 2 ^ cnt + rem.toNat
  (BitVec.ofInt w r).toNat

/-- The header at the top of the stack, and the payload of a frame of `len` bytes below it (R321). -/
def topHead (s : State) : Nat := leNat (trange 0 s.cv.talus (depth s - 8) 8)
def topPayload (s : State) (len : Nat) : Nat := leNat (trange 0 s.cv.talus (depth s - len) (len - 8))

/-- The top frame lies whole in the share, and is the one that a class, type and register of the running member's shape and mask left
there: its fields but the reserved ones are theirs (R321, R322, R329). -/
def Matches (s : State) (k : RevKind) (rt : RType) (d : VName) : Prop :=
  let len := frameLen s rt
  0 < frames s ∧ 0 < chunks s ∧ len ≤ depth s ∧ depth s ≤ 4096 * chunks s ∧ topHead s % 2 ^ 12 = len - 8 ∧
  topHead s / 2 ^ 20 = k.cls * 2 ^ 40 + rt.code.toNat * 2 ^ 37 + d.toNat * 2 ^ 30 + (s.cv.rows - 1) * 2 ^ 23 + (s.cv.cols - 1) * 2 ^ 16 +
    ((act s).map (fun n => (n + 1) * (n + 1))).sum % 65536

/-- An undo has taken the top frame off, and its source `vs` takes `val` in the active elements: nothing below the frame, no other
register and no flag has changed (R328). -/
def Undone (s t : State) (rt : RType) (vs : VName) (val : Nat → Nat → Nat) : Prop :=
  let w := rtBits rt
  let len := frameLen s rt
  let pay := topPayload s len
  let map := 8 * (((act s).length + 63) / 64)
  ConvoyOnly s t ∧
    t.cv = { s.cv with pfx := {}, member := s.cv.member + 1, chain := t.cv.chain, vmask := t.cv.vmask, talus := t.cv.talus
                       work := { s.cv.work with v := t.cv.work.v, tsd := t.cv.work.tsd } } ∧
    depth t = depth s - len ∧ frames t = frames s - 1 ∧ (∀ o, o < depth t → tget 0 t.cv.talus o = tget 0 s.cv.talus o) ∧
    (∀ n j, (act s)[j]? = some n →
      let slot := pay / 2 ^ (8 * map + w * j) % 2 ^ w
      (pay.testBit j = true → elem (t.cv.rv vs) w n = slot) ∧
      (pay.testBit j = false → rtFlt rt = false → elem (t.cv.rv vs) w n = val n slot)) ∧
    (∀ n, n < s.cv.elems → n ∉ act s → elem (t.cv.rv vs) w n = if s.cv.pfx.zero then 0 else elem (s.cv.rv vs) w n) ∧
    (∀ n, s.cv.elems ≤ n → elem (t.cv.rv vs) w n = elem (s.cv.rv vs) w n) ∧
    (∀ n, n ≠ vs → t.cv.rv n = s.cv.rv n)

/-- The scree's byte at a stream offset, where it lies on this device, after a step to `t`. -/
def HoldsScree (s t : State) (scb : Nat) (o : Nat) (b : Byte) : Prop :=
  Steady s t → ∀ x, lookup s rw_ (scb + o) = .ok x → x.dev = none → Quiet s s.cv.core x.pa → b = readByte s x.pa

/-! ## Block formats -/

/-- A float element times a power of two, as R227 scales it: NaN where the scale is. -/
def scaled2 (f : Fmt) (x e : Nat) : FVal :=
  if e = 255 then .nan false else match f.read x with
    | .fin n m k => .fin n m (k + e - 127)
    | y => y

/-- The element formats of codes 20 to 24 (R223). -/
def mxFmt (code : Nat) : Option Fmt :=
  match code with
  | 20 => some fmtE4M3 | 21 => some fmtE5M2 | 22 => some fmtE3M2 | 23 => some fmtE2M3 | 24 => some fmtE2M1 | _ => none

/-! ## Special registers -/

/-- The micro-thread registers of R368 by number, zero-extended. -/
def mtReg (r : MtRegs) : List (BitVec 11 × Word64) :=
  [(0x00, r.fst.setWidth 64), (0x01, r.ffi.setWidth 64), (0x02, r.grc.setWidth 64), (0x03, r.shp.setWidth 64), (0x04, r.wb.setWidth 64),
   (0x08, r.eixNv.setWidth 64), (0x09, r.eixDz.setWidth 64), (0x0A, r.eixOf.setWidth 64), (0x0B, r.eixUf.setWidth 64),
   (0x0C, r.eixNx.setWidth 64), (0x10, r.tsd), (0x11, r.scb), (0x12, r.scl), (0x18, r.mgr.setWidth 64), (0x19, r.mrs.setWidth 64)]

/-- The core-scope registers of R368 by number, as the core holds them. -/
def coreReg (s : State) (c : Core) : List (BitVec 11 × Word64) :=
  [(0x20, c.ictl.setWidth 64), (0x21, c.stale.setWidth 64), (0x22, (tget 0 s.latewb (s.cv.core / 64)).setWidth 64),
   (0x28, c.rngc0), (0x29, c.rngc1), (0x2A, c.rngk0), (0x2B, c.rngk1)] ++
  (List.range 6).map (fun q => (0x30 + BitVec.ofNat 11 q, (c.queue q).qst.setWidth 64))

/-- What an `swrite` leaves of the micro-thread's registers, for the registers it may write. -/
def mtSet (r : MtRegs) (x : Word64) : List (BitVec 11 × MtRegs) :=
  let w : Word32 := x.setWidth 32
  [(0x00, { r with fst := w }), (0x01, { r with ffi := w }), (0x02, { r with grc := w }), (0x03, { r with shp := w }),
   (0x08, { r with eixNv := w }), (0x09, { r with eixDz := w }), (0x0A, { r with eixOf := w }), (0x0B, { r with eixUf := w }),
   (0x0C, { r with eixNx := w }), (0x11, { r with scb := x }), (0x12, { r with scl := x }), (0x19, { r with mrs := w })]

/-- The values that an `swrite` accepts: no bit above the register's width and no reserved bit set (R368), the rounding mode one of
the five (R236), GRC at most 512 (R258), a shape of at most 512 elements (R261), and a scree that keeps what is spilled within it (R332). -/
def Accepts (s : State) (num : BitVec 11) (x : Word64) : Prop :=
  let v := x.toNat
  let spill := (depth s + 4095) / 4096 - chunks s
  let page := v % 4096 = 0 ∧ v < 2 ^ 41
  (num = 0x00 → v < 2 ^ 11 ∧ x.getLsbD 7 = false ∧ v / 256 < 5) ∧ (num = 0x01 → v < 2 ^ 10) ∧ (num = 0x02 → v ≤ 512) ∧
  (num = 0x03 → v < 2 ^ 15 ∧ x.getLsbD 7 = false) ∧
  (num ∈ ([0x08, 0x09, 0x0A, 0x0B, 0x0C] : List (BitVec 11)) → v < 2 ^ 9) ∧
  (num = 0x11 → page ∧ (x = s.cv.work.scb ∨ spill = 0) ∧ v + 4096 * spill ≤ s.cv.work.scl.toNat) ∧
  (num = 0x12 → page ∧ s.cv.work.scb.toNat + 4096 * spill ≤ v) ∧ (num = 0x19 → v < 2 ^ 7) ∧
  (num = 0x20 → v < 4) ∧ (num = 0x21 ∨ num = 0x22 → v < 2 ^ 32) ∧
  (∀ q, q < 6 → num = 0x30 + BitVec.ofNat 11 q → v < 2 ^ 16 ∧ v / 64 % 64 = 0)

/-- The answers of `poolq` (R374). -/
def poolFacts (s : State) : List (BitVec 11 × Nat) :=
  let c := s.core s.cv.core
  let l := c.info
  [(0, 8 * (l.poolReg * 16 / l.n)), (1, l.n), (2, l.pool.toNat), (3, chunks s), (4, l.poolScr * 65536), (5, 2 * l.poolAcc),
   (6, s.cv.mt), (7, s.cv.mt % 8), (8, s.cv.core % 64), (9, s.cv.core / 64), (10, s.devnum.toNat), (11, l.part), (12, l.ctx)]

/-! ## The control thread -/

/-- The current core, changed. -/
def onCore (s : State) (f : Core → Core) : State := { s with cores := tset {} s.cores s.curCore (f (s.core s.curCore)) }

/-- An instruction of the current control thread retires: the pc goes on, the instruction counts, and `f` changes the rest. -/
def retires (s : State) (pc : Word64) (f : Ct → Ct) : State :=
  onCore s (fun c => { c with ct := f { c.ct with
    pc := pc, stalled := false, fetched := none, minstret := if c.ct.mcountinhibit.getLsbD 2 then c.ct.minstret else c.ct.minstret + 1 } })

/-- The address behind an instruction of four bytes. -/
def nextPc (s : State) : Word64 := s.ct.pc + 4

/-- The control thread waits in its instruction: it is executed again at the thread's next turn (R376). -/
def stalls (s : State) : State := onCore s (fun c => { c with ct := { c.ct with stalled := true } })

/-- A trap of the current control thread (R144, R385): `cause` with bit 63 for an interrupt. -/
def Traps (s t : State) (cause tval : Word64) : Prop :=
  let a := s.ct
  let b := t.ct
  b.mepc = a.pc ∧ b.mcause = cause ∧ b.mtval = tval ∧ b.machine = true ∧
  b.pc = (a.mtvec &&& ~~~(3 : Word64)) + (if cause.msb && a.mtvec.getLsbD 0 then cause <<< 2 else (0 : Word64)) ∧
  b.mstatus.getLsbD 3 = false ∧ b.mstatus.getLsbD 7 = a.mstatus.getLsbD 3 ∧
  b.mstatus.getLsbD 11 = a.machine ∧ b.mstatus.getLsbD 12 = a.machine ∧
  (∀ i, i ≠ 3 → i ≠ 7 → i ≠ 11 → i ≠ 12 → b.mstatus.getLsbD i = a.mstatus.getLsbD i) ∧
  b.resv = none ∧ b.x = a.x ∧ b.f = a.f ∧ b.mie = a.mie ∧ b.mtvec = a.mtvec ∧ b.mscratch = a.mscratch ∧ b.minstret = a.minstret ∧
  b.fcsr = a.fcsr ∧ b.xbscope = a.xbscope

/-- The launched micro-threads that a mask names. -/
def launched (c : Core) (mask : Word64) : List Nat := (List.range c.info.n).filter (fun i => mask.getLsbD i)

/-- The trap of a page that an access does not reach (R41, R42): the RISC-V trap, with the further pages that the run-ahead of a fault of cause
INV has collected, at most eight, none twice and none the fault's own. -/
def PageTraps (s t : State) (cause va : Word64) (e : XCause) : Prop :=
  let l := t.ct.xbpf
  let page := fun (w : Word64) => w.toNat / 4096
  Traps s t cause va ∧ (e ≠ .inv → l = s.ct.xbpf) ∧
  (e = .inv → l.length ≤ 8 ∧ (l.map page).Nodup ∧ ∀ w ∈ l, w.toNat < 2 ^ 48 ∧ w.toNat % 4096 < 3 ∧ page w ≠ va.toNat / 4096 % 2 ^ 36)

/-- What an access of the current control thread may change beside the thread's own registers: lines move, and its page walks fill TLB and walk
cache, and log a CRIT leaf that did not agree (R27, R31). -/
def CtMoves (s t : State) : Prop :=
  (∃ u, MovesLines s u ∧ u.cv = s.cv ∧ t = { u with cores := t.cores, events := t.events } ∧ (∀ c, c ≠ s.curCore → t.core c = u.core c) ∧
    t.core s.curCore = { u.core s.curCore with
      tlb := (t.core s.curCore).tlb, walk := (t.core s.curCore).walk, torn := (t.core s.curCore).torn, ct := t.ct }) ∧
  ((s.core s.curCore).torn = false → t.events = s.events)

/-- A byte of memory as the control thread reads it: its own stores that have still to enter the L1 come first (R101, R106). -/
def ctByte (s : State) (pa : Nat) : Byte := (stagedByte s.ct.late.flatten none pa).getD (seenByte s s.curCore pa)

/-- What an AMO of the control thread writes, from the old value and its operand (R110). -/
def ctAmoWord {w : Nat} (op : RvAmo) (v y : BitVec w) : BitVec w :=
  match op with
  | .swap => y
  | .add => v + y
  | .xor => v ^^^ y
  | .and => v &&& y
  | .or => v ||| y
  | .min => if y.slt v then y else v
  | .max => if v.slt y then y else v
  | .minu => if y.ult v then y else v
  | .maxu => if v.ult y then y else v

/-- A control thread's bytes of memory: pieces of an access, with the number they form. -/
def PieceBytes (s t : State) (l : List (Nat × Nat × Nat × Xlat)) (v : Nat) : Prop :=
  Steady s t → ∀ p ∈ l, ∀ j, j < p.2.2.1 → Quiet s s.curCore (p.2.2.2.pa + j) → BitVec.ofNat 8 (v / 2 ^ (8 * (p.2.1 + j))) = ctByte s (p.2.2.2.pa + j)

/-- A piece of an access meets a poisoned granule of the core's L1 (R391). -/
def PiecePoisoned (s : State) (p : Nat × Nat × Nat × Xlat) : Prop :=
  let l := (s.core s.curCore).line (p.2.2.2.pa / 128)
  l.live = true ∧ l.poison.getLsbD (p.2.2.2.pa % 128 / 32) = true

/-- Every piece of an access lies in this device's memory. -/
def PiecesHome (s : State) (l : List (Nat × Nat × Nat × Xlat)) : Prop :=
  ∀ p ∈ l, p.2.2.2.dev = none ∧ windowOf s p.2.2.2.pa ≠ .device

/-- The registers of the control thread other than the pc, the counters and the reservation. -/
def SameCt (a b : Ct) : Prop := b = { a with
  pc := b.pc, minstret := b.minstret, stalled := b.stalled, fetched := b.fetched, resv := b.resv, x := b.x, f := b.f, mstatus := b.mstatus }

/-- An instruction of the control thread retires with an access: lines move, the pc goes on, and no register changes but those it writes. -/
def ThreadAccess (s t : State) (pc : Word64) : Prop := CtMoves s t ∧ t.ct.pc = pc ∧ SameCt s.ct t.ct

/-! ## Events -/

/-- An instruction fetch of a core: its L1 and the home slices may move lines, and no byte reads otherwise. -/
def FetchOnly (s t : State) (core : Nat) : Prop :=
  (∃ u, MovesLines s u ∧ t = { u with cores := t.cores } ∧ t.cv = s.cv ∧
    ∀ c, t.core c = { u.core c with ct := { (u.core c).ct with fetched := (t.core c).ct.fetched } } ∧
      (c ≠ core → (t.core c).ct.fetched = (s.core c).ct.fetched)) ∧
  SeesSame s t core

/-- Of a machine, one core alone has changed, and the reliability events it has logged have counted (R31, R395). -/
def OneCoreLogs (s t : State) (core : Nat) : Prop :=
  t = { s with cores := t.cores, rel := t.rel, events := t.events } ∧ ∀ o, o ≠ core → t.core o = s.core o

/-- Of a machine, one core alone has changed. -/
def OneCore (s t : State) (core : Nat) : Prop := t = { s with cores := t.cores } ∧ ∀ o, o ≠ core → t.core o = s.core o

/-- An engine's entry was refused: its core alone has changed, and a span lookup that the banks do not agree on has logged its event (R31). -/
def Refuses (s t : State) (core : Nat) : Prop := OneCoreLogs s t core ∧ (s.spanErr = [] → OneCore s t core)

/-- A micro-thread has entered the faulted state with a record (R147, R381): it goes on at the record's HEAD, its registers are as
before, and no other micro-thread of the core has changed. -/
def Faulted (s t : State) (core i : Nat) (ok : List Word64 → Prop) : Prop :=
  let m := (t.core core).mt i
  m.code = 4 ∧ ok m.record ∧ m.next = m.record.getD 1 0 ∧ m.regs = ((s.core core).mt i).regs ∧ m.parked = none ∧ m.retry = false ∧
    (∀ n, n ≠ i → (t.core core).mt n = (s.core core).mt n) ∧ ∀ o, o ≠ core → t.core o = s.core o

/-- Micro-thread `i` is ready, its core issues, and no request waits for it. -/
def Able (c : Core) (i : Nat) : Prop := mtReady c i = true ∧ c.issues i = true ∧ ∀ p ∈ c.pending, p.of i = false

/-- Micro-thread `j` is the one of its lane that can issue and did so the longest ago, those that never issued first, in ascending order;
nobody has yielded (R193). -/
def Turn (c : Core) (lane j : Nat) : Prop :=
  Able c j ∧ j % 8 = lane ∧ (∀ n, (c.mt n).yieldLeft = 0) ∧
    ∀ n, n ≠ j → n % 8 = lane → Able c n →
      if j ∈ c.recency then n ∈ c.recency ∧ c.recency.idxOf j < c.recency.idxOf n else n ∈ c.recency ∨ j < n

/-- The effects of a retiring convoy in its core, all together (R165): registers, talus, scratchpad, accumulator, tensor table. -/
def Commits (s t : State) : Prop :=
  let cv := s.cv
  let m := (s.core cv.core).mt cv.mt
  let m' := (t.core cv.core).mt cv.mt
  t = { s with cv := {}, cores := t.cores } ∧ (∀ o, o ≠ cv.core → t.core o = s.core o) ∧
    (∀ n, n ≠ cv.mt → (t.core cv.core).mt n = (s.core cv.core).mt n) ∧
    m'.regs = cv.work ∧ m'.talus = cv.talus ∧ m'.fifo = (if cv.took then m.fifo.drop 1 else m.fifo) ∧ m'.parked = none ∧
    (∀ o, tget 0 (t.core cv.core).scratch o = scrByte s o) ∧ (∀ n, tget 0 (t.core cv.core).acc n = seeAcc s n) ∧
    (∀ n : TName, tget {} (t.core cv.core).tens n.toNat = seeTens s n)

/-- The convoy in flight is at its retirement, in its one run, and holds no `brk`; its micro-thread's earlier stores are in the L1, and no delay
stands next (R106, R165, log 28, log 52). -/
def Retiring (s : State) : Prop :=
  s.cv.live = true ∧ s.cv.brkArmed = false ∧ s.cv.counted = true ∧ s.cv.trial = false ∧ ((s.core s.cv.core).mt s.cv.mt).late = [] ∧
    s.sched.head? ≠ some .delay

/-- Memory after what a retiring convoy did to it: its stores have entered the L1, its ranges are cleaned, its packets are on their way, in
this order (R78, R79, R102, R126). -/
def memoryOf (s : State) : State :=
  let cv := s.cv
  let a := commitStores { s with cv := {} } cv.core cv.mt cv.stores
  sendPackets (cv.cleans.foldl (fun u r => cleanRange u cv.core r.1 r.2.1 r.2.2) a) cv.core cv.vpk

/-- What a write at a home slice, and a fill of one, may change: lines move, and one core's page walks fill its TLB and walk cache. -/
def HomeMoves (s t : State) (core : Nat) : Prop :=
  ∃ u, MovesLines s u ∧ u.cv = s.cv ∧ t = { u with cores := t.cores, vrst := t.vrst } ∧ ∀ c, t.core c = { u.core c with
    tlb := if c = core then (t.core c).tlb else (u.core c).tlb, walk := if c = core then (t.core c).walk else (u.core c).walk }

/-- The number that `n` bytes at their homes form. -/
def homeNum (s : State) (pa n : Nat) : Nat := ((List.range n).map (fun j => (homeByte s (pa + j)).toNat * 2 ^ (8 * j))).sum

/-- Bytes of a number stand at their homes from a PA on, and every other byte of memory is as before. -/
def HomePut (s t : State) (pa n : Nat) (x : Nat) : Prop :=
  ∀ q, homeByte t q = if pa ≤ q ∧ q < pa + n then BitVec.ofNat 8 (x / 2 ^ (8 * (q - pa))) else homeByte s q

/-- A PA in one of the memory windows. -/
def InMem (s : State) (pa : Nat) : Prop := windowOf s pa ≠ .none ∧ windowOf s pa ≠ .device

/-- The leaf entry that the page tables hold for a VA, walked from the table of a level (R15, R18, R24). -/
def tableWalk (s : State) (va : Nat) : Nat → Nat → Option Nat
  | level, tab =>
    let e := homeNum s (tab + 8 * (va / 2 ^ (12 + 9 * level) % 512)) 8
    if windowOf s tab = .none ∨ windowOf s tab = .device ∨ e % 2 = 0 then none
    else if e / 2 % 2 = 1 then (if leafMalformed s e level then none else some e)
    else if tableMalformed e level then none
    else match level with
      | 0 => none
      | l + 1 => tableWalk s va l (e / 2 ^ 12 % 2 ^ 32 * 4096)

/-- An entry as it was enqueued (R340). -/
def Fresh (e : Entry) : Prop := e = { cmd := e.cmd, word := e.word, who := e.who, head := e.head, opnd := e.opnd }

/-- No store of a core's agents has still to enter its L1 (R106). -/
def NoLate (c : Core) : Prop := c.ct.late = [] ∧ ∀ i, (c.mt i).late = []

/-- A range that is no domain-global one: reserved bits set, or at an end a PA of this device that no memory has (R11). -/
def BadGlobal (s : State) (a n : Nat) : Prop :=
  a / 2 ^ 57 ≠ 0 ∨ a / 2 ^ 44 % 4 ≠ 0 ∨
    (a / 2 ^ 46 % 2 ^ 11 = s.devnum.toNat ∧ (¬ InMem s (a % 2 ^ 44) ∨ ¬ InMem s ((a + n - 1) % 2 ^ 44)))

/-- The entry at the head of a queue has started, and is as told. -/
def Ends (t : State) (core q : Nat) (ok : Entry → Prop) : Prop := ∃ e, running (t.core core) q = some e ∧ ok e

/-- The span translation of a byte that an engine of a core addresses. -/
def engLookup (s : State) (core : Nat) (need : Need) (a : Nat) : Except XCause Xlat := spanXlat s (dieOf core) (s.ctxOf core) a need

/-- A sum over the members of a collective, in ascending index: rounded to F32 at each add, into the format once at the end (R357). -/
def memberSum (f : Fmt) (l : List Nat) : Nat :=
  let acc := (l.drop 1).foldl (fun x y => (fmtF32.put (exAdd (fmtF32.read x) (f.read y) .rne).1 .rne 0).1) (fmtF32.put (f.read (l.headD 0)).exact .rne 0).1
  if f = fmtF32 then acc else (f.put (fmtF32.read acc).exact .rne 0).1

/-- Byte `k` of element `i` of a tensor in memory: where an entry's translated spans put it. -/
def elemAt (m : List (Nat × Xlat)) (t : TDesc) (i k : Nat) : Option Xlat := inSpans m ((BitVec.ofInt 64 (elemBit t false i / 8)).toNat + k)

/-- A tensor whose elements are whole bytes, and not none, lies on this device and below 2^48. -/
def TensorHome (m : List (Nat × Xlat)) (t : TDesc) : Prop :=
  t.width % 8 = 0 ∧ t.count ≠ 0 ∧ ∀ i k, i < t.count → k < t.width / 8 →
    (BitVec.ofInt 64 (elemBit t false i / 8)).toNat + k < 2 ^ 48 ∧ ∃ x, elemAt m t i k = some x ∧ x.dev = none

/-- The scratchpad byte where the bits from a bit address on begin. -/
def scrAt (s : State) (core : Nat) (b : Int) (k : Nat) : Byte := tget 0 (s.core core).scratch (b.toNat / 8 + k)

/-- Two elements of `w` bits at these bit addresses do not meet. -/
def Apart (w : Nat) (b c : Int) : Prop := b + w ≤ c ∨ c + w ≤ b

/-- The move the device makes next. -/
def Next (t : State) (h : Here) (i : Instr) : Prop := t.sched.head? = some (.event h i)

/-- A mailbox command that completes at once with a result, and does nothing else (R401). -/
def MailRefuses (s t : State) (result : BitVec 8) : Prop := t = { s with mbusy := false, mdone := false, mresult := result }

end Sys2Proof.Claims
end

