-- ==== Sys2Proof/Safety.lean ====
section
/-! DEFINITION. What a safe run is, and the canonical form of the tables that every step keeps. -/

namespace Sys2Proof

/-- A step that neither faults nor is refused. Every fault the spec describes is a next state of this machine, so a safe step
may well be one in which a micro-thread faults or a control thread traps. -/
def Safe (s : Machine.State) : Prop := ∃ t, Machine.step s = .next t

/-- A run of `n` safe steps. -/
def SafeFor : Nat → Machine.State → Prop
  | 0, _ => True
  | n + 1, s => ∃ t, Machine.step s = .next t ∧ SafeFor n t

/-- A micro-thread's talus bytes, and those of the convoy it waits with, stand in canonical form. -/
def MtTables (m : Machine.Mt) : Prop :=
  Machine.twf (0 : Byte) m.talus = true ∧ ∀ p, m.parked = some p → Machine.twf (0 : Byte) p.talus = true

/-- A core's micro-threads, scratchpad, accumulator and talus bytes stand in canonical form. -/
def CoreTables (c : Machine.Core) : Prop :=
  Machine.twf ({} : Machine.Mt) c.mts = true ∧ Machine.twf (0 : Byte) c.scratch = true ∧ Machine.twf (0 : Word32) c.acc = true ∧
    ∀ n, MtTables (c.mt n)

/-- Memory and the tables of cores and of home-slice lines stand in canonical form, and so do the tables of every core, of every saved image and of the
convoy in flight: equal contents are equal data. -/
def Tables (s : Machine.State) : Prop :=
  Machine.Memory.wf s.arrays = true ∧ Machine.twf ({} : Machine.Core) s.cores = true ∧
    Machine.twf ({} : Machine.SliceLine) s.slices = true ∧ Machine.twf (0 : Byte) s.cv.talus = true ∧
    (∀ c, CoreTables (s.core c)) ∧ ∀ v ∈ s.saved, ∀ p ∈ v.images, CoreTables p.2

end Sys2Proof
end

