-- ==== Sys2Proof/WellFormed.lean ====
section
/-! DEFINITION. Well-formed instructions: the operand limits of R203 and the limits that a word's fields carry (R206, R214 to R222). -/

namespace Sys2Proof

def kOk (k : KName) : Bool := decide (k.toNat < 24)
def qOk (q : QName) : Bool := decide (q.toNat < 6)

/-- Whether the decoder accepts the instruction's word. An operation without a word is well formed. -/
def wellFormed : Instr → Bool
  | .vshli _ _ _ sz i => decide (i.toNat < sz.bits)
  | .vshri _ _ _ sz i => decide (i.toNat < sz.bits)
  | .vsrai _ _ _ sz i => decide (i.toNat < sz.bits)
  | .vfcvtiInto _ d _ _ _ => d != 0 && d != 127
  | .vfcvtiOut _ _ a _ _ => a != 0 && a != 127
  | .kwhilelt _ d _ _ _ => kOk d
  | .kwhilele _ d _ _ _ => kOk d
  | .kcmp816 _ d _ _ _ _ => kOk d
  | .kcmp3264 _ d _ _ _ _ => kOk d
  | .kfcmp _ d _ _ _ _ => kOk d
  | .kand _ d a b => kOk d && kOk a && kOk b
  | .kor _ d a b => kOk d && kOk a && kOk b
  | .kxor _ d a b => kOk d && kOk a && kOk b
  | .kandn _ d a b => kOk d && kOk a && kOk b
  | .knot _ d a => kOk d && kOk a
  | .kmv _ d a => kOk d && kOk a
  | .kpop _ _ a => kOk a
  | .kfirst _ _ a => kOk a
  | .kset _ d _ => kOk d
  | .kld _ d _ => kOk d
  | .kst _ d _ => kOk d
  | .vshapeImm _ rows cols => decide ((rows.toNat + 1) * (cols.toNat + 1) ≤ 512)
  | .tcoll _ d _ => d != 0 && d != 63
  | .vrand _ _ _ xt => xt != .f32 && xt != .bf16 && xt != .f16
  | .vror _ _ _ xt => xt != .f32 && xt != .bf16 && xt != .f16
  | .fence _ _ el es ll ls => (el || es) && (ll || ls)
  | .rmul _ d _ b _ => d != 0 && b != d
  | .umul _ d _ b _ => d != 0 && b != d
  | .radd _ d _ b _ => d != 0 && b != d
  | .uadd _ d _ b _ => d != 0 && b != d
  | .rfma _ d a b _ => d != 0 && a != d && b != d
  | .ufma _ d a b _ => d != 0 && a != d && b != d
  | .rscale _ d _ _ _ => d != 0
  | .uscale _ d _ _ _ => d != 0
  | .rnarrow _ d _ rt => d != 0 && rt != .i8 && rt != .n8 && rt != .bf16
  | .unarrow _ d _ rt => d != 0 && rt != .i8 && rt != .n8 && rt != .bf16
  | .rshr _ d _ _ rt => d != 0 && rt != .f32 && rt != .bf16
  | .ushr _ d _ _ rt => d != 0 && rt != .f32 && rt != .bf16
  | .rlrelu _ d _ _ k => d != 0 && k != 0
  | .ulrelu _ d _ _ k => d != 0 && k != 0
  | .qfence _ set => set != 0
  | .qwait _ q _ => qOk q
  | .qcnt _ _ q => qOk q
  | .jal a _ => a != 0
  | .bk k _ _ => kOk k
  | .sread _ _ num => srAssigned num
  | .swrite _ _ num => srAssigned num
  | .poolq _ _ query => decide (query.toNat < 13)
  | .maskSelect _ k => kOk k
  | .rounding v mode => mode == .sto || v == 0
  | .saturateAndZeroing sgn zero sat => (sat || zero) && (!sgn || sat)
  | _ => true

/-- Whether the word of the instruction is one of the control thread's (R375, R192). -/
def ctSide : Instr → Bool
  | .mtBcast _ _ => true
  | .mtSend _ _ _ => true
  | .mtWait _ => true
  | .mtGet _ _ _ => true
  | .mtPut _ _ _ => true
  | .mtStop _ => true
  | .mtStat _ _ => true
  | .mtFlt _ _ _ => true
  | .mtLnk _ => true
  | .mtBar _ _ => true
  | .mtSync => true
  | .mtEng _ _ => true
  | .ecallEndPart => true
  | _ => false

end Sys2Proof
end

