-- ==== Sys2Proof/Certificates/Slice0/Obligations.lean ====
section
/-! DEFINITION. The obligations of the model: what the rules of the spec say that the machine does. -/

open Sys2Proof Sys2Proof.Machine Sys2Proof.Claims

/-! ## The vector integer family (R243 to R251) -/

/-- R246, R248: the two-source forms that take no saturation. Each completes, writes its operation's value to the active elements of
vd, raises no flag, and leaves every other register, memory and all else as it was (R243).

R245, R246: the saturating two-source forms. The exact result is kept to its low bits, or under SAT held within the signed or
unsigned range, raising SAT where it was not in range. -/
def Obligations.VectorIntegerBinaryForms : Prop :=
  (∀ (s : State) (c : Bool) (d a b : VName) (sz : Size), Clean s → sz.bits * s.cv.elems ≤ 4096 →
    let x := el (s.cv.rv a) sz.bits
    let y := el (s.cv.rv b) sz.bits
    let w := sz.bits
    Writes s (.vmulh c d a b sz) d w (fun n => (mulHigh (x n) (y n)).toNat) (fun _ => 0) ∧
    Writes s (.vmulhn c d a b sz) d w (fun n => (mulHighU (x n) (y n)).toNat) (fun _ => 0) ∧
    Writes s (.vmin c d a b sz) d w (fun n => (if (y n).slt (x n) then y n else x n).toNat) (fun _ => 0) ∧
    Writes s (.vmax c d a b sz) d w (fun n => (if (x n).slt (y n) then y n else x n).toNat) (fun _ => 0) ∧
    Writes s (.vminn c d a b sz) d w (fun n => (if (y n).ult (x n) then y n else x n).toNat) (fun _ => 0) ∧
    Writes s (.vmaxn c d a b sz) d w (fun n => (if (x n).ult (y n) then y n else x n).toNat) (fun _ => 0) ∧
    Writes s (.vand c d a b sz) d w (fun n => (x n &&& y n).toNat) (fun _ => 0) ∧
    Writes s (.vor c d a b sz) d w (fun n => (x n ||| y n).toNat) (fun _ => 0) ∧
    Writes s (.vxor c d a b sz) d w (fun n => (x n ^^^ y n).toNat) (fun _ => 0) ∧
    Writes s (.vandn c d a b sz) d w (fun n => (x n &&& ~~~(y n)).toNat) (fun _ => 0) ∧
    Writes s (.vshr c d a b sz) d w (fun n => (x n >>> (y n).toNat).toNat) (fun _ => 0) ∧
    Writes s (.vsra c d a b sz) d w (fun n => ((x n).sshiftRight (min (y n).toNat (w - 1))).toNat) (fun _ => 0) ∧
    Writes s (.vrot c d a b sz) d w (fun n => ((x n).rotateLeft ((y n).toNat % w)).toNat) (fun _ => 0) ∧
    Writes s (.vbext c d a b sz) d w (fun n => (x n).toNat / 2 ^ fieldPos w (y n) % 2 ^ fieldLen w (y n)) (fun _ => 0)) ∧
  (∀ (s : State) (c : Bool) (d a b : VName) (sz : Size), Clean s → sz.bits * s.cv.elems ≤ 4096 →
    let x := fun n => num s.cv.pfx (el (s.cv.rv a) sz.bits n)
    let y := fun n => num s.cv.pfx (el (s.cv.rv b) sz.bits n)
    let k := fun n => (el (s.cv.rv b) sz.bits n).toNat
    let w := sz.bits
    let p := s.cv.pfx
    Writes s (.vadd c d a b sz) d w (fun n => narrow p w (x n + y n)) (fun n => satFlag p w (x n + y n)) ∧
    Writes s (.vsub c d a b sz) d w (fun n => narrow p w (x n - y n)) (fun n => satFlag p w (x n - y n)) ∧
    Writes s (.vmul c d a b sz) d w (fun n => narrow p w (x n * y n)) (fun n => satFlag p w (x n * y n)) ∧
    Writes s (.vshl c d a b sz) d w (fun n => narrow p w (x n * 2 ^ k n)) (fun n => satFlag p w (x n * 2 ^ k n)))

/-- R245, R247, R248, R249: the one-source forms, the funnel shift and the field insert, which read vd as well, the copies of an
element's own index, and `vsel`, whose mask chooses a source and does not govern.

R206, R251: the immediate forms act as their register forms on the immediate's low bits. A count stays below the width. -/
def Obligations.VectorIntegerUnaryForms : Prop :=
  (∀ (s : State) (c : Bool) (d a b : VName) (sz : Size), Clean s → sz.bits * s.cv.elems ≤ 4096 →
    let x := el (s.cv.rv a) sz.bits
    let y := el (s.cv.rv b) sz.bits
    let z := el (s.cv.rv d) sz.bits
    let w := sz.bits
    let p := s.cv.pfx
    Writes s (.vabs c d a sz) d w (fun n => if p.sat && !p.sgn then (x n).toNat else narrow p w (x n).toInt.natAbs)
      (fun n => if p.sat && !p.sgn then 0 else satFlag p w (x n).toInt.natAbs) ∧
    Writes s (.vneg c d a sz) d w (fun n => narrow p w (0 - num p (x n))) (fun n => satFlag p w (0 - num p (x n))) ∧
    Writes s (.vclz c d a sz) d w (fun n => leading (x n)) (fun _ => 0) ∧
    Writes s (.vpopc c d a sz) d w (fun n => ones (x n)) (fun _ => 0) ∧
    Writes s (.vmv c d a sz) d w (fun n => (x n).toNat) (fun _ => 0) ∧
    Writes s (.vidx c d sz) d w (fun n => narrow p w n) (fun n => satFlag p w n) ∧
    Writes s (.vfsh c d a b sz) d w (fun n => ((x n ++ z n) >>> (y n).toNat).toNat % 2 ^ w) (fun _ => 0) ∧
    Writes s (.vbins c d a b sz) d w (fun n =>
      let m : BitVec w := BitVec.ofNat w ((2 ^ fieldLen w (y n) - 1) * 2 ^ fieldPos w (y n))
      ((z n &&& ~~~m) ||| ((x n <<< fieldPos w (y n)) &&& m)).toNat) (fun _ => 0) ∧
    (∃ t, exec (.vsel c d a b sz) s = .next t ∧ RegsOnly s t ∧
      (∀ n, el (t.cv.rv d) w n = if n < s.cv.elems then (if s.cv.gmask.getLsbD n then x n else y n) else z n) ∧
      (∀ n, n ≠ d → t.cv.rv n = s.cv.rv n) ∧ t.cv.work = { s.cv.work with v := t.cv.work.v })) ∧
  (∀ (s : State) (c : Bool) (d a : VName) (sz : Size) (i : BitVec 6), Clean s → sz.bits * s.cv.elems ≤ 4096 →
    let w := sz.bits
    let p := s.cv.pfx
    let x := el (s.cv.rv a) w
    let m : BitVec w := BitVec.ofInt w (imm6 p i)
    let k := cnt6 p i
    Writes s (.vaddi c d a sz i) d w (fun n => narrow p w (num p (x n) + num p m)) (fun n => satFlag p w (num p (x n) + num p m)) ∧
    Writes s (.vandi c d a sz i) d w (fun n => (x n &&& m).toNat) (fun _ => 0) ∧
    Writes s (.vori c d a sz i) d w (fun n => (x n ||| m).toNat) (fun _ => 0) ∧
    Writes s (.vxori c d a sz i) d w (fun n => (x n ^^^ m).toNat) (fun _ => 0) ∧
    Writes s (.vmvi c d sz i) d w (fun _ => m.toNat) (fun _ => 0) ∧
    (k < w →
      Writes s (.vshli c d a sz i) d w (fun n => narrow p w (num p (x n) * 2 ^ k)) (fun n => satFlag p w (num p (x n) * 2 ^ k)) ∧
      Writes s (.vshri c d a sz i) d w (fun n => (x n >>> k).toNat) (fun _ => 0) ∧
      Writes s (.vsrai c d a sz i) d w (fun n => ((x n).sshiftRight k).toNat) (fun _ => 0)))

/-- R250: an integer conversion keeps the exact value of each source element to the width of the destination, saturating; without a
second type it copies. A source below 8 bits stands in a packed string.

R269 to R271: a conversion gives each active element the source's value rounded into the destination's format; `vsrnd` rounds
stochastically with the bits of vb.

R274 to R276: `vfcvt.out` rounds each element's exact scaled value once. `vfcvt.into` writes two registers and no other, an inactive element
as 0, and leaves the elements above the shape, for every block format; which records and elements it writes is stated for the codes 20 to 24
alone, an element where its record is not 255. It counts on the free values by one for each element (log 7). -/
def Obligations.Conversions : Prop :=
  (∀ (s : State) (c : Bool) (d a : VName) (sz : Size) (f : NFmt), Clean s → sz.bits * s.cv.elems ≤ 4096 →
    let w := sz.bits
    let p := s.cv.pfx
    (p.ty = none → Writes s (.vcvt c d a sz) d w (fun n => (el (s.cv.rv a) w n).toNat) (fun _ => 0)) ∧
    (p.ty.isSome → vcvtSrc p.ty sz = some f →
      Writes s (.vcvt c d a sz) d w (fun n => narrow p w (f.toInt (elem (s.cv.rv a) f.width n)))
        (fun n => satFlag p w (f.toInt (elem (s.cv.rv a) f.width n))))) ∧
  ((∀ (s : State) (c : Bool) (d a b : VName) (ft : FType) (f : BitVec 4) (src dst : NFmt), Clean s → dst.width * s.cv.elems ≤ 4096 →
    let w := dst.width
    (vfcvtPair s.cv.pfx.ty f = some (src, dst) →
      WritesF s (.vfcvt c d a f) d w (fun n => convert src dst (elem (s.cv.rv a) src.width n) s.cv.mode (s.cv.rnd w n) s.cv.pfx.sat)) ∧
    (vsrndDst s.cv.pfx.ty ft = some dst →
      WritesF s (.vsrnd c d a b ft) d w (fun n =>
        convert (.flt (ftFmt ft)) dst (elem (s.cv.rv a) (ftBits ft) n) .sto (elem (s.cv.rv b) w n) s.cv.pfx.sat))) ∧
  (∀ (s : State) (c : Bool) (d a : VName) (t : TName) (ft : FType), Clean s → ftBits ft * s.cv.elems ≤ 4096 → s.cv.elems ≤ 512 →
    let code := (startDesc s t).fmt
    let w := ftBits ft
    let wb := codeWidth code
    let cols := s.cv.cols
    let blocks := (cols + 31) / 32
    WritesF s (.vfcvtiOut c d a t ft) d w (round1 s ft (fun n => unpackEl ⟨code, s.cv.rv (a + 1), cols⟩ (s.cv.rv a) s.cv.mode n)) ∧
    (∀ f, mxFmt code = some f →
      WritesF s (.vfcvtiOut c d a t ft) d w (round1 s ft (fun n =>
        ((scaled2 f (elem (s.cv.rv a) wb n) (elem (s.cv.rv (a + 1)) 8 (n / cols * blocks + n % cols / 32))).exact, 0)))) ∧
    (wb * s.cv.elems ≤ 4096 →
      ∃ u, exec (.vfcvtiInto c d a t ft) s = .next u ∧ u = { s with cv := u.cv, fresh := s.fresh + s.cv.elems } ∧
        u.cv = { s.cv with pfx := {}, member := s.cv.member + 1, chain := u.cv.chain, vmask := u.cv.vmask, work := u.cv.work,
                           hidden := s.cv.hide u.cv.work } ∧
        u.cv.work.g = s.cv.work.g ∧ u.cv.work.k = s.cv.work.k ∧
        (∀ n, n ≠ d → n ≠ d + 1 → u.cv.rv n = s.cv.rv n) ∧
        (∀ n, s.cv.elems ≤ n → elem (u.cv.rv d) wb n = elem (s.cv.rv d) wb n) ∧
        (∀ n, n < s.cv.elems → n ∉ act s → elem (u.cv.rv d) wb n = 0) ∧
        ∀ f, mxFmt code = some f →
          (∀ r b, r < s.cv.rows → b < blocks →
            elem (u.cv.rv (d + 1)) 8 (r * blocks + b) =
              chooseScale code (((act s).filter (fun n => n / cols = r ∧ n % cols / 32 = b)).map (fun n => flt ft (s.cv.rv a) n)) 0) ∧
          ∀ n ∈ act s,
            let e := elem (u.cv.rv (d + 1)) 8 (n / cols * blocks + n % cols / 32)
            let x := flt ft (s.cv.rv a) n
            e ≠ 255 → elem (u.cv.rv d) wb n = (putMax f (quot x (.fin false 1 (e - 127))) (isNeg x) s.cv.mode (s.cv.rnd wb n)).1)))

/-! ## The scalar family (R252, R253) -/

/-- R252, R253: each scalar form completes, writes its value to gd (g0 takes none), and changes nothing else. -/
def Obligations.ScalarForms : Prop :=
  ∀ (s : State) (c : Bool) (d a b : GName) (i : BitVec 11) (k : BitVec 6) (u : BitVec 17), Clean s →
    let x := s.cv.rg a
    let y := s.cv.rg b
    let ext (n : Nat) (v : BitVec n) : Int := match s.cv.pfx.ext with
      | none => v.toInt
      | some e => (e ++ v).toInt
    WritesG s (.gadd c d a b) d (x + y) ∧ WritesG s (.gsub c d a b) d (x - y) ∧ WritesG s (.gmul c d a b) d (x * y) ∧
    WritesG s (.gand c d a b) d (x &&& y) ∧ WritesG s (.gor c d a b) d (x ||| y) ∧ WritesG s (.gxor c d a b) d (x ^^^ y) ∧
    WritesG s (.gshl c d a b) d (x <<< (y.toNat % 64)) ∧ WritesG s (.gshr c d a b) d (x >>> (y.toNat % 64)) ∧
    WritesG s (.gsra c d a b) d (x.sshiftRight (y.toNat % 64)) ∧ WritesG s (.gmv c d a) d x ∧
    WritesG s (.gaddi c d a i) d (x + BitVec.ofInt 64 (ext 11 i)) ∧ WritesG s (.gandi c d a i) d (x &&& BitVec.ofInt 64 (ext 11 i)) ∧
    (cnt6 s.cv.pfx k < 64 → WritesG s (.gshli c d a k) d (x <<< cnt6 s.cv.pfx k)) ∧
    WritesG s (.glui c d u) d (BitVec.ofInt 64 (ext 17 u * 4096))

/-! ## Masks, shape and loop control (R254 to R262) -/

/-- R254: an integer comparison writes its mask register and nothing else.

R255: a float comparison is false for a NaN but under `un`, and raises NV for a signalling NaN, and for any NaN under lt and le. -/
def Obligations.Compares : Prop :=
  (∀ (s : State) (c : Bool) (d : KName) (a b : VName) (cond : ICond) (wide : Bool), Clean s →
    (∃ m, WritesK s (.kcmp816 c d a b cond wide) d m ∧
      TestBits s (s.cv.rk d) m (fun n => if wide then holds cond (el (s.cv.rv a) 16 n) (el (s.cv.rv b) 16 n)
        else holds cond (el (s.cv.rv a) 8 n) (el (s.cv.rv b) 8 n))) ∧
    (∃ m, WritesK s (.kcmp3264 c d a b cond wide) d m ∧
      TestBits s (s.cv.rk d) m (fun n => if wide then holds cond (el (s.cv.rv a) 64 n) (el (s.cv.rv b) 64 n)
        else holds cond (el (s.cv.rv a) 32 n) (el (s.cv.rv b) 32 n)))) ∧
  (∀ (s : State) (c : Bool) (d : KName) (a b : VName) (cond : FCond) (ft : FType), Clean s →
    let x := flt ft (s.cv.rv a)
    let y := flt ft (s.cv.rv b)
    let nan := fun n => isNan (x n) || isNan (y n)
    let invalid : Nat → Bool := fun n => match cond with
      | .lt => nan n
      | .le => nan n
      | _ => x n == .nan true || y n == .nan true
    ∃ t, exec (.kfcmp c d a b cond ft) s = .next t ∧ RegsOnly s t ∧
      TestBits s (s.cv.rk d) (t.cv.rk d) (fun n => match cond with
        | .un => nan n
        | .eq => !nan n && fEqual (x n) (y n)
        | .lt => !nan n && fLess false (x n) (y n)
        | .le => !nan n && (fLess false (x n) (y n) || fEqual (x n) (y n))) ∧
      (∀ k, k ≠ d → t.cv.rk k = s.cv.rk k) ∧
      t.cv.work = { s.cv.work.raise (hitsOf s (fun n => if invalid n then fNV else 0)) with k := t.cv.work.k } ∧
      t.cv.chain = s.cv.chain ∧ t.cv.vmask = s.cv.vmask)

/-- R256: the forms on whole mask registers, and the two that read a mask into a g register.

R258, R259: a loop mask has bit i set exactly where i is below E and ga + i is below the limit, compared without wrapping, and
GRC counts its bits: min(E, max(0, limit − ga)). -/
def Obligations.MaskForms : Prop :=
  (∀ (s : State) (c : Bool) (d a b : KName) (g : GName), Clean s →
    let x := s.cv.rk a
    let y := s.cv.rk b
    WritesK s (.kand c d a b) d (x &&& y) ∧ WritesK s (.kor c d a b) d (x ||| y) ∧ WritesK s (.kxor c d a b) d (x ^^^ y) ∧
    WritesK s (.kandn c d a b) d (x &&& ~~~y) ∧ WritesK s (.knot c d a) d (~~~x) ∧ WritesK s (.kmv c d a) d x ∧
    WritesK s (.kset c d g) d ((s.cv.rg g).setWidth 512) ∧
    WritesG s (.kpop c g a) g (BitVec.ofNat 64 (ones x)) ∧ WritesG s (.kfirst c g a) g (lowest x)) ∧
  (∀ (s : State) (c : Bool) (d : KName) (a b : GName) (sz : Size), Clean s → s.cv.elems ≤ 512 →
    let lo := (s.cv.rg a).toInt
    let hi := (s.cv.rg b).toInt
    let loops := fun (t : State) (hi : Int) => RegsOnly s t ∧
      (∀ n, n < 512 → (t.cv.rk d).getLsbD n = (decide (n < s.cv.elems) && decide (lo + (n : Int) < hi))) ∧
      t.cv.work.grc = BitVec.ofNat 32 (min (s.cv.elems : Int) (max 0 (hi - lo))).toNat ∧
      (∀ k, k ≠ d → t.cv.rk k = s.cv.rk k) ∧
      t.cv.work = { s.cv.work with k := t.cv.work.k, grc := t.cv.work.grc } ∧ t.cv.chain = s.cv.chain ∧ t.cv.vmask = s.cv.vmask
    (∃ t, exec (.kwhilelt c d a b sz) s = .next t ∧ loops t hi) ∧ ∃ t, exec (.kwhilele c d a b sz) s = .next t ∧ loops t (hi + 1))

/-- R211, R261: `vshape` writes SHP with rows and columns and leaves the shape in force for its own convoy; a shape from g registers
outside 1 to 128, or above 512 elements, is a shape fault of the convoy and leaves SHP.

R260: `gsubbr` writes ga − GRC and branches exactly where the value written is positive; with g0 it never branches. It is a control member
and ends its convoy, and a register number of 64 or above is cause REG. -/
def Obligations.ShapeFormsAndCountedBranch : Prop :=
  (∀ (s : State) (c : Bool) (r k : BitVec 7) (a b : GName), Clean s →
    let rows := (s.cv.rg a).toNat
    let cols := (s.cv.rg b).toNat
    (∃ t, exec (.vshapeImm c r k) s = .next t ∧ RegsOnly s t ∧ t.cv.shp = s.cv.shp ∧
      t.cv.work = { s.cv.work with shp := BitVec.ofNat 32 (r.toNat * 256 + k.toNat) }) ∧
    (1 ≤ rows → rows ≤ 128 → 1 ≤ cols → cols ≤ 128 → rows * cols ≤ 512 →
      ∃ t, exec (.vshapeReg c a b) s = .next t ∧ RegsOnly s t ∧ t.cv.shp = s.cv.shp ∧
        shpRows t.cv.work.shp = rows ∧ shpCols t.cv.work.shp = cols ∧ t.cv.work = { s.cv.work with shp := t.cv.work.shp }) ∧
    (rows = 0 ∨ 128 < rows ∨ cols = 0 ∨ 128 < cols ∨ 512 < rows * cols →
      ∃ t rec_, exec (.vshapeReg c a b) s = .next t ∧ t.cv.cands = s.cv.cands ++ [(2, rec_)] ∧ t.cv.work = s.cv.work ∧
        (rec_.getD 0 0).toNat / 2 ^ 56 = kSHAPE)) ∧
  (∀ (s : State) (a : GName) (disp : BitVec 18), Clean s →
    let x := if a = 0 then 0 else s.cv.rg a - s.cv.work.grc.setWidth 64
    ∃ t, exec (.gsubbr a disp) s = .next t ∧ ConvoyOnly s t ∧
      (∀ n, t.cv.rg n = if n = 0 then 0 else if n = a then x else s.cv.rg n) ∧
      t.cv.ctl = (if BitVec.slt 0 x then .jump (target s disp) s.cv.word else s.cv.ctl) ∧
      t.cv = { s.cv with pfx := {}, member := s.cv.member + 1, work := { s.cv.work with g := t.cv.work.g }, ctl := t.cv.ctl }) ∧
  (∀ (tens : Tab TDesc) (p : Pfx) (a : GName) (disp : BitVec 18),
    (info tens p (.gsubbr a disp)).pipe = .ctl ∧ (info tens p (.gsubbr a disp)).ending = true ∧
    decodeMt (0#1 ++ 0x1D#6 ++ 0#1 ++ a ++ disp) = .ok (.gsubbr a disp) ∧ decodeMt (0#1 ++ 0x1D#6 ++ 1#1 ++ a ++ disp) = .error .reg)

/-- R346, R347: `tdef` reads four words, aligned to 32 bytes; a well-formed descriptor is what later members see under its name, a
malformed one is kind 12 and leaves the name; `tget` reads one word of a descriptor.

R262: `tcoll` merges dimensions 0 to m, for the largest m for which they are dense: gd takes the product of their lengths, g(d+1)
that of the remaining ones, and the descriptor, as later members see it, has rank r − m, the granted length as its first dimension
and the remaining ones behind it. A descriptor of rank 0 gives 0 in both and stays. -/
def Obligations.DescriptorForms : Prop :=
  (∀ (s : State) (c : Bool) (t : TName) (d a : GName) (k : BitVec 2) (x : TDesc), Clean s → Coherent s s.cv.core →
    let va := (s.cv.rg a).toNat
    let words := fun (e : TDesc) => match k with
      | 0 => e.w0
      | 1 => e.w1
      | 2 => e.w2
      | _ => e.w3
    WritesG s (.tget c d t k) d (words (seeTens s t)) ∧
    (va % 32 ≠ 0 → Finds s (.tdef c t a) 3 (fun r => kindOf r = 7)) ∧
    (va % 32 = 0 → Reaches s { r := true } [0] 32 (fun _ => some va) → AtHome s { r := true } [0] 32 (fun _ => some va) →
      (∀ j y, j < 32 → lookup s { r := true } (va + j) = .ok y → Quiet s s.cv.core y.pa ∧
        BitVec.ofNat 8 ((x.w0.toNat + x.w1.toNat * 2 ^ 64 + x.w2.toNat * 2 ^ 128 + x.w3.toNat * 2 ^ 192) / 2 ^ (8 * j)) = readByte s y.pa) →
      ∃ u, exec (.tdef c t a) s = .next u ∧ ReadsOnly s u ∧
        u.cv = { s.cv with pfx := {}, member := s.cv.member + 1, tens := u.cv.tens, cands := u.cv.cands, reads := u.cv.reads } ∧ Keeps s u ∧
        (s.cv.final = false → Steady s u → x.malformed = false → seeTens u t = x ∧ (∀ v, v ≠ t → seeTens u v = seeTens s v) ∧
          (NoPoison s → sttOn s = false → u.cv.cands = s.cv.cands)) ∧
        (s.cv.final = false → Steady s u → x.malformed = true → u.cv.tens = s.cv.tens ∧ ∃ r l, u.cv.cands = l ++ [(8, r)] ∧ kindOf r = 12 ∧ r.getD 2 0 = s.cv.rg a))) ∧
  (∀ (s : State) (c : Bool) (d : GName) (t : TName) (m : Nat), Clean s → d ≠ 0 → d ≠ 63 →
    let x := seeTens s t
    let prod := fun j k => ((List.range k).map (fun i => x.dim (j + i))).prod
    let dense := fun j => x.stride 0 = 1 ∧ (∀ k, k < j → x.stride (k + 1) = x.stride k * x.dim k) ∧ prod 0 (j + 1) < 2 ^ 48
    (x.rank = 0 → ∃ u, exec (.tcoll c d t) s = .next u ∧ u.cv.rg d = 0 ∧ u.cv.rg (d + 1) = 0 ∧ seeTens u t = x) ∧
    (1 ≤ x.rank → x.rank ≤ 5 → m < x.rank →
      (x.isScaled ∨ x.stride 0 ≠ 1 → m = 0) →
      (¬ x.isScaled → x.stride 0 = 1 → dense m ∧ ∀ j, m < j → j < x.rank → ¬ dense j) →
      ∃ u, exec (.tcoll c d t) s = .next u ∧
        u.cv.rg d = BitVec.ofNat 64 (prod 0 (m + 1)) ∧ u.cv.rg (d + 1) = BitVec.ofNat 64 (prod (m + 1) (x.rank - 1 - m)) ∧
        (∀ n, n ≠ 0 → n ≠ d → n ≠ d + 1 → u.cv.rg n = s.cv.rg n) ∧
        (seeTens u t).rank = x.rank - m ∧ (seeTens u t).dim 0 = prod 0 (m + 1) ∧
        (∀ j, j + m + 1 < x.rank → (seeTens u t).dim (j + 1) = x.dim (j + m + 1)) ∧
        (seeTens u t).stride 0 = x.stride 0 ∧ (seeTens u t).fmt = x.fmt ∧ (seeTens u t).base = x.base ∧
        (∀ v, v ≠ t → seeTens u v = seeTens s v)))

/-! ## Floating point (R263 to R271) -/

/-- R264: each arithmetic form rounds its exact result once; −(a × b) − c and the like negate exactly before.

R265 to R267: the one-source float forms, the sign copy and the class word. -/
def Obligations.FloatArithmetic : Prop :=
  (∀ (s : State) (c : Bool) (d a b : VName) (ft : FType), Clean s → ftBits ft * s.cv.elems ≤ 4096 →
    let x := flt ft (s.cv.rv a)
    let y := flt ft (s.cv.rv b)
    let z := flt ft (s.cv.rv d)
    let m := s.cv.mode
    let w := ftBits ft
    WritesF s (.vfadd c d a b ft) d w (round1 s ft (fun n => exAdd (x n) (y n) m)) ∧
    WritesF s (.vfsub c d a b ft) d w (round1 s ft (fun n => exAdd (x n) (y n).neg m)) ∧
    WritesF s (.vfmul c d a b ft) d w (round1 s ft (fun n => exMul (x n) (y n))) ∧
    WritesF s (.vfdiv c d a b ft) d w (round1 s ft (fun n => exDiv (x n) (y n))) ∧
    WritesF s (.vfma c d a b ft) d w (round1 s ft (fun n => exFma (x n) (y n) (z n) m)) ∧
    WritesF s (.vfms c d a b ft) d w (round1 s ft (fun n => exFma (x n) (y n) (z n).neg m)) ∧
    WritesF s (.vfnma c d a b ft) d w (round1 s ft (fun n => exFma (x n).neg (y n) (z n).neg m)) ∧
    WritesF s (.vfnms c d a b ft) d w (round1 s ft (fun n => exFma (x n).neg (y n) (z n) m)) ∧
    WritesF s (.vfmin c d a b ft) d w (round1 s ft (fun n => exMinMax false (x n) (y n))) ∧
    WritesF s (.vfmax c d a b ft) d w (round1 s ft (fun n => exMinMax true (x n) (y n))) ∧
    WritesF s (.vfscale c d a b ft) d w (round1 s ft (fun n => exScale (x n) (el (s.cv.rv b) w n).toInt))) ∧
  (∀ (s : State) (c : Bool) (d a b : VName) (ft : FType), Clean s → ftBits ft * s.cv.elems ≤ 4096 →
    let x := flt ft (s.cv.rv a)
    let w := ftBits ft
    let u := el (s.cv.rv a) w
    let v := el (s.cv.rv b) w
    let top : BitVec w := BitVec.twoPow w (w - 1)
    WritesF s (.vfabs c d a ft) d w (round1 s ft (fun n => ((x n).abs.exact, sigNV [x n]))) ∧
    WritesF s (.vfneg c d a ft) d w (round1 s ft (fun n => ((x n).neg.exact, sigNV [x n]))) ∧
    WritesF s (.vfsgn c d a b ft) d w (fun n => (if isNan (x n) then (ftFmt ft).qnan else ((u n &&& ~~~top) ||| (v n &&& top)).toNat,
      sigNV [x n, flt ft (s.cv.rv b) n])) ∧
    WritesF s (.vfsqrt c d a ft) d w (round1 s ft (fun n => exSqrt (x n))) ∧
    WritesF s (.vfrcp c d a ft) d w (round1 s ft (fun n => exRcp (x n))) ∧
    WritesF s (.vfrsq c d a ft) d w (round1 s ft (fun n => exRsq (x n))) ∧
    WritesF s (.vfexp2 c d a ft) d w (round1 s ft (fun n => exExp2 (x n))) ∧
    WritesF s (.vflog2 c d a ft) d w (round1 s ft (fun n => exLog2 (x n))) ∧
    WritesF s (.vftanh c d a ft) d w (round1 s ft (fun n => exTanh (x n))) ∧
    WritesF s (.vfsigm c d a ft) d w (round1 s ft (fun n => exSigm (x n))) ∧
    WritesF s (.vfcls c d a ft) d w (fun n => (classOf (ftFmt ft) (u n).toNat, sigNV [x n])))

/-- R225, R232 to R235: rounding a value that the format holds gives back its own encoding in every mode and raises nothing. -/
def Obligations.RoundingKeepsValues : Prop :=
  ∀ (f : Fmt) (x : Nat) (rm : RMode) (u : Nat), f ∈ [fmtF32, fmtBF16, fmtF16, fmtE4M3, fmtE5M2, fmtE3M2, fmtE2M3, fmtE2M1, fmtF64] →
    x < 2 ^ f.width → isNan (f.read x) = false → f.put (f.read x).exact rm u = (x, 0)

/-! ## Cross-lane and links (R283 to R291) -/

/-- R283 to R287: the moves. A source position at or above E reads as 0.

R290, R291: `vlsnd` holds the whole register, whatever the shape and the masks, for the next micro-thread; `vlrcv` writes the
whole register from the oldest entry, or zero with FST.LNK where there is none. -/
def Obligations.CrossLaneMoves : Prop :=
  (∀ (s : State) (c : Bool) (d a b : VName) (g : GName) (sz : Size) (xt : XType), Clean s → sz.bits * s.cv.elems ≤ 4096 →
    let w := sz.bits
    let e := s.cv.elems
    let at_ := fun (x : VReg) (j : Nat) => if j < e then elem x w j else 0
    let x := s.cv.rv a
    let y := s.cv.rv b
    let k := (s.cv.rg g).toNat
    let r := s.cv.rows
    let q := s.cv.cols
    let h := (e + 1) / 2
    Writes s (.vperm c d a b sz) d w (fun n => at_ x (elem y w n)) (fun _ => 0) ∧
    Writes s (.vslup c d a g sz) d w (fun n => if k ≤ n then at_ x (n - k) else 0) (fun _ => 0) ∧
    Writes s (.vsldn c d a g sz) d w (fun n => at_ x (n + k)) (fun _ => 0) ∧
    Writes s (.vbcast c d a g sz) d w (fun _ => at_ x k) (fun _ => 0) ∧
    Writes s (.vtrans c d a sz) d w (fun n => at_ x (n % r * q + n / r)) (fun _ => 0) ∧
    Writes s (.vzip c d a b sz) d w (fun n => elem (if n % 2 = 0 then x else y) w (n / 2)) (fun _ => 0) ∧
    Writes s (.vunzip c d a sz) d w (fun n => at_ x (if n < h then 2 * n else 2 * (n - h) + 1)) (fun _ => 0) ∧
    (xtBits xt * e ≤ 4096 → Writes s (.vexpd c d a xt) d (xtBits xt) (fun n => elem x (xtBits xt)
      ((List.range n).filter (fun j => decide (j < e) && s.cv.gmask.getLsbD j)).length) (fun _ => 0)) ∧
    (∃ t, exec (.vcomp c d a sz) s = .next t ∧ RegsOnly s t ∧
      (∀ n, elem (t.cv.rv d) w n = if n < e then ((actives s x w)[n]?.elim 0 (fun v => v.toNat)) else elem (s.cv.rv d) w n) ∧
      (∀ n, n ≠ d → t.cv.rv n = s.cv.rv n) ∧ t.cv.work = { s.cv.work with v := t.cv.work.v })) ∧
  (∀ (s : State) (c : Bool) (d a : VName), Clean s →
    (∃ t, exec (.vlsnd c a) s = .next t ∧ t = { s with cv := { s.cv with send := some ⟨s.cv.rv a, 0⟩, pfx := {}, member := s.cv.member + 1 } }) ∧
    (∀ v l, s.cv.fifo = ⟨v, 0⟩ :: l → ∃ t, exec (.vlrcv c d) s = .next t ∧ ConvoyOnly s t ∧ t.cv.rv d = v ∧ t.cv.fifo = l ∧
      (∀ n, n ≠ d → t.cv.rv n = s.cv.rv n) ∧ t.cv.work = { s.cv.work with v := t.cv.work.v }) ∧
    (s.cv.fifo = [] → ∃ t, exec (.vlrcv c d) s = .next t ∧ ConvoyOnly s t ∧ t.cv.rv d = 0 ∧
      (∀ n, n ≠ d → t.cv.rv n = s.cv.rv n) ∧ t.cv.work = { s.cv.work with v := t.cv.work.v, fst := s.cv.work.fst ||| 64 }))

/-- R239, R288: the integer reductions give the sum modulo 2^w, the greatest and the least, the AND and the OR of the active
elements, and the empty value where none is active. The tree's shape does not show in them.

R289: an integer scan gives at each active position the sum modulo 2^w of the active elements up to it.

R239, R288, R289: a float reduction folds its active elements by the fixed tree, each sum rounded to F32 and the result once to the element type,
and raises at element 0 what its steps raise; a scan rounds its carry to F32 at each active element and writes it in the element type. With no
active element the empty value is written, or the elements stay, and nothing is raised. -/
def Obligations.Reductions : Prop :=
  (∀ (s : State) (c : Bool) (d a : VName) (xt : XType), Clean s → xtFlt xt = false → xtBits xt * s.cv.elems ≤ 4096 → s.cv.elems ≤ 512 →
    let w := xtBits xt
    let l := actives s (s.cv.rv a) w
    let sg := xtSigned xt
    let lo : BitVec w := if sg then BitVec.intMin w else 0
    let hi : BitVec w := if sg then BitVec.intMax w else BitVec.allOnes w
    let less := fun (x y : BitVec w) => if sg then x.slt y else x.ult y
    WritesFirst s (.vrsum c d a xt) d w (l.foldr (· + ·) 0).toNat 0 ∧
    WritesFirst s (.vrmax c d a xt) d w (l.foldr (fun x y => if less x y then y else x) lo).toNat 0 ∧
    WritesFirst s (.vrmin c d a xt) d w (l.foldr (fun x y => if less y x then y else x) hi).toNat 0 ∧
    WritesFirst s (.vrand c d a xt) d w (l.foldr (· &&& ·) (BitVec.allOnes w)).toNat 0 ∧
    WritesFirst s (.vror c d a xt) d w (l.foldr (· ||| ·) 0).toNat 0) ∧
  (∀ (s : State) (c : Bool) (d a : VName) (xt : XType), Clean s → xtFlt xt = false → xtBits xt * s.cv.elems ≤ 4096 →
    let w := xtBits xt
    Writes s (.vscan c d a xt) d w (fun n =>
      ((((List.range (n + 1)).filter (fun j => s.cv.gmask.getLsbD j)).map (fun j => el (s.cv.rv a) w j)).foldl (· + ·) 0).toNat) (fun _ => 0)) ∧
  (∀ (s : State) (c : Bool) (d a : VName) (xt : XType), Clean s → xtFlt xt = true → xtBits xt * s.cv.elems ≤ 4096 →
    (∀ n, n < s.cv.elems → s.cv.gmask.getLsbD n = false) →
    WritesFirst s (.vrsum c d a xt) d (xtBits xt) 0 0 ∧
    WritesFirst s (.vrmax c d a xt) d (xtBits xt) ((xtFmt xt).infBits true) 0 ∧
    WritesFirst s (.vrmin c d a xt) d (xtBits xt) ((xtFmt xt).infBits false) 0 ∧
    Writes s (.vscan c d a xt) d (xtBits xt) (fun _ => 0) (fun _ => 0)) ∧
  (∀ (s : State) (c : Bool) (d a : VName) (xt : XType), Clean s → xtFlt xt = true → xtBits xt * s.cv.elems ≤ 4096 → s.cv.elems ≤ 512 →
    let w := xtBits xt
    let f := xtFmt xt
    let m := s.cv.mode
    let u := s.cv.rnd w 0
    let x := fun i => f.read (elem (s.cv.rv a) w i)
    let leaf := fun i => if i < s.cv.elems ∧ s.cv.gmask.getLsbD i = true then some (fltLeaf (x i)) else none
    (∀ r, treeNode (fltSum m u) leaf 9 0 = some r → WritesFirst s (.vrsum c d a xt) d w (fltOut f m u r).1 (fltOut f m u r).2) ∧
    (∀ r, treeNode (fltBest true) leaf 9 0 = some r → WritesFirst s (.vrmax c d a xt) d w (fltOut f .rne 0 r).1 (fltOut f .rne 0 r).2) ∧
    (∀ r, treeNode (fltBest false) leaf 9 0 = some r → WritesFirst s (.vrmin c d a xt) d w (fltOut f .rne 0 r).1 (fltOut f .rne 0 r).2) ∧
    WritesF s (.vscan c d a xt) d w (fun n => match fltCarry s w x n with
      | some v => fltOut f m (s.cv.rnd w n) v
      | none => (0, 0)))

/-! ## Vector and tensor memory (R257, R294 to R302) -/

/-- R294 to R296, R299: the plain, strided, indexed and row-atomic loads, once every byte translates; a row that is read must lie in
one 128-byte line.

R257: a mask load takes eight 64-bit elements, whatever the shape and the masks, and writes the whole register.

A convoy that runs twice reads memory in its first run alone: a load of the second takes the next value that the first has kept, under the
stores of its convoy (log 28). -/
def Obligations.VectorLoads : Prop :=
  (∀ (s : State) (c : Bool) (d x : VName) (a b : GName) (sz : Size) (off : BitVec 8), Clean s → sz.bits * s.cv.elems ≤ 4096 →
    Coherent s s.cv.core →
    let n := sz.bits / 8
    let run := fun (i : Instr) (addr : Nat → Option Nat) =>
      Reaches s { r := true } (act s) n addr → Loads s i d sz.bits addr
    let whole := ∀ e ∈ act s, ∀ p, unitAddr s a off n (e / s.cv.cols * s.cv.cols) = some p →
      p / 128 = (p + s.cv.cols * n - 1) / 128
    run (.vld c d a sz off) (unitAddr s a off n) ∧
    run (.vlds c d a b sz) (strideAddr s a b n) ∧
    run (.vldx c d a x sz) (indexAddr s a x n) ∧
    (whole → run (.vldra c d a sz off) (unitAddr s a off n)) ∧
    (¬ whole → Finds s (.vldra c d a sz off) 3 (fun r => kindOf r = 8))) ∧
  (∀ (s : State) (c : Bool) (d : KName) (a : GName), Clean s → Coherent s s.cv.core →
    Reaches s { r := true } (List.range 8) 8 (plainAddr s a 8) →
    ∃ t, exec (.kld c d a) s = .next t ∧ ReadsOnly s t ∧
      t.cv = { s.cv with pfx := {}, member := s.cv.member + 1, cands := t.cv.cands, reads := t.cv.reads
                         work := { s.cv.work with k := t.cv.work.k } } ∧ Keeps s t ∧
      (s.cv.final = false → ∀ m, m < 8 → ∀ p, plainAddr s a 8 m = some p →
        HoldsBytes s t { r := true } 8 p ((t.cv.rk d).toNat / 2 ^ (64 * m) % 2 ^ 64)) ∧
      (∀ k, k ≠ d → t.cv.rk k = s.cv.rk k) ∧
      (AtHome s { r := true } (List.range 8) 8 (plainAddr s a 8) → NoPoison s → sttOn s = false → t.cv.cands = s.cv.cands)) ∧
  (∀ (s : State) (x : Xlat) (n i va : Nat) (t : Tally) (v : Nat × Nat) (l : List (Nat × Nat)), s.cv.final = true → s.cv.reads = v :: l →
    cvLoad s x n t i va = (overlay s.staged x.dev x.pa n v.2, t, { s with cv := { s.cv with reads := l } }))

/-- R102, R103, R257, R296: the stores stage their bytes, and leave every register and all of memory as it was.

R38: an element that does not translate makes the whole access a span fault of its convoy; EMASK names exactly the elements
refused, ACC the kind of access, and nothing else changes. -/
def Obligations.VectorStoresAndRefusals : Prop :=
  (∀ (s : State) (c : Bool) (d x : VName) (k : KName) (a b : GName) (sz : Size) (off : BitVec 8), Clean s →
    let n := sz.bits / 8
    let run := fun (i : Instr) (addr : Nat → Option Nat) =>
      Reaches s { w := true } (act s) n addr → Stages s i (act s) n addr (elem (s.cv.rv d) sz.bits)
    run (.vst c d a sz off) (unitAddr s a off n) ∧
    run (.vsts c d a b sz) (strideAddr s a b n) ∧
    run (.vstx c d a x sz) (indexAddr s a x n) ∧
    (Reaches s { w := true } (List.range 8) 8 (plainAddr s a 8) →
      Stages s (.kst c k a) (List.range 8) 8 (plainAddr s a 8) (fun m => (s.cv.rk k).toNat / 2 ^ (64 * m) % 2 ^ 64))) ∧
  (∀ (s : State) (c : Bool) (d x : VName) (k : KName) (a b : GName) (sz : Size) (off : BitVec 8), Clean s → s.cv.elems ≤ 512 →
    let n := sz.bits / 8
    let refused := fun (need : Need) (bytes : Nat) (addr : Nat → Option Nat) (e : Nat) =>
      ∃ p j, addr e = some p ∧ j < bytes ∧ ∀ y, lookup s need (p + j) ≠ .ok y
    let run := fun (i : Instr) (need : Need) (ns : List Nat) (bytes acc : Nat) (addr : Nat → Option Nat) =>
      (∃ e ∈ ns, refused need bytes addr e) →
      Finds s i 5 (fun r => kindOf r = 3 ∧ (r.getD 2 0).toNat / 2 ^ 30 % 4 = acc ∧
        ∀ e, e < 512 → ((r.getD (4 + e / 64) 0).getLsbD (e % 64) = true ↔ e ∈ ns ∧ refused need bytes addr e))
    run (.vld c d a sz off) { r := true } (act s) n 0 (unitAddr s a off n) ∧
    run (.vlds c d a b sz) { r := true } (act s) n 0 (strideAddr s a b n) ∧
    run (.vldx c d a x sz) { r := true } (act s) n 0 (indexAddr s a x n) ∧
    run (.vst c d a sz off) { w := true } (act s) n 1 (unitAddr s a off n) ∧
    run (.vsts c d a b sz) { w := true } (act s) n 1 (strideAddr s a b n) ∧
    run (.vstx c d a x sz) { w := true } (act s) n 1 (indexAddr s a x n) ∧
    run (.kld c k a) { r := true } (List.range 8) 8 0 (plainAddr s a 8) ∧
    run (.kst c k a) { w := true } (List.range 8) 8 1 (plainAddr s a 8))

/-- R297: `vldff` loads up to the first element, after the first active one, that would fault or lies in an NS span, and FFI says
where it stopped; elements from there on stay, even under ZERO. Without an active element only FFI is written. A lookup at the end that the
banks do not agree on logs its event (R31). In the second run of a convoy that runs twice it stops where the first run has stopped (log 28). -/
def Obligations.FaultOnlyFirst : Prop :=
  ∀ (s : State) (c : Bool) (d : VName) (a : GName) (sz : Size) (off : BitVec 8), Clean s → sz.bits * s.cv.elems ≤ 4096 →
    Coherent s s.cv.core → NoPoison s → sttOn s = false →
    let w := sz.bits
    let addr := unitAddr s a off (w / 8)
    let i : Instr := .vldff c d a sz off
    let good := fun n => ∀ p j, addr n = some p → j < w / 8 → ∃ x, lookup s { r := true } (p + j) = .ok x ∧ x.ns = false
    AtHome s { r := true } (act s) (w / 8) addr →
    (act s = [] → ∃ t, exec i s = .next t ∧
      t = { s with cv := { s.cv with pfx := {}, member := s.cv.member + 1, work := { s.cv.work with ffi := BitVec.ofNat 32 s.cv.elems } } }) ∧
    (∀ f l stop, act s = f :: l → Reaches s { r := true } [f] (w / 8) addr →
      (stop ∈ l ∧ ¬ good stop ∨ stop = s.cv.elems) → (∀ n ∈ l, n < stop → good n) →
      ∃ t u, exec i s = .next t ∧ ReadsOnly s u ∧ t = { u with events := t.events } ∧ (s.spanErr = [] → t.events = s.events) ∧
        t.cv = { s.cv with pfx := {}, member := s.cv.member + 1, chain := t.cv.chain, vmask := t.cv.vmask, reads := t.cv.reads
                           work := { s.cv.work with v := t.cv.work.v, ffi := t.cv.work.ffi } } ∧ Keeps s t ∧
        (s.cv.final = false → t.cv.work.ffi = BitVec.ofNat 32 stop ∧
        (∀ n, stop ≤ n → elem (t.cv.rv d) w n = elem (s.cv.rv d) w n) ∧
        (∀ n, n < stop → n ∉ act s → elem (t.cv.rv d) w n = if s.cv.pfx.zero then 0 else elem (s.cv.rv d) w n) ∧
        (∀ n ∈ act s, n < stop → ∀ p, addr n = some p → HoldsBytes s t { r := true } (w / 8) p (elem (t.cv.rv d) w n))) ∧
        (∀ n, n ≠ d → t.cv.rv n = s.cv.rv n)) ∧
    (∀ f l, act s = f :: l → ¬ Reaches s { r := true } [f] (w / 8) addr → Finds s i 5 (fun r => kindOf r = 3))

/-- R56, R300 to R302: tensor accesses. An element out of bounds loads 0 and is not stored. In memory they are the accesses of R294;
in the scratchpad they read and stage its bytes, or find the fault OOR. A tagged read, which sees nothing that a `cpy` has still to tag, goes ahead where every slot it touches has the
expected tag, faults where one is 1 to 128 behind it, and otherwise keeps its convoy from issuing. -/
def Obligations.TensorAccesses : Prop :=
  ∀ (s : State) (c : Bool) (d : VName) (t : TName) (b : GName) (tc : TChoice), Clean s → Coherent s s.cv.core →
    let x := startDesc s t
    let w := x.width
    let tr := x.tBit tc
    let tags := (s.core s.cv.core).tags
    let ex := (s.cv.rg b).toNat % 256
    let p := tensPlace s x tr b
    let q := tensPlace s x tr (b + 1)
    w % 8 = 0 → w * s.cv.elems ≤ 4096 →
    (x.scratch = false →
      (Reaches s { r := true } (act s) (w / 8) (tensMem s x tr b) → Loads s (.vldt c d t b tc) d w (tensMem s x tr b)) ∧
      (Reaches s { w := true } (act s) (w / 8) (tensMem s x tr b) →
        Stages s (.vstt c d t b tc) (act s) (w / 8) (tensMem s x tr b) (elem (s.cv.rv d) w))) ∧
    (x.scratch = true →
      (InScratch s x p → LoadsScratch s (.vldt c d t b tc) d x p (scrByte s)) ∧
      (InScratch s x p → ∃ u l, exec (.vstt c d t b tc) s = .next u ∧
        u = { s with cv := { s.cv with pfx := {}, member := s.cv.member + 1, scr := s.cv.scr ++ l } } ∧
        l = (act s).filterMap (fun n => (p n).map (fun a => (a.toNat, leBytes (w / 8) (elem (s.cv.rv d) w n))))) ∧
      (¬ InScratch s x p → Finds s (.vldt c d t b tc) 5 (fun r => kindOf r = 19) ∧ Finds s (.vstt c d t b tc) 5 (fun r => kindOf r = 19)) ∧
      ((∀ k, Touches s x q k → (tget 0 tags k).toNat = ex) → InScratch s x q →
        (∀ e ∈ ((s.core s.cv.core).queue 0).entries.head?, ∀ w ∈ e.was, w.2.2 = false) → LoadsScratch s (.vldtag c d t b tc) d x q (tagByte s)) ∧
      ((∃ k, Touches s x q k ∧ 1 ≤ ((tget 0 tags k).toNat + 256 - ex) % 256 ∧ ((tget 0 tags k).toNat + 256 - ex) % 256 ≤ 128) →
        Finds s (.vldtag c d t b tc) 4 (fun r => kindOf r = 6)) ∧
      ((∀ k, Touches s x q k → (tget 0 tags k).toNat = ex ∨ 129 ≤ ((tget 0 tags k).toNat + 256 - ex) % 256) →
        (∃ k, Touches s x q k ∧ (tget 0 tags k).toNat ≠ ex) →
        ∃ u, exec (.vldtag c d t b tc) s = .next u ∧
          ∃ l, (∀ k, k ∈ l ↔ Touches s x q k) ∧
            u = { s with cv := { s.cv with pfx := {}, member := s.cv.member + 1, wait := .issue, need := some (l, ex) } }))

/-! ## Scalar accesses, atomics and remote reduces (R303 to R308) -/

/-- R40, R303, R306: scalar accesses go through pages. Once every piece translates to this device, `gld` writes the extended bytes to
gd, `gst` stages the low bytes of gd, and `gamo`, aligned, writes the old value to gd and stages the new one. A refused piece is
a page fault with its cause, VA and kind, of the three forms alike: of an access that straddles two pages the first piece refused, in ascending
order (the model's choice, log 33). A misaligned `gamo` is kind 7. In the second run of a convoy that runs twice a `gld` takes what the first
has read (log 28). -/
def Obligations.ScalarAccesses : Prop :=
  ∀ (s : State) (c : Bool) (d a b : GName) (sext dbl : Bool) (sz : Size) (off : BitVec 8) (op : AmoOp) (va : Nat), Clean s →
    Coherent s s.cv.core → unitAddr s a off (sz.bits / 8) 0 = some va →
    let n := sz.bits / 8
    let k := if dbl then 8 else 4
    let at_ := (s.cv.rg a).toNat
    let local_ := fun (accs : List Acc) => ∀ acc ∈ accs, acc.x.dev = none
    let bytes := fun (t : State) (accs : List Acc) (v : Nat) => Steady s t →
      ∀ acc ∈ accs, ∀ j, j < acc.n → Quiet s s.cv.core (acc.x.pa + j) → BitVec.ofNat 8 (v / 2 ^ (8 * (acc.off + j))) = readByte s (acc.x.pa + j)
    (∀ accs u, scalarXlat s { r := true } va n = (.ok accs, u) → local_ accs →
      ∃ t, ∃ v : BitVec (8 * n), exec (.gld c d a sext sz off) s = .next t ∧ WalksAndReads s t ∧ (s.cv.final = false → bytes t accs v.toNat) ∧
        t.cv = { s.cv with pfx := {}, member := s.cv.member + 1, cands := t.cv.cands, reads := t.cv.reads
                           work := { s.cv.work with g := t.cv.work.g } } ∧ Keeps s t ∧
        (∀ m, t.cv.rg m = if m = 0 then 0 else if m = d then (if sext then v.signExtend 64 else v.setWidth 64) else s.cv.rg m) ∧
        (NoPoison s → sttOn s = false → t.cv.cands = s.cv.cands)) ∧
    (∀ accs u, scalarXlat s { w := true } va n = (.ok accs, u) →
      ∃ t, exec (.gst c d a sz off) s = .next t ∧ WalksAndReads s t ∧
        t.cv = { s.cv with pfx := {}, member := s.cv.member + 1
                           stores := s.cv.stores ++ accs.map (fun acc =>
                             { pa := acc.x.pa, bytes := leBytes acc.n ((s.cv.rg d).toNat / 2 ^ (8 * acc.off)), dev := acc.x.dev, va := acc.va }) }) ∧
    (∀ acc accs u, at_ % k = 0 → scalarXlat s rw_ at_ k = (.ok (acc :: accs), u) → acc.x.dev = none →
      ∃ t, ∃ v : BitVec (8 * k), exec (.gamo c d a b dbl op) s = .next t ∧ WalksAndReads s t ∧ bytes t [acc] v.toNat ∧
        t.cv = { s.cv with pfx := {}, member := s.cv.member + 1, cands := t.cv.cands, seen := t.cv.seen, work := { s.cv.work with g := t.cv.work.g }
                           stores := s.cv.stores ++ [{ pa := acc.x.pa, va := at_, atomic := true
                                                       bytes := leBytes k (amoWord op v ((s.cv.rg b).setWidth (8 * k))).toNat }] } ∧
        (∀ m, t.cv.rg m = if m = 0 then 0 else if m = d then v.setWidth 64 else s.cv.rg m) ∧
        (NoPoison s → sttOn s = false → t.cv.cands = s.cv.cands)) ∧
    (∀ p e u, scalarXlat s { r := true } va n = (.error (p, e), u) →
      FindsG s (.gld c d a sext sz off) d 5 (fun r => kindOf r = 4 ∧ subOf r = e.code ∧ r.getD 2 0 = BitVec.ofNat 64 p ∧ r.getD 3 0 = 0)) ∧
    (∀ p e u, scalarXlat s { w := true } va n = (.error (p, e), u) →
      ∃ t rec_, exec (.gst c d a sz off) s = .next t ∧ WalksAndReads s t ∧
        t.cv = { s.cv with pfx := {}, member := s.cv.member + 1, cands := s.cv.cands ++ [(5, rec_)] } ∧
        kindOf rec_ = 4 ∧ subOf rec_ = e.code ∧ rec_.getD 2 0 = BitVec.ofNat 64 p ∧ rec_.getD 3 0 = 1) ∧
    (∀ p e u, at_ % k = 0 → scalarXlat s rw_ at_ k = (.error (p, e), u) →
      FindsG s (.gamo c d a b dbl op) d 5 (fun r => kindOf r = 4 ∧ subOf r = e.code ∧ r.getD 2 0 = BitVec.ofNat 64 p ∧ r.getD 3 0 = 2)) ∧
    (at_ % k ≠ 0 → FindsG s (.gamo c d a b dbl op) d 3 (fun r => kindOf r = 7 ∧ r.getD 2 0 = s.cv.rg a))

/-- R122, R304, R305: the vector atomics, aligned and translated; a misaligned base is kind 7.

R126, R307, R308: `vrst` sends each active element to the line of its address, as an exact value with its random bits and the
rounding mode; the packets leave when the convoy retires. -/
def Obligations.VectorAtomicsAndRemoteReduces : Prop :=
  (∀ (s : State) (c : Bool) (d b : VName) (a : GName) (op : AmoOp) (f : NFmt), Clean s → Coherent s s.cv.core →
    vamoType s.cv.pfx.ty = some f → f.width * s.cv.elems ≤ 4096 →
    let n := f.width / 8
    let addr := plainAddr s a n
    let whole := ∀ e ∈ act s, ∀ p, plainAddr s a n (e / s.cv.cols * s.cv.cols) = some p → p / 128 = (p + s.cv.cols * n - 1) / 128
    ((s.cv.rg a).toNat % n = 0 → Reaches s rw_ (act s) n addr → (f.isInt = true ∨ op = .add ∨ op = .min ∨ op = .max ∨ op = .swap) →
      Swaps s (.vamo c d a b op) d b op f addr ∧ (whole → Swaps s (.vamoRow c d a b op) d b op f addr)) ∧
    ((s.cv.rg a).toNat % n ≠ 0 → Finds s (.vamo c d a b op) 3 (fun r => kindOf r = 7) ∧ Finds s (.vamoRow c d a b op) 3 (fun r => kindOf r = 7)) ∧
    ((s.cv.rg a).toNat % n = 0 → ¬ whole → Finds s (.vamoRow c d a b op) 3 (fun r => kindOf r = 8))) ∧
  (∀ (s : State) (c bf : Bool) (d b : VName) (a : GName) (code : Nat), Clean s → Coherent s s.cv.core →
    vrstCode s.cv.pfx.ty = some code →
    let w := if bf then 16 else 32
    let n := w / 8
    let addr := plainAddr s a n
    ((s.cv.rg a).toNat % n = 0 → Reaches s rw_ (act s) n addr →
      ∃ t l, exec (.vrst c d a b bf) s = .next t ∧ ReadsOnly s t ∧
        t.cv = { s.cv with pfx := {}, member := s.cv.member + 1, vpk := s.cv.vpk ++ l } ∧
        (∀ k ∈ l, k.core = s.cv.core ∧ k.bf = bf ∧ k.rm = s.cv.mode ∧ k.sid = s.devnum.toNat * 32768 + s.cv.core * 64 + s.cv.mt) ∧
        (∀ k ∈ l, ∀ m ∈ l, k.line = m.line → k.dev = m.dev → k = m) ∧
        (l.map (fun k => k.elems.length)).sum = (act s).length ∧
        ∀ e ∈ act s, ∀ p x, addr e = some p → lookup s rw_ p = .ok x →
          ∃ k ∈ l, k.line = x.pa / 128 ∧ k.dev = x.dev ∧ (x.pa % 128, vrstValue s.cv code b d e, s.cv.rnd w e) ∈ k.elems) ∧
    ((s.cv.rg a).toNat % n ≠ 0 → Finds s (.vrst c d a b bf) 3 (fun r => kindOf r = 7)))

/-- R60, R62, R102, R122: a store that leaves the retire buffer changes exactly its bytes, as its core sees memory; so does an atomic's
write, which stands at its home. -/
def Obligations.StoresLand : Prop :=
  ∀ (s : State) (core who : Nat) (st : Store), Coherent s core → st.dev = none →
    let in_ := fun pa => st.pa ≤ pa ∧ pa < st.pa + st.bytes.length
    let t := commitStore s core who st
    (st.atomic = true → st.pa % 128 + st.bytes.length ≤ 128) → Steady s t → ∀ pa, Quiet s core pa →
      (¬ in_ pa → seenByte t core pa = seenByte s core pa) ∧
      (in_ pa → seenByte t core pa = st.bytes.getD (pa - st.pa) 0) ∧
      (st.atomic = true → in_ pa → homeByte t pa = st.bytes.getD (pa - st.pa) 0)

/-! ## Caches, fences and regions (R310 to R317) -/

/-- R310, R311, R118: a prefetch never faults, writes no register and fills the line where there is room, at once or as a fill that is to
come (log 52), and one that is refused does nothing; a fence without an earlier set of stores, or of a scope within the core, moves nothing; from DIE up, one with earlier stores
leaves no dirty byte in the L1; at DOM and SYS it waits while accesses posted to other nodes are unanswered.

R78, R79, R314: `clean` and `inval` translate the whole range, and at retirement the L1 writes the range's dirty bytes home, `inval`
dropping the lines; as its core sees memory nothing changes. A length of 0 does nothing, a refused span is a span fault. -/
def Obligations.CacheForms : Prop :=
  (∀ (s : State) (c el es ll ls : Bool) (a : GName) (scope : Scope), Clean s → Coherent s s.cv.core →
    let va := (s.cv.rg a).toNat
    (∀ x, s.sched.head? ≠ some .delay → lookup s { r := true } va = .ok x →
      ∃ t, exec (.pref c a) s = .next t ∧ ReadsOnly s t ∧ t.cv = { s.cv with pfx := {}, member := s.cv.member + 1 } ∧
        (x.dev = none → x.ns = false → NoPoison s → s.banks = [] → RoomFor s s.cv.core (x.pa / 128) →
          (s.core s.cv.core).line (x.pa / 128) = {} → ((t.core s.cv.core).line (x.pa / 128)).valid = 15)) ∧
    ((∀ x, lookup s { r := true } va ≠ .ok x) →
      ∃ t, exec (.pref c a) s = .next t ∧
        t = { s with cv := { s.cv with pfx := {}, member := s.cv.member + 1 }, events := t.events } ∧ (s.spanErr = [] → t.events = s.events)) ∧
    (∀ x l, s.sched = .delay :: l → lookup s { r := true } va = .ok x → x.dev = none → x.ns = false → s.banks = [] →
      exec (.pref c a) s = .next { s with
        sched := l, prefs := s.prefs ++ [(s.cv.core, x.pa / 128)], cv := { s.cv with pfx := {}, member := s.cv.member + 1 } }) ∧
    (es = false ∨ scope = .mt ∨ scope = .core ∨ s.cv.wait = .issue → Does s (.fence c scope el es ll ls) id) ∧
    (es = true → scope ≠ .mt → scope ≠ .core → s.cv.wait ≠ .issue → postedCount s s.cv.core s.cv.mt scope = 0 →
      ∃ t, exec (.fence c scope el es ll ls) s = .next t ∧ ReadsOnly s t ∧ t.cv = { s.cv with pfx := {}, member := s.cv.member + 1 } ∧
        ∀ line, ((t.core s.cv.core).line line).dirty = 0) ∧
    (es = true → s.cv.wait ≠ .issue → s.cv.final = false → 0 < postedCount s s.cv.core s.cv.mt scope → s.cv.cands = [] → Waits s (.fence c scope el es ll ls) 2)) ∧
  (∀ (s : State) (c : Bool) (a b : GName), Clean s →
    let va := (s.cv.rg a).toNat
    let n := (s.cv.rg b).toNat
    let run := fun (i : Instr) (need : Need) (drop : Bool) =>
      (n = 0 → Does s i id) ∧
      (RangeReaches s need va n → ∃ l, Does s i (fun cv => { cv with cleans := cv.cleans ++ l }) ∧
        (∀ r ∈ l, r.2.2 = drop) ∧
        ∀ k x, k < n → lookup s need (va + k) = .ok x → x.dev = none → ∃ r ∈ l, r.1 ≤ x.pa ∧ x.pa < r.1 + r.2.1) ∧
      (n ≠ 0 → ¬ RangeReaches s need va n → Finds s i 5 (fun r => kindOf r = 3))
    run (.clean c a b) { r := true } false ∧ run (.inval c a b) rw_ true) ∧
  (∀ (s : State) (drop : Bool) (core pa m : Nat), Coherent s core →
    let t := cleanRange s core pa m drop
    SeesSame s t core ∧ ∀ p, pa ≤ p → p < pa + m → ((t.core core).line (p / 128)).dirty.getLsbD (p % 128) = false ∧
      (drop = true → (t.core core).line (p / 128) = {}))

/-- R315 to R317: the region of gA is translated at issue, as an access of this device; `settle` and `renew` place one entry on q5,
and `setlc` and `iwc` write the region's count, 0 outside the SRAM window. -/
def Obligations.RegionForms : Prop :=
  ∀ (s : State) (c : Bool) (d a : GName) (scope : Scope), Clean s →
    let va := (s.cv.rg a).toNat / 65536 * 65536
    let near : Need := { rw_ with localOnly := true }
    (∀ x, lookup s near va = .ok x →
      Enqueues s (.settle c a) 5 (.settle (BitVec.ofNat 64 va)) 0 ∧
      Enqueues s (.renew c a scope) 5 (.renew (BitVec.ofNat 64 va) scope) 0) ∧
    ((∀ x, lookup s near va ≠ .ok x) →
      Finds s (.settle c a) 5 (fun r => kindOf r = 3) ∧ Finds s (.renew c a scope) 5 (fun r => kindOf r = 3)) ∧
    (∀ x, lookup s { r := true, localOnly := true } va = .ok x →
      WritesG s (.setlc c d a scope) d (if isSram s x.pa then (tget 0 s.setlc (x.pa / 65536)).setWidth 64 else 0) ∧
      WritesG s (.iwc c d a) d (if isSram s x.pa then (tget 0 s.iwc (x.pa / 65536)).setWidth 64 else 0)) ∧
    ((∀ x, lookup s { r := true, localOnly := true } va ≠ .ok x) →
      Finds s (.setlc c d a scope) 5 (fun r => kindOf r = 3) ∧ Finds s (.iwc c d a) 5 (fun r => kindOf r = 3))

/-! ## Reversible instructions and the talus stack (R319 to R338) -/

/-- R321 to R325, R333: a reversible member with room in its share pushes one frame, whose header it writes last, and TSD counts the frame and
its bytes; vd alone of the vector registers changes, inactive elements and those above the shape as for every member. Of an integer type the
active elements take the results and no flag is raised; the results and flags of the float types are not stated here. -/
def Obligations.ReversibleForward : Prop :=
  ∀ (s : State) (c : Bool) (d a b : VName) (g : GName) (rt : RType) (k : BitVec 5) (kind : RevKind) (fwd undo : Instr), Clean s →
    rtBits rt * s.cv.elems ≤ 4096 → s.cv.elems ≤ 512 → (kind, fwd, undo) ∈ revPair c d a b g rt k → Room s (frameLen s rt) → wellFormed fwd = true →
    let w := rtBits rt
    let x := el (s.cv.rv a) w
    let y := el (s.cv.rv b) w
    let z := el (s.cv.rv d) w
    let cnt := if kind = .lrelu then k.toNat else (s.cv.rg g).toNat
    let out := if kind = .narrow then w / 2 else w
    ∃ t, exec fwd s = .next t ∧ ConvoyOnly s t ∧
      t.cv = { s.cv with pfx := {}, member := s.cv.member + 1, chain := t.cv.chain, vmask := t.cv.vmask, work := t.cv.work
                         hidden := s.cv.hide t.cv.work, talus := t.cv.talus } ∧
      depth t = depth s + frameLen s rt ∧ frames t = frames s + 1 ∧ (∀ o, o < depth s → tget 0 t.cv.talus o = tget 0 s.cv.talus o) ∧
      leNat (trange 0 t.cv.talus (depth t - 8) 8) =
        kind.cls * 2 ^ 60 + rt.code.toNat * 2 ^ 57 + d.toNat * 2 ^ 50 + (s.cv.rows - 1) * 2 ^ 43 + (s.cv.cols - 1) * 2 ^ 36 +
          ((act s).map (fun n => (n + 1) * (n + 1))).sum % 65536 * 2 ^ 20 + (frameLen s rt - 8) ∧
      (∀ n ∈ act s, rtFlt rt = false → elem (t.cv.rv d) out n = revWord kind rt (x n) (y n) (z n) cnt) ∧
      (∀ n, n < s.cv.elems → n ∉ act s → elem (t.cv.rv d) out n = if s.cv.pfx.zero then 0 else elem (s.cv.rv d) out n) ∧
      (∀ n, s.cv.elems ≤ n → elem (t.cv.rv d) out n = elem (s.cv.rv d) out n) ∧
      (∀ n, n ≠ d → t.cv.rv n = s.cv.rv n) ∧ t.cv.work.g = s.cv.work.g ∧ t.cv.work.k = s.cv.work.k ∧ (rtFlt rt = false → t.cv.work.fst = s.cv.work.fst)

/-- R328 to R330: right after a reversible member, its undo completes, takes the frame off again, and, for an integer type, restores
every active element of its source; nothing of the stack below has changed. -/
def Obligations.UndoRestores : Prop :=
  ∀ (s t : State) (c : Bool) (d a b : VName) (g : GName) (rt : RType) (k : BitVec 5) (kind : RevKind) (fwd undo : Instr), Clean s →
    rtBits rt * s.cv.elems ≤ 4096 → s.cv.elems ≤ 512 → (kind, fwd, undo) ∈ revPair c d a b g rt k → Room s (frameLen s rt) →
    twf (0 : Byte) s.cv.talus = true → wellFormed fwd = true → wellFormed undo = true → exec fwd s = .next t →
    let src := if kind = .fma then d else a
    ∃ u, exec undo { t with cv := { t.cv with pfx := s.cv.pfx } } = .next u ∧ ConvoyOnly t u ∧
      u.cv.work.tsd = s.cv.work.tsd ∧ (∀ o, o < depth s → tget 0 u.cv.talus o = tget 0 s.cv.talus o) ∧ u.cv.cands = s.cv.cands ∧
      (∀ n, n ≠ src → u.cv.rv n = t.cv.rv n) ∧
      (rtFlt rt = false → ∀ n ∈ act s, elem (u.cv.rv src) (rtBits rt) n = elem (s.cv.rv src) (rtBits rt) n)

/-- R329, R338: an undo on an empty stack is kind 10, and one whose header does not match is kind 9; `tmark` and `tdepth` read TSD and
its count of frames, and `tchk` faults unless gA is TSD.

R336, R337: `tsave` stores the resident chunks to the scree and the three stack registers at gA, and starts an empty stack behind
them; `trest` takes the registers from gA, where the stack is empty and the words are well-formed, and the resident bytes from the scree: from
memory as its member runs, in the second run of a convoy that runs twice as the first has read them (log 28). -/
def Obligations.TalusForms : Prop :=
  (∀ (s : State) (c : Bool) (g : GName), Clean s →
    WritesG s (.tmark c g) g s.cv.work.tsd ∧
    WritesG s (.tdepth c g) g (BitVec.ofNat 64 (frames s)) ∧
    (s.cv.rg g = s.cv.work.tsd → Does s (.tchk c g) id) ∧
    (s.cv.rg g ≠ s.cv.work.tsd → Finds s (.tchk c g) 6 (fun r => kindOf r = 9 ∧ subOf r = 1))) ∧
  (∀ (s : State) (c : Bool) (g : GName) (d a b : VName) (rt : RType) (k : BitVec 5) (kind : RevKind) (fwd undo : Instr), Clean s →
    (kind, fwd, undo) ∈ revPair c d a b g rt k →
    (frames s = 0 → Finds s undo 4 (fun r => kindOf r = 10)) ∧
    (0 < frames s → depth s ≤ 4096 * chunks s → 8 ≤ depth s →
      leNat (trange 0 s.cv.talus (depth s - 8) 8) / 2 ^ 57 ≠ kind.cls * 8 + rt.code.toNat →
      Finds s undo 6 (fun r => kindOf r = 9 ∧ subOf r = 0))) ∧
  (∀ (s : State) (c : Bool) (a : GName), Clean s → Coherent s s.cv.core →
    let ga := (s.cv.rg a).toNat
    let w := s.cv.work
    let top := (depth s + 4095) / 4096
    let spill := top - chunks s
    (ga % 32 ≠ 0 → Finds s (.tsave c a) 3 (fun r => kindOf r = 7) ∧ Finds s (.trest c a) 3 (fun r => kindOf r = 7)) ∧
    (∀ x, ga % 32 = 0 → screeBad w.scb = false → w.scb.toNat + 4096 * top ≤ w.scl.toNat → lookup s { w := true } ga = .ok x →
      (∀ n, spill ≤ n → n < top → ∃ y, lookup s { w := true } (w.scb.toNat + 4096 * n) = .ok y) →
      ∃ l, Does s (.tsave c a) (fun cv => { cv with talus := [], stores := cv.stores ++ l
                                                    work := { cv.work with tsd := 0, scb := BitVec.ofNat 64 (w.scb.toNat + 4096 * top) } }) ∧
        (∀ j, j < 32 → stagedByte l x.dev (x.pa + j) =
          some (BitVec.ofNat 8 ((w.tsd.toNat + w.scb.toNat * 2 ^ 64 + w.scl.toNat * 2 ^ 128) / 2 ^ (8 * j)))) ∧
        (∀ o, o % 32 = 0 → 4096 * spill ≤ o → o < 4096 * top → ∀ y, lookup s { w := true } (w.scb.toNat + o) = .ok y →
          ∃ st ∈ l, st.pa = y.pa ∧ st.dev = y.dev ∧ st.bytes = trange 0 s.cv.talus o 32) ∧
        ∀ st ∈ l, st.pa ≠ x.pa → ∃ o, 4096 * spill ≤ o ∧ o < 4096 * top ∧ st.bytes = trange 0 s.cv.talus o 32 ∧
          ∀ y, lookup s { w := true } (w.scb.toNat + o) = .ok y → st.pa = y.pa ∧ st.dev = y.dev) ∧
    (∀ (tsd scb scl : Word64), ga % 32 = 0 → w.tsd = 0 → restBad tsd.toNat scb.toNat scl.toNat 0 = false →
      Reaches s { r := true } [0] 32 (fun _ => some ga) → AtHome s { r := true } [0] 32 (fun _ => some ga) →
      CleanSlices s → (∀ j y, j < 32 → lookup s { r := true } (ga + j) = .ok y → Quiet s s.cv.core y.pa ∧
        BitVec.ofNat 8 ((tsd.toNat + scb.toNat * 2 ^ 64 + scl.toNat * 2 ^ 128) / 2 ^ (8 * j)) = readByte s y.pa) →
      let b := tsd.toNat % 2 ^ 40
      let low := (b + 4095) / 4096 - chunks s
      (∀ n, low ≤ n → n < (b + 4095) / 4096 → ∃ y, lookup s rw_ (scb.toNat + 4096 * n) = .ok y ∧ y.dev = none) → s.cv.final = false →
      ∃ t, exec (.trest c a) s = .next t ∧ ReadsOnly s t ∧
        t.cv = { s.cv with pfx := {}, member := s.cv.member + 1, talus := t.cv.talus, cands := t.cv.cands, reads := t.cv.reads
                           work := { s.cv.work with tsd := tsd, scb := scb, scl := scl } } ∧ Keeps s t ∧
        (NoPoison s → t.cv.cands = s.cv.cands) ∧
        ∀ o, 4096 * low ≤ o → o < b → HoldsScree s t scb.toNat o (tget 0 t.cv.talus o)))

/-! ## Block formats and random numbers (R272 to R279) -/

/-- R277 to R279: `vrng` fills the elements from the blocks of Mix at the counter and the key, and the counter moves on by the blocks
used, whatever the mask holds. -/
def Obligations.RandomNumbers : Prop :=
  ∀ (s : State) (c : Bool) (d : VName) (sz : Size), Clean s → sz.bits * s.cv.elems ≤ 4096 →
    let w := sz.bits
    let ctr : BitVec 128 := seeSreg s 0x29 ++ seeSreg s 0x28
    let key : BitVec 128 := seeSreg s 0x2B ++ seeSreg s 0x2A
    let next := ctr + BitVec.ofNat 128 ((s.cv.elems * (w / 8) + 15) / 16)
    let per := 128 / w
    ∃ t, exec (.vrng c d sz) s = .next t ∧ ConvoyOnly s t ∧
      t.cv = { s.cv with pfx := {}, member := s.cv.member + 1, chain := t.cv.chain, vmask := t.cv.vmask
                         work := { s.cv.work with v := t.cv.work.v }, sregs := t.cv.sregs } ∧
      (∀ n, s.cv.elems ≤ n → elem (t.cv.rv d) w n = elem (s.cv.rv d) w n) ∧
      (∀ n, n < s.cv.elems → n ∉ act s → elem (t.cv.rv d) w n = if s.cv.pfx.zero then 0 else elem (s.cv.rv d) w n) ∧
      (∀ n ∈ act s, elem (t.cv.rv d) w n = ((mix (ctr + BitVec.ofNat 128 (n / per)) key).extractLsb' (w * (n % per)) w).toNat) ∧
      (∀ n, n ≠ d → t.cv.rv n = s.cv.rv n) ∧
      seeSreg t 0x28 = next.extractLsb' 0 64 ∧ seeSreg t 0x29 = next.extractLsb' 64 64 ∧ seeSreg t 0x2A = seeSreg s 0x2A ∧
      seeSreg t 0x2B = seeSreg s 0x2B

/-! ## Engines (R340 to R362) -/

/-- R112, R340 to R358: an engine word places one entry on its queue when its convoy retires, with its operands as its member reads
them, and changes nothing else but MGR for `mattach` and `mdetach`.

R361, R362: `qfence` places one marker, the same for all, on each queue of its set; `qwait` waits until the completion count has
reached gA, compared modulo 2^32; `qcnt` writes the count. -/
def Obligations.EngineForms : Prop :=
  (∀ (s : State) (c idx sat : Bool) (z : ZName) (ta tb : TName) (a b : GName) (tc : TChoice), Clean s →
    let da := seeTens s ta
    let db := seeTens s tb
    let req := (min (s.cv.rg a).toNat 128 + 31) / 32 * 32
    let cv := s.cv
    let ent := fun (cmd : EngCmd) => ({ cmd := cmd, word := cv.word, who := cv.mt, head := cv.head } : Entry)
    let grant := if (s.core cv.core).info.mat then
      max cv.work.mgr.toNat (min req (cv.work.mgr.toNat + 32 * freeSlabs s cv.core)) else cv.work.mgr.toNat
    let src := match cv.pfx.ext with
      | none => (0 : VName)
      | some e => e.extractLsb' 14 7
    let kc := match cv.pfx.ext with
      | none => 0
      | some e => e.toNat % 2 ^ 14
    Does s (.mattach c a) (fun v => { v with attach := some req, enq := v.enq ++ [(1, ent .mattach)]
                                             work := { v.work with mgr := BitVec.ofNat 32 grant } }) ∧
    Does s (.mdetach c) (fun v => { v with enq := v.enq ++ [(1, ent (.mdetach (v.work.mgr.toNat / 32)))], work := { v.work with mgr := 0 } }) ∧
    Enqueues s (.mzero c z) 1 (.mzero z) 0 ∧
    Enqueues s (.mmac c z ta tb idx tc sat) 1
      (.mmac z ta da db (if idx then some ((List.range cv.elems).map (fun n => elem (cv.rv src) 16 n)) else none) cv.elems kc
        (match tc with
          | .dflt => db.tdef
          | .t0 => false
          | .t1 => true) sat cv.work.mgr.toNat) 0 ∧
    Enqueues s (.cpy c ta tb b) 0 (.cpy da db) (cv.rg b) ∧
    Enqueues s (.gath c ta tb b) 2 (.gath da db) (cv.rg b) ∧
    Enqueues s (.scat c ta tb b) 2 (.scat da db) (cv.rg b) ∧
    Enqueues s (.coll c ta tb b) 3 (.coll da db) (cv.rg b) ∧
    Enqueues s (.bank c a b) 4 (.bank (cv.rg a) (cv.rg b)) (cv.rg a)) ∧
  (∀ (s : State) (c : Bool) (set : BitVec 6) (q : QName) (d a : GName), Clean s →
    let n := ((s.core s.cv.core).queue q.toNat).count
    let behind := (n - (s.cv.rg a).setWidth 32).msb
    (∃ t l, exec (.qfence c set) s = .next t ∧
      t = { s with markers := s.markers + 1, cv := { s.cv with pfx := {}, member := s.cv.member + 1, enq := s.cv.enq ++ l } } ∧
      l.map Prod.fst = (List.range 6).filter (fun k => set.getLsbD k) ∧ ∀ e ∈ l, e.2.cmd = .marker s.markers set.toNat) ∧
    (behind = false → Does s (.qwait c q a) id) ∧
    (behind = true → s.cv.cands = [] → s.cv.wait ≠ .issue → s.cv.final = false → Waits s (.qwait c q a) 3) ∧
    WritesG s (.qcnt c d q) d (n.setWidth 64))

/-- R58, R354: the accumulator forms move one half of a row, or one column, of a tile, whatever the shape and the masks; a position out
of the tile reads as 0 and is not written. Writes take effect when the convoy retires. -/
def Obligations.AccumulatorForms : Prop :=
  ∀ (s : State) (c hi : Bool) (v : VName) (z : ZName) (b : GName), Clean s →
    let x := (s.cv.rg b).toNat
    let row := fun i => z.toNat * 8192 + x * 256 + (if hi then 128 else 0) + i
    let col := fun r => z.toNat * 8192 + r * 256 + x
    let word := fun i => BitVec.ofNat 32 (elem (s.cv.rv v) 32 i)
    let read := fun (i : Instr) (n : Nat) (on : Bool) (f : Nat → Nat) =>
      ∃ t, exec i s = .next t ∧ RegsOnly s t ∧ t.cv.work = { s.cv.work with v := t.cv.work.v } ∧
        (∀ k, k < 128 → elem (t.cv.rv v) 32 k = if k < n then (if on then (seeAcc s (f k)).toNat else 0) else elem (s.cv.rv v) 32 k) ∧
        (∀ k, k ≠ v → t.cv.rv k = s.cv.rv k)
    read (.vzrd c v z b hi) 128 (x < 32) row ∧
    read (.vzcrd c v z b) 32 (x < 256) col ∧
    Does s (.vzwr c v z b hi) (fun cv => { cv with accw := cv.accw ++ (if x < 32 then (List.range 128).map (fun i => (row i, word i)) else []) }) ∧
    Does s (.vzcwr c v z b) (fun cv => { cv with accw := cv.accw ++ (if x < 256 then (List.range 32).map (fun r => (col r, word r)) else []) })

/-! ## Control, system forms and prefixes (R206, R363 to R374) -/

/-- R364 to R366: each transfer sets where the convoy goes on; a branch not taken leaves it. `nop` does nothing.

R371 to R374: the other system forms. `trap` ends its convoy with kind 14; `brk`, unless it is skipped, is kind 15 at once, or stops
the core where the debugger has armed it.

R206: a prefix word is kept for the next word that is no prefix, and is no member of its own. -/
def Obligations.ControlForms : Prop :=
  (∀ (s : State) (c inv : Bool) (a : GName) (k : KName) (cond : GCond) (disp : BitVec 18) (near : BitVec 15), Clean s →
    let x := s.cv.rg a
    let jump := fun {n : Nat} (d : BitVec n) (on : Bool) (cv : Convoy) => if on then { cv with ctl := .jump (target s d) cv.word } else cv
    Does s (.br disp) (jump disp true) ∧
    (∃ t, exec (.jal a disp) s = .next t ∧ t = { s with cv := t.cv } ∧
      t.cv = { s.cv with pfx := {}, member := s.cv.member + 1, ctl := .jump (target s disp) s.cv.word, work := { s.cv.work with g := t.cv.work.g } } ∧
      ∀ n, t.cv.rg n = if n = 0 then 0 else if n = a then after s else s.cv.rg n) ∧
    Does s (.bcc a cond near) (jump near (match cond with
      | .eqz => x == 0
      | .nez => x != 0
      | .ltz => x.msb
      | .gez => !x.msb
      | .gtz => BitVec.slt 0 x
      | .lez => BitVec.sle x 0)) ∧
    Does s (.bk k inv near) (jump near ((s.cv.rk k != 0) != inv)) ∧
    Does s (.jr c a) (fun cv => { cv with ctl := .jump x cv.word }) ∧
    Does s (.lfetch c a) (fun cv => { cv with ctl := .lfetch x }) ∧
    Does s (.nop c) id ∧ Does s (.stop c) (fun cv => { cv with ctl := .stop }) ∧ Does s (.yield c) (fun cv => { cv with ctl := .yield })) ∧
  (∀ (s : State) (c : Bool) (d : GName) (code : BitVec 11) (flags : BitVec 7) (q : BitVec 11 × Nat), Clean s →
    Does s (.trap c code) (fun cv => { cv with ctl := .trap code.toNat }) ∧
    (s.cv.skipBrk = true → Does s (.brk c code) id) ∧
    (s.cv.skipBrk = false → (s.core s.cv.core).dbgctl.getLsbD 1 = true → Does s (.brk c code) (fun cv => { cv with brkArmed := true })) ∧
    (s.cv.skipBrk = false → (s.core s.cv.core).dbgctl.getLsbD 1 = false →
      Finds s (.brk c code) 1 (fun r => kindOf r = 15 ∧ r.getD 2 0 = code.setWidth 64)) ∧
    Does s (.wbase c code) (fun cv => { cv with work := { cv.work with wb := code.setWidth 32 * 8 } }) ∧
    Does s (.fclr c flags) (fun cv => { cv with
      work := { cv.work with fst := cv.work.fst &&& ~~~(flags.setWidth 32) }
      hidden := cv.hidden.map (fun e => if e.1 = 0 then (0, e.2 &&& ~~~(flags.setWidth 32)) else e) }) ∧
    (q ∈ poolFacts s → WritesG s (.poolq c d q.1) d (BitVec.ofNat 64 q.2)) ∧
    (13 ≤ code.toNat → decodeMt (BitVec.ofBool c ++ 0x3D#6 ++ 0#1 ++ d ++ 48#7 ++ code) = .error .rsv)) ∧
  (∀ (s : State) (inv sgn zero sat : Bool) (k : KName) (v : VName) (mode : RMode) (imm : BitVec 21) (code : BitVec 5),
    let keeps := fun (i : Instr) (p : Pfx) => exec i s = .next { s with cv := { s.cv with pfx := p } }
    let p := s.cv.pfx
    (p.mask = none → keeps (.maskSelect inv k) { p with mask := some (k, inv) }) ∧
    (p.rm = none → keeps (.rounding v mode) { p with rm := some (mode, v) }) ∧
    (p.sat = false → p.zero = false → keeps (.saturateAndZeroing sgn zero sat) { p with sat := sat, zero := zero, sgn := sgn }) ∧
    (p.ext = none → keeps (.immediateExtension imm) { p with ext := some imm }) ∧
    (p.ty = none → keeps (.secondType code) { p with ty := some code }))

/-- R118, R121, R171: `bar` makes the micro-thread's arrival at its next instance of the level, with the release that goes with it, which at an
effective scope from DIE up leaves no line of the core's L1 dirty, and its convoy will wait for that instance; as its core sees memory
nothing changes. An arrival that is already made is not made again (R197), and a convoy that has not issued makes none (R56). -/
def Obligations.BarrierArrival : Prop :=
  (∀ (s : State) (c : Bool) (level : BitVec 3), Clean s → Coherent s s.cv.core → s.cv.wait ≠ .issue →
    let core := s.cv.core
    let m := (s.core core).mt s.cv.mt
    let n := level.toNat
    let bit := BitVec.twoPow 8 n
    let made := m.pend.getLsbD n
    ∃ t u, exec (.bar c level) s = .next t ∧ MovesLines s u ∧ t = { u with cv := t.cv, cores := t.cores } ∧
      t.cv = { s.cv with
        pfx := {}, member := s.cv.member + 1, wait := .bar n (tget 0 m.bars n + 1)
        arrived := if made then s.cv.arrived else s.cv.arrived ++ [n] } ∧
      (∀ o, o ≠ core → t.core o = u.core o) ∧ t.core core = { u.core core with mts := (t.core core).mts } ∧
      (t.core core).mt s.cv.mt = { m with pend := m.pend ||| bit, uncounted := if made then m.uncounted &&& ~~~bit else m.uncounted } ∧
      (∀ i, i ≠ s.cv.mt → (t.core core).mt i = (s.core core).mt i) ∧
      (made = false → 2 ≤ scopeRank (effScope ((s.core core).info.level n)) → ∀ line, ((t.core core).line line).dirty = 0) ∧ SeesSame s t core) ∧
  (∀ (s : State) (c : Bool) (level : BitVec 3), Clean s → s.cv.wait = .issue → Does s (.bar c level) id)

/-- R236, R238, R258, R261, R331, R332, R368 to R370: `sread` writes a special register to gd, zero-extended, and a register of flags that
earlier members of the convoy have raised as it was before, since raising is no write; `swrite` of a value that its
register accepts writes it, a core-scope register's when the convoy retires, and any other value is an illegal instruction of cause RSV,
or, for a shape of more than 512 elements, a shape fault. -/
def Obligations.SpecialRegisters : Prop :=
  ∀ (s : State) (c : Bool) (d : GName) (num : BitVec 11) (y : Word64), Clean s →
    let x := s.cv.rg d
    let big := num = 0x03 ∧ 512 < shpRows (x.setWidth 32) * shpCols (x.setWidth 32)
    let open_ := ∀ e ∈ s.cv.hidden, e.1 ≠ num.toNat
    let shows := fun (cv : Convoy) => cv.hidden.filter (fun e => e.1 != num.toNat)
    ((num, y) ∈ mtReg s.cv.work → open_ → WritesG s (.sread c d num) d y) ∧
    ((num, y) ∈ coreReg s (s.core s.cv.core) → open_ → s.cv.stagedSreg num.toNat = none → WritesG s (.sread c d num) d y) ∧
    (∀ e, s.cv.hidden.find? (fun e => e.1 == num.toNat) = some e → num ≠ 0x40 → WritesG s (.sread c d num) d (e.2.setWidth 64)) ∧
    (s.cv.stagedSreg 0x40 = none → (∀ e ∈ s.cv.hidden, e.1 ≠ 0x40) →
      ∃ t, exec (.sread c d 0x40) s = .next t ∧ t.cv.rg d = (if d = 0 then 0 else tget 0 t.cyc (s.cv.core / 64)) ∧
        t = { s with cv := { s.cv with pfx := {}, member := s.cv.member + 1, work := { s.cv.work with g := t.cv.work.g } }
                     cyc := t.cyc, fresh := t.fresh } ∧ ∀ n, n ≠ 0 → n ≠ d → t.cv.rg n = s.cv.rg n) ∧
    (∀ r, (num, r) ∈ mtSet s.cv.work x → Accepts s num x → ¬ big →
      Does s (.swrite c d num) (fun cv => { cv with work := r, hidden := shows cv })) ∧
    ((num, y) ∈ coreReg s (s.core s.cv.core) → Accepts s num x →
      Does s (.swrite c d num) (fun cv => { cv with sregs := cv.sregs ++ [(num.toNat, x)], hidden := shows cv })) ∧
    ((num ∈ (mtReg s.cv.work).map Prod.fst ∨ num ∈ (coreReg s (s.core s.cv.core)).map Prod.fst) →
      num ∈ ([0x04, 0x10, 0x18] : List (BitVec 11)) ∨ ¬ Accepts s num x →
      Finds s (.swrite c d num) 8 (fun r => kindOf r = 1 ∧ subOf r = Cause.rsv.code)) ∧
    (big → Accepts s num x → Finds s (.swrite c d num) 2 (fun r => kindOf r = 2))

/-! ## The control thread (R144, R375 to R387) -/

/-- R152: a lode joins the queues of the launched micro-threads named once each has room, with its argument for `mt.send`; a misaligned
lode traps, and a full queue keeps the instruction waiting (R376).

R108, R169, R172, R376: `mt.wait`, `mt.bar` and `mt.lnk` complete once what they wait for holds, and otherwise stay at their pc; a
level that the launch has not is illegal. -/
def Obligations.ThreadWaits : Prop :=
  (∀ (s : State) (rs1 rs2 : XName) (m : BitVec 5),
    let c := s.core s.curCore
    let va := s.ct.rx rs1
    let run := fun (i : Instr) (ts : List Nat) (arg : Option Word64) =>
      (va.toNat % 128 = 0 → (∀ k ∈ ts, (c.mt k).lodeq.length < 16) →
        ∃ t, exec i s = .next t ∧ t = { s with cores := t.cores } ∧ t.ct = (retires s (nextPc s) id).ct ∧
          (∀ o, o ≠ s.curCore → t.core o = s.core o) ∧
          t.core s.curCore = { c with ct := t.ct, mts := (t.core s.curCore).mts } ∧
          ∀ k, (t.core s.curCore).mt k = if k ∈ ts then { c.mt k with lodeq := (c.mt k).lodeq ++ [(va, arg)] } else c.mt k) ∧
      (va.toNat % 128 = 0 → (∃ k ∈ ts, 16 ≤ (c.mt k).lodeq.length) → exec i s = .next (stalls s)) ∧
      (va.toNat % 128 ≠ 0 → ∃ t, exec i s = .next t ∧ Traps s t 24 va ∧ ∀ o, o ≠ s.curCore → t.core o = s.core o)
    run (.mtBcast rs1 rs2) (launched c (s.ct.rx rs2)) none ∧
    run (.mtSend rs1 rs2 m) (if m.toNat < c.info.n then [m.toNat] else []) (some (s.ct.rx rs2))) ∧
  (∀ (s : State) (rs1 : XName) (level : BitVec 3) (pairs : Bool), Canonical s →
    let c := s.core s.curCore
    let done := ∀ k ∈ launched c (s.ct.rx rs1), (c.mt k).isIdle = true ∧ .stop k ∉ c.pending
    let met := ∀ k, k < c.info.n → (s.ct.rx rs1).toNat ≤ tget 0 (c.mt k).bars level.toNat
    let still := ∀ k, k < c.info.n → (c.mt k).isIdle = true
    (done → exec (.mtWait rs1) s = .next (retires s (nextPc s) id)) ∧
    (¬ done → exec (.mtWait rs1) s = .next (stalls s)) ∧
    (level.toNat < c.info.nlev → met → exec (.mtBar rs1 level) s = .next (retires s (nextPc s) id)) ∧
    (level.toNat < c.info.nlev → ¬ met → exec (.mtBar rs1 level) s = .next (stalls s)) ∧
    (c.info.nlev ≤ level.toNat → ∃ t, exec (.mtBar rs1 level) s = .next t ∧ Traps s t 2 0) ∧
    (still → twf ({} : Mt) c.mts = true → ∃ t, exec (.mtLnk pairs) s = .next t ∧ (t.core s.curCore).pairs = pairs ∧ t.ct = (retires s (nextPc s) id).ct ∧
      ∀ k, (t.core s.curCore).mt k = { c.mt k with fifo := [] }) ∧
    (¬ still → exec (.mtLnk pairs) s = .next (stalls s)))

/-- R156, R377, R378, R159: requests to micro-threads join the core's list and are taken at their boundaries; a register or a micro-thread
that is not there reads as 0 and takes no write; `mt.stat` packs sixteen state codes, `mt.flt` reads a word of a fault record, and
`mt.sync` empties the lode cache.

R379: `mt.eng` places one entry on the queue of an accepted engine word, or a marker on each queue of its set, with agent number 32
and the operand of rs2; it waits while a queue is full, and any other word is illegal. -/
def Obligations.ThreadRequests : Prop :=
  (∀ (s : State) (rd rs1 rs2 : XName) (n : BitVec 6) (h : Bool), Canonical s →
    let c := s.core s.curCore
    let k := (s.ct.rx rs1).toNat % 32
    let there := n ≠ 0 ∧ k < c.info.n
    (¬ there → exec (.mtGet rd rs1 n) s = .next (retires s (nextPc s) (fun a => a.wx rd 0)) ∧
      exec (.mtPut rs1 n rs2) s = .next (retires s (nextPc s) id)) ∧
    (there → exec (.mtPut rs1 n rs2) s =
      .next (onCore (retires s (nextPc s) id) (fun k' => { k' with pending := k'.pending ++ [.put k n (s.ct.rx rs2)] }))) ∧
    (there → ∀ r v, c.got = some (r, v) → exec (.mtGet rd rs1 n) s =
      .next (onCore (retires s (nextPc s) (fun a => a.wx rd v)) (fun k' => { k' with got := none }))) ∧
    (there → c.got = none → (∀ m r, .get k m r ∉ c.pending) → exec (.mtGet rd rs1 n) s =
      .next (onCore (stalls s) (fun k' => { k' with pending := k'.pending ++ [.get k n rd] }))) ∧
    exec (.mtStop rs1) s = .next (onCore (retires s (nextPc s) id)
      (fun k' => { k' with pending := k'.pending ++ (launched c (s.ct.rx rs1)).map .stop })) ∧
    exec .mtSync s = .next (onCore (retires s (nextPc s) id) (fun k' => { k' with lodeCache := [] })) ∧
    exec (.mtFlt rd rs1 rs2) s = .next (retires s (nextPc s) (fun a =>
      a.wx rd (if k < c.info.n then (c.mt k).record.getD (s.ct.rx rs2).toNat 0 else 0))) ∧
    ((∀ k, (c.mt k).code < 8) → ∃ v : Word64, exec (.mtStat rd h) s = .next (retires s (nextPc s) (fun a => a.wx rd v)) ∧
      ∀ j, j < 16 → (v.extractLsb' (3 * j) 3).toNat = mtCode c ((if h then 16 else 0) + j))) ∧
  (∀ (s : State) (rs1 rs2 : XName) (z : ZName) (ta tb : TName) (set : BitVec 6), Canonical s →
    let c := s.core s.curCore
    let x := s.ct.rx rs1
    let y := s.ct.rx rs2
    let low : Word32 := x.setWidth 32
    let at_ := fun (q : TName) => tget {} c.tens q.toNat
    let run := fun (i : Instr) (qs : List Nat) (cmd : EngCmd) (opnd : Word64) => decodeMt low = .ok i →
      ((∀ q ∈ qs, c.queueFull q = false) →
        ∃ t, exec (.mtEng rs1 rs2) s = .next t ∧ t = { s with cores := t.cores, markers := s.markers + 1 } ∧
          t.ct = (retires s (nextPc s) id).ct ∧ (∀ o, o ≠ s.curCore → t.core o = s.core o) ∧
          t.core s.curCore = { c with ct := t.ct, queues := (t.core s.curCore).queues } ∧
          ∀ q, (t.core s.curCore).queue q = if q ∈ qs then
            { c.queue q with entries := (c.queue q).entries ++ [{ cmd := cmd, word := low, who := 32, head := s.ct.pc, opnd := opnd }] }
            else c.queue q) ∧
      ((∃ q ∈ qs, c.queueFull q = true) → exec (.mtEng rs1 rs2) s = .next (stalls s))
    run (.mzero false z) [1] (.mzero z) 0 ∧
    run (.qfence false set) ((List.range 6).filter (fun q => set.getLsbD q)) (.marker s.markers set.toNat) 0 ∧
    run (.cpy false ta tb 0) [0] (.cpy (at_ ta) (at_ tb)) y ∧
    run (.gath false ta tb 0) [2] (.gath (at_ ta) (at_ tb)) y ∧
    run (.scat false ta tb 0) [2] (.scat (at_ ta) (at_ tb)) y ∧
    run (.coll false ta tb 0) [3] (.coll (at_ ta) (at_ tb)) y ∧
    run (.bank false 0 0) [4] (.bank y ((x.extractLsb' 32 32).setWidth 64)) y ∧
    ((∀ i, decodeMt low ≠ .ok i) → ∃ t, exec (.mtEng rs1 rs2) s = .next t ∧ Traps s t 2 0))

/-- R192, R385: in U mode an `ecall` with a7 = 0 waits for the end of its core's part; any other is the RISC-V trap of its mode. The
fault interrupt traps with cause 16 and gives up the instruction the thread waits in. The form of a trap is RISC-V's (log 9).

R41, R42, R387, R392 (log 9): the trap of a refused fetch or access, kind 2 for a fetch, 0 for a read, 1 for a write; mtval is the address. In
U mode it is the page fault of the kind, and where the page is not valid xbpf holds what the run-ahead has collected, nothing for a
fetch; in M mode it is the access fault. A poisoned fetch is cause 26. No byte of memory changes for the core. In M mode xbpfn reads the
number of pages collected, and xbpf one of them each. -/
def Obligations.TrapEntries : Prop :=
  (∀ (s : State),
    let c := s.core s.curCore
    let a := s.ct
    (a.machine = false → a.rx 17 = 0 → exec .ecallEndPart s = .next (onCore s (fun c => { c with ct := { c.ct with ending := true } }))) ∧
    (a.machine = false → a.rx 17 ≠ 0 → ∃ t, exec .ecallEndPart s = .next t ∧ Traps s t 8 0) ∧
    (a.machine = true → ∃ t, exec .ecallEndPart s = .next t ∧ Traps s t 11 0) ∧
    ((∃ k, k < 32 ∧ (c.mt k).code = 4) ∨ (∃ q, q < 6 ∧ (c.queue q).held = true) → a.mie.getLsbD 16 = true → a.active = true →
      c.halted = false → c.stopping = false → a.machine = false ∨ a.mstatus.getLsbD 3 = true →
      ∃ t, exec .faultInterrupt s = .next t ∧ Traps s t 0x8000000000000010 0 ∧ t.ct.stalled = false ∧ t.ct.ending = false ∧
        (t.core s.curCore).got = none ∧ (∀ k n r, .get k n r ∉ (t.core s.curCore).pending) ∧ ∀ o, o ≠ s.curCore → t.core o = s.core o)) ∧
  (∀ (s u : State) (va : Word64) (e : XCause), Coherent s s.curCore →
    let need : BitVec 2 → Need := fun k => { r := k == 0, w := k == 1 }
    (∃ t, exec (.ctPageFault va 3) s = .next t ∧ Traps s t 26 va) ∧
    (s.ct.machine = true → (∃ t, exec (.ctPageFault va 2) s = .next t ∧ Traps s t 1 va) ∧
      (∃ t, exec (.ctPageFault va 0) s = .next t ∧ Traps s t 5 va) ∧ (∃ t, exec (.ctPageFault va 1) s = .next t ∧ Traps s t 7 va)) ∧
    (s.ct.machine = false → ctFetchXlat s s.curCore va.toNat = (.error e, u) →
      ∃ t, exec (.ctPageFault va 2) s = .next t ∧ PageTraps s t 12 va e ∧ (e = .inv → t.ct.xbpf = []) ∧ SeesSame s t s.curCore) ∧
    (s.ct.machine = false → ∀ k : BitVec 2, k ≠ 2 → k ≠ 3 → ctXlat s s.curCore va.toNat (need k) = (.error e, u) →
      ∃ t, exec (.ctPageFault va k) s = .next t ∧ PageTraps s t (if k = 0 then 13 else 15) va e ∧ SeesSame s t s.curCore)) ∧
  (∀ (s : State) (rd : XName) (len : RvLen) (n : Nat), Canonical s → n < 8 →
    let next := s.ct.pc + (match len with
      | .full => 4
      | .comp _ => 2)
    let reads := fun (num : BitVec 12) (v : Word64) => exec (.ctRiscvInstruction (.csr .rs false rd 0 num) len) s = .next (retires s next (fun a => a.wx rd v))
    (s.ct.machine = true → reads 0xFC0 (BitVec.ofNat 64 s.ct.xbpf.length) ∧ reads (0xFC1 + BitVec.ofNat 12 n) (s.ct.xbpf.getD n 0)) ∧
    (s.ct.machine = false → ∃ t, exec (.ctRiscvInstruction (.csr .rs false rd 0 0xFC0) len) s = .next t ∧ Traps s t 2 0))

/-- R144 (log 9): `mret` in M mode undoes a trap: right after one, it returns to the instruction that trapped, in its mode, with MIE as it
was; in U mode it is illegal. -/
def Obligations.TrapReturns : Prop :=
  ∀ (s u : State) (len : RvLen), Canonical s →
    (∀ cause tval, s.ct.machine = true ∨ s.ct.mstatus.getLsbD 17 = false → u = ctTrap s cause tval →
      ∃ t, exec (.ctRiscvInstruction .mret len) u = .next t ∧ t.ct.pc = s.ct.pc ∧ t.ct.machine = s.ct.machine ∧
        t.ct.mstatus.getLsbD 3 = s.ct.mstatus.getLsbD 3 ∧ t.ct.mstatus.getLsbD 7 = true ∧
        (∀ i, i ≠ 3 → i ≠ 7 → i ≠ 11 → i ≠ 12 → t.ct.mstatus.getLsbD i = s.ct.mstatus.getLsbD i) ∧
        t.ct.x = s.ct.x ∧ ∀ o, o ≠ s.curCore → t.core o = s.core o) ∧
    (s.ct.machine = false → ∃ t, exec (.ctRiscvInstruction .mret len) s = .next t ∧ Traps s t 2 0) ∧
    (∃ t, exec (.ctRiscvInstruction .ebreak len) s = .next t ∧ Traps s t 3 0) ∧
    (∀ w, ∃ t, exec (.ctRiscvInstruction (.illegal w) len) s = .next t ∧ Traps s t 2 0)

/-- R144 (log 9): the integer operations complete at every operand; each writes its register, x0 taking none, moves the pc on by its own
length or to its target, and changes nothing else.

R144 (log 9): the float operations are illegal while mstatus.FS is off; otherwise one with a rounding mode rounds its exact result once,
writes it boxed, accrues its flags and leaves FS dirty. -/
def Obligations.RiscvOperations : Prop :=
  (∀ (s : State) (len : RvLen) (rd rs1 rs2 : XName) (imm : BitVec 12) (up jmp : BitVec 20) (sh : BitVec 6) (w : Bool)
      (alu : RvAlu) (mu : RvMul) (b2 : RvB2) (b1 : RvB1) (bi : RvBi) (br : RvBr), Canonical s →
    let a := s.ct.rx rs1
    let b := s.ct.rx rs2
    let i : Word64 := imm.signExtend 64
    let step_ : Word64 := match len with
      | .full => 4
      | .comp _ => 2
    let next := s.ct.pc + step_
    let run := fun (op : RvOp) (pc v : Word64) => exec (.ctRiscvInstruction op len) s = .next (retires s pc (fun c => c.wx rd v))
    let shift := fun (o : RvAlu) (x : Word64) => match o with
      | .sll => x <<< sh.toNat
      | .srl => x >>> sh.toNat
      | .sra => x.sshiftRight sh.toNat
      | _ => rvAlu64 o x (sh.setWidth 64)
    run (.lui rd up) next ((up ++ 0#12).signExtend 64) ∧
    run (.auipc rd up) next (s.ct.pc + (up ++ 0#12).signExtend 64) ∧
    run (.jal rd jmp) (s.ct.pc + jmp.signExtend 64 * 2) next ∧
    run (.jalr rd rs1 imm) ((a + i) &&& ~~~(1 : Word64)) next ∧
    run (.aluImm alu w rd rs1 imm) next (rvAlu alu w a i) ∧
    run (.shiftImm alu false rd rs1 sh) next (shift alu a) ∧
    run (.alu .add false rd rs1 rs2) next (a + b) ∧ run (.alu .sub false rd rs1 rs2) next (a - b) ∧
    run (.alu .add true rd rs1 rs2) next (((a + b).setWidth 32).signExtend 64) ∧
    run (.alu alu w rd rs1 rs2) next (rvAlu alu w a b) ∧
    run (.mul .mul false rd rs1 rs2) next (a * b) ∧
    run (.mul .mulhu false rd rs1 rs2) next (mulHighU a b) ∧ run (.mul .mulh false rd rs1 rs2) next (mulHigh a b) ∧
    run (.mul .div false rd rs1 rs2) next (if b = 0 then -1 else a.sdiv b) ∧
    run (.mul .rem false rd rs1 rs2) next (if b = 0 then a else a.srem b) ∧
    run (.mul .divu false rd rs1 rs2) next (if b = 0 then -1 else a / b) ∧ run (.mul .remu false rd rs1 rs2) next (if b = 0 then a else a % b) ∧
    run (.mul mu w rd rs1 rs2) next (rvMul mu w a b) ∧
    run (.b2 b2 rd rs1 rs2) next (rvB2 b2 a b) ∧ run (.b1 b1 rd rs1) next (rvB1 b1 a) ∧ run (.bi bi rd rs1 sh) next (rvBi bi a sh) ∧
    exec (.ctRiscvInstruction (.branch br rs1 rs2 imm) len) s = .next (retires s (if (match br with
      | .eq => a == b
      | .ne => a != b
      | .lt => a.slt b
      | .ge => !a.slt b
      | .ltu => a.ult b
      | .geu => !a.ult b) then s.ct.pc + i * 2 else next) id)) ∧
  (∀ (s : State) (len : RvLen) (rd rs1 rs2 rs3 : XName) (rm : BitVec 3) (dbl : Bool) (op : RvFop) (fma : RvFma) (m : RMode), Canonical s →
    let f := if dbl then fmtF64 else fmtF32
    let val := fun (r : XName) =>
      let x := s.ct.rf r
      if dbl then f.read x.toNat else if x.extractLsb' 32 32 = BitVec.allOnes 32 then f.read (x.extractLsb' 0 32).toNat else .nan false
    let x := val rs1
    let y := val rs2
    let z := val rs3
    let off := s.ct.mstatus.getLsbD 13 = false ∧ s.ct.mstatus.getLsbD 14 = false
    let mode := if rm = 7 then s.ct.fcsr.extractLsb' 5 3 else rm
    let step_ : Word64 := match len with
      | .full => 4
      | .comp _ => 2
    let gives := fun (i : RvOp) (e : Exact × Nat) =>
      (off → ∃ t, exec (.ctRiscvInstruction i len) s = .next t ∧ Traps s t 2 0) ∧
      (¬ off → 5 ≤ mode.toNat → ∃ t, exec (.ctRiscvInstruction i len) s = .next t ∧ Traps s t 2 0) ∧
      (¬ off → (mode, m) ∈ ([(0, .rne), (1, .rtz), (2, .rdn), (3, .rup), (4, .rna)] : List (BitVec 3 × RMode)) →
        let r := f.put e.1 m 0
        exec (.ctRiscvInstruction i len) s = .next (retires s (s.ct.pc + step_) (fun c =>
          { c.wf rd (if dbl then BitVec.ofNat 64 r.1 else 0xFFFFFFFF#32 ++ BitVec.ofNat 32 r.1) with
            mstatus := c.mstatus ||| 0x6000, fcsr := c.fcsr ||| BitVec.ofNat 32 (r.2 ||| e.2) })))
    gives (.fop op dbl rd rs1 rs2 rm) (match op with
      | .add => exAdd x y m
      | .sub => exAdd x y.neg m
      | .mul => exMul x y
      | .div => exDiv x y
      | .sqrt => exSqrt x) ∧
    gives (.fma fma dbl rd rs1 rs2 rs3 rm) (match fma with
      | .madd => exFma x y z m
      | .msub => exFma x y z.neg m
      | .nmsub => exFma x.neg y z m
      | .nmadd => exFma x.neg y z.neg m))

/-- R23, R41, R60, R101, R106, R392 (log 9): a load or store of the control thread to this device's memory, once each of its pieces
translates. A load writes its register, extended; a store enters the L1, so that its core sees exactly its bytes change, or is still to
enter it (log 52), and the thread's own loads see it. One that meets a poisoned granule traps with cause 26 and has no other effect.
A refused access is the page fault in U mode, with the run-ahead's pages, and the access fault in M mode. -/
def Obligations.ControlThreadAccesses : Prop :=
  ∀ (s u : State) (op : RvMem) (r rs1 : XName) (imm : BitVec 12) (len : RvLen) (l : List (Nat × Nat × Nat × Xlat)) (p : Nat) (e : XCause),
    Coherent s s.curCore →
    let va := (s.ct.rx rs1 + imm.signExtend 64).toNat
    let n := memBytes op
    let store := memIsStore op
    let float := memIsFloat op
    let off := s.ct.mstatus.getLsbD 13 = false ∧ s.ct.mstatus.getLsbD 14 = false
    let next := s.ct.pc + (match len with
      | .full => 4
      | .comp _ => 2)
    let src := if float then s.ct.rf r else s.ct.rx r
    let same := fun (t : State) => CtMoves s t ∧ t.ct.pc = next ∧ SameCt s.ct t.ct
    (float = true → off → ∃ t, exec (.ctLoadStore op r rs1 imm len) s = .next t ∧ Traps s t 2 0) ∧
    (store = false → ¬ (float = true ∧ off) → ctPieces s s.curCore va n { r := true } = (.ok l, u) → PiecesHome s l → NoPoison s →
      plainPieces l = true ∨ s.ct.late = [] →
      ∃ t, ∃ v : BitVec (8 * n), exec (.ctLoadStore op r rs1 imm len) s = .next t ∧ PieceBytes s t l v.toNat ∧ same t ∧ SeesSame s t s.curCore ∧
        (float = false → ∀ k, t.ct.rx k = if k = 0 then 0 else if k = r then
          (match op with
            | .lb => v.signExtend 64
            | .lh => v.signExtend 64
            | .lw => v.signExtend 64
            | _ => v.setWidth 64) else s.ct.rx k) ∧
        (float = true → ∀ k, t.ct.rf k = if k = r then
          (if n = 8 then v.setWidth 64 else 0xFFFFFFFF00000000 ||| v.setWidth 64) else s.ct.rf k)) ∧
    (store = true → ¬ (float = true ∧ off) → ctPieces s s.curCore va n { w := true } = (.ok l, u) → PiecesHome s l → NoPoison s →
      s.ct.late = [] → s.sched.head? ≠ some .delay →
      ∃ t, exec (.ctLoadStore op r rs1 imm len) s = .next t ∧ same t ∧ t.ct.x = s.ct.x ∧ t.ct.f = s.ct.f ∧
        (Steady s t → ∀ pa, Quiet s s.curCore pa →
          (∀ q ∈ l, q.2.2.2.pa ≤ pa → pa < q.2.2.2.pa + q.2.2.1 →
            (∀ q' ∈ l, q' ≠ q → ¬ (q'.2.2.2.pa ≤ pa ∧ pa < q'.2.2.2.pa + q'.2.2.1)) →
            seenByte t s.curCore pa = BitVec.ofNat 8 (src.toNat / 2 ^ (8 * (q.2.1 + (pa - q.2.2.2.pa))))) ∧
          ((∀ q ∈ l, ¬ (q.2.2.2.pa ≤ pa ∧ pa < q.2.2.2.pa + q.2.2.1)) → seenByte t s.curCore pa = seenByte s s.curCore pa))) ∧
    (∀ sc, store = true → ¬ (float = true ∧ off) → s.ct.machine = true → ctPieces s s.curCore va n { w := true } = (.ok l, u) →
      PiecesHome s l → NoPoison s → s.sched = .delay :: sc →
      exec (.ctLoadStore op r rs1 imm len) s = .next (onCore (retires { s with sched := sc } next id) (fun c => { c with ct := { c.ct with
        late := c.ct.late ++ [l.map (fun q => { pa := q.2.2.2.pa, bytes := leBytes q.2.2.1 (src.toNat / 2 ^ (8 * q.2.1)), va := q.1 })] } }))) ∧
    (∀ q, ¬ (float = true ∧ off) → ctPieces s s.curCore va n { r := !store, w := store } = (.ok [q], u) → PiecesHome s [q] →
      s.ct.late = [] → q.2.2.2.pa % 128 + n ≤ 128 → PiecePoisoned s q →
      ∃ t, exec (.ctLoadStore op r rs1 imm len) s = .next t ∧ Traps s t 26 (BitVec.ofNat 64 va)) ∧
    (¬ (float = true ∧ off) → ctPieces s s.curCore va n { r := !store, w := store } = (.error (p, e), u) →
      (s.ct.machine = true → ∃ t, exec (.ctLoadStore op r rs1 imm len) s = .next t ∧ Traps s t (if store then 7 else 5) (BitVec.ofNat 64 p)) ∧
      (s.ct.machine = false → ∃ t, exec (.ctLoadStore op r rs1 imm len) s = .next t ∧ PageTraps s t (if store then 15 else 13) (BitVec.ofNat 64 p) e ∧ SeesSame s t s.curCore))

/-- R109, R110, R118, R122, R124 (log 9): the control thread's atomics on this device's memory. An AMO reads and writes at the home; LR
places the reservation of its sector; SC writes and gives 0 where it is still there, and gives 1 and writes nothing where it is not. A
misaligned address traps. With rl, the release comes first: from DIE up it leaves no line of the core's L1 dirty, and the instruction waits
while an access that it has to wait for is unanswered. -/
def Obligations.ControlThreadAtomics : Prop :=
  ∀ (s u : State) (op : RvAmo) (dbl aq rl : Bool) (rd rs1 rs2 : XName) (x : Xlat), Coherent s s.curCore → NoPoison s →
    let n := if dbl then 8 else 4
    let va := (s.ct.rx rs1).toNat
    let within := fun pa => x.pa ≤ pa ∧ pa < x.pa + n
    let first := if rl then releaseWork s s.curCore s.ct.scope else s
    let acked := rl = false ∨ postedCount s s.curCore 32 s.ct.scope = 0
    let put := fun (t : State) (v : BitVec (8 * n)) => ∀ k, t.ct.rx k = if k = 0 then 0 else if k = rd then v.signExtend 64 else s.ct.rx k
    let reads := fun (t : State) (v : BitVec (8 * n)) => Steady s t → ∀ j, j < n → Quiet s s.curCore (x.pa + j) →
      BitVec.ofNat 8 (v.toNat / 2 ^ (8 * j)) = seenByte s s.curCore (x.pa + j)
    let frame := fun (t : State) (written : Prop) => CtMoves s t ∧ t.ct.pc = nextPc s ∧ SameCt s.ct t.ct ∧ t.ct.f = s.ct.f ∧
      (rl = true → 2 ≤ scopeRank s.ct.scope → ∀ line, ((t.core s.curCore).line line).dirty = 0) ∧
      (Steady s t → ∀ pa, ¬ (written ∧ within pa) → Quiet s s.curCore pa → seenByte t s.curCore pa = seenByte s s.curCore pa)
    let y : BitVec (8 * n) := (s.ct.rx rs2).setWidth (8 * n)
    let new := fun (v : BitVec (8 * n)) => ctAmoWord op v y
    let ok := fun (need : Need) => ctXlat first s.curCore va need = (.ok x, u) ∧ x.dev = none ∧ windowOf s x.pa ≠ .device
    (acked → va % n = 0 → ok rw_ → ∃ t, ∃ v : BitVec (8 * n), exec (.ctAmo op dbl aq rl rd rs1 rs2) s = .next t ∧ reads t v ∧ put t v ∧
      frame t True ∧ ∀ j, j < n → homeByte t (x.pa + j) = BitVec.ofNat 8 ((new v).toNat / 2 ^ (8 * j))) ∧
    (acked → va % n = 0 → ok { r := true } → ∃ t, ∃ v : BitVec (8 * n), exec (.ctLr dbl aq rl rd rs1) s = .next t ∧ reads t v ∧ put t v ∧
      frame t False ∧ t.ct.resv = some (x.pa / 32)) ∧
    (acked → va % n = 0 → ok { w := true } → ((s.core s.curCore).line (x.pa / 128)).dirty = 0 → ∀ held : Bool,
      (s.ct.resv = some (x.pa / 32) ↔ held = true) →
      ∃ t, exec (.ctSc dbl aq rl rd rs1 rs2) s = .next t ∧ put t (if held then 0 else 1) ∧ frame t (held = true) ∧ t.ct.resv = none ∧
        (held = true → ∀ j, j < n → homeByte t (x.pa + j) = BitVec.ofNat 8 (y.toNat / 2 ^ (8 * j)))) ∧
    (acked → va % n ≠ 0 → (∃ t, exec (.ctAmo op dbl aq rl rd rs1 rs2) s = .next t ∧ Traps s t 6 (s.ct.rx rs1)) ∧
      (∃ t, exec (.ctLr dbl aq rl rd rs1) s = .next t ∧ Traps s t 4 (s.ct.rx rs1)) ∧
      (∃ t, exec (.ctSc dbl aq rl rd rs1 rs2) s = .next t ∧ Traps s t 6 (s.ct.rx rs1))) ∧
    (¬ acked → exec (.ctAmo op dbl aq rl rd rs1 rs2) s = .next first ∧ exec (.ctLr dbl aq rl rd rs1) s = .next first ∧
      exec (.ctSc dbl aq rl rd rs1 rs2) s = .next first)

/-- R109: a fence of the control thread whose predecessor set has W, at a scope from DIE up, leaves no dirty byte in the L1 (R118), and any
other moves nothing; it waits while an access that its scope covers is unanswered (R117); `fence.i` only goes on. As its core sees memory
nothing changes.

R380, R387: xbscope takes a scope code in either mode, and 7 leaves it; a write of xbresume, in M mode alone, makes each faulted
micro-thread that it names ready, but for kinds 17 and 18, and its skip bit counts for kind 15. -/
def Obligations.FencesAndXbamrothCsrs : Prop :=
  (∀ (s : State) (tso : Bool) (pred succ : BitVec 4) (rd rs1 : XName) (imm : BitVec 12), Coherent s s.curCore →
    let i : Instr := .ctFence tso pred succ rd rs1
    let w := tso || pred.getLsbD 0
    let scope := s.ct.scope
    exec (.ctFenceI rd rs1 imm) s = .next (retires s (nextPc s) id) ∧
    (w = false ∨ scope = .mt ∨ scope = .core → exec i s = .next (retires s (nextPc s) id)) ∧
    (w = true → scope ≠ .mt → scope ≠ .core → postedCount s s.curCore 32 scope = 0 →
      ∃ t, exec i s = .next t ∧ CtMoves s t ∧ t.ct.pc = nextPc s ∧ SameCt s.ct t.ct ∧ t.ct.x = s.ct.x ∧ t.ct.f = s.ct.f ∧
        (∀ line, ((t.core s.curCore).line line).dirty = 0) ∧ SeesSame s t s.curCore) ∧
    (w = true → 0 < postedCount s s.curCore 32 scope →
      ∃ t, exec i s = .next t ∧ CtMoves s t ∧ t.ct = { s.ct with resv := t.ct.resv } ∧ SeesSame s t s.curCore)) ∧
  (∀ (s : State) (op : RvCsr) (imm : Bool) (rd rs1 : XName), Canonical s →
    let c := s.core s.curCore
    let src : Word64 := if imm then rs1.setWidth 64 else s.ct.rx rs1
    let new := fun (old : Word64) => match op with
      | .rw => src
      | .rs => old ||| src
      | .rc => old &&& ~~~src
    let writes := op = .rw ∨ rs1 ≠ 0
    let v := new (s.ct.xbscope.setWidth 64)
    let u := new 0
    let named := fun k => k < 32 ∧ u.getLsbD k = true ∧ (c.mt k).code = 4 ∧ kindOf (c.mt k).record ≠ 17 ∧ kindOf (c.mt k).record ≠ 18
    exec (.xbscopeWrite op imm rd rs1) s = .next (retires s (nextPc s) (fun a =>
      { a.wx rd (a.xbscope.setWidth 64) with xbscope := if (op == .rw || rs1 != 0) && v.toNat % 8 != 7 then v.setWidth 3 else a.xbscope })) ∧
    (s.ct.machine = false → ∃ t, exec (.xbresumeWrite op imm rd rs1) s = .next t ∧ Traps s t 2 0) ∧
    (s.ct.machine = true → twf ({} : Mt) c.mts = true → ∃ t, exec (.xbresumeWrite op imm rd rs1) s = .next t ∧
      t.ct = (retires s (nextPc s) (fun a => a.wx rd 0)).ct ∧
      ∀ k, (writes ∧ named k → (t.core s.curCore).mt k =
          { c.mt k with code := 1, skip := u.getLsbD (32 + k) && kindOf (c.mt k).record == 15 }) ∧
        (¬ (writes ∧ named k) → (t.core s.curCore).mt k = c.mt k)))

/-! ## Events of convoys and of their boundaries (R147, R153 to R171, R193, R377, R381, R388, R392) -/

/-- R147, R165, R193, R212, R244, R318, R373, R381: a lane issues the ready micro-thread that issued the longest ago, which then is its
latest, unless a check of the convoy may still keep it from issuing (R56, R328, log 28), or that one faults at decode, shape or a `brk`; a
convoy that keeps its place commits all it did together and goes on, one that must wait for a tag is given back with no effect and no count,
and one that faults leaves its record and nothing else. Which of the members' faults that is, the one of the lowest phase and of those the first, is log 13; that a
wait for a tag hides the later phases is too. -/
def Obligations.ConvoyEvents : Prop :=
  ∀ s : State,
    let core := s.here.core
    let c := s.core core
    let cv := s.cv
    let m0 := (s.core cv.core).mt cv.mt
    let next := cv.head + BitVec.ofNat 64 (4 * cv.words.length)
    (∀ j k ws, twf ({} : Mt) c.mts = true → Turn c (s.here.idx % 8) j → (c.mt j).nextWords = some (k, ws) →
      let m := c.mt j
      let d := decodeConvoy (decEnv c m) k ws
      let n := shpRows m.regs.shp * shpCols m.regs.shp
      (∀ ms, d = .ok ms → shapeBad n 0 ms = none → (∀ x ∈ ms, isBrk x.i = false) ∨ m.skip = true → m.late = [] ∨ ms.all overtakes = true →
        let tag := ms.any (fun x => decides x.i)
        ∃ t, exec .convoyIssue s = .next t ∧ t = { s with cv := t.cv, cores := t.cores } ∧
          t.cv = { live := true, core := core, mt := j, head := m.next, words := ws, todo := ws, nmemb := ms.length, shp := m.regs.shp
                   wb := m.regs.wb, work := m.regs, talus := m.talus, fifo := m.fifo, skipBrk := m.skip, trial := runsTwice ms
                   counted := !tag, before := if tag then some (c.stale, c.lreq, c.xreq, c.smpcnt) else none } ∧
          ((t.core core).mt j).code = 2 ∧ ((t.core core).mt j).regs = m.regs ∧
          (t.core core).recency = (if tag then c.recency else c.recency.filter (fun i => i != j) ++ [j]) ∧
          (∀ i, i ≠ j → (t.core core).mt i = c.mt i) ∧ ∀ o, o ≠ core → t.core o = s.core o) ∧
      (∀ a cause, m.late = [] → d = .error (a, cause) → ∃ t, exec .convoyIssue s = .next t ∧
        Faulted s t core j (fun r => kindOf r = 1 ∧ subOf r = cause.code ∧ r.getD 1 0 = m.next)) ∧
      (∀ ms a w, m.late = [] → d = .ok ms → shapeBad n 0 ms = some (a, w) → ∃ t, exec .convoyIssue s = .next t ∧
        Faulted s t core j (fun r => kindOf r = 2 ∧ r.getD 1 0 = m.next)) ∧
      (∀ ms a code, m.late = [] → d = .ok ms → shapeBad n 0 ms = none → findBrk ms = some (a, code) → m.skip = false →
        (c.dbgctl.getLsbD 1 = false → ∃ t, exec .convoyIssue s = .next t ∧
          Faulted s t core j (fun r => kindOf r = 15 ∧ r.getD 1 0 = m.next ∧ r.getD 2 0 = BitVec.ofNat 64 code)) ∧
        (c.dbgctl.getLsbD 1 = true → ∃ t, exec .convoyIssue s = .next t ∧ OneCore s t core ∧
          t.core core = { c with halted := true, dbgctl := c.dbgctl ||| 1 }))) ∧
    (cv.live = true → cv.brkArmed = false → cv.wait = .issue → ∃ t, exec .convoyRetire s = .next t ∧
      t = { s with cv := {}, cores := t.cores } ∧
      (t.core cv.core).mt cv.mt = { m0 with code := 3, tagWait := cv.need, pend := ((t.core cv.core).mt cv.mt).pend } ∧
      ((t.core cv.core).stale, (t.core cv.core).lreq, (t.core cv.core).xreq, (t.core cv.core).smpcnt) =
        cv.before.getD ((s.core cv.core).stale, (s.core cv.core).lreq, (s.core cv.core).xreq, (s.core cv.core).smpcnt) ∧
      (∀ n, n < 8 → ((t.core cv.core).mt cv.mt).pend.getLsbD n = (m0.pend.getLsbD n && !cv.arrived.contains n)) ∧
      (∀ i, i ≠ cv.mt → (t.core cv.core).mt i = (s.core cv.core).mt i) ∧ ∀ o, o ≠ cv.core → t.core o = s.core o) ∧
    (Retiring s → cv.wait = .none → cv.tens0 = none → cv.stores = [] → cv.cleans = [] → cv.vpk = [] → cv.enq = [] → cv.sregs = [] →
      cv.send = none → cv.attach = none →
      let m := fun (t : State) => (t.core cv.core).mt cv.mt
      (cv.ctl = .seq → next % 128 ≠ 0 → ∃ t, exec .convoyRetire s = .next t ∧ Commits s t ∧
        (m t).code = 1 ∧ (m t).next = next ∧ (m t).lode = m0.lode) ∧
      (cv.ctl = .stop → m0.lodeq = [] → ∃ t, exec .convoyRetire s = .next t ∧ Commits s t ∧ (m t).code = 0 ∧ (m t).lode = none) ∧
      (∀ n, cv.ctl = .trap n → n < 2 ^ 64 → next % 128 ≠ 0 → ∃ t, exec .convoyRetire s = .next t ∧ Commits s t ∧
        (m t).code = 4 ∧ (m t).next = next ∧ kindOf (m t).record = 14 ∧ (m t).record.getD 2 0 = BitVec.ofNat 64 n)) ∧
    (cv.brkArmed = false → cv.counted = true → m0.late = [] → ∀ pre p r post,
      (if cv.wait = .issue then cv.cands.filter (fun x => decide (x.1 ≤ 4)) else cv.cands) = pre ++ (p, r) :: post →
      (∀ x ∈ pre, p < x.1) → (∀ x ∈ post, p ≤ x.1) →
      ∃ t, exec .convoyFault s = .next t ∧ t = { s with cv := {}, cores := t.cores, sched := t.sched } ∧
        Faulted s t cv.core cv.mt (fun x => x = r) ∧
        (kindOf r ≠ 17 → t.sched = s.sched) ∧ (kindOf r = 17 → t.sched = .event { core := cv.core, idx := cv.mt } .gangStop :: s.sched))

/-- R78, R79, R93, R102, R112, R126, R165, R168, R348, R370: a convoy that retires performs what it staged: its stores enter the L1, its
ranges are cleaned, its packets leave; its entries join their queues, its core-scope registers and the next micro-thread's FIFO take their
values, and an attach is granted from the free slabs, in log 28's order.

R150, R154, R364 to R366: where it goes on: at the target of a jump, which has to be a convoy start, in the lode it is in or in one that is
fetched; at a lode that is fetched again; behind its last word, also where that crosses the lode's end; after a `yield` behind the others
of its lane that are ready. R171: one whose barrier is complete counts it, behind the others that wait for the same instance, which retire
in ascending order with it (R280, log 53), and one whose barrier is not waits on. A convoy that waited goes
on where it stopped, and one that runs twice begins its second run (log 28). -/
def Obligations.RetirementEffects : Prop :=
  (∀ s : State, Retiring s → s.cv.wait = .none → s.cv.tens0 = none → s.cv.ctl = .seq → (∀ e ∈ s.cv.enq, e.2.was = []) →
    let cv := s.cv
    let next := cv.head + BitVec.ofNat 64 (4 * cv.words.length)
    next % 128 ≠ 0 →
    let u := memoryOf s
    let c := u.core cv.core
    let m := c.mt cv.mt
    let old := ((s.core cv.core).mt cv.mt).regs.mgr.toNat
    let q := cv.attach.getD 0
    let free := freeSlabs s cv.core
    let grant := if (s.core cv.core).info.mat then max old (min q (old + 32 * free)) else old
    ∃ t, exec .convoyRetire s = .next t ∧ t = { u with cores := t.cores } ∧ (∀ o, o ≠ cv.core → t.core o = u.core o) ∧
      let c' := t.core cv.core
      let m' := c'.mt cv.mt
      c'.l1 = c.l1 ∧ m'.code = 1 ∧ m'.next = next ∧ m'.talus = cv.talus ∧
      (∀ o, tget 0 c'.scratch o = scrByte s o) ∧ (∀ n, tget 0 c'.acc n = seeAcc s n) ∧
      m'.regs = (if cv.attach = none then cv.work else { cv.work with mgr := BitVec.ofNat 32 grant }) ∧
      m'.slabs = m.slabs + (if cv.attach = none then 0 else (grant - old) / 32) ∧
      (∀ n, (c'.queue n).count = (c.queue n).count ∧
        (c'.queue n).entries.drop (c.queue n).entries.length = (cv.enq.filter (fun e => e.1 == n)).map Prod.snd) ∧
      (∀ x, cv.stagedSreg 0x21 = some x → c'.stale = x.setWidth 32) ∧
      (∀ x, cv.stagedSreg 0x28 = some x → c'.rngc0 = x) ∧ (∀ x, cv.stagedSreg 0x29 = some x → c'.rngc1 = x) ∧
      (∀ x, cv.stagedSreg 0x2A = some x → c'.rngk0 = x) ∧ (∀ x, cv.stagedSreg 0x2B = some x → c'.rngk1 = x) ∧
      (∀ n x, n < 6 → cv.stagedSreg (0x30 + n) = some x → (c'.queue n).qst = x.setWidth 32) ∧
      (∀ x, cv.sregs.filter (fun e => e.1 == 0x20) = [(0x20, x)] → c'.ictl = x.setWidth 32 &&& (0xFFFFFFFD ||| c.ictl)) ∧
      (∀ v, cv.send = some v → let dst := c.linkNext cv.mt
        dst ≠ cv.mt → (c'.mt dst).fifo = (c.mt dst).fifo ++ [v])) ∧
  (∀ (s u : State) (va : Word64) (word : Word32) (l : Lode) (e : XCause), Retiring s → s.cv.wait = .none →
    let cv := s.cv
    let m0 := (s.core cv.core).mt cv.mt
    let next := cv.head + BitVec.ofNat 64 (4 * cv.words.length)
    let block := va / 128 * 128
    let at_ := (va - block).toNat / 4
    let s0 := { s with cv := ({} : Convoy) }
    let m := fun (t : State) => (t.core cv.core).mt cv.mt
    let goes := fun (x : Word64) (y : Option Lode) => ∃ t, exec .convoyRetire s = .next t ∧ (m t).code = 1 ∧ (m t).next = x ∧ (m t).lode = y ∧
      (m t).parked = none ∧ (cv.attach = none → (m t).regs = cv.work)
    let fails := fun (kind : Nat) => ∃ t, exec .convoyRetire s = .next t ∧ (m t).code = 4 ∧ kindOf (m t).record = kind ∧ (m t).next = cv.head ∧
      (m t).regs = m0.regs ∧ ∀ o, seenByte t cv.core o = seenByte { u with cv := {} } cv.core o
    let jumps := cv.ctl = .jump va word ∨ (cv.ctl = .seq ∧ next % 128 = 0 ∧ va = next)
    (jumps → va % 4 = 0 → m0.lode = some l → l.va = block →
      (startBad l at_ = none → goes va (some l)) ∧ (startBad l at_ ≠ none → u = s → fails 1)) ∧
    (jumps → va % 4 = 0 → (∀ x, m0.lode = some x → x.va ≠ block) →
      (fetchLode s0 cv.core block = (.ok l, u) → (startBad l at_ = none → goes va (some l)) ∧ (startBad l at_ ≠ none → fails 1)) ∧
      (fetchLode s0 cv.core block = (.error e, u) → fails 3)) ∧
    (cv.ctl = .jump va word → va % 4 ≠ 0 → u = s → fails 1) ∧
    (cv.ctl = .lfetch va →
      (va % 128 ≠ 0 → u = s → fails 13) ∧ (va % 128 = 0 → fetchLode s0 cv.core va = (.ok l, u) → goes va (some l)) ∧
      (va % 128 = 0 → fetchLode s0 cv.core va = (.error e, u) → fails 3)) ∧
    (cv.ctl = .yield → next % 128 ≠ 0 → goes next m0.lode ∧ ∀ t, exec .convoyRetire s = .next t → (m t).yieldLeft = 3)) ∧
  (∀ (s : State) (n k : Nat), Retiring s → s.cv.wait = .bar n k →
    let cv := s.cv
    let m0 := (s.core cv.core).mt cv.mt
    let next := cv.head + BitVec.ofNat 64 (4 * cv.words.length)
    (barComplete s cv.core n k = true → cv.final = true ∨ barPeers s cv.core n = [] → cv.ctl = .seq → next % 128 ≠ 0 → n < 8 → ∃ t, exec .convoyRetire s = .next t ∧
      let m := (t.core cv.core).mt cv.mt
      m.code = 1 ∧ m.next = next ∧ tget 0 m.bars n = tget 0 m0.bars n + 1 ∧ m.pend.getLsbD n = false ∧ (cv.attach = none → m.regs = cv.work)) ∧
    (barComplete s cv.core n k = true → cv.final = false → barPeers s cv.core n ≠ [] → cv.todo = [] → ∃ t p, exec .convoyRetire s = .next t ∧
      t = { s with cv := {}, cores := t.cores, sched := t.sched } ∧
      (t.core cv.core).mt cv.mt = { m0 with parked := some p, code := 3 } ∧ p.wait = .bar n k ∧ p.work = cv.work ∧ p.stores = cv.stores ∧
      (∀ x, x = (cv.core, cv.mt) ∨ x ∈ barPeers s cv.core n → .event { core := x.1, idx := x.2 } .convoyRetire ∈ t.sched) ∧
      (∀ i, i ≠ cv.mt → (t.core cv.core).mt i = (s.core cv.core).mt i) ∧ ∀ o, o ≠ cv.core → t.core o = s.core o) ∧
    (barComplete s cv.core n k = false → cv.final = false → ∃ t p, exec .convoyRetire s = .next t ∧ t = { s with cv := {}, cores := t.cores } ∧
      (t.core cv.core).mt cv.mt = { m0 with parked := some p, code := 3 } ∧ p.wait = .bar n k ∧ p.work = cv.work ∧ p.stores = cv.stores ∧
      (∀ i, i ≠ cv.mt → (t.core cv.core).mt i = (s.core cv.core).mt i) ∧ ∀ o, o ≠ cv.core → t.core o = s.core o)) ∧
  (∀ (s : State) (p : Convoy), s.cv.live = false → ((s.core s.here.core).mt s.here.idx).parked = some p → p.core = s.here.core → p.mt = s.here.idx →
    p.todo ≠ [] → ∃ t, exec .convoyRetire s = .next t ∧ t = { s with cv := p, cores := t.cores } ∧
      (t.core p.core).mt p.mt = { (s.core p.core).mt p.mt with parked := none, code := 2 } ∧ ∀ o, o ≠ p.core → t.core o = s.core o) ∧
  (∀ s : State, s.cv.live = true → s.cv.brkArmed = false → s.cv.counted = true → s.cv.trial = true → s.cv.wait = .none →
    let m := (s.core s.cv.core).mt s.cv.mt
    ∃ t, exec .convoyRetire s = .next t ∧ t.cv.live = true ∧ t.cv.final = true ∧ t.cv.trial = false ∧ t.cv.todo = s.cv.words ∧ t.cv.work = m.regs ∧
      t.cv.stores = [] ∧ t.cv.vpk = [] ∧ t.cv.reads = s.cv.reads ∧ t.cv.seen = s.cv.seen ∧ t = { s with cv := t.cv, cores := t.cores })

/-- R388, R390, R392: a detected error re-issues a convoy once, counted, and a second one faults it with kind 16; a convoy that has read a
poisoned granule, which no earlier check keeps from it, faults with kind 17, and its gang stops next; one that has not stays as it was (log 32).

R389, R391: an uncorrectable error drops a granule that another place holds, so that no byte changes, and poisons one that it alone
held; a span entry with CRIT = 1 is read from its other copy, until that is lost too (R22); that its first loss counts as a corrected error is
log 41.

R27, R388, R395 (log 50): a corrected error, and a parity error, which drops its entry, count in their registers. -/
def Obligations.HardwareErrors : Prop :=
  (∀ (s : State) (mirror : Bool) (member : BitVec 2) (group : BitVec 3),
    let core := s.here.core
    let i := s.here.idx
    let c := s.core core
    let m := c.mt i
    let off := if mirror then 0x10 else 0
    mtReady c i = true → c.issues i = true → m.late = [] →
    ((mirror = true → c.info.mir = true) →
      (m.retry = false → ∃ t, exec (.convoyReissue mirror member group) s = .next t ∧ t = { s with cores := t.cores, events := t.events } ∧
        (t.core core).mt i = { m with retry := true } ∧ (∀ n, n ≠ i → (t.core core).mt n = c.mt n) ∧
        tget 0 (t.core core).rel off = tget 0 c.rel off + (if mirror || s.here.sub == 0 then 1 else 0) ∧
        tget 0 (t.core core).rel 8 = tget 0 c.rel 8 + 1 ∧ ∀ o, o ≠ core → t.core o = s.core o) ∧
      (m.retry = true → ∃ t, exec (.convoyReissue mirror member group) s = .next t ∧
        Faulted s t core i (fun r => kindOf r = 16 ∧ subOf r = (if mirror then 1 else 0) ∧ r.getD 1 0 = m.next ∧
          r.getD 2 0 = BitVec.ofNat 64 (member.toNat + group.toNat * 256))))) ∧
  (∀ (s : State) (loc : Place) (sub a p : Nat) (cv : Convoy) (pre post : List (Nat × List Word64)) (r : List Word64),
    let core := s.here.core
    let i := s.here.idx
    let read := kindOf r = 17 ∧ subOf r = sub ∧ (r.getD 2 0).toNat = a
    (poisonAt s loc = none ∨ ranConvoy s core i = none → exec (.poisonConsume loc) s = .next s) ∧
    (poisonAt s loc = some (sub, a) → ranConvoy s core i = some cv →
      (cv.cands = [] → exec (.poisonConsume loc) s = .next s) ∧
      (cv.cands = pre ++ (p, r) :: post → (∀ x ∈ pre, p < x.1) → (∀ x ∈ post, p ≤ x.1) →
        (¬ read → exec (.poisonConsume loc) s = .next s) ∧
        (read → cv.counted = true → ((s.core core).mt i).late = [] → ∃ t, exec (.poisonConsume loc) s = .next t ∧ Faulted s t core i (fun x => x = r) ∧
          Next t { core := core, idx := i } .gangStop)))) ∧
  (∀ (s : State) (core mt a w pa die ctx idx : Nat),
    let c := s.core core
    let line := pa / 128
    let k := pa % 128 / 32
    let run := fun (p : Place) => exec (.doubleBitError p) s
    let entry := spanKey die ctx idx
    let crit := (tget 0 s.span entry).getLsbD 62
    let pool := fun (p : Place) (off : Nat) => ∃ t, run p = .next t ∧ t = { s with cores := t.cores, events := t.events } ∧
      t.core core = { c with poolPoison := (t.core core).poolPoison, rel := (t.core core).rel } ∧ off / 8 * 8 ∈ (t.core core).poolPoison ∧
      (∀ o ∈ c.poolPoison, o ∈ (t.core core).poolPoison) ∧ ∀ o, o ≠ core → t.core o = s.core o
    pool (.reg core mt a w) ((mt * c.info.p + a) * 512 + 8 * w) ∧ pool (.scratch core a) (c.scrBase + a) ∧ pool (.acc core a) (c.accBase + a) ∧
    pool (.talus core mt a) (c.talusAt mt a) ∧
    (∀ v, (c.mt mt).fifo[a / 512]? = some v → ∃ t v', run (.link core mt a) = .next t ∧ ((t.core core).mt mt).fifo[a / 512]? = some v' ∧
      v'.val = v.val ∧ v'.poison.getLsbD (a % 512 / 8) = true) ∧
    ((c.line line).dirty.extractLsb' (32 * k) 32 = 0 → ∃ t, run (.l1 core pa) = .next t ∧ OneCore s t core ∧
      ((t.core core).line line).valid.getLsbD k = false ∧ (Coherent s core → ∀ q, seenByte t core q = seenByte s core q)) ∧
    ((c.line line).dirty.extractLsb' (32 * k) 32 ≠ 0 → ∃ t, run (.l1 core pa) = .next t ∧ ((t.core core).line line).poison.getLsbD k = true ∧
      ∀ q, seenByte t core q = seenByte s core q) ∧
    (((s.slice line).dirty ||| (s.slice line).guarded).extractLsb' (32 * k) 32 = 0 → ∃ t, run (.slice pa) = .next t ∧ t = { s with slices := t.slices } ∧
      (∀ j, j < 32 → (t.slice line).held.getLsbD (32 * k + j) = false) ∧ (s.settles = [] → CleanSlices s → ∀ q, homeByte t q = homeByte s q)) ∧
    (((s.slice line).dirty ||| (s.slice line).guarded).extractLsb' (32 * k) 32 ≠ 0 → (s.slice line).held.extractLsb' (32 * k) 32 ≠ 0 →
      ∃ t, run (.slice pa) = .next t ∧ (t.slice line).poison.getLsbD k = true ∧ ∀ q, homeByte t q = homeByte s q) ∧
    (InMem s pa → ∃ t, run (.array pa) = .next t ∧ pa / 32 ∈ t.arrPoison ∧ t.arrays = s.arrays ∧ t.cores = s.cores) ∧
    (∃ t, run (.lodeLine core pa) = .next t ∧ OneCore s t core ∧ ∀ e, e ∈ (t.core core).lodeCache ↔ e ∈ c.lodeCache ∧ e.1 ≠ line) ∧
    (crit = true → tget 0 s.spanErr entry = 0 → ∃ t, run (.span die ctx idx) = .next t ∧ t.span = s.span ∧
      (∀ n va need, spanXlat t die n va need = spanXlat s die n va need) ∧ tget 0 t.rel (die * 64) = tget 0 s.rel (die * 64) + 1) ∧
    (crit = false ∨ tget 0 s.spanErr entry ≠ 0 → ∃ t, run (.span die ctx idx) = .next t ∧ t.span = s.span ∧
      (ctxValid s ctx = true → idx < 65536 → spanXlat t die ctx (idx * 2 ^ 25) { r := true } = .error .unst)) ∧
    (∃ t, hwEvent s (.corrected (.l1 core pa)) = t ∧ t = { s with cores := t.cores, events := t.events } ∧
      t.core core = { c with rel := (t.core core).rel } ∧ tget 0 (t.core core).rel 0 = tget 0 c.rel 0 + 1) ∧
    (a < c.tlb.length → ∃ t, hwEvent s (.tlbParity core a) = t ∧ t = { s with cores := t.cores, events := t.events } ∧
      t.core core = { c with tlb := c.tlb.eraseIdx a, rel := (t.core core).rel } ∧ tget 0 (t.core core).rel 0x28 = tget 0 c.rel 0x28 + 1))

/-- R153, R156 to R158, R168, R171, R377: what reaches a micro-thread at its boundary: its next lode and that lode's words, requests of
the control thread in their order, a stop, the end of a link wait, the completion of a barrier, whose convoys retire next (log 53). -/
def Obligations.BoundaryEvents : Prop :=
  ∀ s : State,
    let core := s.here.core
    let i := s.here.idx
    let c := s.core core
    let m := c.mt i
    let va := m.next / 128 * 128
    let lv := s.here.sub
    let inst := tget 0 c.seen lv + 1
    (∀ q arg rest, m.code = 0 → m.lodeq = (q, arg) :: rest → ∃ t, exec .lodeTake s = .next t ∧ OneCore s t core ∧
      (t.core core).mt i = { m with
        lode := none, lodeq := rest, next := q, code := 3, moves := c.movesNext i m.lodeq, regs := ((t.core core).mt i).regs } ∧
      (arg = none → ((t.core core).mt i).regs = m.regs) ∧
      (∀ x, arg = some x → ((t.core core).mt i).regs = { m.regs with g := ((t.core core).mt i).regs.g } ∧
        ∀ n, ((t.core core).mt i).regs.rg n = if n = 63 then x else m.regs.rg n)) ∧
    (m.code = 1 ∨ m.code = 3 → m.lode = none → m.parked = none → m.late = [] → Canonical s →
      let look := spanXlat s (dieOf core) (s.ctxOf core) va.toNat { x := true, localOnly := true }
      (∀ x, look = .ok x → NoPoison s → s.vrst = [] → (∀ e ∈ c.lodeCache, e.1 ≠ x.pa / 128) →
        ∃ t l, exec .lodeFill s = .next t ∧ (t.core core).mt i = { m with lode := some l, code := 1 } ∧ l.va = va ∧
          (∀ k j, k < 32 → j < 4 → BitVec.ofNat 8 ((l.words.getD k 0).toNat / 2 ^ (8 * j)) = homeByte s (x.pa + 4 * k + j)) ∧
          (Steady s t → ∀ pa, homeByte t pa = homeByte s pa)) ∧
      (∀ e, look = .error e → ∃ t, exec .lodeFill s = .next t ∧ Faulted s t core i (fun r => kindOf r = 3 ∧ r.getD 1 0 = m.next))) ∧
    (∀ pre n x post, c.pending = pre ++ .put i n x :: post → (∀ p ∈ pre, p.of i = false) → m.parked = none → m.late = [] →
      ∃ t, exec .mtPutApply s = .next t ∧ OneCore s t core ∧ (t.core core).pending = pre ++ post ∧
      (∀ k, ((t.core core).mt i).regs.rg k = if k = 0 then 0 else if k = n then x else m.regs.rg k) ∧
      ∀ o, o ≠ i → (t.core core).mt o = c.mt o) ∧
    (∀ pre n rd post, c.pending = pre ++ .get i n rd :: post → (∀ p ∈ pre, p.of i = false) → m.late = [] → ∃ t, exec .mtGetSample s = .next t ∧
      OneCore s t core ∧ t.core core = { c with got := some (rd, m.regs.rg n), pending := pre ++ post }) ∧
    (∀ pre post, c.pending = pre ++ .stop i :: post → (∀ p ∈ pre, p.of i = false) → i < c.info.n → m.late = [] →
      (m.parked = none ∨ ∃ p, m.parked = some p ∧ p.waitsOpen = true → ∃ t, exec .mtStopApply s = .next t ∧
        OneCore s t core ∧ (t.core core).pending = pre ++ post ∧
        let m' := (t.core core).mt i
        m'.code = 0 ∧ m'.lodeq = [] ∧ m'.lode = none ∧ m'.parked = none ∧ m'.regs = m.regs ∧
        (∀ n, n < 8 → tget 0 m'.bars n = tget 0 m.bars n + (if m.pend.getLsbD n then 1 else 0)) ∧ ∀ o, o ≠ i → (t.core core).mt o = c.mt o) ∧
      (∀ p, m.parked = some p → p.waitsOpen = false → exec .mtStopApply s = .next s)) ∧
    ((∀ p ∈ c.pending, p.of i = false) → exec .mtPutApply s = .next s ∧ exec .mtGetSample s = .next s ∧ exec .mtStopApply s = .next s) ∧
    (m.code = 3 → mtReady c i = true → ∃ t, exec .linkWaitEnd s = .next t ∧ OneCore s t core ∧ (t.core core).mt i = { m with code := 1 } ∧
      ∀ o, o ≠ i → (t.core core).mt o = c.mt o) ∧
    (lv < c.info.nlev → instanceArrived s core lv inst = true → ∃ t, exec .barrierComplete s = .next t ∧
      t = { s with cores := t.cores, sched := t.sched } ∧
      (∀ o, (o ∈ instanceCores s core lv → t.core o = { s.core o with seen := (t.core o).seen } ∧ tget 0 (t.core o).seen lv = inst) ∧
        (o ∉ instanceCores s core lv → t.core o = s.core o)) ∧
      ∀ o k p, o ∈ instanceCores s core lv → ((s.core o).mt k).parked = some p → p.wait = .bar lv inst → p.todo = [] →
        .event { core := o, idx := k } .convoyRetire ∈ t.sched) ∧
    (instanceArrived s core lv inst = false → exec .barrierComplete s = .next s)

/-! ## Events of memory (R14, R24, R62 to R72, R118, R122 to R129, R389, R397, R398) -/

/-- R24, R27, R29, R62, R64, R67, R68, R71, R72, R122, R126: the memory system's own work. Fills, timers, walks and prefetches change no byte as
the agents see it; a write, an atomic and a remote reduce change exactly their bytes, at their home; a write and an atomic leave no clean copy,
a reduce none but its sender's of the sectors it does not cover. A prefetch, and a fill of a slice, that have to leave memory alone fetch
nothing; a prefetch issued before a delay is done later (log 52). -/
def Obligations.MemoryEvents : Prop :=
  ∀ s : State, Canonical s → s.vrst = [] →
    let pa := s.here.pa
    let core := s.here.core
    let line := pa / 128
    let homes := fun (t : State) => ∀ q, homeByte t q = homeByte s q
    (∀ (ctx : BitVec 4) (va : Word64), (tget 0 s.ctxd ctx.toNat).getLsbD 0 = true → va.toNat < 2 ^ 48 → (s.core core).walk = [] →
      (s.core core).torn = false →
      let leaf := tableWalk s va.toNat 3 ((tget 0 s.ctxd ctx.toNat).toNat / 2 ^ 12 % 2 ^ 32 * 4096)
      ∃ t, exec (.pageWalk ctx va) s = .next t ∧ HomeMoves s t core ∧ (Steady s t → homes t ∧
        (leaf = none → (t.core core).tlb = (s.core core).tlb) ∧
        ∀ e, leaf = some e → ∃ x ∈ (t.core core).tlb, x.ctx = ctx.toNat ∧ x.leaf = BitVec.ofNat 64 e ∧ x.base ≤ va.toNat ∧ va.toNat < x.base + 2 ^ x.pbits)) ∧
    (∀ victim, (core, line) ∉ s.prefs →
      (mayPrefetch s core pa = false → exec (.l1Fill victim) s = .next s) ∧
      (mayPrefetch s core pa = true → Coherent s core → NoPoison s → ∃ t, exec (.l1Fill victim) s = .next t ∧ HomeMoves s t core ∧ SeesSame s t core ∧
        (RoomFor s core line → ((t.core core).line line).valid.getLsbD (pa % 128 / 32) = true))) ∧
    (∀ victim, (core, line) ∈ s.prefs → Coherent s core → NoPoison s → ∃ t, exec (.l1Fill victim) s = .next t ∧
      t.prefs = s.prefs.erase (core, line) ∧ SeesSame s t core ∧ (RoomFor s core line → ((t.core core).line line).valid = 15)) ∧
    (∃ t, exec .sectorTimerExpiry s = .next t ∧ HomeMoves s t core ∧ SeesSame s t core ∧
      ∀ k, k < 128 → ((t.core core).line line).dirty.getLsbD k = (decide (k / 32 ≠ pa % 128 / 32) && ((s.core core).line line).dirty.getLsbD k)) ∧
    (∀ (l : Nat) (mask : LineMask) (data : LineData), InMem s (128 * l) →
      ∃ t, exec (.homeSliceWrite l mask data) s = .next t ∧ HomeMoves s t core ∧
        (Steady s t → ∀ q, homeByte t q = if q / 128 = l ∧ mask.getLsbD (q % 128) = true then data.extractLsb' (8 * (q % 128)) 8 else homeByte s q) ∧
        (mask ≠ 0 → ∀ o, ((t.core o).line l).valid = 0 ∧ ((t.core o).line l).dirty = ((s.core o).line l).dirty)) ∧
    (∀ evict serves, (mayFill s pa = false → exec (.homeSliceFill evict serves) s = .next s) ∧
      (mayFill s pa = true → ∃ t, exec (.homeSliceFill evict serves) s = .next t ∧ (t.slice line).held = BitVec.allOnes 128 ∧
        (serves = false → CleanSlices s ∨ (evict = none ∧ Roomy t) → homes t) ∧ (Coherent s core → CleanSlices s → SeesSame s t core) ∧
        (serves = true → mayPrefetch s core pa = true → NoPoison s → RoomFor s core line → (s.core core).line line = {} →
          ((t.core core).line line).valid = 15))) ∧
    (∀ (size : Size) (op : AmoOp) (x : Word64), let n := size.bits / 8
      InMem s pa →
      (pa % n = 0 → ∃ t, exec (.atomicAtSlice size op x) s = .next t ∧ HomeMoves s t core ∧ (Steady s t →
        HomePut s t pa n (amoWord op (BitVec.ofNat size.bits (homeNum s pa n)) (x.setWidth size.bits)).toNat) ∧
        ∀ o, ((t.core o).line line).valid = 0) ∧
      (pa % n ≠ 0 → exec (.atomicAtSlice size op x) s = .next s)) ∧
    (∀ pre p post o x u, let w := if p.bf then 2 else 4
      let f := if p.bf then fmtBF16 else fmtF32
      let s' := { s with vrst := pre ++ p :: post }
      p.line = line → p.dev = none → p.batch = false → p.elems = [(o, x, u)] → o + w ≤ 128 → o % w = 0 →
      (∀ q ∈ pre, q.dev = none → q.batch = false → q.line ≠ p.line ∧ ¬ (q.sid = p.sid ∧ sliceNo s (128 * q.line) = sliceNo s (128 * p.line))) →
      (∀ q ∈ pre ++ post, q.batch = false) → ∃ t, exec .vrstPacket s' = .next t ∧ HomeMoves s' t core ∧ t.vrst = pre ++ post ∧ (Steady s' t →
        HomePut s' t (128 * line + o) w (f.put (exAdd (f.read (homeNum s (128 * line + o) w)) x p.rm).1 p.rm u).1) ∧
        ((t.core p.core).line line).valid.getLsbD (o / 32) = false ∧ ∀ c, c ≠ p.core → ((t.core c).line line).valid = 0) ∧
    (s.here.sub = 0 →
      (mayPrefetch s core pa = false → exec .hwPrefetch s = .next s) ∧
      (∀ sc, mayPrefetch s core pa = true → s.sched = .delay :: sc → exec .hwPrefetch s = .next { s with sched := sc, prefs := s.prefs ++ [(core, line)] }) ∧
      (mayPrefetch s core pa = true → s.sched.head? ≠ some .delay → Coherent s core → NoPoison s → ∃ t, exec .hwPrefetch s = .next t ∧ HomeMoves s t core ∧ SeesSame s t core ∧
        (RoomFor s core line → (s.core core).line line = {} → ((t.core core).line line).valid = 15))) ∧
    (s.here.sub ≠ 0 → (1024, line) ∉ s.prefs →
      let behind := line % 32 ≠ 0 ∧ (s.slice (line - 1)).live = true
      (mayFill s pa = false ∨ ¬ behind → exec .hwPrefetch s = .next s) ∧
      (∀ sc, mayFill s pa = true → behind → s.sched = .delay :: sc →
        exec .hwPrefetch s = .next { s with sched := sc, prefs := s.prefs ++ [(1024, line)] }) ∧
      (mayFill s pa = true → behind → s.sched.head? ≠ some .delay → NoPoison s →
        ∃ t, exec .hwPrefetch s = .next t ∧ HomeMoves s t core ∧ (Steady s t → homes t) ∧
          ((heldLines s line).length < 12 → (t.slice line).held = BitVec.allOnes 128))) ∧
    (s.here.sub ≠ 0 → (1024, line) ∈ s.prefs → NoPoison s → ∃ t, exec .hwPrefetch s = .next t ∧ t.prefs = s.prefs.erase (1024, line) ∧
      (Steady s t → homes t) ∧ ((heldLines s line).length < 12 → (t.slice line).held = BitVec.allOnes 128))

/-- R11, R14, R118, R129, R397 to R399, R409, R411: requests that come over the fabric are performed at the home of their bytes, or, refused,
change nothing, and so does every request to the memory of a device that has not started (log 42); answers to posted accesses count them off, an
access error as a reliability event with the VA of the access; a port that goes down is out of PORTS and brings nothing more, with the last one
every posted access is refused (log 10), and a retried flit changes nothing. A flit that comes behind its link's marker waits while a core is
halted, and is delivered whatever its port does then. -/
def Obligations.FabricEvents : Prop :=
  ∀ (s : State) (src addr dev n : Nat) (va x : Word64) (bytes : List Byte) (size : Size) (op : AmoOp) (req : FabReq) (e : Bool),
    let pa := addr % 2 ^ 44
    let core := s.here.core
    let mine := addr / 2 ^ 46 = s.devnum.toNat ∧ addr / 2 ^ 44 % 4 = 0
    let run := fun (r : FabReq) => exec (.fabricRequest src addr r) s
    let k := core * 2048 + dev
    let up := s.ports.getLsbD s.here.idx = true ∨ s.here.arrived = true
    let halted := ∃ c ∈ s.cores, c.2.halted = true
    let error := fun (i : Instr) (va : Nat) (l : List (Nat × Nat)) => ∃ t e, exec i s = .next t ∧
      t = { s with posted := t.posted, events := t.events } ∧ tget [] t.posted k = l ∧ t.events.getLast? = some e ∧ e.pa = va ∧ e.core = core
    (up → s.dump = none →
      (mine → s.boot = 0 → s.vrst = [] → InMem s pa → Canonical s →
        (InMem s (pa + n - 1) → ∃ t, run (.read n) = .next t ∧ HomeMoves s t core ∧ (Steady s t → ∀ q, homeByte t q = homeByte s q)) ∧
        (bytes ≠ [] → InMem s (pa + bytes.length - 1) → ∃ t, run (.write bytes) = .next t ∧ HomeMoves s t core ∧
          (Steady s t → HomePut s t pa bytes.length (leNat bytes))) ∧
        (pa % (size.bits / 8) = 0 → ∃ t, run (.amo size op x) = .next t ∧ HomeMoves s t core ∧ (Steady s t →
          HomePut s t pa (size.bits / 8) (amoWord op (BitVec.ofNat size.bits (homeNum s pa (size.bits / 8))) (x.setWidth size.bits)).toNat))) ∧
      (mine → pa = 0x0F0000005008 → s.boot ≠ 2 ∨ src = Config.linkPartner s.here.idx →
        run (.write (leBytes 8 x.toNat)) = .next { s with marg := x } ∧ run (.read 8) = .next s) ∧
      (¬ mine ∨ windowOf s pa = .none ∨ (s.boot ≠ 0 ∧ windowOf s pa ≠ .device) ∨ (s.boot = 2 ∧ src ≠ Config.linkPartner s.here.idx) → run req = .next s) ∧
      (∀ who at_ l, tget [] s.posted k = (who, at_) :: l → error (.fabricResponse dev true) at_ l ∧
        (at_ = va.toNat → error (.accessErrorResponse dev va) at_ l) ∧ (at_ ≠ va.toNat → exec (.accessErrorResponse dev va) s = .next s)) ∧
      (tget [] s.posted k ≠ [] → ∃ t, exec (.fabricResponse dev false) s = .next t ∧ t = { s with posted := t.posted } ∧
        ∀ j, tget [] t.posted j = if j = k then (tget [] s.posted k).drop 1 else tget [] s.posted j) ∧
      (tget [] s.posted k = [] → exec (.fabricResponse dev e) s = .next s ∧ exec (.accessErrorResponse dev va) s = .next s)) ∧
    (∀ i ∈ ([.fabricRequest src addr req, .accessErrorResponse dev va, .fabricResponse dev e] : List Instr),
      (¬ up → exec i s = .next s) ∧
      (∀ d, up → s.dump = some d → s.here.idx ∉ d.open_ → halted →
        exec i s = .next { s with flits := s.flits ++ [.event { s.here with arrived := true } i] })) ∧
    (∃ t, exec .portDown s = .next t ∧ t = { s with ports := t.ports, posted := t.posted, events := t.events } ∧
      (∀ j, j < 18 → t.ports.getLsbD j = (decide (j ≠ s.here.idx) && s.ports.getLsbD j)) ∧
      (t.ports ≠ 0 → t.posted = s.posted ∧ t.events = s.events) ∧ (t.ports = 0 → t.posted = [])) ∧
    exec .flitCrcRetry s = .next s

/-! ## Events of the engines (R80 to R88, R132 to R138, R143, R342, R343, R351 to R360, R384) -/

/-- R39, R80 to R82, R315: a settle leaves its core's L1 without a dirty byte of the region, slices hand over theirs in turn, and a
sector's write arrives in the arrays; a renew drops the lines of the L1s it selects. A refused region is error 1. -/
def Obligations.SettleAndRenewEvents : Prop :=
  ∀ (s : State) (e : Entry) (va : Word64) (scope : Scope),
    let core := s.here.core
    let base := va.toNat / 65536 * 65536
    let look := engLookup s core { rw_ with localOnly := true } base
    let region := s.here.pa / 65536
    let sec := s.here.pa / 32
    (startable (s.core core) 5 = some e → e.cmd = .settle va →
      (∀ x, look = .ok x → Coherent s core → ∃ t, exec .settleEntry s = .next t ∧ Ends t core 5 (fun y => y.cmd = e.cmd ∧ y.err = e.err) ∧
        (∀ l, l / 512 = x.pa / 65536 → ((t.core core).line l).dirty = 0) ∧ SeesSame s t core) ∧
      ((∀ x, look ≠ .ok x) → ∃ t, exec .settleEntry s = .next t ∧ Refuses s t core ∧ Ends t core 5 (fun y => y.err = 1 ∧ y.work = false))) ∧
    ((∃ st ∈ s.settles, st.region = region ∧ s.here.idx ∈ st.slices) → s.vrst = [] → ∃ t, exec .settleStartNotice s = .next t ∧
      (∀ l, l / 512 = region → sliceNo s (128 * l) = s.here.idx → (t.slice l).dirty = 0) ∧ ∀ q, homeByte t q = homeByte s q) ∧
    (∀ pre st post a mask data pz b, s.settles = pre ++ st :: post → (∀ x ∈ pre, ∀ y ∈ x.sectors, y.1 ≠ sec) →
      st.sectors = a ++ (sec, mask, data, pz) :: b → (∀ y ∈ a, y.1 ≠ sec) → ∃ t, exec .settleSectorWrite s = .next t ∧
        ∀ q, t.arrByte q = if q / 32 = sec ∧ mask.getLsbD (q % 32) = true then data.extractLsb' (8 * (q % 32)) 8 else s.arrByte q) ∧
    ((∀ x ∈ s.settles, ∀ y ∈ x.sectors, y.1 ≠ sec) → exec .settleSectorWrite s = .next s) ∧
    (s.renews.find? (fun r => r.core == core) = none → startable (s.core core) 5 = some e → e.cmd = .renew va scope →
      (∀ x, look = .ok x → ∃ t, exec .renewEntry s = .next t ∧ t = { s with cores := t.cores, renews := t.renews } ∧
        t.renews = s.renews ++ [⟨core, x.pa / 65536, scope, [], []⟩] ∧ Ends t core 5 (fun y => y.cmd = e.cmd ∧ y.err = e.err)) ∧
      ((∀ x, look ≠ .ok x) → ∃ t, exec .renewEntry s = .next t ∧ Refuses s t core ∧ Ends t core 5 (fun y => y.err = 1))) ∧
    (∀ r, s.renews.find? (fun r => r.core == core) = some r → s.here.sub = 0 → s.here.idx ∈ renewCores s r.core r.scope → s.here.idx ∉ r.l1s →
      Coherent s s.here.idx → ∃ t, exec .renewEntry s = .next t ∧ (∀ l, l / 512 = r.region → (t.core s.here.idx).line l = {}) ∧
        SeesSame s t s.here.idx)

/-- R85 to R88, R135, R358, R360, R416: a bank command is checked, its block read, by sectors or all at once, accepted, and computed tile by
tile in the arrays; its elements take the program's results on the bytes the arrays held, and its count notices go out. -/
def Obligations.BankEvents : Prop :=
  ∀ (s : State) (e : Entry) (blk count : Word64) (pre post : List BankCmd) (b : BankCmd) (t0 : Nat) (tp tq : List Nat),
    let core := s.here.core
    let start := startable (s.core core) 4 = some e ∧ e.cmd = .bank blk count ∧ Fresh e
    let block := ∀ j, j < 96 → ∃ y, engLookup s core { r := true, localOnly := true } (blk.toNat + j) = .ok y
    (start → count = 0 → ∃ t, exec .bankEntry s = .next t ∧ OneCore s t core ∧ Ends t core 4 (fun y => y.work = e.work ∧ y.err = e.err)) ∧
    (start → count ≠ 0 → blk.toNat % 32 ≠ 0 → ∃ t, exec .bankEntry s = .next t ∧ OneCore s t core ∧ Ends t core 4 (fun y => y.err = 6 ∧ y.work = false)) ∧
    (start → count ≠ 0 → blk.toNat % 32 = 0 → block → s.here.sub ≠ 0 → ∃ t, exec .bankEntry s = .next t ∧ OneCore s t core ∧
      Ends t core 4 (fun y => y.err = e.err ∧ y.work = true ∧ ∀ k, k ∈ y.rd ↔ ∃ j, j < 3 ∧ k = blk.toNat / 32 + j)) ∧
    (∀ (u : Nat) (y : Xlat), running (s.core core) 4 = some e → e.cmd = .bank blk count → e.work = true → s.here.sub ≠ 0 →
      u = blk.toNat / 32 + (s.here.sub - 1) → u ∈ e.rd → (∃ k ∈ e.rd, k ≠ u) → inSpans e.mr (32 * u) = some y → y.dev = none → s.vrst = [] →
      Canonical s → ∃ t, exec .bankEntry s = .next t ∧ t.banks = s.banks ∧ Ends t core 4 (fun z => z.work = true ∧ (∀ k, k ∈ z.rd ↔ k ∈ e.rd ∧ k ≠ u) ∧
        (Steady s t → ∀ j, j < 32 → BitVec.ofNat 8 ((tget (0, false) z.got u).1 / 2 ^ (8 * j)) = homeByte s (y.pa + j)))) ∧
    (∀ x : Nat, start → count ≠ 0 → blk.toNat % 32 = 0 → s.here.sub = 0 → s.vrst = [] → Canonical s →
      (∀ j, j < 96 → ∃ y, engLookup s core { r := true, localOnly := true } (blk.toNat + j) = .ok y ∧
        BitVec.ofNat 8 (x / 2 ^ (8 * j)) = homeByte s y.pa) →
      let f := blockOf x
      let bytes := count.toNat * f.esz
      let streams := f.out :: f.ins.take f.nin
      let m := xlatSpans s core { rw_ with localOnly := true } ((streams.map (fun v => (streamSpans v bytes).1)).flatten.foldl (fun l a => keyIn a l) [])
      ∃ t, exec .bankEntry s = .next t ∧ (Steady s t →
        (∀ q, homeByte t q = homeByte s q) ∧
        (blockBad f = true → t.banks = s.banks ∧ Ends t core 4 (fun y => y.err = 6 ∧ y.work = false)) ∧
        (blockBad f = false → (∃ v ∈ streams, 2 ^ 41 < v + bytes) → t.banks = s.banks ∧ Ends t core 4 (fun y => y.err = 1 ∧ y.work = false)) ∧
        (blockBad f = false → (∀ v ∈ streams, v + bytes ≤ 2 ^ 41) → m.2 = [] → placementBad s f (m.1.map (fun y => (y.1, y.2.pa))) bytes = false →
          ∃ cmd, t.banks = s.banks ++ [cmd] ∧ Ends t core 4 (fun y => y.err = e.err ∧ y.work = true) ∧ cmd.core = core ∧
            cmd.ops = f.ops.take f.nop ∧ cmd.out = f.out ∧ cmd.ins = f.ins.take f.nin ∧ cmd.count = count.toNat ∧ cmd.accepted = false))) ∧
    (s.banks = pre ++ b :: post → b.core = core → b.accepted = false → (∀ x ∈ pre, x.core = core → x.accepted = true) →
      ∃ t, exec .bankAccept s = .next t ∧ t = { s with banks := t.banks } ∧
        t.banks = s.banks.filter (fun x => x.core != core) ++ [{ b with accepted := true }]) ∧
    (s.banks = b :: post → b.core = core → b.accepted = true → b.tiles = tp ++ t0 :: tq → (∀ u ∈ tp, bankOf b u ≠ s.here.idx) →
      bankOf b t0 = s.here.idx → b.esz = 1 ∨ b.esz = 2 ∨ b.esz = 4 → b.out % b.esz = 0 → (∃ m ∈ b.map, m.1 = t0 * 32768 / 2 ^ 25) →
      let at_ := fun (v n : Nat) => mapPa b.map (v + n * b.esz)
      let src := fun (n : Nat) => b.ins.map (fun v => leNat ((List.range b.esz).map (fun j => s.arrByte (at_ v n + j))))
      let in_ := fun (n : Nat) => n < b.count ∧ (b.out + n * b.esz) / 32768 = t0
      ∃ t, exec .tileStep s = .next t ∧ t = { s with
          arrays := t.arrays, arrPoison := t.arrPoison, iwc := t.iwc, banks := t.banks, rel := t.rel, events := t.events } ∧
        (s.arrPoison = [] → b.poison = false → t.arrPoison = [] ∧ t.rel = s.rel ∧ t.events = s.events) ∧
        (∀ n, in_ n → ∀ j, j < b.esz → t.arrByte (at_ b.out n + j) = BitVec.ofNat 8 ((bankElem b (src n)).1 / 2 ^ (8 * j))) ∧
        (∀ q, (∀ n, in_ n → ¬ (at_ b.out n ≤ q ∧ q < at_ b.out n + b.esz)) → t.arrByte q = s.arrByte q) ∧
        ∀ x ∈ t.banks, x.core = core → t0 ∉ x.tiles) ∧
    (∃ t, exec .countNotice s = .next t ∧ t = { s with banks := t.banks } ∧ t.banks.length = s.banks.length ∧
      ∀ x ∈ t.banks, x.core = core → s.here.idx ∉ x.notices)

/-- R51, R54, R55, R57, R135, R355, R356: a copy moves each element's bits from its place in the source to its place in the destination, in
one event or unit by unit, and a gather takes the rows that its list names, zeros for a row beyond the table; a form that R355 or R356
does not accept is error 2 and one that leaves the scratchpad error 3, and moves nothing. A slot's tag follows its part of the copy.

R200, R240, R241, R344, R351 to R353: `mmac` adds to each accumulator element of its rows the products of a row of A with a column of B,
chunk by chunk, and leaves every other element; a command that R352 refuses completes with its error and leaves the accumulator.
`mzero` makes one tile zero. The order of the errors is log 21; which parts of an entry are done at one moment, and which apart, is log 29. -/
def Obligations.EngineEvents : Prop :=
  (∀ (s : State) (e : Entry) (d a : TDesc),
    let core := s.here.core
    let c := s.core core
    let x := e.opnd.toNat
    let w := d.width
    let tc := TChoice.ofCode (BitVec.ofNat 2 (x / 2 ^ 9 % 4))
    let n := d.count
    let src := fun i => elemBit a (a.tBit tc) i
    let dst := fun i => elemBit d (d.tBit tc) i
    let within := fun (b : Int) => 0 ≤ b ∧ b + (w : Int) ≤ ((c.scrBytes * 8 : Nat) : Int)
    let still := fun (t : State) => (t.core core).scratch = c.scratch ∧ t = { s with cores := t.cores }
    let done := fun (t : State) => Ends t core 0 (fun y => y.err = e.err ∧ y.work = e.work ∧ y.tags = if x.testBit 8 then slotsWritten ((List.range n).map dst) w else [])
    let at_ := fun (b : Int) => (BitVec.ofInt 64 (b / 8)).toNat
    (startable c 0 = some e → e.cmd = .cpy d a → Fresh e →
      (cpyBad d a x = true → ∃ t, exec .cpyEntry s = .next t ∧ still t ∧ Ends t core 0 (fun y => y.err = 2 ∧ y.work = false)) ∧
      (cpyBad d a x = false → d.scratch = true → (∃ i, i < n ∧ ¬ within (dst i)) → ∃ t, exec .cpyEntry s = .next t ∧ still t ∧
        Ends t core 0 (fun y => y.err = 3 ∧ y.work = false)) ∧
      (cpyBad d a x = false → w % 8 = 0 → s.here.sub = 0 → s.vrst = [] → Canonical s →
        (a.scratch = true → ∀ i, i < n → within (src i)) → (d.scratch = true → ∀ i, i < n → within (dst i)) →
        (a.scratch = false → ∀ i k, i < n → k < w / 8 → ∃ y, engLookup s core { r := true } (at_ (src i) + k) = .ok y ∧ y.dev = none) →
        (d.scratch = false → ∀ i k, i < n → k < w / 8 → ∃ y, engLookup s core { w := true } (at_ (dst i) + k) = .ok y ∧ y.dev = none) →
        let from_ := fun (i k : Nat) (v : Byte) => if a.scratch then v = scrAt s core (src i) k else
          ∀ y, engLookup s core { r := true } (at_ (src i) + k) = .ok y → v = homeByte s y.pa
        let to_ := fun (q i k : Nat) => ∃ y, engLookup s core { w := true } (at_ (dst i) + k) = .ok y ∧ y.pa = q
        ∃ t, exec .cpyEntry s = .next t ∧ done t ∧ (Steady s t →
          (d.scratch = true → (∀ q, homeByte t q = homeByte s q) ∧
            ∀ i, i < n → (∀ j, j < n → j ≠ i → Apart w (dst i) (dst j)) → ∀ k, k < w / 8 → from_ i k (scrAt t core (dst i) k)) ∧
          (d.scratch = false → (t.core core).scratch = c.scratch ∧
            (∀ q, (∀ i k, i < n → k < w / 8 → ¬ to_ q i k) → homeByte t q = homeByte s q) ∧
            ∀ q i k, i < n → k < w / 8 → to_ q i k → (∀ j l, j < n → l < w / 8 → to_ q j l → j = i ∧ l = k) → from_ i k (homeByte t q))))) ∧
    (∀ u, running c 0 = some e → e.cmd = .cpy d a → e.work = true → a.scratch = true → d.scratch = true → s.here.sub = 2 → s.here.pa / 8 = u →
      u ∈ e.wr → ∃ t, exec .cpyEntry s = .next t ∧ OneCoreLogs s t core ∧
        (∀ o, o / 8 ≠ u → tget 0 (t.core core).scratch o = tget 0 c.scratch o) ∧ Ends t core 0 (fun y => ∀ k, k ∈ y.wr ↔ k ∈ e.wr ∧ k ≠ u)) ∧
    (∀ slot, running c 0 = some e → slot = s.here.idx → slot ∈ e.tags → (∀ u ∈ e.wr, u / 256 ≠ slot) → e.absR = [] → e.absW = [] →
      ∃ t, exec .tagSet s = .next t ∧ OneCore s t core ∧
      (∀ k, tget 0 (t.core core).tags k = if k = slot then e.opnd.setWidth 8 else tget 0 c.tags k) ∧
      Ends t core 0 (fun y => ∀ k, k ∈ y.tags ↔ k ∈ e.tags ∧ k ≠ slot) ∧
      (∀ i, (t.core core).mt i = c.mt i) ∧
      Ends t core 0 (fun y => ∀ x, x ∈ y.was ↔ x ∈ e.was ∧ x.1 / 256 ≠ slot)) ∧
    (startable c 2 = some e → e.cmd = .gath d a ∨ e.cmd = .scat d a → Fresh e →
      let table := if e.cmd = .gath d a then a else d
      let dense := if e.cmd = .gath d a then d else a
      (gatherBad table dense x = true → ∃ t, exec .gathScatEntry s = .next t ∧ still t ∧ Ends t core 2 (fun y => y.err = 2 ∧ y.work = false))) ∧
    (∀ idx : Nat → Nat, startable c 2 = some e → e.cmd = .gath d a → Fresh e → gatherBad a d x = false → a.scratch = true → d.scratch = true →
      w % 8 = 0 → s.here.sub = 0 → s.vrst = [] → Canonical s →
      let cnt := x / 2 ^ 48
      let list := x % 2 ^ 48
      (∀ i k, i < cnt → k < 4 → ∃ y, engLookup s core { r := true } (list + 4 * i + k) = .ok y ∧ y.dev = none ∧
        BitVec.ofNat 8 (idx i / 2 ^ (8 * k)) = homeByte s y.pa) → (∀ i, i < cnt → idx i < 2 ^ 32) →
      (∀ i j, i < cnt → j < a.dim 0 → within (rowBit d i j) ∧ (idx i < a.dim 1 → within (rowBit a (idx i) j))) →
      ∃ t, exec .gathScatEntry s = .next t ∧ (Steady s t → Ends t core 2 (fun y => y.err = e.err ∧ y.work = e.work) ∧
        (∀ q, homeByte t q = homeByte s q) ∧ ∀ i j, i < cnt → j < a.dim 0 →
          (∀ p q, p < cnt → q < a.dim 0 → (p, q) ≠ (i, j) → Apart w (rowBit d i j) (rowBit d p q)) → ∀ k, k < w / 8 →
          scrAt t core (rowBit d i j) k = if idx i < a.dim 1 then scrAt s core (rowBit a (idx i) j) k else 0))) ∧
  (∀ (s : State) (e : Entry) (z : ZName) (ta : TName) (a b : TDesc) (idx : Option (List Nat)) (rows kc mgr : Nat) (tr sat : Bool),
    let core := s.here.core
    let c := s.core core
    let kk := if kc = 0 then a.dim 0 else kc
    let n := if tr then b.nrows else b.dim 0
    let m := if idx.isSome then rows else a.nrows
    let err := matError c ⟨z.toNat, a, b, tr, sat, kk, n, m, idx⟩ mgr
    let place := fun i j => (z.toNat + i / 32) * 8192 + i % 32 * 256 + j
    let row := fun i => (List.range kk).map (fun k => matElem c a (match idx with
      | some l => l.getD i 0
      | none => i) k)
    let col := fun j => (List.range kk).map (fun k => if tr then matElem c b j k else matElem c b k j)
    let acc := fun (t : State) o => tget 0 (t.core core).acc o
    running c 1 = none → startable c 1 = some e →
    (e.cmd = .mmac z ta a b idx rows kc tr sat mgr → e.restart = none → s.here.sub = 0 →
      (err ≠ 0 → ∃ t, exec .mmacEntry s = .next t ∧ OneCore s t core ∧ (t.core core).acc = c.acc ∧ Ends t core 1 (fun y => y.err = err ∧ y.work = false)) ∧
      (err = 0 → ∃ t, exec .mmacEntry s = .next t ∧ OneCoreLogs s t core ∧ Ends t core 1 (fun y => y.err = e.err ∧ y.work = false ∧ y.restart = some m) ∧
        (∀ i j, i < m → j < n → acc t (place i j) = BitVec.ofNat 32 (accElem (acc s (place i j)).toNat (row i) (col j) sat).1) ∧
        (∀ o, (∀ i j, i < m → j < n → o ≠ place i j) → acc t o = acc s o) ∧ (t.core core).scratch = c.scratch ∧ (t.core core).mts = c.mts)) ∧
    (e.cmd = .mzero z → twf (0 : Word32) c.acc = true →
      (z.toNat < c.accTiles → ∃ t, exec .mzeroEntry s = .next t ∧ OneCore s t core ∧ Ends t core 1 (fun y => y.err = e.err ∧ y.work = e.work) ∧
        ∀ o, acc t o = if o / 8192 = z.toNat then 0 else acc s o) ∧
      (c.accTiles ≤ z.toNat → ∃ t, exec .mzeroEntry s = .next t ∧ OneCore s t core ∧ (t.core core).acc = c.acc ∧ Ends t core 1 (fun y => y.err = 4))))

/-- R131 to R133, R138, R143, R342, R343, R357, R384: a collective's entry starts, is matched with its peers', or ends in error 7 where they
differ and in error 8 where its watchdog expires; of members on this device that agree each destination takes the sums, the sources or the
root's source, by its kind. A core that is not in the member table is error 2, and an entry that a pre-emption withdrew keeps its member index
and its turn (log 35); error 2 is decided before error 1 (log 21).

An entry that is done leaves its queue, counted, an error holding the queue until it is released; the markers of one `qfence` leave together. -/
def Obligations.QueueEvents : Prop :=
  ∀ (s : State) (e : Entry) (d a : TDesc) (rest : List Entry) (id set dev : Nat) (v : Word64) (halted : Bool),
    let core := s.here.core
    let q := s.here.idx
    let c := s.core core
    let k := c.queue q
    let x := e.opnd.toNat
    let g := x % 65536
    let l := (collTable s g).1
    let u := (collTable s g).2
    let i := l.idxOf (s.devnum.toNat, core)
    let fits := (collSpans s core d a).1.2 = [] ∧ (collSpans s core d a).2.2 = []
    let reads := fun (t : State) => ∃ v, HomeMoves s v core ∧ t = { v with cores := t.cores, collCount := t.collCount } ∧
      (∀ o, o ≠ core → t.core o = v.core o) ∧ (Steady s t → ∀ q, homeByte t q = homeByte s q)
    (startable c 3 = some e → e.cmd = .coll d a → Canonical s → s.vrst = [] →
      ((e.turn = 0 ∧ (s.devnum.toNat, core) ∉ l) ∨ l = [] ∨ collBad d a x l.length = true → ∃ t, exec .collEntry s = .next t ∧ reads t ∧
        t.collCount = s.collCount ∧ Ends t core 3 (fun y => y.err = 2 ∧ y.work = false)) ∧
      (e.turn = 0 → (s.devnum.toNat, core) ∈ l → collBad d a x l.length = false → fits → ∃ t, exec .collEntry s = .next t ∧ reads t ∧
        Ends t core 3 (fun y => y.err = e.err ∧ y.work = true ∧ y.memb = i ∧ y.turn = tget 0 s.collCount (g * 1024 + i) + 1) ∧
        ∀ n, tget 0 t.collCount n = tget 0 s.collCount n + (if n = g * 1024 + i then 1 else 0)) ∧
      (e.turn ≠ 0 → l ≠ [] → collBad d a x l.length = false → fits → ∃ t, exec .collEntry s = .next t ∧ reads t ∧ t.collCount = s.collCount ∧
        Ends t core 3 (fun y => y.err = e.err ∧ y.work = true ∧ y.memb = e.memb ∧ y.turn = e.turn))) ∧
    (∀ es, let l := (collTable s q).1
      let u := (collTable s q).2
      collReady u q l = some es → (∀ m ∈ l, m.1 = s.devnum.toNat) → Canonical s → s.here.sub = 0 →
      let key := fun (y : Nat × Entry × TDesc × TDesc) => (y.2.1.opnd.toNat / 65536 % 8, y.2.2.2.fmt, y.2.2.2.count)
      ((∃ y ∈ es, ∃ z ∈ es, key y ≠ key z) → ∃ t, exec .collectiveMatch s = .next t ∧ ∀ y ∈ es, Ends t y.1 3 (fun e => e.err = 7 ∧ e.work = false)) ∧
      ((∀ y ∈ es, ∀ z ∈ es, key y = key z) → (∀ y ∈ es, y.2.2.1.count ≠ 0) → ∃ t, exec .collectiveMatch s = .next t ∧
        ∀ y ∈ es, Ends t y.1 3 (fun e => e.work = false))) ∧
    (∀ (es : List Waiter) (val : Nat → Nat → Nat), let l := (collTable s q).1
      let kind := fun (y : Waiter) => y.2.1.opnd.toNat / 65536 % 8
      let key := fun (y : Waiter) => (kind y, y.2.2.2.fmt, y.2.2.2.count)
      collReady (collTable s q).2 q l = some es → (∀ m ∈ l, m.1 = s.devnum.toNat) → Canonical s → s.vrst = [] → s.here.sub = 0 →
      (∀ o x, collOf s o q = some x → x.1.work = true → x.1.wr = []) → (∀ y ∈ es, ∀ z ∈ es, key y = key z) →
      (∀ y ∈ es, collBad y.2.2.1 y.2.2.2 y.2.1.opnd.toNat l.length = false ∧ y.2.1.got = [] ∧ y.2.1.absR = [] ∧ y.2.1.absW = [] ∧
        y.2.1.rd = unitsOf y.2.2.2 (allBits y.2.2.2) ∧ TensorHome y.2.1.mr y.2.2.2 ∧ TensorHome y.2.1.mw y.2.2.1 ∧
        ∀ i k x, i < y.2.2.2.count → val y.2.1.memb i < 2 ^ y.2.2.2.width ∧ (k < y.2.2.2.width / 8 → elemAt y.2.1.mr y.2.2.2 i k = some x →
          BitVec.ofNat 8 (val y.2.1.memb i / 2 ^ (8 * k)) = homeByte s x.pa)) →
      let out := fun (y : Waiter) (i : Nat) =>
        let f := if y.2.2.2.fmt = 0 then fmtF32 else fmtBF16
        let n := y.2.2.2.count
        match kind y with
        | 0 => memberSum f ((List.range l.length).map (fun m => val m i))
        | 1 => val (i / n) (i % n)
        | 2 => memberSum f ((List.range l.length).map (fun m => val m (y.2.1.memb * (n / l.length) + i)))
        | _ => val (y.2.1.opnd.toNat / 2 ^ 20 % 4096) i
      ∃ t, exec .collectiveMatch s = .next t ∧ (Steady s t → ∀ y ∈ es, Ends t y.1 3 (fun e => e.err = y.2.1.err ∧ e.work = false) ∧
        ∀ i k x, i < y.2.2.1.count → k < y.2.2.1.width / 8 → elemAt y.2.1.mw y.2.2.1 i k = some x →
          (∀ z ∈ es, ∀ j n v, j < z.2.2.1.count → n < z.2.2.1.width / 8 → elemAt z.2.1.mw z.2.2.1 j n = some v → v.pa = x.pa → z = y ∧ j = i ∧ n = k) →
          homeByte t x.pa = BitVec.ofNat 8 (out y i / 2 ^ (8 * k)))) ∧
    (running c 3 = some e → e.cmd = .coll d a → e.work = true → (tget 0 s.cgda g).toNat % 2 ^ 32 ≠ 0 → collFrozen u l = false → Canonical s →
      ∃ t, exec .collWatchdogTimeout s = .next t ∧ Ends t core 3 (fun y => y.err = 8 ∧ y.work = false)) ∧
    (∃ t, exec (.watchdogHaltNotice dev halted) s = .next t ∧ t = { s with collHalt := t.collHalt } ∧ (dev ∈ t.collHalt ↔ halted = true) ∧
      ∀ n, n ≠ dev → (n ∈ t.collHalt ↔ n ∈ s.collHalt)) ∧
    (Canonical s → k.entries = e :: rest → entryDone s core q e = true → ∃ t, exec .entryComplete s = .next t ∧
      let k' := (t.core core).queue q
      k'.entries = rest ∧ k'.count = k.count + 1 ∧ k'.held = (k.held || e.err != 0) ∧ k'.record = (if e.err = 0 then k.record else e.rec_)) ∧
    (k.entries = e :: rest → entryDone s core q e = false → exec .entryComplete s = .next s) ∧
    (headMarker c q = some (id, set) →
      ((∀ n, n < 6 → set.testBit n = true → headMarker c n = some (id, set)) → ∃ t, exec .qfenceMarkerComplete s = .next t ∧ OneCore s t core ∧
        ∀ n, (t.core core).queue n = if n < 6 ∧ set.testBit n = true then { c.queue n with entries := (c.queue n).entries.drop 1 } else c.queue n) ∧
      ((∃ n, n < 6 ∧ set.testBit n = true ∧ headMarker c n ≠ some (id, set)) → exec .qfenceMarkerComplete s = .next s)) ∧
    (v.toNat < 64 → ∃ t, exec (.queueRelease v) s = .next t ∧ OneCore s t core ∧ ∀ n, (t.core core).queue n =
      if n < 6 ∧ v.getLsbD n = true ∧ (c.queue n).held = true then { c.queue n with held := false, timeout := false } else c.queue n) ∧
    (64 ≤ v.toNat → exec (.queueRelease v) s = .next s)

/-! ## Events of the scheduler and of the gang (R176 to R197, R393, R394) -/

/-- R176, R178 to R181, R188 to R192, R194 to R196: what starts a pass, writes of QMAP and LQD and when a held one takes effect, the
admission of a record that fits, a chosen launch's stop and the end of its save, and the end of a core's part and of its launch. A second
held write of QMAP replaces the first (log 47); a queue that is enabled keeps the admissions of the records that its HEAD has passed (log 24).

R393, R394: a gang stops when one of its micro-threads consumes poison, and SID is the lowest of all that have, later ones bringing it down
(log 26); system software resumes it, unless a listed granule is still poisoned or the list is not whole, or aborts it. -/
def Obligations.SchedulerEvents : Prop :=
  (∀ (s : State) (l : Launch) (quad p q n r : Nat) (v : Word64),
    let core := s.here.core
    let c := s.core core
    let held := tget 0 s.qmapHeld s.here.idx
    let pass := fun (t : State) => Next t {} .admissionPass
    (∃ t, exec .admissionTick s = .next t ∧ t = { s with tick := s.tick + 1, sched := t.sched } ∧ pass t) ∧
    (∃ t, exec .tailWrite s = .next t ∧ t = { s with sched := t.sched } ∧ pass t) ∧
    (v.toNat < 16 → quad < 128 →
      ((∀ x ∈ holders s, ∀ o ∈ x.cores, o / 4 ≠ quad) → s.saved = [] → ∃ t, exec (.qmapWrite quad v) s = .next t ∧
        t = { s with qmap := t.qmap, qmapHeld := t.qmapHeld, sched := t.sched } ∧ pass t ∧
        ∀ k, tget 0 t.qmap k = if k = quad then v else tget 0 s.qmap k) ∧
      ((∃ x ∈ s.launches, ∃ o ∈ x.cores, o / 4 = quad) → ∃ t, exec (.qmapWrite quad v) s = .next t ∧
        t = { s with qmapHeld := t.qmapHeld } ∧ tget 0 t.qmapHeld quad = v + 16)) ∧
    (16 ≤ v.toNat → exec (.qmapWrite quad v) s = .next s) ∧
    (held ≠ 0 → s.launches = [] → s.saved = [] → ∃ t, exec .qmapTakesEffect s = .next t ∧ pass t ∧
      tget 0 t.qmap s.here.idx = held - 16 ∧ tget 0 t.qmapHeld s.here.idx = 0) ∧
    ((∃ x ∈ s.launches, ∃ o ∈ x.cores, o / 4 = s.here.idx) → exec .qmapTakesEffect s = .next s) ∧
    (p < 8 → q < 16 →
      let x := lqOf s p q
      let keep := v &&& 0x0000FFFFFFFFFF00
      let size := v.toNat / 256 % 16
      let on := v.getLsbD 0 = true ∧ 4 ≤ size ∧ size ≤ 12
      let look := spanXlat s 0 (partCtx s p) (v.toNat / 4096 % 2 ^ 36 * 4096) { r := true }
      (v.toNat / 2 ^ 48 ≠ 0 ∨ v.toNat / 2 % 16 ≠ 0 → exec (.lqdWrite p q v) s = .next s) ∧
      (v.toNat / 2 ^ 48 = 0 → v.toNat / 2 % 16 = 0 →
        (¬ on → ∃ t, exec (.lqdWrite p q v) s = .next t ∧ t = { s with lq := t.lq } ∧ (lqOf t p q).lqd = keep ||| (x.lqd &&& 0xE0)) ∧
        (on → x.lqd.getLsbD 0 = true → ∃ t, exec (.lqdWrite p q v) s = .next t ∧ t = { s with lq := t.lq } ∧
          (lqOf t p q).lqd = keep ||| (x.lqd &&& 0xE0) ||| 1) ∧
        (on → x.lqd.getLsbD 0 = false → x.held = [] → (∀ y, look ≠ .ok y) → ∃ t, exec (.lqdWrite p q v) s = .next t ∧
          (lqOf t p q).lqd = keep ||| 0x20 ∧ t.admitted = s.admitted) ∧
        (∀ y, on → x.lqd.getLsbD 0 = false → x.held = [] → look = .ok y → y.dev = none → s.vrst = [] → NoPoison s →
          homeNum s (y.pa + 8) 4 = homeNum s (y.pa + 12) 4 → ∃ t, exec (.lqdWrite p q v) s = .next t ∧ (lqOf t p q).lqd = keep ||| 1 ∧
            ∀ k, k ∈ t.admitted ↔ k ∈ s.admitted ∧
              ¬ (k.1 = p ∧ k.2.1 = q ∧ (BitVec.ofNat 32 k.2.2 - BitVec.ofNat 32 (homeNum s (y.pa + 8) 4)).msb = false)))) ∧
    (s.boot ≠ 0 → exec .admissionPass s = .next s) ∧
    (∀ s1 s2 s3 tens stale, s.boot = 0 → p < 8 → q < 16 → s.saved = [] → Canonical s → (∀ k, k ≠ 16 * p + q → (tget {} s.lq k).lqd.getLsbD 0 = false) →
      headRecord s p q = (some (n, r), s1) → afterDone s1 p r = (true, s2) → judge s2 p q n r = (.fine tens stale, s3) → recNlev r = 1 →
      freeCores s p (recMat r) [] ≠ [] → ∃ t k o f, exec .admissionPass s = .next t ∧ k ∈ t.launches ∧ (p, q, n) ∈ t.admitted ∧ k.part = p ∧ k.queue = q ∧ k.index = n ∧
        k.cores = [o] ∧ o ∈ freeCores s p (recMat r) [] ∧ (t.core o).launch = some f ∧ f.part = p ∧ f.queue = q ∧ f.index = n ∧
        f.n = lvCount (recLevel r 0) ∧ (t.core o).ct.pc = BitVec.ofNat 64 (recField r 0 8) ∧ (t.core o).ct.machine = false ∧
        (t.core o).ct.active = true ∧ ∀ i, i < f.n → ((t.core o).mt i).code = 0 ∧ ((t.core o).mt i).regs.rg 1 = BitVec.ofNat 64 i) ∧
    (launchOn s core = some l →
      (l.chosen = true → recPre (leNat l.record) = true → s.cv.live = false → (∀ o ∈ l.cores, (s.core o).halted = false ∧ NoLate (s.core o)) →
        ∃ t x, exec .preemption s = .next t ∧ (∀ o ∈ l.cores, (t.core o).stopping = true) ∧ (∀ o, o ∉ l.cores → t.core o = s.core o) ∧
          (∀ y, y ∈ t.launches ↔ y ∈ s.launches ∧ y ≠ l) ∧ t.saved = s.saved ++ [x] ∧ x.launch = { l with chosen := false } ∧
          x.saving = true ∧ x.gang = false) ∧
      (l.chosen = false ∨ s.cv.live = true ∨ (∃ o ∈ l.cores, (s.core o).halted = true) → exec .preemption s = .next s) ∧
      (partEnds c = true → core ∉ l.ended →
        let l' := { l with ended := l.ended ++ [core] }
        ((∃ o ∈ l.cores, o ≠ core ∧ o ∉ l.ended) → ∃ t, exec .corePartEnd s = .next t ∧ t = { s with cores := t.cores, launches := t.launches } ∧
          t.launches = s.launches.map (fun x => if x = l then l' else x) ∧ t.core core = { c with ct := { c.ct with active := false } } ∧
          ∀ o, o ≠ core → t.core o = s.core o) ∧
        ((∀ o ∈ l.cores, o = core ∨ o ∈ l.ended) → Canonical s → ∃ t, exec .corePartEnd s = .next t ∧ pass t ∧
          (∀ o ∈ l.cores, (t.core o).launch = none) ∧ l' ∉ t.launches ∧
          (s.saved = [] → twf (0 : Word64) s.qmapHeld = true → ∀ k, tget 0 s.qmapHeld k ≠ 0 → (∀ x ∈ t.launches, ∀ o ∈ x.cores, o / 4 ≠ k) →
            tget 0 t.qmap k = tget 0 s.qmapHeld k - 16 ∧ tget 0 t.qmapHeld k = 0))) ∧
      (partEnds c = false → exec .corePartEnd s = .next s)) ∧
    (∀ (i : Nat) (v : Saved), s.saved[i]? = some v → v.saving = true → core ∈ v.launch.cores →
      (∀ (j : Nat) (w : Saved), j < i → s.saved[j]? = some w → w.saving = true → core ∉ w.launch.cores) → Canonical s →
      s.cv.live = false → (∀ o ∈ v.launch.cores, (s.core o).halted = false ∧ coreDrained (s.core o) v.gang = true) →
      ∃ t w, exec .preemptSaveComplete s = .next t ∧ pass t ∧ t.saved[i]? = some w ∧ w.launch = v.launch ∧ w.saving = false ∧ w.ready = !v.gang ∧
        w.images.map Prod.fst = v.launch.cores ∧ t.launches = s.launches ∧ ∀ o ∈ v.launch.cores, (t.core o).launch = none)) ∧
  (∀ (s : State) (l : Launch) (i : Nat) (v : Saved),
    let core := s.here.core
    let p := s.here.idx
    let m := (s.core core).mt p
    let g := tget {} s.gangs p
    let struck := fun (l : Launch) (o k : Nat) => o ∈ l.cores ∧ ((s.core o).mt k).code = 4 ∧ kindOf ((s.core o).mt k).record = 17
    let lowest := fun (l : Launch) (sid : Nat) => (∃ o k, struck l o k ∧ sid = s.devnum.toNat * 32768 + o * 64 + k) ∧
      ∀ o k, struck l o k → sid ≤ s.devnum.toNat * 32768 + o * 64 + k
    (launchOn s core = some l → m.code = 4 → kindOf m.record = 17 → s.cv.live = false →
      (∀ o ∈ l.cores, (s.core o).halted = false ∧ twf ({} : Mt) (s.core o).mts = true ∧ NoLate (s.core o)) → ∃ t, exec .gangStop s = .next t ∧
        let g' := tget {} t.gangs l.part
        g'.state = 1 ∧ lowest l g'.sid ∧ l ∉ t.launches ∧
        (∀ o ∈ l.cores, (t.core o).stopping = true ∧ ∀ k, let x := (s.core o).mt k
          (x.code = 4 → x.parked = none → ((t.core o).mt k).record = x.record ∧ ((t.core o).mt k).code = 4) ∧
          (x.code ≠ 4 → x.code ≠ 7 → x.atBoundary = true → ((t.core o).mt k).code = 4 ∧ ((t.core o).mt k).regs = x.regs ∧
            kindOf ((t.core o).mt k).record = 18 ∧ ((t.core o).mt k).record.getD 2 0 = BitVec.ofNat 64 g'.sid) ∧
          (x.code ≠ 4 → x.atBoundary = false → (t.core o).mt k = x)) ∧
        ∀ o, o ∉ l.cores → t.core o = s.core o) ∧
    (launchOn s core = none → stoppingGang s core = some l → m.code = 4 → kindOf m.record = 17 →
      (∀ o ∈ l.cores, twf ({} : Mt) (s.core o).mts = true) → core ∈ l.cores → ∃ t, exec .gangStop s = .next t ∧ t = { s with gangs := t.gangs } ∧
        lowest l (tget {} t.gangs l.part).sid) ∧
    (m.code ≠ 4 ∨ kindOf m.record ≠ 17 → exec .gangStop s = .next s) ∧
    (g.state = 2 → gangSaved s p g = some i → s.saved[i]? = some v →
      (g.more = false → (∀ w ∈ g.granules, granuleHolds s w = false) → ∃ t, exec .gangResume s = .next t ∧ Next t {} .admissionPass ∧
        t = { s with gangs := t.gangs, saved := t.saved, sched := t.sched } ∧ (tget {} t.gangs p).state = 0 ∧
        t.saved[i]? = some { v with ready := true, at_ := s.tick } ∧ ∀ k, k ≠ i → t.saved[k]? = s.saved[k]?) ∧
      (∃ t, exec .gangAbort s = .next t ∧ Next t {} .admissionPass ∧ (tget {} t.gangs p).state = 0 ∧ t.saved = s.saved.eraseIdx i ∧
        t.launches = s.launches)) ∧
    (g.state ≠ 2 ∨ g.more = true ∨ (∃ w ∈ g.granules, granuleHolds s w = true) → exec .gangResume s = .next s) ∧
    (g.state ≠ 2 → exec .gangAbort s = .next s))

/-! ## Events of the management blocks (R32 to R36, R142, R177, R399 to R414) -/

/-- R32 to R36, R142, R177, R399, R401, R407 to R409, R411, R414: a span update reaches the store of every die, and ends once nothing holds the
old entry; an invalidation drops what its mode names in every core, and ends once the stores made through it have arrived; writes of
registers, debug halts and their release, samples, the clock, and start-up. The model's choices: a write of CTXD takes its reserved bits as 0
(log 38); a sample falls due at a count of PER itself, and only of at least one event (log 42); a span update waits for every convoy in flight of
its context (log 44), an invalidation for the bytes and posted accesses that stood when it dropped its entries (log 54). -/
def Obligations.ManagementEvents : Prop :=
  ∀ (s : State) (v fw : Word64) (n w : Nat) (down : Bool) (status : BitVec 2) (dev : BitVec 11) (share : BitVec 7) (ports : BitVec 18),
    let core := s.here.core
    let c := s.core core
    let sp := s.spidx.toNat % 2 ^ 20
    let ctx := s.tlbinv.toNat / 256 % 16
    let va := s.tlbinv.toNat / 4096 % 2 ^ 36 * 4096
    let inFlight := fun (e : Nat × Core) => (∃ m ∈ e.2.mts, m.2.parked ≠ none) ∨ (s.cv.live = true ∧ s.cv.core = e.1)
    let drops := fun (i : Instr) (f : TlbEntry → Prop) (g : WalkEntry → Prop) => Canonical s → ∃ t, exec i s = .next t ∧
      t = { s with cores := t.cores, tlbWaits := t.tlbWaits, tlbPosts := t.tlbPosts } ∧
      ∀ o, t.core o = { s.core o with tlb := (t.core o).tlb, walk := (t.core o).walk } ∧
        (∀ x, x ∈ (t.core o).tlb ↔ x ∈ (s.core o).tlb ∧ ¬ f x) ∧ (∀ x, x ∈ (t.core o).walk ↔ x ∈ (s.core o).walk ∧ ¬ g x) ∧
        ∀ x ∈ (s.core o).tlb, f x →
          (∀ pa line k, entryPage s x = some (none, pa) → 128 * line / 2 ^ x.pbits = pa / 2 ^ x.pbits →
            ((s.core o).line line).dirty.getLsbD k = true → ∃ y ∈ t.tlbWaits, y.1 = o ∧ y.2.1 = line ∧ y.2.2.getLsbD k = true) ∧
          ∀ d pa, entryPage s x = some (some d, pa) → tget [] s.posted (o * 2048 + d) ≠ [] → o * 2048 + d ∈ t.tlbPosts
    (s.spBusy = false → ∃ t, exec (.spanUpdate v) s = .next t ∧
      t = { s with span := t.span, spanErr := t.spanErr, spBusy := true, spPend := some (sp, v) } ∧
      ∀ k, tget 0 t.span k = if k < 2 ^ 23 ∧ k % 2 ^ 20 = sp then v else tget 0 s.span k) ∧
    (s.spBusy = true → exec (.spanUpdate v) s = .next { s with spDrop := true }) ∧
    (s.spPend = some (n, v) →
      ((∀ e ∈ s.cores, e.2.info.ctx = n / 65536 → ¬ inFlight e) → (∀ e ∈ s.cores, ∀ q ∈ e.2.queues, ∀ y ∈ q.2.entries, ∀ k ∈ y.held, k % 2 ^ 20 ≠ n) →
        exec .spanUpdateComplete s = .next { s with spBusy := false, spPend := none }) ∧
      ((∃ e ∈ s.cores, e.2.info.ctx = n / 65536 ∧ inFlight e) ∨ (∃ e ∈ s.cores, ∃ q ∈ e.2.queues, ∃ y ∈ q.2.entries, ∃ k ∈ y.held, k % 2 ^ 20 = n) →
        exec .spanUpdateComplete s = .next s)) ∧
    drops .tlbinvPage (fun x => x.ctx = ctx ∧ x.base = va / 2 ^ x.pbits * 2 ^ x.pbits) (fun x => x.ctx = ctx) ∧
    drops .tlbinvContext (fun x => x.ctx = ctx) (fun x => x.ctx = ctx) ∧ drops .tlbinvAll (fun _ => True) (fun _ => True) ∧
    ((∀ e ∈ s.cores, ¬ inFlight e) → (∀ y ∈ s.tlbWaits, bytesAhead s y.1 (s.core y.1) y.2.1 &&& y.2.2 = 0) →
      (∀ k ∈ s.tlbPosts, postedAhead s k = false) → exec .tlbinvComplete s = .next { s with tlbBusy := false, tlbWaits := [], tlbPosts := [] }) ∧
    ((∃ y ∈ s.tlbWaits, ∃ k, y.2.2.getLsbD k = true ∧ ((s.core y.1).line y.2.1).dirty.getLsbD k = true) ∨ (∃ k ∈ s.tlbPosts, postedAhead s k = true) ∨
      (∃ e ∈ s.cores, e.2.info.ctx = ctx ∧ inFlight e) → exec .tlbinvComplete s = .next s) ∧
    exec (.registerWrite 0x0F0000005008 v) s = .next { s with marg := v } ∧
    (v.toNat = 2 → exec (.registerWrite 0x0F0000005010 v) s = .next { s with mdrop := false }) ∧
    (v.toNat = 2 → s.boot ≠ 2 → exec (.registerWrite 0x0F0000001010 v) s = .next { s with spDrop := false }) ∧
    (n < 16 → s.boot ≠ 2 → ∃ t, exec (.registerWrite (0x0F0000001100 + 8 * n) v) s = .next t ∧ t = { s with ctxd := t.ctxd } ∧
      ∀ k, tget 0 t.ctxd k = if k = n then v &&& 0x00000FFFFFFFF001 else tget 0 s.ctxd k) ∧
    (n < 8 → s.boot ≠ 2 → let r : Instr := .registerWrite (0x0F0000002800 + 8 * n) v
      (v &&& 0xFFFFF00000FFFFE0 = 0 → (∀ l ∈ s.launches, l.part ≠ n) → (∀ x ∈ s.saved, x.launch.part ≠ n) → ∃ t, exec r s = .next t ∧
        t = { s with pcfg := t.pcfg } ∧ ∀ k, tget 0 t.pcfg k = if k = n then v else tget 0 s.pcfg k) ∧
      (v &&& 0xFFFFF00000FFFFE0 ≠ 0 ∨ (∃ l ∈ s.launches, l.part = n) ∨ (∃ x ∈ s.saved, x.launch.part = n) → exec r s = .next s)) ∧
    (w < 0x0F0000000000 ∨ 0x0F0008000000 ≤ w ∨ w % 8 ≠ 0 → exec (.registerWrite w v) s = .next s) ∧
    (∃ t, exec .debugHalt s = .next t ∧ OneCore s t core ∧ t.core core = { c with halted := true, dbgctl := c.dbgctl ||| 1 }) ∧
    (c.halted = true → ∃ t, exec .debugRelease s = .next t ∧ t = { s with cores := t.cores, dump := t.dump, sched := t.sched, flits := t.flits } ∧
      t.core core = { c with halted := false, dbgctl := c.dbgctl &&& ~~~1 } ∧ (∀ o, o ≠ core → t.core o = s.core o) ∧
      ((∃ e ∈ t.cores, e.2.halted = true) → t.flits = s.flits ∧ t.dump = s.dump ∧ (launchOn s core = none → t.sched = s.sched)) ∧
      ((∀ e ∈ t.cores, e.2.halted = false) → t.flits = [] ∧ (dumping s = false → t.dump = none) ∧
        (launchOn s core = none → t.sched = s.flits ++ s.sched)) ∧
      ∀ l, launchOn s core = some l → l.chosen = true → .event { core := core } .preemption ∈ t.sched) ∧
    (c.halted = false → exec .debugRelease s = .next s) ∧
    (c.dbgctl.getLsbD 3 = true → c.smpctl.toNat / 2 ^ 32 % 16 = 0 ∨ (0 < c.smpcnt ∧ c.smpctl.toNat % 2 ^ 32 ≤ c.smpcnt) → c.trsize = 0 →
      (lanePick c (s.here.idx % 8)).isSome = true → ∃ t, exec .sample s = .next t ∧ OneCore s t core ∧ t.core core = { c with smpcnt := 0 }) ∧
    (lanePick c (s.here.idx % 8) = none → exec .sample s = .next s) ∧
    exec (.clockThrottle down) s = .next { s with clock := if down then s.clock - 50 else min 1100 (s.clock + 50) } ∧
    (status = 3 ∨ 64 < share.toNat → exec (.deviceStartup status dev share ports fw) s = .next s) ∧
    (status ≠ 3 → share.toNat ≤ 64 → ∃ t, exec (.deviceStartup status dev share ports fw) s = .next t ∧ t.boot = status ∧ t.fw = fw ∧ t.ports = ports ∧
      t.devnum = (if status = 2 then 2047 else dev) ∧ t.share = (if status = 2 then 0 else share.toNat) ∧ t.cores = [] ∧ t.arrays = [] ∧
      t.slices = [] ∧ t.span = [] ∧ t.launches = [] ∧ t.saved = [])

/-- R401 to R413: each mailbox command is refused with result 2 for a PARAM or an address that it does not take; otherwise it does its
work and is done, and BUSY clears once the saves it started are complete. A marker begins a cut and closes its link's channel; a flit
that comes in on an open one is recorded. The model's choices: RECORD is done once it is arranged, takes a region that ends at exactly 2^41, and
knows a launch by the list of admissions (log 24); a refused command is done at once, and so is a DUMP while one goes on, with result 0 (log 27). -/
def Obligations.MailboxEvents : Prop :=
  ∀ (s : State) (port dev : Nat) (pool : Bool) (w : Nat → Nat),
    let a := s.marg.toNat
    let param := s.mcmd.toNat % 256
    let runs := fun (code : Nat) => s.mbusy = true ∧ s.mdone = false ∧ s.mcmd.toNat / 2 ^ 56 = code
    let refuses := fun (i : Instr) => ∃ t, exec i s = .next t ∧ MailRefuses s t 2
    let local_ := fun (a : Nat) => a / 2 ^ 57 = 0 ∧ a / 2 ^ 46 % 2 ^ 11 = s.devnum.toNat ∧ a / 2 ^ 44 % 4 = 0 ∧ InMem s (a % 2 ^ 44) ∧ s.vrst = []
    let named := fun (p q n : Nat) => p = w 0 % 8 ∧ q = w 0 / 16 % 16 ∧ n = w 0 / 2 ^ 32
    let known := (∃ k ∈ s.admitted, named k.1 k.2.1 k.2.2) ∨ (∃ l ∈ s.launches, named l.part l.queue l.index) ∨
      ∃ v ∈ s.saved, named v.launch.part v.launch.queue v.launch.index
    let mine := fun (l : Launch) => l.part = param ∧ recPre (leNat l.record) = true
    let free := fun (l : Launch) => ∀ o ∈ l.cores, coreFreeable s o = true
    let cut := fun (t : State) => t.dump.isSome = true ∧ ∀ o, o < 512 → (t.core o).halted = true
    let badDump := 1 < param ∨ a % 4096 ≠ 0 ∨ a / 2 ^ 57 ≠ 0 ∨ a / 2 ^ 44 % 4 ≠ 0
    (runs 1 → (param ≠ 0 ∨ a % 64 ≠ 0 ∨ BadGlobal s a 40960 → refuses .syncState) ∧
      (param = 0 → a % 64 = 0 → ¬ BadGlobal s a 40960 → ∃ t, exec .syncState s = .next t ∧ t.mdone = true ∧ t.mresult = 0 ∧ t.syncs = s.syncs + 1 ∧
        t.mbusy = true ∧ (local_ a → Steady s t → ∀ j, j < 8 → homeByte t (a % 2 ^ 44 + j) = BitVec.ofNat 8 (s.fw.toNat / 2 ^ (8 * j))))) ∧
    (runs 2 → (7 < param ∨ a ≠ 0 → refuses .preempt) ∧
      (param ≤ 7 → a = 0 → ∃ t, exec .preempt s = .next t ∧ t.mdone = true ∧ t.launches.length = s.launches.length ∧
        (∀ (k : Nat) (l : Launch), s.launches[k]? = some l → (mine l ∧ free l → t.launches[k]? = some { l with chosen := true }) ∧
          (¬ (mine l ∧ free l) → t.launches[k]? = some l)) ∧
        ((∀ l ∈ s.launches, mine l → free l) → t.mresult = 0) ∧ ((∃ l ∈ s.launches, mine l ∧ ¬ free l) → t.mresult = 3))) ∧
    (runs 3 → (param ≠ 0 ∨ BadGlobal s a 896 → refuses .record) ∧
      (param = 0 → ¬ BadGlobal s a 896 → local_ a → (∀ k, k < 18 → w k < 2 ^ 64) →
        (∀ k j, k < 18 → j < 8 → BitVec.ofNat 8 (w k / 2 ^ (8 * j)) = homeByte s (a % 2 ^ 44 + 8 * k + j)) →
        let taken := 1 ≤ w 1 ∧ w 1 ≤ 8 ∧ (∀ k, k < w 1 → w (3 + 2 * k) ≠ 0 ∧ w (2 + 2 * k) + w (3 + 2 * k) ≤ 2 ^ 41) ∧ ¬ known
        ∃ t, exec .record s = .next t ∧ (Steady s t →
          (¬ taken → t.mbusy = false ∧ t.mresult = 2 ∧ t.records = s.records) ∧
          (taken → t.mdone = true ∧ t.mresult = 0 ∧
            t.records.getLast? = some ⟨w 0 % 8, w 0 / 16 % 16, w 0 / 2 ^ 32, a, (List.range (w 1)).map (fun k => (w (2 + 2 * k), w (3 + 2 * k)))⟩)))) ∧
    (runs 4 → (badDump → refuses .dump) ∧ (¬ badDump → dumping s = true → exec .dump s = .next { s with mdone := true, mresult := 0 }) ∧
      (¬ badDump → dumping s = false → Canonical s → ∃ t, exec .dump s = .next t ∧ cut t)) ∧
    (runs 5 → (param ≠ 0 ∨ BadGlobal s a (64 + reportBytes) → refuses .attest) ∧
      (param = 0 → ¬ BadGlobal s a (64 + reportBytes) → (s.boot = 2 → exec .attest s = .next { s with mdone := true, mresult := 0 }) ∧
        (s.boot ≠ 2 → ∃ t, exec .attest s = .next t ∧ t.mdone = true ∧ t.mresult = 0 ∧ (local_ a → local_ (a + 64) → Steady s t →
          ∀ j, j < 8 → homeByte t ((a + 64) % 2 ^ 44 + j) = BitVec.ofNat 8 (s.fw.toNat / 2 ^ (8 * j)))))) ∧
    (s.mbusy = true → s.mdone = true → s.msaves = [] → exec .mailboxComplete s = .next { s with mbusy := false, mdone := false }) ∧
    (s.mdone = false ∨ (∃ l ∈ s.launches, l.chosen = true ∧ (l.part, l.queue, l.index) ∈ s.msaves) → exec .mailboxComplete s = .next s) ∧
    (s.ports.getLsbD port = false → exec (.markerFlit port pool) s = .next s) ∧
    (s.ports.getLsbD port = true →
      (dumping s = false → Canonical s → ∃ t, exec (.markerFlit port pool) s = .next t ∧ cut t ∧ ∀ d, t.dump = some d → port ∉ d.open_) ∧
      (∀ d, s.dump = some d → d.open_ ≠ [] → (∃ k ∈ d.open_, k ≠ port) ∨ (∃ c ∈ s.cores, c.2.halted = true) →
        ∃ t d', exec (.markerFlit port pool) s = .next t ∧ t.dump = some d' ∧ ∀ k, k ∈ d'.open_ ↔ k ∈ d.open_ ∧ k ≠ port)) ∧
    (∀ d, s.dump = some d → s.ports.getLsbD s.here.idx = true → s.here.idx ∈ d.open_ → d.failed = false →
      ∃ t d', exec (.fabricResponse dev false) s = .next t ∧ t.dump = some d' ∧ d'.entries = d.entries + 1)

/-! ## Where the forms complete -/

/-- R78, R79, R118, R171, R269 to R276, R310, R311, R314, R328 to R330, R336, R337: each of these forms answers a next state wherever its state
and its operands are as told here, and this is the state: the conversions, the prefetch, the fence, `clean` and `inval`, the seven undos with a
frame of theirs at the top of the stack, `tsave` and `trest` on an empty stack, and `bar`. -/
def Obligations.MembersComplete : Prop :=
  (∀ (s : State) (c : Bool) (d a b : VName) (sz : Size) (ft : FType) (code : BitVec 4) (f src dst : NFmt), Clean s →
    let p := s.cv.pfx
    let x := s.cv.rv a
    let w := dst.width
    let round := fun (r : Nat → Res) (t : State) => Takes s t d w (fun n => (r n).1 % 2 ^ w) (fun n => (r n).2)
    (sz.bits * s.cv.elems ≤ 4096 → p.ty = none →
      ∃ t, exec (.vcvt c d a sz) s = .next t ∧ Takes s t d sz.bits (fun n => (el x sz.bits n).toNat) (fun _ => 0)) ∧
    (sz.bits * s.cv.elems ≤ 4096 → p.ty.isSome = true → vcvtSrc p.ty sz = some f →
      ∃ t, exec (.vcvt c d a sz) s = .next t ∧
        Takes s t d sz.bits (fun n => narrow p sz.bits (f.toInt (elem x f.width n))) (fun n => satFlag p sz.bits (f.toInt (elem x f.width n)))) ∧
    (w * s.cv.elems ≤ 4096 → vfcvtPair p.ty code = some (src, dst) →
      ∃ t, exec (.vfcvt c d a code) s = .next t ∧ round (fun n => convert src dst (elem x src.width n) s.cv.mode (s.cv.rnd w n) p.sat) t) ∧
    (w * s.cv.elems ≤ 4096 → vsrndDst p.ty ft = some dst →
      ∃ t, exec (.vsrnd c d a b ft) s = .next t ∧
        round (fun n => convert (.flt (ftFmt ft)) dst (elem x (ftBits ft) n) .sto (elem (s.cv.rv b) w n) p.sat) t)) ∧
  (∀ (s : State) (c : Bool) (d a : VName) (tn : TName) (ft : FType), Clean s → ftBits ft * s.cv.elems ≤ 4096 → s.cv.elems ≤ 512 →
    let code := (startDesc s tn).fmt
    let w := ftBits ft
    let wb := codeWidth code
    let r := round1 s ft (fun n => unpackEl ⟨code, s.cv.rv (a + 1), s.cv.cols⟩ (s.cv.rv a) s.cv.mode n)
    (∃ t, exec (.vfcvtiOut c d a tn ft) s = .next t ∧ Takes s t d w (fun n => (r n).1 % 2 ^ w) (fun n => (r n).2)) ∧
    (wb * s.cv.elems ≤ 4096 → ∃ t, exec (.vfcvtiInto c d a tn ft) s = .next t ∧ t = { s with cv := t.cv, fresh := s.fresh + s.cv.elems } ∧
      t.cv.pfx = {} ∧ t.cv.member = s.cv.member + 1 ∧ t.cv.cands = s.cv.cands ∧ (∀ n, n ≠ d → n ≠ d + 1 → t.cv.rv n = s.cv.rv n) ∧
      ∀ n, (n < s.cv.elems → n ∉ act s → elem (t.cv.rv d) wb n = 0) ∧ (s.cv.elems ≤ n → elem (t.cv.rv d) wb n = elem (s.cv.rv d) wb n))) ∧
  (∀ (s : State) (c el es ll ls : Bool) (a b : GName) (scope : Scope) (level : BitVec 3), Clean s → Coherent s s.cv.core → s.cv.wait ≠ .issue →
    let core := s.cv.core
    let m := (s.core core).mt s.cv.mt
    let va := (s.cv.rg a).toNat
    let n := (s.cv.rg b).toNat
    let next := { s.cv with pfx := {}, member := s.cv.member + 1 }
    let covers := fun (need : Need) (drop : Bool) (l : List (Nat × Nat × Bool)) => (∀ r ∈ l, r.2.2 = drop) ∧
      ∀ k x, k < n → lookup s need (va + k) = .ok x → x.dev = none → ∃ r ∈ l, r.1 ≤ x.pa ∧ x.pa < r.1 + r.2.1
    (∀ x, s.sched.head? ≠ some .delay → lookup s { r := true } va = .ok x → ∃ t, exec (.pref c a) s = .next t ∧ ReadsOnly s t ∧ t.cv = next) ∧
    (es = false ∨ scope = .mt ∨ scope = .core → exec (.fence c scope el es ll ls) s = .next { s with cv := next }) ∧
    (es = true → scope ≠ .mt → scope ≠ .core → postedCount s core s.cv.mt scope = 0 →
      ∃ t, exec (.fence c scope el es ll ls) s = .next t ∧ ReadsOnly s t ∧ t.cv = next ∧ ∀ line, ((t.core core).line line).dirty = 0) ∧
    (n ≠ 0 → RangeReaches s { r := true } va n → ∃ l, covers { r := true } false l ∧
      exec (.clean c a b) s = .next { s with cv := { next with cleans := s.cv.cleans ++ l } }) ∧
    (n ≠ 0 → RangeReaches s rw_ va n → ∃ l, covers rw_ true l ∧
      exec (.inval c a b) s = .next { s with cv := { next with cleans := s.cv.cleans ++ l } }) ∧
    (∃ t, exec (.bar c level) s = .next t ∧ t.cv.wait = .bar level.toNat (tget 0 m.bars level.toNat + 1) ∧ t.cv.work = s.cv.work ∧
      ((t.core core).mt s.cv.mt).pend = m.pend ||| BitVec.twoPow 8 level.toNat ∧ SeesSame s t core)) ∧
  (∀ (s : State) (c bf : Bool) (d a b : VName) (g : GName) (rt : RType) (k : BitVec 5), Clean s → rtBits rt * s.cv.elems ≤ 4096 →
    let w := rtBits rt
    let r := fun (n : Nat) => el (s.cv.rv d) w n
    let half := fun (n : Nat) => el (s.cv.rv d) (w / 2) n
    let x := fun (n : Nat) => el (s.cv.rv a) w n
    let y := fun (n : Nat) => el (s.cv.rv b) w n
    let rem := fun (slot : Nat) => BitVec.ofNat w slot
    (Matches s .mul rt d → ∃ t, exec (.umul c d a b rt) s = .next t ∧
      Undone s t rt a (fun n slot => undoWord .mul rt (r n) (rem slot) (x n) (y n) 0)) ∧
    (Matches s .add rt d → ∃ t, exec (.uadd c d a b rt) s = .next t ∧
      Undone s t rt a (fun n slot => undoWord .add rt (r n) (rem slot) (x n) (y n) 0)) ∧
    (Matches s .fma rt d → ∃ t, exec (.ufma c d a b rt) s = .next t ∧
      Undone s t rt d (fun n slot => undoWord .fma rt (r n) (rem slot) (x n) (y n) 0)) ∧
    (Matches s .narrow rt d → ∃ t, exec (.unarrow c d a rt) s = .next t ∧
      Undone s t rt a (fun n slot => undoWord .narrow rt (half n) (rem slot) 0 0 0)) ∧
    (Matches s .shr rt d → ∃ t, exec (.ushr c d a g rt) s = .next t ∧
      Undone s t rt a (fun n slot => undoWord .shr rt (r n) (rem slot) 0 0 (s.cv.rg g).toNat)) ∧
    (rt = bfType bf → Matches s .scale rt d → ∃ t, exec (.uscale c d a g bf) s = .next t ∧ Undone s t rt a (fun _ _ => 0)) ∧
    (Matches s .lrelu rt d → ∃ t, exec (.ulrelu c d a rt k) s = .next t ∧
      Undone s t rt a (fun n slot => undoWord .lrelu rt (r n) (rem slot) 0 0 k.toNat))) ∧
  (∀ (s : State) (c : Bool) (a : GName) (x : Xlat), Clean s → s.cv.work.tsd = 0 →
    let ga := (s.cv.rg a).toNat
    let next := { s.cv with pfx := {}, member := s.cv.member + 1 }
    ga % 32 = 0 →
    (s.cv.work.scb.toNat ≤ s.cv.work.scl.toNat → lookup s { w := true } ga = .ok x →
      ∃ l, exec (.tsave c a) s = .next { s with cv := { next with talus := [], stores := s.cv.stores ++ l } } ∧
        ∀ j, j < 32 → stagedByte l x.dev (x.pa + j) =
          some (BitVec.ofNat 8 ((s.cv.work.scb.toNat * 2 ^ 64 + s.cv.work.scl.toNat * 2 ^ 128) / 2 ^ (8 * j)))) ∧
    (∀ scb scl : Word64, screeBad scb = false → screeBad scl = false → scb.toNat ≤ scl.toNat → Coherent s s.cv.core → CleanSlices s → NoPoison s →
      lookup s { r := true } ga = .ok x → x.dev = none →
      (∀ j, j < 32 → Quiet s s.cv.core (x.pa + j) ∧
        BitVec.ofNat 8 ((scb.toNat * 2 ^ 64 + scl.toNat * 2 ^ 128) / 2 ^ (8 * j)) = readByte s (x.pa + j)) →
      s.cv.final = false → ∃ t, exec (.trest c a) s = .next t ∧ ReadsOnly s t ∧ Keeps s t ∧
        t.cv = { next with talus := [], reads := t.cv.reads, work := { s.cv.work with tsd := 0, scb := scb, scl := scl } }))

/-- R23, R60, R109, R110, R122, R144, R192, R385, R387 (log 9): on the control thread in M mode a load and a store of every width, an AMO, an LR and
an SC answer a next state with their effect, wherever their bytes lie in memory; an `ecall` and the fault interrupt have theirs in each mode,
and the trap of a refused or poisoned access is taken. -/
def Obligations.ThreadFormsComplete : Prop :=
  (∀ (s : State) (op : RvMem) (r rs1 : XName) (imm : BitVec 12) (len : RvLen), Coherent s s.curCore → NoPoison s → s.ct.machine = true →
    s.ct.late = [] → s.sched.head? ≠ some .delay →
    let va := (s.ct.rx rs1 + imm.signExtend 64).toNat
    let n := memBytes op
    let src := if memIsFloat op then s.ct.rf r else s.ct.rx r
    let next := s.ct.pc + (match len with
      | .full => 4
      | .comp _ => 2)
    (memIsFloat op = true → s.ct.mstatus.getLsbD 13 = true ∨ s.ct.mstatus.getLsbD 14 = true) → va + n ≤ 2 ^ 44 → (∀ j, j < n → InMem s (va + j)) →
    (memIsStore op = false → ∃ t, ∃ v : BitVec (8 * n), exec (.ctLoadStore op r rs1 imm len) s = .next t ∧ ThreadAccess s t next ∧
      SeesSame s t s.curCore ∧
      (Steady s t → ∀ j, j < n → Quiet s s.curCore (va + j) → BitVec.ofNat 8 (v.toNat / 2 ^ (8 * j)) = seenByte s s.curCore (va + j)) ∧
      (memIsFloat op = false → ∀ k, t.ct.rx k = if k = 0 then 0 else if k = r then
        (if op = .lb ∨ op = .lh ∨ op = .lw then v.signExtend 64 else v.setWidth 64) else s.ct.rx k) ∧
      (memIsFloat op = true → ∀ k, t.ct.rf k = if k = r then (if n = 8 then v.setWidth 64 else 0xFFFFFFFF00000000 ||| v.setWidth 64) else s.ct.rf k)) ∧
    (memIsStore op = true → ∃ t, exec (.ctLoadStore op r rs1 imm len) s = .next t ∧ ThreadAccess s t next ∧ t.ct.x = s.ct.x ∧ t.ct.f = s.ct.f ∧
      (Steady s t → ∀ pa, Quiet s s.curCore pa → seenByte t s.curCore pa =
        if va ≤ pa ∧ pa < va + n then BitVec.ofNat 8 (src.toNat / 2 ^ (8 * (pa - va))) else seenByte s s.curCore pa))) ∧
  (∀ (s : State) (op : RvAmo) (dbl aq rl held : Bool) (rd rs1 rs2 : XName), Coherent s s.curCore → NoPoison s → s.ct.machine = true →
    (rl = true → postedCount s s.curCore 32 s.ct.scope = 0) →
    let n := if dbl then 8 else 4
    let va := (s.ct.rx rs1).toNat
    let y : BitVec (8 * n) := (s.ct.rx rs2).setWidth (8 * n)
    let put := fun (t : State) (v : BitVec (8 * n)) => ∀ k, t.ct.rx k = if k = 0 then 0 else if k = rd then v.signExtend 64 else s.ct.rx k
    let reads := fun (t : State) (v : BitVec (8 * n)) => Steady s t → ∀ j, j < n → Quiet s s.curCore (va + j) →
      BitVec.ofNat 8 (v.toNat / 2 ^ (8 * j)) = seenByte s s.curCore (va + j)
    let writes := fun (t : State) (v : BitVec (8 * n)) => ∀ j, j < n → homeByte t (va + j) = BitVec.ofNat 8 (v.toNat / 2 ^ (8 * j))
    va % n = 0 → va + n ≤ 2 ^ 44 → InMem s va →
    (∃ t, ∃ v : BitVec (8 * n), exec (.ctAmo op dbl aq rl rd rs1 rs2) s = .next t ∧ ThreadAccess s t (nextPc s) ∧ reads t v ∧ put t v ∧
      writes t (ctAmoWord op v y)) ∧
    (∃ t, ∃ v : BitVec (8 * n), exec (.ctLr dbl aq rl rd rs1) s = .next t ∧ ThreadAccess s t (nextPc s) ∧ reads t v ∧ put t v ∧
      t.ct.resv = some (va / 32)) ∧
    (((s.core s.curCore).line (va / 128)).dirty = 0 → (s.ct.resv = some (va / 32) ↔ held = true) →
      ∃ t, exec (.ctSc dbl aq rl rd rs1 rs2) s = .next t ∧ ThreadAccess s t (nextPc s) ∧ put t (if held then 0 else 1) ∧ t.ct.resv = none ∧
        (held = true → writes t y))) ∧
  (∀ (s : State) (va : Word64) (kind : BitVec 2),
    let c := s.core s.curCore
    let a := s.ct
    (a.machine = false → a.rx 17 = 0 → ∃ t, exec .ecallEndPart s = .next t ∧ t.ct = { a with ending := true } ∧ OneCore s t s.curCore) ∧
    (a.machine = false → a.rx 17 ≠ 0 → ∃ t, exec .ecallEndPart s = .next t ∧ Traps s t 8 0) ∧
    (a.machine = true → ∃ t, exec .ecallEndPart s = .next t ∧ Traps s t 11 0) ∧
    ((∃ k, k < 32 ∧ (c.mt k).code = 4) ∨ (∃ q, q < 6 ∧ (c.queue q).held = true) → a.mie.getLsbD 16 = true → a.active = true →
      c.halted = false → c.stopping = false → a.machine = false ∨ a.mstatus.getLsbD 3 = true →
      ∃ t, exec .faultInterrupt s = .next t ∧ Traps s t 0x8000000000000010 0) ∧
    (a.machine = true ∨ kind = 3 → ∃ t, exec (.ctPageFault va kind) s = .next t ∧
      Traps s t (if kind = 3 then 26 else if kind = 2 then 1 else if kind = 1 then 7 else 5) va))

/-- R34, R36, R147, R165, R193, R381: a lane issues its micro-thread whose turn it is, a convoy that has done all its members retires, and one that
has found a fault takes it; a span update ends where nothing holds its old entry, each mode of an invalidation drops what it names, and it
ends where the stores made through that have arrived. -/
def Obligations.EventsComplete : Prop :=
  ∀ s : State,
    let core := s.here.core
    let c := s.core core
    let cv := s.cv
    let ctx := s.tlbinv.toNat / 256 % 16
    let va := s.tlbinv.toNat / 4096 % 2 ^ 36 * 4096
    let inFlight := fun (e : Nat × Core) => (∃ m ∈ e.2.mts, m.2.parked ≠ none) ∨ (cv.live = true ∧ cv.core = e.1)
    let keeps := fun (t : State) (drop : TlbEntry → Prop) (dropW : WalkEntry → Prop) =>
      t = { s with cores := t.cores, tlbWaits := t.tlbWaits, tlbPosts := t.tlbPosts } ∧
      ∀ o, t.core o = { s.core o with tlb := (t.core o).tlb, walk := (t.core o).walk } ∧
        (∀ x, x ∈ (t.core o).tlb ↔ x ∈ (s.core o).tlb ∧ ¬ drop x) ∧ ∀ x, x ∈ (t.core o).walk ↔ x ∈ (s.core o).walk ∧ ¬ dropW x
    (∀ j k ws ms, twf ({} : Mt) c.mts = true → Turn c (s.here.idx % 8) j → (c.mt j).nextWords = some (k, ws) → (c.mt j).late = [] →
      decodeConvoy (decEnv c (c.mt j)) k ws = .ok ms → shapeBad (shpRows (c.mt j).regs.shp * shpCols (c.mt j).regs.shp) 0 ms = none →
      (∀ x ∈ ms, isBrk x.i = false) →
      ∃ t, exec .convoyIssue s = .next t ∧ t = { s with cv := t.cv, cores := t.cores } ∧ t.cv.live = true ∧ t.cv.core = core ∧ t.cv.mt = j ∧
        t.cv.head = (c.mt j).next ∧ t.cv.todo = ws ∧ t.cv.work = (c.mt j).regs ∧ ((t.core core).mt j).code = 2) ∧
    (Retiring s → cv.wait = .none → cv.tens0 = none → cv.stores = [] → cv.cleans = [] → cv.vpk = [] → cv.enq = [] → cv.sregs = [] →
      cv.send = none → cv.attach = none → cv.ctl = .seq → (cv.head + BitVec.ofNat 64 (4 * cv.words.length)) % 128 ≠ 0 →
      ∃ t, exec .convoyRetire s = .next t ∧ Commits s t ∧ ((t.core cv.core).mt cv.mt).code = 1 ∧
        ((t.core cv.core).mt cv.mt).next = cv.head + BitVec.ofNat 64 (4 * cv.words.length)) ∧
    (∀ p r post, cv.brkArmed = false → cv.counted = true → cv.wait ≠ .issue → ((s.core cv.core).mt cv.mt).late = [] →
      cv.cands = (p, r) :: post → (∀ x ∈ post, p ≤ x.1) →
      ∃ t, exec .convoyFault s = .next t ∧ Faulted s t cv.core cv.mt (fun x => x = r)) ∧
    (∀ n v, s.spPend = some (n, v) → (∀ e ∈ s.cores, e.2.info.ctx = n / 65536 → ¬ inFlight e) →
      (∀ e ∈ s.cores, ∀ q ∈ e.2.queues, ∀ y ∈ q.2.entries, ∀ k ∈ y.held, k % 2 ^ 20 ≠ n) →
      exec .spanUpdateComplete s = .next { s with spBusy := false, spPend := none }) ∧
    (Canonical s → ∃ t, exec .tlbinvPage s = .next t ∧
      keeps t (fun x => x.ctx = ctx ∧ x.base = va / 2 ^ x.pbits * 2 ^ x.pbits) (fun x => x.ctx = ctx)) ∧
    (Canonical s → ∃ t, exec .tlbinvContext s = .next t ∧ keeps t (fun x => x.ctx = ctx) (fun x => x.ctx = ctx)) ∧
    (Canonical s → ∃ t, exec .tlbinvAll s = .next t ∧ keeps t (fun _ => True) (fun _ => True)) ∧
    ((∀ e ∈ s.cores, ¬ inFlight e) → (∀ y ∈ s.tlbWaits, bytesAhead s y.1 (s.core y.1) y.2.1 &&& y.2.2 = 0) →
      (∀ k ∈ s.tlbPosts, postedAhead s k = false) → exec .tlbinvComplete s = .next { s with tlbBusy := false, tlbWaits := [], tlbPosts := [] })

/-! ## Words and steps (R201 to R222, R375) -/

/-- R201 to R222, R375: an instruction within its operand limits has one word, and that word decodes to the instruction again, with every
operand at every value: on the control thread for its rows of the opcode table, on a micro-thread for the others.

R201, R203 to R222: a word that a micro-thread's decoder accepts has one reading: the instruction is within its operand limits, and
its own word is that word, so no bit of it, a reserved one among them, stood otherwise. -/
def Obligations.DecodeAndEncodeAgree : Prop :=
  (∀ (i : Instr) (w : Word32), encode i = some w → wellFormed i = true → if ctSide i then decodeCt w = i else decodeMt w = .ok i) ∧
  (∀ (i : Instr) (w : Word32), decodeMt w = .ok i → wellFormed i = true ∧ encode i = some w)

/-- Words of the spec's programs, and what they stand for (R201, R204, R206, R251, R253, R258, R260, R261, R296, R298, R366). -/
def Obligations.DecodeWords : Prop :=
  decodeMt 0x92142810#32 = .ok (.gaddi true 5 5 16) ∧ decodeMt 0x3A2FFFFA#32 = .ok (.gsubbr 11 (-6)) ∧
  decodeMt 0xC8002800#32 = .ok (.vld true 0 5 .b8 0) ∧ decodeMt 0x4A002800#32 = .ok (.vst false 0 5 .b8 0) ∧
  decodeMt 0x4E282D00#32 = .ok (.vldra false 10 5 .b16 0) ∧ decodeMt 0x300000B0#32 = .ok (.kwhilelt false 0 0 11 .b8) ∧
  decodeMt 0x380000FB#32 = .ok (.vshapeImm false 0 15) ∧ decodeMt 0x78000001#32 = .ok (.stop false) ∧
  decodeMt 0x7E400001#32 = .ok (.saturateAndZeroing false false true) ∧ decodeMt 0x8E000003#32 = .ok (.vaddi true 0 0 .b8 3)

/-- What a step runs (log 2). A convoy in flight runs its next word's instruction, behind which a trace may take its end; after the last
word it retires, or faults where a member found a fault; or it is set aside, so that others act before its next member (R102). Otherwise
the head of the schedule acts, or the agent whose turn it is: a micro-thread's boundary, an interrupt, or the instruction that the
control thread's fetch brings, which is the one that stands at its pc as its core reads memory (R60), before which the thread's
stores enter the L1 unless it may come first: a load, a store behind them, or one that touches no memory (R106, log 52). -/
def Obligations.StepRunsTheNext : Prop :=
  ∀ s : State,
    let runs := fun (i : Instr) (t : State) => step s = exec i t
    let inFlight := s.cv.live = true
    let goesOn := inFlight ∧ holdsNow s = false
    let turn := fun (c : Nat) (who : Agent) (t : State) => ¬ inFlight ∧
      ((∃ l, s.sched = .run c who :: l ∧ t = { s with sched := l, curCore := c, cur := who }) ∨ (s.sched = [] ∧ t = s ∧ c = s.curCore ∧ who = s.cur))
    (∀ w ws i, goesOn → s.cv.todo = w :: ws → decodeMt w = .ok i → ∃ t,
      (let u := { s with cv := { s.cv with todo := ws, widx := s.cv.widx + 1, wait := if s.cv.wait = .member then .none else s.cv.wait } }
       t = (if s.cv.wait = .member then u else traceMember u 0 u.cv i) ∧ ((s.core s.cv.core).tracing = false → t = u)) ∧
      ∀ u, exec i t = .next u → step s = .next (traceEnd t i u) ∧ ((u.core t.cv.core).tracing = false → step s = .next u)) ∧
    (goesOn → s.cv.todo = [] →
      runs (if s.cv.cands = [] then .convoyRetire else .convoyFault) { s with here := { core := s.cv.core, idx := s.cv.mt } }) ∧
    (∀ l, inFlight → s.cv.mayHold = true → s.sched = .hold :: l → ∃ t p, step s = .next t ∧ t.sched = l ∧ t.cv.live = false ∧
      let m := (t.core s.cv.core).mt s.cv.mt
      m.parked = some p ∧ m.code = 2 ∧ m.regs = ((s.core s.cv.core).mt s.cv.mt).regs ∧ p.todo = s.cv.todo ∧ p.work = s.cv.work ∧
        p.stores = s.cv.stores) ∧
    (∀ h i l, ¬ inFlight → s.sched = .event h i :: l → runs i { s with sched := l, here := h }) ∧
    (∀ e l, ¬ inFlight → s.sched = .hw e :: l → step s = .next (hwEvent { s with sched := l } e)) ∧
    (∀ c n t i, turn c (.mt n) t → mtTurn (s.core c) n = some i → runs i { t with here := { core := c, idx := n } }) ∧
    (∀ c t, turn c .ct t → (s.core c).ct.active = true → (s.core c).halted = false → (s.core c).stopping = false →
      let t := { t with here := { core := c } }
      let ct := (s.core c).ct
      let pc := ct.pc.toNat
      let f := ctFetch t c
      (ctInterrupts (s.core c) = true → runs .faultInterrupt (drainCt t c)) ∧
      (ctInterrupts (s.core c) = false → runs f.1 (if ctOvertakes f.1 then f.2 else drainCt f.2 c)) ∧
      (∀ w, ct.fetched = some w → f = (decodeCt w, t)) ∧
      ∀ w : Word32, ct.fetched = none → ct.machine = true → pc % 2 = 0 → pc + 4 ≤ 2 ^ 44 → InMem s pc → InMem s (pc + 2) → Coherent s c → NoPoison s →
        (∀ j, j < (if w.toNat % 4 = 3 then 4 else 2) → Quiet s c (pc + j) ∧ seenByte s c (pc + j) = w.extractLsb' (8 * j) 8) →
        (w.toNat % 4 ≠ 3 → w.toNat < 2 ^ 16) → FetchOnly t f.2 c ∧ (Steady s f.2 → f.1 = decodeCt w ∧ (f.2.core c).ct.fetched = some w)) ∧
    (¬ inFlight → (∀ h i, s.sched.head? ≠ some (.event h i)) → nextInstr s = none → ∃ t, step s = .next t ∧ t = idleStep s)

/-- After device start-up nothing is launched and nothing stands in memory, the counts of the SRAM regions and of the dies are 0 (R76, R94),
every span entry and context is invalid (R17, R35), no queue is mapped and no partition formed (R176, R177), a micro-thread is not
launched, with k0 all ones and a shape of 1 x 128 (R147, R148, R254, R261), and the tables stand in canonical form. What memory reads, and what a
core's registers hold before a launch, is the model's choice (logs 3, 4). -/
def Obligations.AfterReset : Prop :=
  let s := State.reset
  Tables s ∧ s.launches = [] ∧ s.saved = [] ∧
  ∀ n, s.arrByte n = 0 ∧ tget 0 s.setlc n = 0 ∧ tget 0 s.iwc n = 0 ∧ tget 0 s.latewb n = 0 ∧ tget 0 s.span n = 0 ∧ tget 0 s.ctxd n = 0 ∧
    tget 0 s.qmap n = 0 ∧ tget 0 s.pcfg n = 0 ∧ (s.core n).launch = none ∧ (s.core n).ct.active = false ∧
    ∀ i, ((s.core n).mt i).code = 7 ∧ ((s.core n).mt i).regs.rk 0 = BitVec.allOnes 512 ∧ ((s.core n).mt i).regs.shp = 127

/-- Every step answers a next state, and keeps the canonical forms: of memory, of the cores, and of what the cores, the saved launches
and the convoy in flight hold. Equal contents are then equal data in every state that a run reaches (log 4). -/
def Obligations.StepKeepsTables : Prop :=
  ∀ s : State, Tables s → ∃ t, step s = .next t ∧ Tables t

/-- R66, R69, R74, R76, R80, R87, R88, R407: the settled image changes where a home slice makes room or sends a sector of a settle, where a
bank steps, and where a core writes its trace; the settle counts change where a settle ends, and the in-place write counts where a bank
command has committed its last step. No other operation changes any of the three: no store, special-register write or management
access, no launch, pre-emption or partition change. Start-up begins anew. A slice that has made room is full; but a renew, which ends
with its entry, may empty it again. -/
def Obligations.WhatChangesTheSettledImage : Prop :=
  ∀ (i : Instr) (s t : State), exec i s = .next t → (∀ status dev share ports fw, i ≠ .deviceStartup status dev share ports fw) →
    (Canonical s → Roomy t → (∀ evict serves, i ≠ .homeSliceFill evict serves) → i ≠ .settleSectorWrite → i ≠ .tileStep → i ≠ .sample →
      (i = .entryComplete → s.renews = []) → t.arrays = s.arrays) ∧
    (i ≠ .settleSectorWrite → i ≠ .settleEntry → i ≠ .settleStartNotice → t.setlc = s.setlc) ∧
    (i ≠ .tileStep → t.iwc = s.iwc)
end

