-- ==== Sys2Proof/Laws/Table.lean ====
section
/-! SUPPORT. The laws of the sparse tables: a read after a write, the canonical form kept by every table operation, and equal
reads give equal tables. -/

namespace Sys2Proof.Machine

variable {β : Type} [DecidableEq β]

/-! ## Reads after writes, for any table -/

omit [DecidableEq β] in
/-- Dropping keys up to `k` is not seen above `k`. -/
theorem tget_tdrop_above (z : β) (k j : Nat) (h : k < j) : ∀ t : Tab β, tget z (tdrop k t) j = tget z t j
  | [] => rfl
  | (k', v) :: t => by
    simp only [tdrop]
    split
    · simp only [tget]
      rw [if_neg (by omega), if_neg (by omega)]
      exact tget_tdrop_above z k j h t
    · rfl

omit [DecidableEq β] in
/-- What is left above `k` lists nothing up to `k`. -/
theorem tget_tdrop_upto (z : β) (k j : Nat) (h : j ≤ k) : ∀ t : Tab β, tget z (tdrop k t) j = z
  | [] => rfl
  | (k', v) :: t => by
    simp only [tdrop]
    split
    · exact tget_tdrop_upto z k j h t
    · simp only [tget]
      rw [if_neg (by omega), if_pos (by omega)]

/-- A read of any key after a write. -/
theorem tget_tset (z : β) : ∀ (t : Tab β) (k j : Nat) (v : β), tget z (tset z t k v) j = if j = k then v else tget z t j
  | [], k, j, v => by
    by_cases hv : v = z
    · simp [tset, tget, hv]
    · by_cases hj : j = k
      · simp [tset, tget, hv, hj]
      · simp [tset, tget, hv, hj, Ne.symm hj]
  | (k', w) :: t, k, j, v => by
    simp only [tset]
    by_cases h1 : k < k'
    · rw [if_pos h1]
      by_cases hv : v = z
      · rw [if_pos hv]
        by_cases hj : j = k
        · subst hj hv; simp only [tget, if_true]; rw [if_neg (by omega), if_pos h1]
        · rw [if_neg hj]
      · rw [if_neg hv]
        by_cases hj : j = k
        · subst hj; simp [tget]
        · simp only [tget, if_neg hj, if_neg (Ne.symm hj)]
          by_cases hl : j < k
          · rw [if_pos hl, if_neg (by omega), if_pos (by omega)]
          · rw [if_neg hl]
    · rw [if_neg h1]
      by_cases h2 : k = k'
      · subst h2
        rw [if_pos rfl]
        by_cases hv : v = z
        · rw [if_pos hv]
          by_cases hj : j = k
          · subst hj hv; rw [if_pos rfl]; exact tget_tdrop_upto v j j (Nat.le_refl j) t
          · rw [if_neg hj]
            simp only [tget, if_neg (Ne.symm hj)]
            by_cases hl : j < k
            · rw [if_pos hl]; exact tget_tdrop_upto z k j (by omega) t
            · rw [if_neg hl]; exact tget_tdrop_above z k j (by omega) t
        · rw [if_neg hv]
          by_cases hj : j = k
          · subst hj; simp [tget]
          · simp only [tget, if_neg hj, if_neg (Ne.symm hj)]
      · rw [if_neg h2]
        simp only [tget]
        rw [tget_tset z t k j v]
        by_cases hj : j = k
        · subst hj
          rw [if_neg (Ne.symm h2), if_neg h1]; simp
        · rw [if_neg hj, if_neg hj]

@[simp] theorem tget_tset_same (z : β) (t : Tab β) (k : Nat) (v : β) : tget z (tset z t k v) k = v := by simp [tget_tset]

theorem tget_tset_ne (z : β) (t : Tab β) (k j : Nat) (v : β) (h : j ≠ k) : tget z (tset z t k v) j = tget z t j := by
  simp [tget_tset, h]

/-! ## The canonical form -/

theorem twfFrom_mono (z : β) {lo lo' : Nat} (h : lo' ≤ lo) : ∀ t : Tab β, twfFrom z lo t = true → twfFrom z lo' t = true
  | [], _ => rfl
  | (k, v) :: t, w => by
    simp only [twfFrom, Bool.and_eq_true, decide_eq_true_eq] at w ⊢
    exact ⟨⟨by omega, w.1.2⟩, w.2⟩

/-- Below the first key of a canonical table every key reads as an unlisted one. -/
theorem tget_below (z : β) : ∀ (t : Tab β) (lo k : Nat), twfFrom z lo t = true → k < lo → tget z t k = z
  | [], _, _, _, _ => rfl
  | (k', v) :: t, lo, k, w, h => by
    simp only [twfFrom, Bool.and_eq_true, decide_eq_true_eq] at w
    simp only [tget]
    rw [if_neg (by omega), if_pos (by omega)]

theorem tdrop_twfFrom (z : β) (k : Nat) : ∀ (t : Tab β) (lo : Nat), twfFrom z lo t = true → twfFrom z lo (tdrop k t) = true
  | [], _, _ => rfl
  | (k', v) :: t, lo, h => by
    have h' := h
    simp only [twfFrom, Bool.and_eq_true, decide_eq_true_eq] at h
    simp only [tdrop]
    split
    · exact twfFrom_mono z (by omega) _ (tdrop_twfFrom z k t (k' + 1) h.2)
    · exact h'

/-- A write keeps a lower bound of the keys that the key written meets. -/
theorem tset_twfFrom (z : β) : ∀ (t : Tab β) (lo k : Nat) (v : β), twfFrom z lo t = true → lo ≤ k → twfFrom z lo (tset z t k v) = true
  | [], lo, k, v, _, h => by
    by_cases hv : v = z <;> simp [tset, twfFrom, hv, h]
  | (k', w) :: t, lo, k, v, hw, h => by
    simp only [twfFrom, Bool.and_eq_true, decide_eq_true_eq] at hw
    obtain ⟨⟨h1, h2⟩, h3⟩ := hw
    simp only [tset]
    split
    · by_cases hv : v = z
      · simp [hv, twfFrom, h1, h2, h3]
      · simp only [hv, if_false, twfFrom, Bool.and_eq_true, decide_eq_true_eq]
        exact ⟨⟨h, hv⟩, ⟨⟨by omega, h2⟩, h3⟩⟩
    · split
      · by_cases hv : v = z
        · simp only [hv, if_true]; exact twfFrom_mono z (by omega) _ (tdrop_twfFrom z k t (k' + 1) h3)
        · simp only [hv, if_false, twfFrom, Bool.and_eq_true, decide_eq_true_eq]
          exact ⟨⟨h, hv⟩, by subst k; exact h3⟩
      · simp only [twfFrom, Bool.and_eq_true, decide_eq_true_eq]
        exact ⟨⟨h1, h2⟩, tset_twfFrom z t (k' + 1) k v h3 (by omega)⟩

/-- A write keeps the canonical form. -/
theorem tset_twf (z : β) (t : Tab β) (k : Nat) (v : β) (h : twf z t = true) : twf z (tset z t k v) = true :=
  tset_twfFrom z t 0 k v h (Nat.zero_le k)

/-- A run of writes keeps the canonical form. -/
theorem tsetRange_twf (z : β) : ∀ (vs : List β) (t : Tab β) (k : Nat), twf z t = true → twf z (tsetRange z t k vs) = true
  | [], _, _, h => h
  | v :: vs, t, k, h => tsetRange_twf z vs (tset z t k v) (k + 1) (tset_twf z t k v h)

/-- A map over the values keeps a lower bound of the keys. -/
theorem tmap_twfFrom (z : β) (f : Nat → β → β) : ∀ (t : Tab β) (lo : Nat), twfFrom z lo t = true → twfFrom z lo (tmap z f t) = true
  | [], _, _ => rfl
  | (k, v) :: t, lo, h => by
    simp only [twfFrom, Bool.and_eq_true, decide_eq_true_eq] at h
    simp only [tmap]
    split
    · exact twfFrom_mono z (by omega) _ (tmap_twfFrom z f t (k + 1) h.2)
    · simp only [twfFrom, Bool.and_eq_true, decide_eq_true_eq]
      exact ⟨⟨h.1.1, ‹_›⟩, tmap_twfFrom z f t (k + 1) h.2⟩

theorem tmap_twf (z : β) (f : Nat → β → β) (t : Tab β) (h : twf z t = true) : twf z (tmap z f t) = true := tmap_twfFrom z f t 0 h

theorem tab_ext_from (z : β) : ∀ (t u : Tab β) (lo : Nat), twfFrom z lo t = true → twfFrom z lo u = true →
    (∀ k, tget z t k = tget z u k) → t = u
  | [], [], _, _, _, _ => rfl
  | [], (k, v) :: u, _, _, hu, h => by
    simp only [twfFrom, Bool.and_eq_true, decide_eq_true_eq] at hu
    have := h k
    simp only [tget, if_true] at this
    exact absurd this.symm hu.1.2
  | (k, v) :: t, [], _, ht, _, h => by
    simp only [twfFrom, Bool.and_eq_true, decide_eq_true_eq] at ht
    have := h k
    simp only [tget, if_true] at this
    exact absurd this ht.1.2
  | (k, v) :: t, (k', v') :: u, lo, ht, hu, h => by
    simp only [twfFrom, Bool.and_eq_true, decide_eq_true_eq] at ht hu
    have hk : k = k' := by
      rcases Nat.lt_trichotomy k k' with c | c | c
      · have := h k
        simp only [tget, if_true] at this
        rw [if_neg (by omega), if_pos c] at this
        exact absurd this ht.1.2
      · exact c
      · have := h k'
        simp only [tget, if_true] at this
        rw [if_neg (by omega), if_pos c] at this
        exact absurd this.symm hu.1.2
    subst hk
    have hv : v = v' := by simpa [tget] using h k
    subst hv
    have : t = u := tab_ext_from z t u (k + 1) ht.2 hu.2 (fun j => by
      by_cases hj : k = j
      · subst hj
        rw [tget_below z t (k + 1) k ht.2 (by omega), tget_below z u (k + 1) k hu.2 (by omega)]
      · have e := h j
        simp only [tget, if_neg hj] at e
        by_cases hl : j < k
        · rw [tget_below z t (k + 1) j ht.2 (by omega), tget_below z u (k + 1) j hu.2 (by omega)]
        · simpa [if_neg hl] using e)
    rw [this]

/-- Two canonical tables that read alike are equal. -/
theorem tab_ext (z : β) (t u : Tab β) (ht : twf z t = true) (hu : twf z u = true) (h : ∀ k, tget z t k = tget z u k) : t = u :=
  tab_ext_from z t u 0 ht hu h

/-! ## Listed keys -/

/-- A table in canonical form lists exactly the keys that read another value than an unlisted one. -/
theorem mem_keys_from (z : β) : ∀ (t : Tab β) (lo k : Nat), twfFrom z lo t = true → (k ∈ t.map Prod.fst ↔ tget z t k ≠ z)
  | [], _, _, _ => by simp [tget]
  | (j, v) :: t, lo, k, h => by
    simp only [twfFrom, Bool.and_eq_true, decide_eq_true_eq] at h
    have ih := mem_keys_from z t (j + 1) k h.2
    simp only [List.map_cons, List.mem_cons, tget]
    by_cases hk : j = k
    · simp [hk, h.1.2]
    · rw [if_neg hk]
      by_cases hl : k < j
      · have hb := tget_below z t (j + 1) k h.2 (by omega)
        rw [hb] at ih
        simp [hl, Ne.symm hk, ih]
      · simp [hl, Ne.symm hk, ih]

theorem mem_keys (z : β) (t : Tab β) (k : Nat) (h : twf z t = true) : k ∈ t.map Prod.fst ↔ tget z t k ≠ z := mem_keys_from z t 0 k h

/-- Every key of a table in canonical form is listed once. -/
theorem nodup_keys_from (z : β) : ∀ (t : Tab β) (lo : Nat), twfFrom z lo t = true → (t.map Prod.fst).Nodup
  | [], _, _ => List.nodup_nil
  | (j, v) :: t, lo, h => by
    simp only [twfFrom, Bool.and_eq_true, decide_eq_true_eq] at h
    refine List.nodup_cons.mpr ⟨fun hm => ?_, nodup_keys_from z t (j + 1) h.2⟩
    exact (mem_keys_from z t (j + 1) j h.2).mp hm (tget_below z t (j + 1) j h.2 (by omega))

theorem nodup_keys (z : β) (t : Tab β) (h : twf z t = true) : (t.map Prod.fst).Nodup := nodup_keys_from z t 0 h

end Sys2Proof.Machine
end

