-- ==== Sys2Proof/Laws/State.lean ====
section
/-! SUPPORT. What each update of the state changes and what it leaves: one lemma for each field and update. -/

namespace Sys2Proof.Machine

/-! ## The convoy in flight -/

@[simp] theorem modCv_here (s : State) (f : Convoy → Convoy) : (s.modCv f).here = s.here := rfl
@[simp] theorem modCv_sched (s : State) (f : Convoy → Convoy) : (s.modCv f).sched = s.sched := rfl
@[simp] theorem modCv_curCore (s : State) (f : Convoy → Convoy) : (s.modCv f).curCore = s.curCore := rfl
@[simp] theorem modCv_cur (s : State) (f : Convoy → Convoy) : (s.modCv f).cur = s.cur := rfl
@[simp] theorem modCv_fresh (s : State) (f : Convoy → Convoy) : (s.modCv f).fresh = s.fresh := rfl
@[simp] theorem modCv_cv (s : State) (f : Convoy → Convoy) : (s.modCv f).cv = f s.cv := rfl
@[simp] theorem modCv_cores (s : State) (f : Convoy → Convoy) : (s.modCv f).cores = s.cores := rfl
@[simp] theorem modCv_arrays (s : State) (f : Convoy → Convoy) : (s.modCv f).arrays = s.arrays := rfl
@[simp] theorem modCv_arrPoison (s : State) (f : Convoy → Convoy) : (s.modCv f).arrPoison = s.arrPoison := rfl
@[simp] theorem modCv_slices (s : State) (f : Convoy → Convoy) : (s.modCv f).slices = s.slices := rfl
@[simp] theorem modCv_setlc (s : State) (f : Convoy → Convoy) : (s.modCv f).setlc = s.setlc := rfl
@[simp] theorem modCv_iwc (s : State) (f : Convoy → Convoy) : (s.modCv f).iwc = s.iwc := rfl
@[simp] theorem modCv_settles (s : State) (f : Convoy → Convoy) : (s.modCv f).settles = s.settles := rfl
@[simp] theorem modCv_renews (s : State) (f : Convoy → Convoy) : (s.modCv f).renews = s.renews := rfl
@[simp] theorem modCv_banks (s : State) (f : Convoy → Convoy) : (s.modCv f).banks = s.banks := rfl
@[simp] theorem modCv_vrst (s : State) (f : Convoy → Convoy) : (s.modCv f).vrst = s.vrst := rfl
@[simp] theorem modCv_span (s : State) (f : Convoy → Convoy) : (s.modCv f).span = s.span := rfl
@[simp] theorem modCv_spanErr (s : State) (f : Convoy → Convoy) : (s.modCv f).spanErr = s.spanErr := rfl
@[simp] theorem modCv_spidx (s : State) (f : Convoy → Convoy) : (s.modCv f).spidx = s.spidx := rfl
@[simp] theorem modCv_spBusy (s : State) (f : Convoy → Convoy) : (s.modCv f).spBusy = s.spBusy := rfl
@[simp] theorem modCv_spDrop (s : State) (f : Convoy → Convoy) : (s.modCv f).spDrop = s.spDrop := rfl
@[simp] theorem modCv_spPend (s : State) (f : Convoy → Convoy) : (s.modCv f).spPend = s.spPend := rfl
@[simp] theorem modCv_ctxd (s : State) (f : Convoy → Convoy) : (s.modCv f).ctxd = s.ctxd := rfl
@[simp] theorem modCv_tlbinv (s : State) (f : Convoy → Convoy) : (s.modCv f).tlbinv = s.tlbinv := rfl
@[simp] theorem modCv_tlbBusy (s : State) (f : Convoy → Convoy) : (s.modCv f).tlbBusy = s.tlbBusy := rfl
@[simp] theorem modCv_tlbWaits (s : State) (f : Convoy → Convoy) : (s.modCv f).tlbWaits = s.tlbWaits := rfl
@[simp] theorem modCv_tlbPosts (s : State) (f : Convoy → Convoy) : (s.modCv f).tlbPosts = s.tlbPosts := rfl
@[simp] theorem modCv_tlbDrop (s : State) (f : Convoy → Convoy) : (s.modCv f).tlbDrop = s.tlbDrop := rfl
@[simp] theorem modCv_qmap (s : State) (f : Convoy → Convoy) : (s.modCv f).qmap = s.qmap := rfl
@[simp] theorem modCv_qmapHeld (s : State) (f : Convoy → Convoy) : (s.modCv f).qmapHeld = s.qmapHeld := rfl
@[simp] theorem modCv_pcfg (s : State) (f : Convoy → Convoy) : (s.modCv f).pcfg = s.pcfg := rfl
@[simp] theorem modCv_lq (s : State) (f : Convoy → Convoy) : (s.modCv f).lq = s.lq := rfl
@[simp] theorem modCv_launches (s : State) (f : Convoy → Convoy) : (s.modCv f).launches = s.launches := rfl
@[simp] theorem modCv_admitted (s : State) (f : Convoy → Convoy) : (s.modCv f).admitted = s.admitted := rfl
@[simp] theorem modCv_saved (s : State) (f : Convoy → Convoy) : (s.modCv f).saved = s.saved := rfl
@[simp] theorem modCv_lastq (s : State) (f : Convoy → Convoy) : (s.modCv f).lastq = s.lastq := rfl
@[simp] theorem modCv_tick (s : State) (f : Convoy → Convoy) : (s.modCv f).tick = s.tick := rfl
@[simp] theorem modCv_cgda (s : State) (f : Convoy → Convoy) : (s.modCv f).cgda = s.cgda := rfl
@[simp] theorem modCv_cgdb (s : State) (f : Convoy → Convoy) : (s.modCv f).cgdb = s.cgdb := rfl
@[simp] theorem modCv_collCount (s : State) (f : Convoy → Convoy) : (s.modCv f).collCount = s.collCount := rfl
@[simp] theorem modCv_collHalt (s : State) (f : Convoy → Convoy) : (s.modCv f).collHalt = s.collHalt := rfl
@[simp] theorem modCv_mcmd (s : State) (f : Convoy → Convoy) : (s.modCv f).mcmd = s.mcmd := rfl
@[simp] theorem modCv_marg (s : State) (f : Convoy → Convoy) : (s.modCv f).marg = s.marg := rfl
@[simp] theorem modCv_mbusy (s : State) (f : Convoy → Convoy) : (s.modCv f).mbusy = s.mbusy := rfl
@[simp] theorem modCv_mdrop (s : State) (f : Convoy → Convoy) : (s.modCv f).mdrop = s.mdrop := rfl
@[simp] theorem modCv_mdone (s : State) (f : Convoy → Convoy) : (s.modCv f).mdone = s.mdone := rfl
@[simp] theorem modCv_mresult (s : State) (f : Convoy → Convoy) : (s.modCv f).mresult = s.mresult := rfl
@[simp] theorem modCv_msaves (s : State) (f : Convoy → Convoy) : (s.modCv f).msaves = s.msaves := rfl
@[simp] theorem modCv_syncs (s : State) (f : Convoy → Convoy) : (s.modCv f).syncs = s.syncs := rfl
@[simp] theorem modCv_records (s : State) (f : Convoy → Convoy) : (s.modCv f).records = s.records := rfl
@[simp] theorem modCv_dump (s : State) (f : Convoy → Convoy) : (s.modCv f).dump = s.dump := rfl
@[simp] theorem modCv_flits (s : State) (f : Convoy → Convoy) : (s.modCv f).flits = s.flits := rfl
@[simp] theorem modCv_gangs (s : State) (f : Convoy → Convoy) : (s.modCv f).gangs = s.gangs := rfl
@[simp] theorem modCv_rel (s : State) (f : Convoy → Convoy) : (s.modCv f).rel = s.rel := rfl
@[simp] theorem modCv_events (s : State) (f : Convoy → Convoy) : (s.modCv f).events = s.events := rfl
@[simp] theorem modCv_latewb (s : State) (f : Convoy → Convoy) : (s.modCv f).latewb = s.latewb := rfl
@[simp] theorem modCv_cyc (s : State) (f : Convoy → Convoy) : (s.modCv f).cyc = s.cyc := rfl
@[simp] theorem modCv_clock (s : State) (f : Convoy → Convoy) : (s.modCv f).clock = s.clock := rfl
@[simp] theorem modCv_devnum (s : State) (f : Convoy → Convoy) : (s.modCv f).devnum = s.devnum := rfl
@[simp] theorem modCv_share (s : State) (f : Convoy → Convoy) : (s.modCv f).share = s.share := rfl
@[simp] theorem modCv_ports (s : State) (f : Convoy → Convoy) : (s.modCv f).ports = s.ports := rfl
@[simp] theorem modCv_boot (s : State) (f : Convoy → Convoy) : (s.modCv f).boot = s.boot := rfl
@[simp] theorem modCv_fw (s : State) (f : Convoy → Convoy) : (s.modCv f).fw = s.fw := rfl
@[simp] theorem modCv_posted (s : State) (f : Convoy → Convoy) : (s.modCv f).posted = s.posted := rfl
@[simp] theorem modCv_prefs (s : State) (f : Convoy → Convoy) : (s.modCv f).prefs = s.prefs := rfl
@[simp] theorem modCv_markers (s : State) (f : Convoy → Convoy) : (s.modCv f).markers = s.markers := rfl

/-! ## A core -/

@[simp] theorem setCore_here (s : State) (c : Nat) (x : Core) : (s.setCore c x).here = s.here := rfl
@[simp] theorem setCore_sched (s : State) (c : Nat) (x : Core) : (s.setCore c x).sched = s.sched := rfl
@[simp] theorem setCore_curCore (s : State) (c : Nat) (x : Core) : (s.setCore c x).curCore = s.curCore := rfl
@[simp] theorem setCore_cur (s : State) (c : Nat) (x : Core) : (s.setCore c x).cur = s.cur := rfl
@[simp] theorem setCore_fresh (s : State) (c : Nat) (x : Core) : (s.setCore c x).fresh = s.fresh := rfl
@[simp] theorem setCore_cv (s : State) (c : Nat) (x : Core) : (s.setCore c x).cv = s.cv := rfl
@[simp] theorem setCore_cores (s : State) (c : Nat) (x : Core) : (s.setCore c x).cores = tset {} s.cores c x := rfl
@[simp] theorem setCore_arrays (s : State) (c : Nat) (x : Core) : (s.setCore c x).arrays = s.arrays := rfl
@[simp] theorem setCore_arrPoison (s : State) (c : Nat) (x : Core) : (s.setCore c x).arrPoison = s.arrPoison := rfl
@[simp] theorem setCore_slices (s : State) (c : Nat) (x : Core) : (s.setCore c x).slices = s.slices := rfl
@[simp] theorem setCore_setlc (s : State) (c : Nat) (x : Core) : (s.setCore c x).setlc = s.setlc := rfl
@[simp] theorem setCore_iwc (s : State) (c : Nat) (x : Core) : (s.setCore c x).iwc = s.iwc := rfl
@[simp] theorem setCore_settles (s : State) (c : Nat) (x : Core) : (s.setCore c x).settles = s.settles := rfl
@[simp] theorem setCore_renews (s : State) (c : Nat) (x : Core) : (s.setCore c x).renews = s.renews := rfl
@[simp] theorem setCore_banks (s : State) (c : Nat) (x : Core) : (s.setCore c x).banks = s.banks := rfl
@[simp] theorem setCore_vrst (s : State) (c : Nat) (x : Core) : (s.setCore c x).vrst = s.vrst := rfl
@[simp] theorem setCore_span (s : State) (c : Nat) (x : Core) : (s.setCore c x).span = s.span := rfl
@[simp] theorem setCore_spanErr (s : State) (c : Nat) (x : Core) : (s.setCore c x).spanErr = s.spanErr := rfl
@[simp] theorem setCore_spidx (s : State) (c : Nat) (x : Core) : (s.setCore c x).spidx = s.spidx := rfl
@[simp] theorem setCore_spBusy (s : State) (c : Nat) (x : Core) : (s.setCore c x).spBusy = s.spBusy := rfl
@[simp] theorem setCore_spDrop (s : State) (c : Nat) (x : Core) : (s.setCore c x).spDrop = s.spDrop := rfl
@[simp] theorem setCore_spPend (s : State) (c : Nat) (x : Core) : (s.setCore c x).spPend = s.spPend := rfl
@[simp] theorem setCore_ctxd (s : State) (c : Nat) (x : Core) : (s.setCore c x).ctxd = s.ctxd := rfl
@[simp] theorem setCore_tlbinv (s : State) (c : Nat) (x : Core) : (s.setCore c x).tlbinv = s.tlbinv := rfl
@[simp] theorem setCore_tlbBusy (s : State) (c : Nat) (x : Core) : (s.setCore c x).tlbBusy = s.tlbBusy := rfl
@[simp] theorem setCore_tlbWaits (s : State) (c : Nat) (x : Core) : (s.setCore c x).tlbWaits = s.tlbWaits := rfl
@[simp] theorem setCore_tlbPosts (s : State) (c : Nat) (x : Core) : (s.setCore c x).tlbPosts = s.tlbPosts := rfl
@[simp] theorem setCore_tlbDrop (s : State) (c : Nat) (x : Core) : (s.setCore c x).tlbDrop = s.tlbDrop := rfl
@[simp] theorem setCore_qmap (s : State) (c : Nat) (x : Core) : (s.setCore c x).qmap = s.qmap := rfl
@[simp] theorem setCore_qmapHeld (s : State) (c : Nat) (x : Core) : (s.setCore c x).qmapHeld = s.qmapHeld := rfl
@[simp] theorem setCore_pcfg (s : State) (c : Nat) (x : Core) : (s.setCore c x).pcfg = s.pcfg := rfl
@[simp] theorem setCore_lq (s : State) (c : Nat) (x : Core) : (s.setCore c x).lq = s.lq := rfl
@[simp] theorem setCore_launches (s : State) (c : Nat) (x : Core) : (s.setCore c x).launches = s.launches := rfl
@[simp] theorem setCore_admitted (s : State) (c : Nat) (x : Core) : (s.setCore c x).admitted = s.admitted := rfl
@[simp] theorem setCore_saved (s : State) (c : Nat) (x : Core) : (s.setCore c x).saved = s.saved := rfl
@[simp] theorem setCore_lastq (s : State) (c : Nat) (x : Core) : (s.setCore c x).lastq = s.lastq := rfl
@[simp] theorem setCore_tick (s : State) (c : Nat) (x : Core) : (s.setCore c x).tick = s.tick := rfl
@[simp] theorem setCore_cgda (s : State) (c : Nat) (x : Core) : (s.setCore c x).cgda = s.cgda := rfl
@[simp] theorem setCore_cgdb (s : State) (c : Nat) (x : Core) : (s.setCore c x).cgdb = s.cgdb := rfl
@[simp] theorem setCore_collCount (s : State) (c : Nat) (x : Core) : (s.setCore c x).collCount = s.collCount := rfl
@[simp] theorem setCore_collHalt (s : State) (c : Nat) (x : Core) : (s.setCore c x).collHalt = s.collHalt := rfl
@[simp] theorem setCore_mcmd (s : State) (c : Nat) (x : Core) : (s.setCore c x).mcmd = s.mcmd := rfl
@[simp] theorem setCore_marg (s : State) (c : Nat) (x : Core) : (s.setCore c x).marg = s.marg := rfl
@[simp] theorem setCore_mbusy (s : State) (c : Nat) (x : Core) : (s.setCore c x).mbusy = s.mbusy := rfl
@[simp] theorem setCore_mdrop (s : State) (c : Nat) (x : Core) : (s.setCore c x).mdrop = s.mdrop := rfl
@[simp] theorem setCore_mdone (s : State) (c : Nat) (x : Core) : (s.setCore c x).mdone = s.mdone := rfl
@[simp] theorem setCore_mresult (s : State) (c : Nat) (x : Core) : (s.setCore c x).mresult = s.mresult := rfl
@[simp] theorem setCore_msaves (s : State) (c : Nat) (x : Core) : (s.setCore c x).msaves = s.msaves := rfl
@[simp] theorem setCore_syncs (s : State) (c : Nat) (x : Core) : (s.setCore c x).syncs = s.syncs := rfl
@[simp] theorem setCore_records (s : State) (c : Nat) (x : Core) : (s.setCore c x).records = s.records := rfl
@[simp] theorem setCore_dump (s : State) (c : Nat) (x : Core) : (s.setCore c x).dump = s.dump := rfl
@[simp] theorem setCore_flits (s : State) (c : Nat) (x : Core) : (s.setCore c x).flits = s.flits := rfl
@[simp] theorem setCore_gangs (s : State) (c : Nat) (x : Core) : (s.setCore c x).gangs = s.gangs := rfl
@[simp] theorem setCore_rel (s : State) (c : Nat) (x : Core) : (s.setCore c x).rel = s.rel := rfl
@[simp] theorem setCore_events (s : State) (c : Nat) (x : Core) : (s.setCore c x).events = s.events := rfl
@[simp] theorem setCore_latewb (s : State) (c : Nat) (x : Core) : (s.setCore c x).latewb = s.latewb := rfl
@[simp] theorem setCore_cyc (s : State) (c : Nat) (x : Core) : (s.setCore c x).cyc = s.cyc := rfl
@[simp] theorem setCore_clock (s : State) (c : Nat) (x : Core) : (s.setCore c x).clock = s.clock := rfl
@[simp] theorem setCore_devnum (s : State) (c : Nat) (x : Core) : (s.setCore c x).devnum = s.devnum := rfl
@[simp] theorem setCore_share (s : State) (c : Nat) (x : Core) : (s.setCore c x).share = s.share := rfl
@[simp] theorem setCore_ports (s : State) (c : Nat) (x : Core) : (s.setCore c x).ports = s.ports := rfl
@[simp] theorem setCore_boot (s : State) (c : Nat) (x : Core) : (s.setCore c x).boot = s.boot := rfl
@[simp] theorem setCore_fw (s : State) (c : Nat) (x : Core) : (s.setCore c x).fw = s.fw := rfl
@[simp] theorem setCore_posted (s : State) (c : Nat) (x : Core) : (s.setCore c x).posted = s.posted := rfl
@[simp] theorem setCore_prefs (s : State) (c : Nat) (x : Core) : (s.setCore c x).prefs = s.prefs := rfl
@[simp] theorem setCore_markers (s : State) (c : Nat) (x : Core) : (s.setCore c x).markers = s.markers := rfl

/-! ## A core changed -/

@[simp] theorem modCore_here (s : State) (c : Nat) (f : Core → Core) : (s.modCore c f).here = s.here := rfl
@[simp] theorem modCore_sched (s : State) (c : Nat) (f : Core → Core) : (s.modCore c f).sched = s.sched := rfl
@[simp] theorem modCore_curCore (s : State) (c : Nat) (f : Core → Core) : (s.modCore c f).curCore = s.curCore := rfl
@[simp] theorem modCore_cur (s : State) (c : Nat) (f : Core → Core) : (s.modCore c f).cur = s.cur := rfl
@[simp] theorem modCore_fresh (s : State) (c : Nat) (f : Core → Core) : (s.modCore c f).fresh = s.fresh := rfl
@[simp] theorem modCore_cv (s : State) (c : Nat) (f : Core → Core) : (s.modCore c f).cv = s.cv := rfl
@[simp] theorem modCore_cores (s : State) (c : Nat) (f : Core → Core) : (s.modCore c f).cores = tset {} s.cores c (f (s.core c)) := rfl
@[simp] theorem modCore_arrays (s : State) (c : Nat) (f : Core → Core) : (s.modCore c f).arrays = s.arrays := rfl
@[simp] theorem modCore_arrPoison (s : State) (c : Nat) (f : Core → Core) : (s.modCore c f).arrPoison = s.arrPoison := rfl
@[simp] theorem modCore_slices (s : State) (c : Nat) (f : Core → Core) : (s.modCore c f).slices = s.slices := rfl
@[simp] theorem modCore_setlc (s : State) (c : Nat) (f : Core → Core) : (s.modCore c f).setlc = s.setlc := rfl
@[simp] theorem modCore_iwc (s : State) (c : Nat) (f : Core → Core) : (s.modCore c f).iwc = s.iwc := rfl
@[simp] theorem modCore_settles (s : State) (c : Nat) (f : Core → Core) : (s.modCore c f).settles = s.settles := rfl
@[simp] theorem modCore_renews (s : State) (c : Nat) (f : Core → Core) : (s.modCore c f).renews = s.renews := rfl
@[simp] theorem modCore_banks (s : State) (c : Nat) (f : Core → Core) : (s.modCore c f).banks = s.banks := rfl
@[simp] theorem modCore_vrst (s : State) (c : Nat) (f : Core → Core) : (s.modCore c f).vrst = s.vrst := rfl
@[simp] theorem modCore_span (s : State) (c : Nat) (f : Core → Core) : (s.modCore c f).span = s.span := rfl
@[simp] theorem modCore_spanErr (s : State) (c : Nat) (f : Core → Core) : (s.modCore c f).spanErr = s.spanErr := rfl
@[simp] theorem modCore_spidx (s : State) (c : Nat) (f : Core → Core) : (s.modCore c f).spidx = s.spidx := rfl
@[simp] theorem modCore_spBusy (s : State) (c : Nat) (f : Core → Core) : (s.modCore c f).spBusy = s.spBusy := rfl
@[simp] theorem modCore_spDrop (s : State) (c : Nat) (f : Core → Core) : (s.modCore c f).spDrop = s.spDrop := rfl
@[simp] theorem modCore_spPend (s : State) (c : Nat) (f : Core → Core) : (s.modCore c f).spPend = s.spPend := rfl
@[simp] theorem modCore_ctxd (s : State) (c : Nat) (f : Core → Core) : (s.modCore c f).ctxd = s.ctxd := rfl
@[simp] theorem modCore_tlbinv (s : State) (c : Nat) (f : Core → Core) : (s.modCore c f).tlbinv = s.tlbinv := rfl
@[simp] theorem modCore_tlbBusy (s : State) (c : Nat) (f : Core → Core) : (s.modCore c f).tlbBusy = s.tlbBusy := rfl
@[simp] theorem modCore_tlbWaits (s : State) (c : Nat) (f : Core → Core) : (s.modCore c f).tlbWaits = s.tlbWaits := rfl
@[simp] theorem modCore_tlbPosts (s : State) (c : Nat) (f : Core → Core) : (s.modCore c f).tlbPosts = s.tlbPosts := rfl
@[simp] theorem modCore_tlbDrop (s : State) (c : Nat) (f : Core → Core) : (s.modCore c f).tlbDrop = s.tlbDrop := rfl
@[simp] theorem modCore_qmap (s : State) (c : Nat) (f : Core → Core) : (s.modCore c f).qmap = s.qmap := rfl
@[simp] theorem modCore_qmapHeld (s : State) (c : Nat) (f : Core → Core) : (s.modCore c f).qmapHeld = s.qmapHeld := rfl
@[simp] theorem modCore_pcfg (s : State) (c : Nat) (f : Core → Core) : (s.modCore c f).pcfg = s.pcfg := rfl
@[simp] theorem modCore_lq (s : State) (c : Nat) (f : Core → Core) : (s.modCore c f).lq = s.lq := rfl
@[simp] theorem modCore_launches (s : State) (c : Nat) (f : Core → Core) : (s.modCore c f).launches = s.launches := rfl
@[simp] theorem modCore_admitted (s : State) (c : Nat) (f : Core → Core) : (s.modCore c f).admitted = s.admitted := rfl
@[simp] theorem modCore_saved (s : State) (c : Nat) (f : Core → Core) : (s.modCore c f).saved = s.saved := rfl
@[simp] theorem modCore_lastq (s : State) (c : Nat) (f : Core → Core) : (s.modCore c f).lastq = s.lastq := rfl
@[simp] theorem modCore_tick (s : State) (c : Nat) (f : Core → Core) : (s.modCore c f).tick = s.tick := rfl
@[simp] theorem modCore_cgda (s : State) (c : Nat) (f : Core → Core) : (s.modCore c f).cgda = s.cgda := rfl
@[simp] theorem modCore_cgdb (s : State) (c : Nat) (f : Core → Core) : (s.modCore c f).cgdb = s.cgdb := rfl
@[simp] theorem modCore_collCount (s : State) (c : Nat) (f : Core → Core) : (s.modCore c f).collCount = s.collCount := rfl
@[simp] theorem modCore_collHalt (s : State) (c : Nat) (f : Core → Core) : (s.modCore c f).collHalt = s.collHalt := rfl
@[simp] theorem modCore_mcmd (s : State) (c : Nat) (f : Core → Core) : (s.modCore c f).mcmd = s.mcmd := rfl
@[simp] theorem modCore_marg (s : State) (c : Nat) (f : Core → Core) : (s.modCore c f).marg = s.marg := rfl
@[simp] theorem modCore_mbusy (s : State) (c : Nat) (f : Core → Core) : (s.modCore c f).mbusy = s.mbusy := rfl
@[simp] theorem modCore_mdrop (s : State) (c : Nat) (f : Core → Core) : (s.modCore c f).mdrop = s.mdrop := rfl
@[simp] theorem modCore_mdone (s : State) (c : Nat) (f : Core → Core) : (s.modCore c f).mdone = s.mdone := rfl
@[simp] theorem modCore_mresult (s : State) (c : Nat) (f : Core → Core) : (s.modCore c f).mresult = s.mresult := rfl
@[simp] theorem modCore_msaves (s : State) (c : Nat) (f : Core → Core) : (s.modCore c f).msaves = s.msaves := rfl
@[simp] theorem modCore_syncs (s : State) (c : Nat) (f : Core → Core) : (s.modCore c f).syncs = s.syncs := rfl
@[simp] theorem modCore_records (s : State) (c : Nat) (f : Core → Core) : (s.modCore c f).records = s.records := rfl
@[simp] theorem modCore_dump (s : State) (c : Nat) (f : Core → Core) : (s.modCore c f).dump = s.dump := rfl
@[simp] theorem modCore_flits (s : State) (c : Nat) (f : Core → Core) : (s.modCore c f).flits = s.flits := rfl
@[simp] theorem modCore_gangs (s : State) (c : Nat) (f : Core → Core) : (s.modCore c f).gangs = s.gangs := rfl
@[simp] theorem modCore_rel (s : State) (c : Nat) (f : Core → Core) : (s.modCore c f).rel = s.rel := rfl
@[simp] theorem modCore_events (s : State) (c : Nat) (f : Core → Core) : (s.modCore c f).events = s.events := rfl
@[simp] theorem modCore_latewb (s : State) (c : Nat) (f : Core → Core) : (s.modCore c f).latewb = s.latewb := rfl
@[simp] theorem modCore_cyc (s : State) (c : Nat) (f : Core → Core) : (s.modCore c f).cyc = s.cyc := rfl
@[simp] theorem modCore_clock (s : State) (c : Nat) (f : Core → Core) : (s.modCore c f).clock = s.clock := rfl
@[simp] theorem modCore_devnum (s : State) (c : Nat) (f : Core → Core) : (s.modCore c f).devnum = s.devnum := rfl
@[simp] theorem modCore_share (s : State) (c : Nat) (f : Core → Core) : (s.modCore c f).share = s.share := rfl
@[simp] theorem modCore_ports (s : State) (c : Nat) (f : Core → Core) : (s.modCore c f).ports = s.ports := rfl
@[simp] theorem modCore_boot (s : State) (c : Nat) (f : Core → Core) : (s.modCore c f).boot = s.boot := rfl
@[simp] theorem modCore_fw (s : State) (c : Nat) (f : Core → Core) : (s.modCore c f).fw = s.fw := rfl
@[simp] theorem modCore_posted (s : State) (c : Nat) (f : Core → Core) : (s.modCore c f).posted = s.posted := rfl
@[simp] theorem modCore_prefs (s : State) (c : Nat) (f : Core → Core) : (s.modCore c f).prefs = s.prefs := rfl
@[simp] theorem modCore_markers (s : State) (c : Nat) (f : Core → Core) : (s.modCore c f).markers = s.markers := rfl

/-! ## A line of a home slice -/

@[simp] theorem setSlice_here (s : State) (line : Nat) (x : SliceLine) : (s.setSlice line x).here = s.here := rfl
@[simp] theorem setSlice_sched (s : State) (line : Nat) (x : SliceLine) : (s.setSlice line x).sched = s.sched := rfl
@[simp] theorem setSlice_curCore (s : State) (line : Nat) (x : SliceLine) : (s.setSlice line x).curCore = s.curCore := rfl
@[simp] theorem setSlice_cur (s : State) (line : Nat) (x : SliceLine) : (s.setSlice line x).cur = s.cur := rfl
@[simp] theorem setSlice_fresh (s : State) (line : Nat) (x : SliceLine) : (s.setSlice line x).fresh = s.fresh := rfl
@[simp] theorem setSlice_cv (s : State) (line : Nat) (x : SliceLine) : (s.setSlice line x).cv = s.cv := rfl
@[simp] theorem setSlice_cores (s : State) (line : Nat) (x : SliceLine) : (s.setSlice line x).cores = s.cores := rfl
@[simp] theorem setSlice_arrays (s : State) (line : Nat) (x : SliceLine) : (s.setSlice line x).arrays = s.arrays := rfl
@[simp] theorem setSlice_arrPoison (s : State) (line : Nat) (x : SliceLine) : (s.setSlice line x).arrPoison = s.arrPoison := rfl
@[simp] theorem setSlice_slices (s : State) (line : Nat) (x : SliceLine) : (s.setSlice line x).slices = tset {} s.slices line x := rfl
@[simp] theorem setSlice_setlc (s : State) (line : Nat) (x : SliceLine) : (s.setSlice line x).setlc = s.setlc := rfl
@[simp] theorem setSlice_iwc (s : State) (line : Nat) (x : SliceLine) : (s.setSlice line x).iwc = s.iwc := rfl
@[simp] theorem setSlice_settles (s : State) (line : Nat) (x : SliceLine) : (s.setSlice line x).settles = s.settles := rfl
@[simp] theorem setSlice_renews (s : State) (line : Nat) (x : SliceLine) : (s.setSlice line x).renews = s.renews := rfl
@[simp] theorem setSlice_banks (s : State) (line : Nat) (x : SliceLine) : (s.setSlice line x).banks = s.banks := rfl
@[simp] theorem setSlice_vrst (s : State) (line : Nat) (x : SliceLine) : (s.setSlice line x).vrst = s.vrst := rfl
@[simp] theorem setSlice_span (s : State) (line : Nat) (x : SliceLine) : (s.setSlice line x).span = s.span := rfl
@[simp] theorem setSlice_spanErr (s : State) (line : Nat) (x : SliceLine) : (s.setSlice line x).spanErr = s.spanErr := rfl
@[simp] theorem setSlice_spidx (s : State) (line : Nat) (x : SliceLine) : (s.setSlice line x).spidx = s.spidx := rfl
@[simp] theorem setSlice_spBusy (s : State) (line : Nat) (x : SliceLine) : (s.setSlice line x).spBusy = s.spBusy := rfl
@[simp] theorem setSlice_spDrop (s : State) (line : Nat) (x : SliceLine) : (s.setSlice line x).spDrop = s.spDrop := rfl
@[simp] theorem setSlice_spPend (s : State) (line : Nat) (x : SliceLine) : (s.setSlice line x).spPend = s.spPend := rfl
@[simp] theorem setSlice_ctxd (s : State) (line : Nat) (x : SliceLine) : (s.setSlice line x).ctxd = s.ctxd := rfl
@[simp] theorem setSlice_tlbinv (s : State) (line : Nat) (x : SliceLine) : (s.setSlice line x).tlbinv = s.tlbinv := rfl
@[simp] theorem setSlice_tlbBusy (s : State) (line : Nat) (x : SliceLine) : (s.setSlice line x).tlbBusy = s.tlbBusy := rfl
@[simp] theorem setSlice_tlbWaits (s : State) (line : Nat) (x : SliceLine) : (s.setSlice line x).tlbWaits = s.tlbWaits := rfl
@[simp] theorem setSlice_tlbPosts (s : State) (line : Nat) (x : SliceLine) : (s.setSlice line x).tlbPosts = s.tlbPosts := rfl
@[simp] theorem setSlice_tlbDrop (s : State) (line : Nat) (x : SliceLine) : (s.setSlice line x).tlbDrop = s.tlbDrop := rfl
@[simp] theorem setSlice_qmap (s : State) (line : Nat) (x : SliceLine) : (s.setSlice line x).qmap = s.qmap := rfl
@[simp] theorem setSlice_qmapHeld (s : State) (line : Nat) (x : SliceLine) : (s.setSlice line x).qmapHeld = s.qmapHeld := rfl
@[simp] theorem setSlice_pcfg (s : State) (line : Nat) (x : SliceLine) : (s.setSlice line x).pcfg = s.pcfg := rfl
@[simp] theorem setSlice_lq (s : State) (line : Nat) (x : SliceLine) : (s.setSlice line x).lq = s.lq := rfl
@[simp] theorem setSlice_launches (s : State) (line : Nat) (x : SliceLine) : (s.setSlice line x).launches = s.launches := rfl
@[simp] theorem setSlice_admitted (s : State) (line : Nat) (x : SliceLine) : (s.setSlice line x).admitted = s.admitted := rfl
@[simp] theorem setSlice_saved (s : State) (line : Nat) (x : SliceLine) : (s.setSlice line x).saved = s.saved := rfl
@[simp] theorem setSlice_lastq (s : State) (line : Nat) (x : SliceLine) : (s.setSlice line x).lastq = s.lastq := rfl
@[simp] theorem setSlice_tick (s : State) (line : Nat) (x : SliceLine) : (s.setSlice line x).tick = s.tick := rfl
@[simp] theorem setSlice_cgda (s : State) (line : Nat) (x : SliceLine) : (s.setSlice line x).cgda = s.cgda := rfl
@[simp] theorem setSlice_cgdb (s : State) (line : Nat) (x : SliceLine) : (s.setSlice line x).cgdb = s.cgdb := rfl
@[simp] theorem setSlice_collCount (s : State) (line : Nat) (x : SliceLine) : (s.setSlice line x).collCount = s.collCount := rfl
@[simp] theorem setSlice_collHalt (s : State) (line : Nat) (x : SliceLine) : (s.setSlice line x).collHalt = s.collHalt := rfl
@[simp] theorem setSlice_mcmd (s : State) (line : Nat) (x : SliceLine) : (s.setSlice line x).mcmd = s.mcmd := rfl
@[simp] theorem setSlice_marg (s : State) (line : Nat) (x : SliceLine) : (s.setSlice line x).marg = s.marg := rfl
@[simp] theorem setSlice_mbusy (s : State) (line : Nat) (x : SliceLine) : (s.setSlice line x).mbusy = s.mbusy := rfl
@[simp] theorem setSlice_mdrop (s : State) (line : Nat) (x : SliceLine) : (s.setSlice line x).mdrop = s.mdrop := rfl
@[simp] theorem setSlice_mdone (s : State) (line : Nat) (x : SliceLine) : (s.setSlice line x).mdone = s.mdone := rfl
@[simp] theorem setSlice_mresult (s : State) (line : Nat) (x : SliceLine) : (s.setSlice line x).mresult = s.mresult := rfl
@[simp] theorem setSlice_msaves (s : State) (line : Nat) (x : SliceLine) : (s.setSlice line x).msaves = s.msaves := rfl
@[simp] theorem setSlice_syncs (s : State) (line : Nat) (x : SliceLine) : (s.setSlice line x).syncs = s.syncs := rfl
@[simp] theorem setSlice_records (s : State) (line : Nat) (x : SliceLine) : (s.setSlice line x).records = s.records := rfl
@[simp] theorem setSlice_dump (s : State) (line : Nat) (x : SliceLine) : (s.setSlice line x).dump = s.dump := rfl
@[simp] theorem setSlice_flits (s : State) (line : Nat) (x : SliceLine) : (s.setSlice line x).flits = s.flits := rfl
@[simp] theorem setSlice_gangs (s : State) (line : Nat) (x : SliceLine) : (s.setSlice line x).gangs = s.gangs := rfl
@[simp] theorem setSlice_rel (s : State) (line : Nat) (x : SliceLine) : (s.setSlice line x).rel = s.rel := rfl
@[simp] theorem setSlice_events (s : State) (line : Nat) (x : SliceLine) : (s.setSlice line x).events = s.events := rfl
@[simp] theorem setSlice_latewb (s : State) (line : Nat) (x : SliceLine) : (s.setSlice line x).latewb = s.latewb := rfl
@[simp] theorem setSlice_cyc (s : State) (line : Nat) (x : SliceLine) : (s.setSlice line x).cyc = s.cyc := rfl
@[simp] theorem setSlice_clock (s : State) (line : Nat) (x : SliceLine) : (s.setSlice line x).clock = s.clock := rfl
@[simp] theorem setSlice_devnum (s : State) (line : Nat) (x : SliceLine) : (s.setSlice line x).devnum = s.devnum := rfl
@[simp] theorem setSlice_share (s : State) (line : Nat) (x : SliceLine) : (s.setSlice line x).share = s.share := rfl
@[simp] theorem setSlice_ports (s : State) (line : Nat) (x : SliceLine) : (s.setSlice line x).ports = s.ports := rfl
@[simp] theorem setSlice_boot (s : State) (line : Nat) (x : SliceLine) : (s.setSlice line x).boot = s.boot := rfl
@[simp] theorem setSlice_fw (s : State) (line : Nat) (x : SliceLine) : (s.setSlice line x).fw = s.fw := rfl
@[simp] theorem setSlice_posted (s : State) (line : Nat) (x : SliceLine) : (s.setSlice line x).posted = s.posted := rfl
@[simp] theorem setSlice_prefs (s : State) (line : Nat) (x : SliceLine) : (s.setSlice line x).prefs = s.prefs := rfl
@[simp] theorem setSlice_markers (s : State) (line : Nat) (x : SliceLine) : (s.setSlice line x).markers = s.markers := rfl

/-! ## The end of a member -/

@[simp] theorem endMember_here (s : State) : (endMember s).here = s.here := rfl
@[simp] theorem endMember_sched (s : State) : (endMember s).sched = s.sched := rfl
@[simp] theorem endMember_curCore (s : State) : (endMember s).curCore = s.curCore := rfl
@[simp] theorem endMember_cur (s : State) : (endMember s).cur = s.cur := rfl
@[simp] theorem endMember_fresh (s : State) : (endMember s).fresh = s.fresh := rfl
@[simp] theorem endMember_cores (s : State) : (endMember s).cores = s.cores := rfl
@[simp] theorem endMember_arrays (s : State) : (endMember s).arrays = s.arrays := rfl
@[simp] theorem endMember_arrPoison (s : State) : (endMember s).arrPoison = s.arrPoison := rfl
@[simp] theorem endMember_slices (s : State) : (endMember s).slices = s.slices := rfl
@[simp] theorem endMember_setlc (s : State) : (endMember s).setlc = s.setlc := rfl
@[simp] theorem endMember_iwc (s : State) : (endMember s).iwc = s.iwc := rfl
@[simp] theorem endMember_settles (s : State) : (endMember s).settles = s.settles := rfl
@[simp] theorem endMember_renews (s : State) : (endMember s).renews = s.renews := rfl
@[simp] theorem endMember_banks (s : State) : (endMember s).banks = s.banks := rfl
@[simp] theorem endMember_vrst (s : State) : (endMember s).vrst = s.vrst := rfl
@[simp] theorem endMember_span (s : State) : (endMember s).span = s.span := rfl
@[simp] theorem endMember_spanErr (s : State) : (endMember s).spanErr = s.spanErr := rfl
@[simp] theorem endMember_spidx (s : State) : (endMember s).spidx = s.spidx := rfl
@[simp] theorem endMember_spBusy (s : State) : (endMember s).spBusy = s.spBusy := rfl
@[simp] theorem endMember_spDrop (s : State) : (endMember s).spDrop = s.spDrop := rfl
@[simp] theorem endMember_spPend (s : State) : (endMember s).spPend = s.spPend := rfl
@[simp] theorem endMember_ctxd (s : State) : (endMember s).ctxd = s.ctxd := rfl
@[simp] theorem endMember_tlbinv (s : State) : (endMember s).tlbinv = s.tlbinv := rfl
@[simp] theorem endMember_tlbBusy (s : State) : (endMember s).tlbBusy = s.tlbBusy := rfl
@[simp] theorem endMember_tlbWaits (s : State) : (endMember s).tlbWaits = s.tlbWaits := rfl
@[simp] theorem endMember_tlbPosts (s : State) : (endMember s).tlbPosts = s.tlbPosts := rfl
@[simp] theorem endMember_tlbDrop (s : State) : (endMember s).tlbDrop = s.tlbDrop := rfl
@[simp] theorem endMember_qmap (s : State) : (endMember s).qmap = s.qmap := rfl
@[simp] theorem endMember_qmapHeld (s : State) : (endMember s).qmapHeld = s.qmapHeld := rfl
@[simp] theorem endMember_pcfg (s : State) : (endMember s).pcfg = s.pcfg := rfl
@[simp] theorem endMember_lq (s : State) : (endMember s).lq = s.lq := rfl
@[simp] theorem endMember_launches (s : State) : (endMember s).launches = s.launches := rfl
@[simp] theorem endMember_admitted (s : State) : (endMember s).admitted = s.admitted := rfl
@[simp] theorem endMember_saved (s : State) : (endMember s).saved = s.saved := rfl
@[simp] theorem endMember_lastq (s : State) : (endMember s).lastq = s.lastq := rfl
@[simp] theorem endMember_tick (s : State) : (endMember s).tick = s.tick := rfl
@[simp] theorem endMember_cgda (s : State) : (endMember s).cgda = s.cgda := rfl
@[simp] theorem endMember_cgdb (s : State) : (endMember s).cgdb = s.cgdb := rfl
@[simp] theorem endMember_collCount (s : State) : (endMember s).collCount = s.collCount := rfl
@[simp] theorem endMember_collHalt (s : State) : (endMember s).collHalt = s.collHalt := rfl
@[simp] theorem endMember_mcmd (s : State) : (endMember s).mcmd = s.mcmd := rfl
@[simp] theorem endMember_marg (s : State) : (endMember s).marg = s.marg := rfl
@[simp] theorem endMember_mbusy (s : State) : (endMember s).mbusy = s.mbusy := rfl
@[simp] theorem endMember_mdrop (s : State) : (endMember s).mdrop = s.mdrop := rfl
@[simp] theorem endMember_mdone (s : State) : (endMember s).mdone = s.mdone := rfl
@[simp] theorem endMember_mresult (s : State) : (endMember s).mresult = s.mresult := rfl
@[simp] theorem endMember_msaves (s : State) : (endMember s).msaves = s.msaves := rfl
@[simp] theorem endMember_syncs (s : State) : (endMember s).syncs = s.syncs := rfl
@[simp] theorem endMember_records (s : State) : (endMember s).records = s.records := rfl
@[simp] theorem endMember_dump (s : State) : (endMember s).dump = s.dump := rfl
@[simp] theorem endMember_flits (s : State) : (endMember s).flits = s.flits := rfl
@[simp] theorem endMember_gangs (s : State) : (endMember s).gangs = s.gangs := rfl
@[simp] theorem endMember_rel (s : State) : (endMember s).rel = s.rel := rfl
@[simp] theorem endMember_events (s : State) : (endMember s).events = s.events := rfl
@[simp] theorem endMember_latewb (s : State) : (endMember s).latewb = s.latewb := rfl
@[simp] theorem endMember_cyc (s : State) : (endMember s).cyc = s.cyc := rfl
@[simp] theorem endMember_clock (s : State) : (endMember s).clock = s.clock := rfl
@[simp] theorem endMember_devnum (s : State) : (endMember s).devnum = s.devnum := rfl
@[simp] theorem endMember_share (s : State) : (endMember s).share = s.share := rfl
@[simp] theorem endMember_ports (s : State) : (endMember s).ports = s.ports := rfl
@[simp] theorem endMember_boot (s : State) : (endMember s).boot = s.boot := rfl
@[simp] theorem endMember_fw (s : State) : (endMember s).fw = s.fw := rfl
@[simp] theorem endMember_posted (s : State) : (endMember s).posted = s.posted := rfl
@[simp] theorem endMember_prefs (s : State) : (endMember s).prefs = s.prefs := rfl
@[simp] theorem endMember_markers (s : State) : (endMember s).markers = s.markers := rfl

/-! ## A micro-thread of a core -/

@[simp] theorem setMt_launch (c : Core) (i : Nat) (m : Mt) : (c.setMt i m).launch = c.launch := rfl
@[simp] theorem setMt_mts (c : Core) (i : Nat) (m : Mt) : (c.setMt i m).mts = tset {} c.mts i m := rfl
@[simp] theorem setMt_ct (c : Core) (i : Nat) (m : Mt) : (c.setMt i m).ct = c.ct := rfl
@[simp] theorem setMt_scratch (c : Core) (i : Nat) (m : Mt) : (c.setMt i m).scratch = c.scratch := rfl
@[simp] theorem setMt_tags (c : Core) (i : Nat) (m : Mt) : (c.setMt i m).tags = c.tags := rfl
@[simp] theorem setMt_acc (c : Core) (i : Nat) (m : Mt) : (c.setMt i m).acc = c.acc := rfl
@[simp] theorem setMt_poolPoison (c : Core) (i : Nat) (m : Mt) : (c.setMt i m).poolPoison = c.poolPoison := rfl
@[simp] theorem setMt_tens (c : Core) (i : Nat) (m : Mt) : (c.setMt i m).tens = c.tens := rfl
@[simp] theorem setMt_queues (c : Core) (i : Nat) (m : Mt) : (c.setMt i m).queues = c.queues := rfl
@[simp] theorem setMt_l1 (c : Core) (i : Nat) (m : Mt) : (c.setMt i m).l1 = c.l1 := rfl
@[simp] theorem setMt_lodeCache (c : Core) (i : Nat) (m : Mt) : (c.setMt i m).lodeCache = c.lodeCache := rfl
@[simp] theorem setMt_tlb (c : Core) (i : Nat) (m : Mt) : (c.setMt i m).tlb = c.tlb := rfl
@[simp] theorem setMt_walk (c : Core) (i : Nat) (m : Mt) : (c.setMt i m).walk = c.walk := rfl
@[simp] theorem setMt_stale (c : Core) (i : Nat) (m : Mt) : (c.setMt i m).stale = c.stale := rfl
@[simp] theorem setMt_ictl (c : Core) (i : Nat) (m : Mt) : (c.setMt i m).ictl = c.ictl := rfl
@[simp] theorem setMt_rngc0 (c : Core) (i : Nat) (m : Mt) : (c.setMt i m).rngc0 = c.rngc0 := rfl
@[simp] theorem setMt_rngc1 (c : Core) (i : Nat) (m : Mt) : (c.setMt i m).rngc1 = c.rngc1 := rfl
@[simp] theorem setMt_rngk0 (c : Core) (i : Nat) (m : Mt) : (c.setMt i m).rngk0 = c.rngk0 := rfl
@[simp] theorem setMt_rngk1 (c : Core) (i : Nat) (m : Mt) : (c.setMt i m).rngk1 = c.rngk1 := rfl
@[simp] theorem setMt_pairs (c : Core) (i : Nat) (m : Mt) : (c.setMt i m).pairs = c.pairs := rfl
@[simp] theorem setMt_recency (c : Core) (i : Nat) (m : Mt) : (c.setMt i m).recency = c.recency := rfl
@[simp] theorem setMt_pending (c : Core) (i : Nat) (m : Mt) : (c.setMt i m).pending = c.pending := rfl
@[simp] theorem setMt_got (c : Core) (i : Nat) (m : Mt) : (c.setMt i m).got = c.got := rfl
@[simp] theorem setMt_seen (c : Core) (i : Nat) (m : Mt) : (c.setMt i m).seen = c.seen := rfl
@[simp] theorem setMt_halted (c : Core) (i : Nat) (m : Mt) : (c.setMt i m).halted = c.halted := rfl
@[simp] theorem setMt_stopping (c : Core) (i : Nat) (m : Mt) : (c.setMt i m).stopping = c.stopping := rfl
@[simp] theorem setMt_dbgctl (c : Core) (i : Nat) (m : Mt) : (c.setMt i m).dbgctl = c.dbgctl := rfl
@[simp] theorem setMt_trbase (c : Core) (i : Nat) (m : Mt) : (c.setMt i m).trbase = c.trbase := rfl
@[simp] theorem setMt_trsize (c : Core) (i : Nat) (m : Mt) : (c.setMt i m).trsize = c.trsize := rfl
@[simp] theorem setMt_trpos (c : Core) (i : Nat) (m : Mt) : (c.setMt i m).trpos = c.trpos := rfl
@[simp] theorem setMt_smpctl (c : Core) (i : Nat) (m : Mt) : (c.setMt i m).smpctl = c.smpctl := rfl
@[simp] theorem setMt_smpcnt (c : Core) (i : Nat) (m : Mt) : (c.setMt i m).smpcnt = c.smpcnt := rfl
@[simp] theorem setMt_torn (c : Core) (i : Nat) (m : Mt) : (c.setMt i m).torn = c.torn := rfl
@[simp] theorem setMt_trLast (c : Core) (i : Nat) (m : Mt) : (c.setMt i m).trLast = c.trLast := rfl
@[simp] theorem setMt_lreq (c : Core) (i : Nat) (m : Mt) : (c.setMt i m).lreq = c.lreq := rfl
@[simp] theorem setMt_xreq (c : Core) (i : Nat) (m : Mt) : (c.setMt i m).xreq = c.xreq := rfl
@[simp] theorem setMt_rel (c : Core) (i : Nat) (m : Mt) : (c.setMt i m).rel = c.rel := rfl

/-! ## A queue of a core -/

@[simp] theorem setQueue_launch (c : Core) (q : Nat) (x : Queue) : (c.setQueue q x).launch = c.launch := rfl
@[simp] theorem setQueue_mts (c : Core) (q : Nat) (x : Queue) : (c.setQueue q x).mts = c.mts := rfl
@[simp] theorem setQueue_ct (c : Core) (q : Nat) (x : Queue) : (c.setQueue q x).ct = c.ct := rfl
@[simp] theorem setQueue_scratch (c : Core) (q : Nat) (x : Queue) : (c.setQueue q x).scratch = c.scratch := rfl
@[simp] theorem setQueue_tags (c : Core) (q : Nat) (x : Queue) : (c.setQueue q x).tags = c.tags := rfl
@[simp] theorem setQueue_acc (c : Core) (q : Nat) (x : Queue) : (c.setQueue q x).acc = c.acc := rfl
@[simp] theorem setQueue_poolPoison (c : Core) (q : Nat) (x : Queue) : (c.setQueue q x).poolPoison = c.poolPoison := rfl
@[simp] theorem setQueue_tens (c : Core) (q : Nat) (x : Queue) : (c.setQueue q x).tens = c.tens := rfl
@[simp] theorem setQueue_queues (c : Core) (q : Nat) (x : Queue) : (c.setQueue q x).queues = tset {} c.queues q x := rfl
@[simp] theorem setQueue_l1 (c : Core) (q : Nat) (x : Queue) : (c.setQueue q x).l1 = c.l1 := rfl
@[simp] theorem setQueue_lodeCache (c : Core) (q : Nat) (x : Queue) : (c.setQueue q x).lodeCache = c.lodeCache := rfl
@[simp] theorem setQueue_tlb (c : Core) (q : Nat) (x : Queue) : (c.setQueue q x).tlb = c.tlb := rfl
@[simp] theorem setQueue_walk (c : Core) (q : Nat) (x : Queue) : (c.setQueue q x).walk = c.walk := rfl
@[simp] theorem setQueue_stale (c : Core) (q : Nat) (x : Queue) : (c.setQueue q x).stale = c.stale := rfl
@[simp] theorem setQueue_ictl (c : Core) (q : Nat) (x : Queue) : (c.setQueue q x).ictl = c.ictl := rfl
@[simp] theorem setQueue_rngc0 (c : Core) (q : Nat) (x : Queue) : (c.setQueue q x).rngc0 = c.rngc0 := rfl
@[simp] theorem setQueue_rngc1 (c : Core) (q : Nat) (x : Queue) : (c.setQueue q x).rngc1 = c.rngc1 := rfl
@[simp] theorem setQueue_rngk0 (c : Core) (q : Nat) (x : Queue) : (c.setQueue q x).rngk0 = c.rngk0 := rfl
@[simp] theorem setQueue_rngk1 (c : Core) (q : Nat) (x : Queue) : (c.setQueue q x).rngk1 = c.rngk1 := rfl
@[simp] theorem setQueue_pairs (c : Core) (q : Nat) (x : Queue) : (c.setQueue q x).pairs = c.pairs := rfl
@[simp] theorem setQueue_recency (c : Core) (q : Nat) (x : Queue) : (c.setQueue q x).recency = c.recency := rfl
@[simp] theorem setQueue_pending (c : Core) (q : Nat) (x : Queue) : (c.setQueue q x).pending = c.pending := rfl
@[simp] theorem setQueue_got (c : Core) (q : Nat) (x : Queue) : (c.setQueue q x).got = c.got := rfl
@[simp] theorem setQueue_seen (c : Core) (q : Nat) (x : Queue) : (c.setQueue q x).seen = c.seen := rfl
@[simp] theorem setQueue_halted (c : Core) (q : Nat) (x : Queue) : (c.setQueue q x).halted = c.halted := rfl
@[simp] theorem setQueue_stopping (c : Core) (q : Nat) (x : Queue) : (c.setQueue q x).stopping = c.stopping := rfl
@[simp] theorem setQueue_dbgctl (c : Core) (q : Nat) (x : Queue) : (c.setQueue q x).dbgctl = c.dbgctl := rfl
@[simp] theorem setQueue_trbase (c : Core) (q : Nat) (x : Queue) : (c.setQueue q x).trbase = c.trbase := rfl
@[simp] theorem setQueue_trsize (c : Core) (q : Nat) (x : Queue) : (c.setQueue q x).trsize = c.trsize := rfl
@[simp] theorem setQueue_trpos (c : Core) (q : Nat) (x : Queue) : (c.setQueue q x).trpos = c.trpos := rfl
@[simp] theorem setQueue_smpctl (c : Core) (q : Nat) (x : Queue) : (c.setQueue q x).smpctl = c.smpctl := rfl
@[simp] theorem setQueue_smpcnt (c : Core) (q : Nat) (x : Queue) : (c.setQueue q x).smpcnt = c.smpcnt := rfl
@[simp] theorem setQueue_torn (c : Core) (q : Nat) (x : Queue) : (c.setQueue q x).torn = c.torn := rfl
@[simp] theorem setQueue_trLast (c : Core) (q : Nat) (x : Queue) : (c.setQueue q x).trLast = c.trLast := rfl
@[simp] theorem setQueue_lreq (c : Core) (q : Nat) (x : Queue) : (c.setQueue q x).lreq = c.lreq := rfl
@[simp] theorem setQueue_xreq (c : Core) (q : Nat) (x : Queue) : (c.setQueue q x).xreq = c.xreq := rfl
@[simp] theorem setQueue_rel (c : Core) (q : Nat) (x : Queue) : (c.setQueue q x).rel = c.rel := rfl

/-! ## A line of an L1 -/

@[simp] theorem setLine_launch (c : Core) (line : Nat) (x : L1Line) : (c.setLine line x).launch = c.launch := rfl
@[simp] theorem setLine_mts (c : Core) (line : Nat) (x : L1Line) : (c.setLine line x).mts = c.mts := rfl
@[simp] theorem setLine_ct (c : Core) (line : Nat) (x : L1Line) : (c.setLine line x).ct = c.ct := rfl
@[simp] theorem setLine_scratch (c : Core) (line : Nat) (x : L1Line) : (c.setLine line x).scratch = c.scratch := rfl
@[simp] theorem setLine_tags (c : Core) (line : Nat) (x : L1Line) : (c.setLine line x).tags = c.tags := rfl
@[simp] theorem setLine_acc (c : Core) (line : Nat) (x : L1Line) : (c.setLine line x).acc = c.acc := rfl
@[simp] theorem setLine_poolPoison (c : Core) (line : Nat) (x : L1Line) : (c.setLine line x).poolPoison = c.poolPoison := rfl
@[simp] theorem setLine_tens (c : Core) (line : Nat) (x : L1Line) : (c.setLine line x).tens = c.tens := rfl
@[simp] theorem setLine_queues (c : Core) (line : Nat) (x : L1Line) : (c.setLine line x).queues = c.queues := rfl
@[simp] theorem setLine_l1 (c : Core) (line : Nat) (x : L1Line) : (c.setLine line x).l1 = tset {} c.l1 line x := rfl
@[simp] theorem setLine_lodeCache (c : Core) (line : Nat) (x : L1Line) : (c.setLine line x).lodeCache = c.lodeCache := rfl
@[simp] theorem setLine_tlb (c : Core) (line : Nat) (x : L1Line) : (c.setLine line x).tlb = c.tlb := rfl
@[simp] theorem setLine_walk (c : Core) (line : Nat) (x : L1Line) : (c.setLine line x).walk = c.walk := rfl
@[simp] theorem setLine_stale (c : Core) (line : Nat) (x : L1Line) : (c.setLine line x).stale = c.stale := rfl
@[simp] theorem setLine_ictl (c : Core) (line : Nat) (x : L1Line) : (c.setLine line x).ictl = c.ictl := rfl
@[simp] theorem setLine_rngc0 (c : Core) (line : Nat) (x : L1Line) : (c.setLine line x).rngc0 = c.rngc0 := rfl
@[simp] theorem setLine_rngc1 (c : Core) (line : Nat) (x : L1Line) : (c.setLine line x).rngc1 = c.rngc1 := rfl
@[simp] theorem setLine_rngk0 (c : Core) (line : Nat) (x : L1Line) : (c.setLine line x).rngk0 = c.rngk0 := rfl
@[simp] theorem setLine_rngk1 (c : Core) (line : Nat) (x : L1Line) : (c.setLine line x).rngk1 = c.rngk1 := rfl
@[simp] theorem setLine_pairs (c : Core) (line : Nat) (x : L1Line) : (c.setLine line x).pairs = c.pairs := rfl
@[simp] theorem setLine_recency (c : Core) (line : Nat) (x : L1Line) : (c.setLine line x).recency = c.recency := rfl
@[simp] theorem setLine_pending (c : Core) (line : Nat) (x : L1Line) : (c.setLine line x).pending = c.pending := rfl
@[simp] theorem setLine_got (c : Core) (line : Nat) (x : L1Line) : (c.setLine line x).got = c.got := rfl
@[simp] theorem setLine_seen (c : Core) (line : Nat) (x : L1Line) : (c.setLine line x).seen = c.seen := rfl
@[simp] theorem setLine_halted (c : Core) (line : Nat) (x : L1Line) : (c.setLine line x).halted = c.halted := rfl
@[simp] theorem setLine_stopping (c : Core) (line : Nat) (x : L1Line) : (c.setLine line x).stopping = c.stopping := rfl
@[simp] theorem setLine_dbgctl (c : Core) (line : Nat) (x : L1Line) : (c.setLine line x).dbgctl = c.dbgctl := rfl
@[simp] theorem setLine_trbase (c : Core) (line : Nat) (x : L1Line) : (c.setLine line x).trbase = c.trbase := rfl
@[simp] theorem setLine_trsize (c : Core) (line : Nat) (x : L1Line) : (c.setLine line x).trsize = c.trsize := rfl
@[simp] theorem setLine_trpos (c : Core) (line : Nat) (x : L1Line) : (c.setLine line x).trpos = c.trpos := rfl
@[simp] theorem setLine_smpctl (c : Core) (line : Nat) (x : L1Line) : (c.setLine line x).smpctl = c.smpctl := rfl
@[simp] theorem setLine_smpcnt (c : Core) (line : Nat) (x : L1Line) : (c.setLine line x).smpcnt = c.smpcnt := rfl
@[simp] theorem setLine_torn (c : Core) (line : Nat) (x : L1Line) : (c.setLine line x).torn = c.torn := rfl
@[simp] theorem setLine_trLast (c : Core) (line : Nat) (x : L1Line) : (c.setLine line x).trLast = c.trLast := rfl
@[simp] theorem setLine_lreq (c : Core) (line : Nat) (x : L1Line) : (c.setLine line x).lreq = c.lreq := rfl
@[simp] theorem setLine_xreq (c : Core) (line : Nat) (x : L1Line) : (c.setLine line x).xreq = c.xreq := rfl
@[simp] theorem setLine_rel (c : Core) (line : Nat) (x : L1Line) : (c.setLine line x).rel = c.rel := rfl

/-! ## A scalar register of a convoy -/

@[simp] theorem wg_live (cv : Convoy) (n : GName) (x : Word64) : (cv.wg n x).live = cv.live := rfl
@[simp] theorem wg_core (cv : Convoy) (n : GName) (x : Word64) : (cv.wg n x).core = cv.core := rfl
@[simp] theorem wg_mt (cv : Convoy) (n : GName) (x : Word64) : (cv.wg n x).mt = cv.mt := rfl
@[simp] theorem wg_head (cv : Convoy) (n : GName) (x : Word64) : (cv.wg n x).head = cv.head := rfl
@[simp] theorem wg_words (cv : Convoy) (n : GName) (x : Word64) : (cv.wg n x).words = cv.words := rfl
@[simp] theorem wg_todo (cv : Convoy) (n : GName) (x : Word64) : (cv.wg n x).todo = cv.todo := rfl
@[simp] theorem wg_widx (cv : Convoy) (n : GName) (x : Word64) : (cv.wg n x).widx = cv.widx := rfl
@[simp] theorem wg_member (cv : Convoy) (n : GName) (x : Word64) : (cv.wg n x).member = cv.member := rfl
@[simp] theorem wg_nmemb (cv : Convoy) (n : GName) (x : Word64) : (cv.wg n x).nmemb = cv.nmemb := rfl
@[simp] theorem wg_shp (cv : Convoy) (n : GName) (x : Word64) : (cv.wg n x).shp = cv.shp := rfl
@[simp] theorem wg_wb (cv : Convoy) (n : GName) (x : Word64) : (cv.wg n x).wb = cv.wb := rfl
@[simp] theorem wg_chain (cv : Convoy) (n : GName) (x : Word64) : (cv.wg n x).chain = cv.chain := rfl
@[simp] theorem wg_pfx (cv : Convoy) (n : GName) (x : Word64) : (cv.wg n x).pfx = cv.pfx := rfl
@[simp] theorem wg_work (cv : Convoy) (n : GName) (x : Word64) : (cv.wg n x).work = cv.work.wg n x := rfl
@[simp] theorem wg_tens (cv : Convoy) (n : GName) (x : Word64) : (cv.wg n x).tens = cv.tens := rfl
@[simp] theorem wg_talus (cv : Convoy) (n : GName) (x : Word64) : (cv.wg n x).talus = cv.talus := rfl
@[simp] theorem wg_fifo (cv : Convoy) (n : GName) (x : Word64) : (cv.wg n x).fifo = cv.fifo := rfl
@[simp] theorem wg_took (cv : Convoy) (n : GName) (x : Word64) : (cv.wg n x).took = cv.took := rfl
@[simp] theorem wg_vmask (cv : Convoy) (n : GName) (x : Word64) : (cv.wg n x).vmask = cv.vmask := rfl
@[simp] theorem wg_stores (cv : Convoy) (n : GName) (x : Word64) : (cv.wg n x).stores = cv.stores := rfl
@[simp] theorem wg_scr (cv : Convoy) (n : GName) (x : Word64) : (cv.wg n x).scr = cv.scr := rfl
@[simp] theorem wg_cleans (cv : Convoy) (n : GName) (x : Word64) : (cv.wg n x).cleans = cv.cleans := rfl
@[simp] theorem wg_accw (cv : Convoy) (n : GName) (x : Word64) : (cv.wg n x).accw = cv.accw := rfl
@[simp] theorem wg_vpk (cv : Convoy) (n : GName) (x : Word64) : (cv.wg n x).vpk = cv.vpk := rfl
@[simp] theorem wg_enq (cv : Convoy) (n : GName) (x : Word64) : (cv.wg n x).enq = cv.enq := rfl
@[simp] theorem wg_send (cv : Convoy) (n : GName) (x : Word64) : (cv.wg n x).send = cv.send := rfl
@[simp] theorem wg_sregs (cv : Convoy) (n : GName) (x : Word64) : (cv.wg n x).sregs = cv.sregs := rfl
@[simp] theorem wg_fltGld (cv : Convoy) (n : GName) (x : Word64) : (cv.wg n x).fltGld = cv.fltGld := rfl
@[simp] theorem wg_attach (cv : Convoy) (n : GName) (x : Word64) : (cv.wg n x).attach = cv.attach := rfl
@[simp] theorem wg_ctl (cv : Convoy) (n : GName) (x : Word64) : (cv.wg n x).ctl = cv.ctl := rfl
@[simp] theorem wg_wait (cv : Convoy) (n : GName) (x : Word64) : (cv.wg n x).wait = cv.wait := rfl
@[simp] theorem wg_cands (cv : Convoy) (n : GName) (x : Word64) : (cv.wg n x).cands = cv.cands := rfl
@[simp] theorem wg_skipBrk (cv : Convoy) (n : GName) (x : Word64) : (cv.wg n x).skipBrk = cv.skipBrk := rfl
@[simp] theorem wg_brkArmed (cv : Convoy) (n : GName) (x : Word64) : (cv.wg n x).brkArmed = cv.brkArmed := rfl
@[simp] theorem wg_tens0 (cv : Convoy) (n : GName) (x : Word64) : (cv.wg n x).tens0 = cv.tens0 := rfl
@[simp] theorem wg_span0 (cv : Convoy) (n : GName) (x : Word64) : (cv.wg n x).span0 = cv.span0 := rfl
@[simp] theorem wg_hidden (cv : Convoy) (n : GName) (x : Word64) : (cv.wg n x).hidden = cv.hidden := rfl
@[simp] theorem wg_arrived (cv : Convoy) (n : GName) (x : Word64) : (cv.wg n x).arrived = cv.arrived := rfl
@[simp] theorem wg_trial (cv : Convoy) (n : GName) (x : Word64) : (cv.wg n x).trial = cv.trial := rfl
@[simp] theorem wg_final (cv : Convoy) (n : GName) (x : Word64) : (cv.wg n x).final = cv.final := rfl
@[simp] theorem wg_counted (cv : Convoy) (n : GName) (x : Word64) : (cv.wg n x).counted = cv.counted := rfl
@[simp] theorem wg_reads (cv : Convoy) (n : GName) (x : Word64) : (cv.wg n x).reads = cv.reads := rfl
@[simp] theorem wg_seen (cv : Convoy) (n : GName) (x : Word64) : (cv.wg n x).seen = cv.seen := rfl
@[simp] theorem wg_before (cv : Convoy) (n : GName) (x : Word64) : (cv.wg n x).before = cv.before := rfl
@[simp] theorem wg_need (cv : Convoy) (n : GName) (x : Word64) : (cv.wg n x).need = cv.need := rfl

/-! ## A mask register of a convoy -/

@[simp] theorem wk_live (cv : Convoy) (n : KName) (x : KReg) : (cv.wk n x).live = cv.live := rfl
@[simp] theorem wk_core (cv : Convoy) (n : KName) (x : KReg) : (cv.wk n x).core = cv.core := rfl
@[simp] theorem wk_mt (cv : Convoy) (n : KName) (x : KReg) : (cv.wk n x).mt = cv.mt := rfl
@[simp] theorem wk_head (cv : Convoy) (n : KName) (x : KReg) : (cv.wk n x).head = cv.head := rfl
@[simp] theorem wk_words (cv : Convoy) (n : KName) (x : KReg) : (cv.wk n x).words = cv.words := rfl
@[simp] theorem wk_todo (cv : Convoy) (n : KName) (x : KReg) : (cv.wk n x).todo = cv.todo := rfl
@[simp] theorem wk_widx (cv : Convoy) (n : KName) (x : KReg) : (cv.wk n x).widx = cv.widx := rfl
@[simp] theorem wk_member (cv : Convoy) (n : KName) (x : KReg) : (cv.wk n x).member = cv.member := rfl
@[simp] theorem wk_nmemb (cv : Convoy) (n : KName) (x : KReg) : (cv.wk n x).nmemb = cv.nmemb := rfl
@[simp] theorem wk_shp (cv : Convoy) (n : KName) (x : KReg) : (cv.wk n x).shp = cv.shp := rfl
@[simp] theorem wk_wb (cv : Convoy) (n : KName) (x : KReg) : (cv.wk n x).wb = cv.wb := rfl
@[simp] theorem wk_chain (cv : Convoy) (n : KName) (x : KReg) : (cv.wk n x).chain = cv.chain := rfl
@[simp] theorem wk_pfx (cv : Convoy) (n : KName) (x : KReg) : (cv.wk n x).pfx = cv.pfx := rfl
@[simp] theorem wk_work (cv : Convoy) (n : KName) (x : KReg) : (cv.wk n x).work = cv.work.wk n x := rfl
@[simp] theorem wk_tens (cv : Convoy) (n : KName) (x : KReg) : (cv.wk n x).tens = cv.tens := rfl
@[simp] theorem wk_talus (cv : Convoy) (n : KName) (x : KReg) : (cv.wk n x).talus = cv.talus := rfl
@[simp] theorem wk_fifo (cv : Convoy) (n : KName) (x : KReg) : (cv.wk n x).fifo = cv.fifo := rfl
@[simp] theorem wk_took (cv : Convoy) (n : KName) (x : KReg) : (cv.wk n x).took = cv.took := rfl
@[simp] theorem wk_vmask (cv : Convoy) (n : KName) (x : KReg) : (cv.wk n x).vmask = cv.vmask := rfl
@[simp] theorem wk_stores (cv : Convoy) (n : KName) (x : KReg) : (cv.wk n x).stores = cv.stores := rfl
@[simp] theorem wk_scr (cv : Convoy) (n : KName) (x : KReg) : (cv.wk n x).scr = cv.scr := rfl
@[simp] theorem wk_cleans (cv : Convoy) (n : KName) (x : KReg) : (cv.wk n x).cleans = cv.cleans := rfl
@[simp] theorem wk_accw (cv : Convoy) (n : KName) (x : KReg) : (cv.wk n x).accw = cv.accw := rfl
@[simp] theorem wk_vpk (cv : Convoy) (n : KName) (x : KReg) : (cv.wk n x).vpk = cv.vpk := rfl
@[simp] theorem wk_enq (cv : Convoy) (n : KName) (x : KReg) : (cv.wk n x).enq = cv.enq := rfl
@[simp] theorem wk_send (cv : Convoy) (n : KName) (x : KReg) : (cv.wk n x).send = cv.send := rfl
@[simp] theorem wk_sregs (cv : Convoy) (n : KName) (x : KReg) : (cv.wk n x).sregs = cv.sregs := rfl
@[simp] theorem wk_fltGld (cv : Convoy) (n : KName) (x : KReg) : (cv.wk n x).fltGld = cv.fltGld := rfl
@[simp] theorem wk_attach (cv : Convoy) (n : KName) (x : KReg) : (cv.wk n x).attach = cv.attach := rfl
@[simp] theorem wk_ctl (cv : Convoy) (n : KName) (x : KReg) : (cv.wk n x).ctl = cv.ctl := rfl
@[simp] theorem wk_wait (cv : Convoy) (n : KName) (x : KReg) : (cv.wk n x).wait = cv.wait := rfl
@[simp] theorem wk_cands (cv : Convoy) (n : KName) (x : KReg) : (cv.wk n x).cands = cv.cands := rfl
@[simp] theorem wk_skipBrk (cv : Convoy) (n : KName) (x : KReg) : (cv.wk n x).skipBrk = cv.skipBrk := rfl
@[simp] theorem wk_brkArmed (cv : Convoy) (n : KName) (x : KReg) : (cv.wk n x).brkArmed = cv.brkArmed := rfl
@[simp] theorem wk_tens0 (cv : Convoy) (n : KName) (x : KReg) : (cv.wk n x).tens0 = cv.tens0 := rfl
@[simp] theorem wk_span0 (cv : Convoy) (n : KName) (x : KReg) : (cv.wk n x).span0 = cv.span0 := rfl
@[simp] theorem wk_hidden (cv : Convoy) (n : KName) (x : KReg) : (cv.wk n x).hidden = cv.hidden := rfl
@[simp] theorem wk_arrived (cv : Convoy) (n : KName) (x : KReg) : (cv.wk n x).arrived = cv.arrived := rfl
@[simp] theorem wk_trial (cv : Convoy) (n : KName) (x : KReg) : (cv.wk n x).trial = cv.trial := rfl
@[simp] theorem wk_final (cv : Convoy) (n : KName) (x : KReg) : (cv.wk n x).final = cv.final := rfl
@[simp] theorem wk_counted (cv : Convoy) (n : KName) (x : KReg) : (cv.wk n x).counted = cv.counted := rfl
@[simp] theorem wk_reads (cv : Convoy) (n : KName) (x : KReg) : (cv.wk n x).reads = cv.reads := rfl
@[simp] theorem wk_seen (cv : Convoy) (n : KName) (x : KReg) : (cv.wk n x).seen = cv.seen := rfl
@[simp] theorem wk_before (cv : Convoy) (n : KName) (x : KReg) : (cv.wk n x).before = cv.before := rfl
@[simp] theorem wk_need (cv : Convoy) (n : KName) (x : KReg) : (cv.wk n x).need = cv.need := rfl

/-! ## The flags of a convoy -/

@[simp] theorem raise_live (cv : Convoy) (h : Hits) : (cv.raise h).live = cv.live := rfl
@[simp] theorem raise_core (cv : Convoy) (h : Hits) : (cv.raise h).core = cv.core := rfl
@[simp] theorem raise_mt (cv : Convoy) (h : Hits) : (cv.raise h).mt = cv.mt := rfl
@[simp] theorem raise_head (cv : Convoy) (h : Hits) : (cv.raise h).head = cv.head := rfl
@[simp] theorem raise_words (cv : Convoy) (h : Hits) : (cv.raise h).words = cv.words := rfl
@[simp] theorem raise_todo (cv : Convoy) (h : Hits) : (cv.raise h).todo = cv.todo := rfl
@[simp] theorem raise_widx (cv : Convoy) (h : Hits) : (cv.raise h).widx = cv.widx := rfl
@[simp] theorem raise_member (cv : Convoy) (h : Hits) : (cv.raise h).member = cv.member := rfl
@[simp] theorem raise_nmemb (cv : Convoy) (h : Hits) : (cv.raise h).nmemb = cv.nmemb := rfl
@[simp] theorem raise_shp (cv : Convoy) (h : Hits) : (cv.raise h).shp = cv.shp := rfl
@[simp] theorem raise_wb (cv : Convoy) (h : Hits) : (cv.raise h).wb = cv.wb := rfl
@[simp] theorem raise_chain (cv : Convoy) (h : Hits) : (cv.raise h).chain = cv.chain := rfl
@[simp] theorem raise_pfx (cv : Convoy) (h : Hits) : (cv.raise h).pfx = cv.pfx := rfl
@[simp] theorem raise_work (cv : Convoy) (h : Hits) : (cv.raise h).work = cv.work.raise h := rfl
@[simp] theorem raise_tens (cv : Convoy) (h : Hits) : (cv.raise h).tens = cv.tens := rfl
@[simp] theorem raise_talus (cv : Convoy) (h : Hits) : (cv.raise h).talus = cv.talus := rfl
@[simp] theorem raise_fifo (cv : Convoy) (h : Hits) : (cv.raise h).fifo = cv.fifo := rfl
@[simp] theorem raise_took (cv : Convoy) (h : Hits) : (cv.raise h).took = cv.took := rfl
@[simp] theorem raise_vmask (cv : Convoy) (h : Hits) : (cv.raise h).vmask = cv.vmask := rfl
@[simp] theorem raise_stores (cv : Convoy) (h : Hits) : (cv.raise h).stores = cv.stores := rfl
@[simp] theorem raise_scr (cv : Convoy) (h : Hits) : (cv.raise h).scr = cv.scr := rfl
@[simp] theorem raise_cleans (cv : Convoy) (h : Hits) : (cv.raise h).cleans = cv.cleans := rfl
@[simp] theorem raise_accw (cv : Convoy) (h : Hits) : (cv.raise h).accw = cv.accw := rfl
@[simp] theorem raise_vpk (cv : Convoy) (h : Hits) : (cv.raise h).vpk = cv.vpk := rfl
@[simp] theorem raise_enq (cv : Convoy) (h : Hits) : (cv.raise h).enq = cv.enq := rfl
@[simp] theorem raise_send (cv : Convoy) (h : Hits) : (cv.raise h).send = cv.send := rfl
@[simp] theorem raise_sregs (cv : Convoy) (h : Hits) : (cv.raise h).sregs = cv.sregs := rfl
@[simp] theorem raise_fltGld (cv : Convoy) (h : Hits) : (cv.raise h).fltGld = cv.fltGld := rfl
@[simp] theorem raise_attach (cv : Convoy) (h : Hits) : (cv.raise h).attach = cv.attach := rfl
@[simp] theorem raise_ctl (cv : Convoy) (h : Hits) : (cv.raise h).ctl = cv.ctl := rfl
@[simp] theorem raise_wait (cv : Convoy) (h : Hits) : (cv.raise h).wait = cv.wait := rfl
@[simp] theorem raise_cands (cv : Convoy) (h : Hits) : (cv.raise h).cands = cv.cands := rfl
@[simp] theorem raise_skipBrk (cv : Convoy) (h : Hits) : (cv.raise h).skipBrk = cv.skipBrk := rfl
@[simp] theorem raise_brkArmed (cv : Convoy) (h : Hits) : (cv.raise h).brkArmed = cv.brkArmed := rfl
@[simp] theorem raise_tens0 (cv : Convoy) (h : Hits) : (cv.raise h).tens0 = cv.tens0 := rfl
@[simp] theorem raise_span0 (cv : Convoy) (h : Hits) : (cv.raise h).span0 = cv.span0 := rfl
@[simp] theorem raise_hidden (cv : Convoy) (h : Hits) : (cv.raise h).hidden = cv.hide (cv.work.raise h) := rfl
@[simp] theorem raise_arrived (cv : Convoy) (h : Hits) : (cv.raise h).arrived = cv.arrived := rfl
@[simp] theorem raise_trial (cv : Convoy) (h : Hits) : (cv.raise h).trial = cv.trial := rfl
@[simp] theorem raise_final (cv : Convoy) (h : Hits) : (cv.raise h).final = cv.final := rfl
@[simp] theorem raise_counted (cv : Convoy) (h : Hits) : (cv.raise h).counted = cv.counted := rfl
@[simp] theorem raise_reads (cv : Convoy) (h : Hits) : (cv.raise h).reads = cv.reads := rfl
@[simp] theorem raise_seen (cv : Convoy) (h : Hits) : (cv.raise h).seen = cv.seen := rfl
@[simp] theorem raise_before (cv : Convoy) (h : Hits) : (cv.raise h).before = cv.before := rfl
@[simp] theorem raise_need (cv : Convoy) (h : Hits) : (cv.raise h).need = cv.need := rfl

/-! ## A physical vector register -/

@[simp] theorem wp_v (r : MtRegs) (p : Nat) (x : VReg) : (r.wp p x).v = tset 0 r.v p x := rfl
@[simp] theorem wp_g (r : MtRegs) (p : Nat) (x : VReg) : (r.wp p x).g = r.g := rfl
@[simp] theorem wp_k (r : MtRegs) (p : Nat) (x : VReg) : (r.wp p x).k = r.k := rfl
@[simp] theorem wp_fst (r : MtRegs) (p : Nat) (x : VReg) : (r.wp p x).fst = r.fst := rfl
@[simp] theorem wp_ffi (r : MtRegs) (p : Nat) (x : VReg) : (r.wp p x).ffi = r.ffi := rfl
@[simp] theorem wp_grc (r : MtRegs) (p : Nat) (x : VReg) : (r.wp p x).grc = r.grc := rfl
@[simp] theorem wp_shp (r : MtRegs) (p : Nat) (x : VReg) : (r.wp p x).shp = r.shp := rfl
@[simp] theorem wp_wb (r : MtRegs) (p : Nat) (x : VReg) : (r.wp p x).wb = r.wb := rfl
@[simp] theorem wp_eixNv (r : MtRegs) (p : Nat) (x : VReg) : (r.wp p x).eixNv = r.eixNv := rfl
@[simp] theorem wp_eixDz (r : MtRegs) (p : Nat) (x : VReg) : (r.wp p x).eixDz = r.eixDz := rfl
@[simp] theorem wp_eixOf (r : MtRegs) (p : Nat) (x : VReg) : (r.wp p x).eixOf = r.eixOf := rfl
@[simp] theorem wp_eixUf (r : MtRegs) (p : Nat) (x : VReg) : (r.wp p x).eixUf = r.eixUf := rfl
@[simp] theorem wp_eixNx (r : MtRegs) (p : Nat) (x : VReg) : (r.wp p x).eixNx = r.eixNx := rfl
@[simp] theorem wp_tsd (r : MtRegs) (p : Nat) (x : VReg) : (r.wp p x).tsd = r.tsd := rfl
@[simp] theorem wp_scb (r : MtRegs) (p : Nat) (x : VReg) : (r.wp p x).scb = r.scb := rfl
@[simp] theorem wp_scl (r : MtRegs) (p : Nat) (x : VReg) : (r.wp p x).scl = r.scl := rfl
@[simp] theorem wp_mgr (r : MtRegs) (p : Nat) (x : VReg) : (r.wp p x).mgr = r.mgr := rfl
@[simp] theorem wp_mrs (r : MtRegs) (p : Nat) (x : VReg) : (r.wp p x).mrs = r.mrs := rfl

/-! ## A mask register -/

@[simp] theorem regs_wk_v (r : MtRegs) (n : KName) (x : KReg) : (r.wk n x).v = r.v := rfl
@[simp] theorem regs_wk_g (r : MtRegs) (n : KName) (x : KReg) : (r.wk n x).g = r.g := rfl
@[simp] theorem regs_wk_k (r : MtRegs) (n : KName) (x : KReg) : (r.wk n x).k = tset 0 r.k n.toNat x := rfl
@[simp] theorem regs_wk_fst (r : MtRegs) (n : KName) (x : KReg) : (r.wk n x).fst = r.fst := rfl
@[simp] theorem regs_wk_ffi (r : MtRegs) (n : KName) (x : KReg) : (r.wk n x).ffi = r.ffi := rfl
@[simp] theorem regs_wk_grc (r : MtRegs) (n : KName) (x : KReg) : (r.wk n x).grc = r.grc := rfl
@[simp] theorem regs_wk_shp (r : MtRegs) (n : KName) (x : KReg) : (r.wk n x).shp = r.shp := rfl
@[simp] theorem regs_wk_wb (r : MtRegs) (n : KName) (x : KReg) : (r.wk n x).wb = r.wb := rfl
@[simp] theorem regs_wk_eixNv (r : MtRegs) (n : KName) (x : KReg) : (r.wk n x).eixNv = r.eixNv := rfl
@[simp] theorem regs_wk_eixDz (r : MtRegs) (n : KName) (x : KReg) : (r.wk n x).eixDz = r.eixDz := rfl
@[simp] theorem regs_wk_eixOf (r : MtRegs) (n : KName) (x : KReg) : (r.wk n x).eixOf = r.eixOf := rfl
@[simp] theorem regs_wk_eixUf (r : MtRegs) (n : KName) (x : KReg) : (r.wk n x).eixUf = r.eixUf := rfl
@[simp] theorem regs_wk_eixNx (r : MtRegs) (n : KName) (x : KReg) : (r.wk n x).eixNx = r.eixNx := rfl
@[simp] theorem regs_wk_tsd (r : MtRegs) (n : KName) (x : KReg) : (r.wk n x).tsd = r.tsd := rfl
@[simp] theorem regs_wk_scb (r : MtRegs) (n : KName) (x : KReg) : (r.wk n x).scb = r.scb := rfl
@[simp] theorem regs_wk_scl (r : MtRegs) (n : KName) (x : KReg) : (r.wk n x).scl = r.scl := rfl
@[simp] theorem regs_wk_mgr (r : MtRegs) (n : KName) (x : KReg) : (r.wk n x).mgr = r.mgr := rfl
@[simp] theorem regs_wk_mrs (r : MtRegs) (n : KName) (x : KReg) : (r.wk n x).mrs = r.mrs := rfl

/-! ## Flags of the registers -/

@[simp] theorem regs_raise_v (r : MtRegs) (h : Hits) : (r.raise h).v = r.v := rfl
@[simp] theorem regs_raise_g (r : MtRegs) (h : Hits) : (r.raise h).g = r.g := rfl
@[simp] theorem regs_raise_k (r : MtRegs) (h : Hits) : (r.raise h).k = r.k := rfl
@[simp] theorem regs_raise_ffi (r : MtRegs) (h : Hits) : (r.raise h).ffi = r.ffi := rfl
@[simp] theorem regs_raise_grc (r : MtRegs) (h : Hits) : (r.raise h).grc = r.grc := rfl
@[simp] theorem regs_raise_shp (r : MtRegs) (h : Hits) : (r.raise h).shp = r.shp := rfl
@[simp] theorem regs_raise_wb (r : MtRegs) (h : Hits) : (r.raise h).wb = r.wb := rfl
@[simp] theorem regs_raise_tsd (r : MtRegs) (h : Hits) : (r.raise h).tsd = r.tsd := rfl
@[simp] theorem regs_raise_scb (r : MtRegs) (h : Hits) : (r.raise h).scb = r.scb := rfl
@[simp] theorem regs_raise_scl (r : MtRegs) (h : Hits) : (r.raise h).scl = r.scl := rfl
@[simp] theorem regs_raise_mgr (r : MtRegs) (h : Hits) : (r.raise h).mgr = r.mgr := rfl
@[simp] theorem regs_raise_mrs (r : MtRegs) (h : Hits) : (r.raise h).mrs = r.mrs := rfl

/-! ## Scalar registers: g0 takes no write -/

@[simp] theorem regs_wg_v (r : MtRegs) (n : GName) (x : Word64) : (r.wg n x).v = r.v := by unfold MtRegs.wg; split <;> rfl
@[simp] theorem regs_wg_k (r : MtRegs) (n : GName) (x : Word64) : (r.wg n x).k = r.k := by unfold MtRegs.wg; split <;> rfl
@[simp] theorem regs_wg_fst (r : MtRegs) (n : GName) (x : Word64) : (r.wg n x).fst = r.fst := by unfold MtRegs.wg; split <;> rfl
@[simp] theorem regs_wg_ffi (r : MtRegs) (n : GName) (x : Word64) : (r.wg n x).ffi = r.ffi := by unfold MtRegs.wg; split <;> rfl
@[simp] theorem regs_wg_grc (r : MtRegs) (n : GName) (x : Word64) : (r.wg n x).grc = r.grc := by unfold MtRegs.wg; split <;> rfl
@[simp] theorem regs_wg_shp (r : MtRegs) (n : GName) (x : Word64) : (r.wg n x).shp = r.shp := by unfold MtRegs.wg; split <;> rfl
@[simp] theorem regs_wg_wb (r : MtRegs) (n : GName) (x : Word64) : (r.wg n x).wb = r.wb := by unfold MtRegs.wg; split <;> rfl
@[simp] theorem regs_wg_eixNv (r : MtRegs) (n : GName) (x : Word64) : (r.wg n x).eixNv = r.eixNv := by unfold MtRegs.wg; split <;> rfl
@[simp] theorem regs_wg_eixDz (r : MtRegs) (n : GName) (x : Word64) : (r.wg n x).eixDz = r.eixDz := by unfold MtRegs.wg; split <;> rfl
@[simp] theorem regs_wg_eixOf (r : MtRegs) (n : GName) (x : Word64) : (r.wg n x).eixOf = r.eixOf := by unfold MtRegs.wg; split <;> rfl
@[simp] theorem regs_wg_eixUf (r : MtRegs) (n : GName) (x : Word64) : (r.wg n x).eixUf = r.eixUf := by unfold MtRegs.wg; split <;> rfl
@[simp] theorem regs_wg_eixNx (r : MtRegs) (n : GName) (x : Word64) : (r.wg n x).eixNx = r.eixNx := by unfold MtRegs.wg; split <;> rfl
@[simp] theorem regs_wg_tsd (r : MtRegs) (n : GName) (x : Word64) : (r.wg n x).tsd = r.tsd := by unfold MtRegs.wg; split <;> rfl
@[simp] theorem regs_wg_scb (r : MtRegs) (n : GName) (x : Word64) : (r.wg n x).scb = r.scb := by unfold MtRegs.wg; split <;> rfl
@[simp] theorem regs_wg_scl (r : MtRegs) (n : GName) (x : Word64) : (r.wg n x).scl = r.scl := by unfold MtRegs.wg; split <;> rfl
@[simp] theorem regs_wg_mgr (r : MtRegs) (n : GName) (x : Word64) : (r.wg n x).mgr = r.mgr := by unfold MtRegs.wg; split <;> rfl
@[simp] theorem regs_wg_mrs (r : MtRegs) (n : GName) (x : Word64) : (r.wg n x).mrs = r.mrs := by unfold MtRegs.wg; split <;> rfl

/-! ## A vector register of a convoy: v0 is the chain register -/

@[simp] theorem wv_live (cv : Convoy) (n : VName) (x m : VReg) : (cv.wv n x m).live = cv.live := by unfold Convoy.wv; split <;> rfl
@[simp] theorem wv_core (cv : Convoy) (n : VName) (x m : VReg) : (cv.wv n x m).core = cv.core := by unfold Convoy.wv; split <;> rfl
@[simp] theorem wv_mt (cv : Convoy) (n : VName) (x m : VReg) : (cv.wv n x m).mt = cv.mt := by unfold Convoy.wv; split <;> rfl
@[simp] theorem wv_head (cv : Convoy) (n : VName) (x m : VReg) : (cv.wv n x m).head = cv.head := by unfold Convoy.wv; split <;> rfl
@[simp] theorem wv_words (cv : Convoy) (n : VName) (x m : VReg) : (cv.wv n x m).words = cv.words := by unfold Convoy.wv; split <;> rfl
@[simp] theorem wv_todo (cv : Convoy) (n : VName) (x m : VReg) : (cv.wv n x m).todo = cv.todo := by unfold Convoy.wv; split <;> rfl
@[simp] theorem wv_widx (cv : Convoy) (n : VName) (x m : VReg) : (cv.wv n x m).widx = cv.widx := by unfold Convoy.wv; split <;> rfl
@[simp] theorem wv_member (cv : Convoy) (n : VName) (x m : VReg) : (cv.wv n x m).member = cv.member := by unfold Convoy.wv; split <;> rfl
@[simp] theorem wv_nmemb (cv : Convoy) (n : VName) (x m : VReg) : (cv.wv n x m).nmemb = cv.nmemb := by unfold Convoy.wv; split <;> rfl
@[simp] theorem wv_shp (cv : Convoy) (n : VName) (x m : VReg) : (cv.wv n x m).shp = cv.shp := by unfold Convoy.wv; split <;> rfl
@[simp] theorem wv_wb (cv : Convoy) (n : VName) (x m : VReg) : (cv.wv n x m).wb = cv.wb := by unfold Convoy.wv; split <;> rfl
@[simp] theorem wv_pfx (cv : Convoy) (n : VName) (x m : VReg) : (cv.wv n x m).pfx = cv.pfx := by unfold Convoy.wv; split <;> rfl
@[simp] theorem wv_tens (cv : Convoy) (n : VName) (x m : VReg) : (cv.wv n x m).tens = cv.tens := by unfold Convoy.wv; split <;> rfl
@[simp] theorem wv_talus (cv : Convoy) (n : VName) (x m : VReg) : (cv.wv n x m).talus = cv.talus := by unfold Convoy.wv; split <;> rfl
@[simp] theorem wv_fifo (cv : Convoy) (n : VName) (x m : VReg) : (cv.wv n x m).fifo = cv.fifo := by unfold Convoy.wv; split <;> rfl
@[simp] theorem wv_took (cv : Convoy) (n : VName) (x m : VReg) : (cv.wv n x m).took = cv.took := by unfold Convoy.wv; split <;> rfl
@[simp] theorem wv_stores (cv : Convoy) (n : VName) (x m : VReg) : (cv.wv n x m).stores = cv.stores := by unfold Convoy.wv; split <;> rfl
@[simp] theorem wv_scr (cv : Convoy) (n : VName) (x m : VReg) : (cv.wv n x m).scr = cv.scr := by unfold Convoy.wv; split <;> rfl
@[simp] theorem wv_cleans (cv : Convoy) (n : VName) (x m : VReg) : (cv.wv n x m).cleans = cv.cleans := by unfold Convoy.wv; split <;> rfl
@[simp] theorem wv_accw (cv : Convoy) (n : VName) (x m : VReg) : (cv.wv n x m).accw = cv.accw := by unfold Convoy.wv; split <;> rfl
@[simp] theorem wv_vpk (cv : Convoy) (n : VName) (x m : VReg) : (cv.wv n x m).vpk = cv.vpk := by unfold Convoy.wv; split <;> rfl
@[simp] theorem wv_enq (cv : Convoy) (n : VName) (x m : VReg) : (cv.wv n x m).enq = cv.enq := by unfold Convoy.wv; split <;> rfl
@[simp] theorem wv_send (cv : Convoy) (n : VName) (x m : VReg) : (cv.wv n x m).send = cv.send := by unfold Convoy.wv; split <;> rfl
@[simp] theorem wv_sregs (cv : Convoy) (n : VName) (x m : VReg) : (cv.wv n x m).sregs = cv.sregs := by unfold Convoy.wv; split <;> rfl
@[simp] theorem wv_fltGld (cv : Convoy) (n : VName) (x m : VReg) : (cv.wv n x m).fltGld = cv.fltGld := by unfold Convoy.wv; split <;> rfl
@[simp] theorem wv_attach (cv : Convoy) (n : VName) (x m : VReg) : (cv.wv n x m).attach = cv.attach := by unfold Convoy.wv; split <;> rfl
@[simp] theorem wv_ctl (cv : Convoy) (n : VName) (x m : VReg) : (cv.wv n x m).ctl = cv.ctl := by unfold Convoy.wv; split <;> rfl
@[simp] theorem wv_wait (cv : Convoy) (n : VName) (x m : VReg) : (cv.wv n x m).wait = cv.wait := by unfold Convoy.wv; split <;> rfl
@[simp] theorem wv_cands (cv : Convoy) (n : VName) (x m : VReg) : (cv.wv n x m).cands = cv.cands := by unfold Convoy.wv; split <;> rfl
@[simp] theorem wv_skipBrk (cv : Convoy) (n : VName) (x m : VReg) : (cv.wv n x m).skipBrk = cv.skipBrk := by unfold Convoy.wv; split <;> rfl
@[simp] theorem wv_brkArmed (cv : Convoy) (n : VName) (x m : VReg) : (cv.wv n x m).brkArmed = cv.brkArmed := by unfold Convoy.wv; split <;> rfl
@[simp] theorem wv_tens0 (cv : Convoy) (n : VName) (x m : VReg) : (cv.wv n x m).tens0 = cv.tens0 := by unfold Convoy.wv; split <;> rfl
@[simp] theorem wv_span0 (cv : Convoy) (n : VName) (x m : VReg) : (cv.wv n x m).span0 = cv.span0 := by unfold Convoy.wv; split <;> rfl
@[simp] theorem wv_hidden (cv : Convoy) (n : VName) (x m : VReg) : (cv.wv n x m).hidden = cv.hidden := by unfold Convoy.wv; split <;> rfl
@[simp] theorem wv_arrived (cv : Convoy) (n : VName) (x m : VReg) : (cv.wv n x m).arrived = cv.arrived := by unfold Convoy.wv; split <;> rfl
@[simp] theorem wv_trial (cv : Convoy) (n : VName) (x m : VReg) : (cv.wv n x m).trial = cv.trial := by unfold Convoy.wv; split <;> rfl
@[simp] theorem wv_final (cv : Convoy) (n : VName) (x m : VReg) : (cv.wv n x m).final = cv.final := by unfold Convoy.wv; split <;> rfl
@[simp] theorem wv_counted (cv : Convoy) (n : VName) (x m : VReg) : (cv.wv n x m).counted = cv.counted := by unfold Convoy.wv; split <;> rfl
@[simp] theorem wv_reads (cv : Convoy) (n : VName) (x m : VReg) : (cv.wv n x m).reads = cv.reads := by unfold Convoy.wv; split <;> rfl
@[simp] theorem wv_seen (cv : Convoy) (n : VName) (x m : VReg) : (cv.wv n x m).seen = cv.seen := by unfold Convoy.wv; split <;> rfl
@[simp] theorem wv_before (cv : Convoy) (n : VName) (x m : VReg) : (cv.wv n x m).before = cv.before := by unfold Convoy.wv; split <;> rfl
@[simp] theorem wv_need (cv : Convoy) (n : VName) (x m : VReg) : (cv.wv n x m).need = cv.need := by unfold Convoy.wv; split <;> rfl

/-! ## Reads after updates -/

theorem core_setCore (s : State) (c d : Nat) (x : Core) : (s.setCore c x).core d = if d = c then x else s.core d :=
  tget_tset ({} : Core) s.cores c d x
@[simp] theorem core_setCore_same (s : State) (c : Nat) (x : Core) : (s.setCore c x).core c = x := by simp [core_setCore]
theorem core_modCore (s : State) (c d : Nat) (f : Core → Core) : (s.modCore c f).core d = if d = c then f (s.core c) else s.core d :=
  core_setCore s c d (f (s.core c))
@[simp] theorem core_modCore_same (s : State) (c : Nat) (f : Core → Core) : (s.modCore c f).core c = f (s.core c) := by simp [core_modCore]
@[simp] theorem core_modCv (s : State) (f : Convoy → Convoy) (c : Nat) : (s.modCv f).core c = s.core c := rfl
@[simp] theorem core_endMember (s : State) (c : Nat) : (endMember s).core c = s.core c := rfl
theorem mt_setMt (c : Core) (i j : Nat) (m : Mt) : (c.setMt i m).mt j = if j = i then m else c.mt j :=
  tget_tset ({} : Mt) c.mts i j m
@[simp] theorem mt_setMt_same (c : Core) (i : Nat) (m : Mt) : (c.setMt i m).mt i = m := by simp [mt_setMt]
theorem queue_setQueue (c : Core) (q r : Nat) (x : Queue) : (c.setQueue q x).queue r = if r = q then x else c.queue r :=
  tget_tset ({} : Queue) c.queues q r x
@[simp] theorem queue_setQueue_same (c : Core) (q : Nat) (x : Queue) : (c.setQueue q x).queue q = x := by simp [queue_setQueue]
theorem line_setLine (c : Core) (l k : Nat) (x : L1Line) : (c.setLine l x).line k = if k = l then x else c.line k :=
  tget_tset ({} : L1Line) c.l1 l k x
theorem slice_setSlice (s : State) (l k : Nat) (x : SliceLine) : (s.setSlice l x).slice k = if k = l then x else s.slice k :=
  tget_tset ({} : SliceLine) s.slices l k x

/-- The end of a member uses up its prefixes and counts it. -/
theorem endMember_cv (s : State) : (endMember s).cv = { s.cv with pfx := {}, member := s.cv.member + 1 } := rfl

@[simp] theorem rg_zero (r : MtRegs) : r.rg 0 = 0 := rfl

/-- A g register read after a write: g0 stays 0. -/
theorem rg_wg (r : MtRegs) (n m : GName) (x : Word64) : (r.wg n x).rg m = if m = n then (if n = 0 then 0 else x) else r.rg m := by
  unfold MtRegs.wg MtRegs.rg
  by_cases hn : n = 0
  · subst hn
    by_cases hm : m = 0
    · subst hm; simp
    · simp only [if_neg hm, if_true]
  · rw [if_neg hn, if_neg hn]
    by_cases hm : m = n
    · subst hm
      rw [if_neg hn, if_pos rfl]
      exact tget_tset_same 0 r.g m.toNat x
    · have : m.toNat ≠ n.toNat := fun e => hm (BitVec.eq_of_toNat_eq e)
      rw [if_neg hm]
      show (if m = 0 then 0 else tget 0 (tset 0 r.g n.toNat x) m.toNat) = _
      rw [tget_tset_ne 0 r.g n.toNat m.toNat x this]

theorem rk_wk (r : MtRegs) (n m : KName) (x : KReg) : (r.wk n x).rk m = if m = n then x else r.rk m := by
  unfold MtRegs.wk MtRegs.rk
  by_cases hm : m = n
  · simp [hm]
  · have : m.toNat ≠ n.toNat := fun e => hm (BitVec.eq_of_toNat_eq e)
    simp [hm, tget_tset, this]

@[simp] theorem rk_wg (r : MtRegs) (n : GName) (m : KName) (x : Word64) : (r.wg n x).rk m = r.rk m := by simp [MtRegs.rk]
@[simp] theorem rg_wk (r : MtRegs) (n : KName) (m : GName) (x : KReg) : (r.wk n x).rg m = r.rg m := rfl
@[simp] theorem rp_wg (r : MtRegs) (n : GName) (p : Nat) (x : Word64) : (r.wg n x).rp p = r.rp p := by simp [MtRegs.rp]
theorem rp_wp (r : MtRegs) (p q : Nat) (x : VReg) : (r.wp p x).rp q = if q = p then x else r.rp q := tget_tset 0 r.v p q x

/-- The physical registers of two names are the same only for one name (R49). -/
theorem phys_inj (cv : Convoy) (n m : VName) : cv.phys n = cv.phys m ↔ n = m := by
  unfold Convoy.phys
  constructor
  · intro h; exact BitVec.eq_of_toNat_eq (by omega)
  · intro h; rw [h]

/-- A vector register read after a write (R164, R49). -/
theorem rv_wv (cv : Convoy) (n m : VName) (x k : VReg) : (cv.wv n x k).rv m = if m = n then x else cv.rv m := by
  unfold Convoy.wv
  by_cases hn : n = 0
  · rw [if_pos hn]
    subst hn
    by_cases hm : m = 0
    · subst hm; rfl
    · simp only [Convoy.rv, if_neg hm]; rfl
  · rw [if_neg hn]
    by_cases hm : m = 0
    · subst hm
      rw [if_neg (Ne.symm hn)]; rfl
    · simp only [Convoy.rv, if_neg hm, rp_wp]
      show (if cv.phys m = cv.phys n then x else cv.work.rp (cv.phys m)) = _
      by_cases h : m = n
      · subst h; rw [if_pos rfl, if_pos rfl]
      · rw [if_neg h, if_neg (fun e => h ((phys_inj cv m n).mp e))]

@[simp] theorem rg_wv (cv : Convoy) (n : VName) (x k : VReg) (g : GName) : (cv.wv n x k).rg g = cv.rg g := by
  unfold Convoy.wv; split <;> rfl
@[simp] theorem rk_wv (cv : Convoy) (n : VName) (x k : VReg) (m : KName) : (cv.wv n x k).rk m = cv.rk m := by
  unfold Convoy.wv; split <;> rfl
@[simp] theorem rv_raise (cv : Convoy) (h : Hits) (n : VName) : (cv.raise h).rv n = cv.rv n := rfl
@[simp] theorem rg_raise (cv : Convoy) (h : Hits) (n : GName) : (cv.raise h).rg n = cv.rg n := rfl
@[simp] theorem rk_raise (cv : Convoy) (h : Hits) (n : KName) : (cv.raise h).rk n = cv.rk n := rfl

/-- The x registers of a control thread: x0 stays 0. -/
theorem rx_wx (c : Ct) (n m : XName) (x : Word64) : (c.wx n x).rx m = if m = n then (if n = 0 then 0 else x) else c.rx m := by
  unfold Ct.wx Ct.rx
  by_cases hn : n = 0
  · subst hn
    by_cases hm : m = 0
    · subst hm; simp
    · simp only [if_neg hm, if_true]
  · rw [if_neg hn, if_neg hn]
    by_cases hm : m = n
    · subst hm
      rw [if_neg hn, if_pos rfl]
      exact tget_tset_same 0 c.x m.toNat x
    · have : m.toNat ≠ n.toNat := fun e => hm (BitVec.eq_of_toNat_eq e)
      rw [if_neg hm]
      show (if m = 0 then 0 else tget 0 (tset 0 c.x n.toNat x) m.toNat) = _
      rw [tget_tset_ne 0 c.x n.toNat m.toNat x this]

@[simp] theorem wx_f (c : Ct) (n : XName) (x : Word64) : (c.wx n x).f = c.f := by unfold Ct.wx; split <;> rfl
@[simp] theorem wx_pc (c : Ct) (n : XName) (x : Word64) : (c.wx n x).pc = c.pc := by unfold Ct.wx; split <;> rfl
@[simp] theorem wx_machine (c : Ct) (n : XName) (x : Word64) : (c.wx n x).machine = c.machine := by unfold Ct.wx; split <;> rfl
@[simp] theorem wx_mstatus (c : Ct) (n : XName) (x : Word64) : (c.wx n x).mstatus = c.mstatus := by unfold Ct.wx; split <;> rfl
@[simp] theorem wx_mie (c : Ct) (n : XName) (x : Word64) : (c.wx n x).mie = c.mie := by unfold Ct.wx; split <;> rfl
@[simp] theorem wx_mtvec (c : Ct) (n : XName) (x : Word64) : (c.wx n x).mtvec = c.mtvec := by unfold Ct.wx; split <;> rfl
@[simp] theorem wx_mscratch (c : Ct) (n : XName) (x : Word64) : (c.wx n x).mscratch = c.mscratch := by unfold Ct.wx; split <;> rfl
@[simp] theorem wx_mepc (c : Ct) (n : XName) (x : Word64) : (c.wx n x).mepc = c.mepc := by unfold Ct.wx; split <;> rfl
@[simp] theorem wx_mcause (c : Ct) (n : XName) (x : Word64) : (c.wx n x).mcause = c.mcause := by unfold Ct.wx; split <;> rfl
@[simp] theorem wx_mtval (c : Ct) (n : XName) (x : Word64) : (c.wx n x).mtval = c.mtval := by unfold Ct.wx; split <;> rfl
@[simp] theorem wx_mcountinhibit (c : Ct) (n : XName) (x : Word64) : (c.wx n x).mcountinhibit = c.mcountinhibit := by unfold Ct.wx; split <;> rfl
@[simp] theorem wx_mcycle (c : Ct) (n : XName) (x : Word64) : (c.wx n x).mcycle = c.mcycle := by unfold Ct.wx; split <;> rfl
@[simp] theorem wx_minstret (c : Ct) (n : XName) (x : Word64) : (c.wx n x).minstret = c.minstret := by unfold Ct.wx; split <;> rfl
@[simp] theorem wx_fcsr (c : Ct) (n : XName) (x : Word64) : (c.wx n x).fcsr = c.fcsr := by unfold Ct.wx; split <;> rfl
@[simp] theorem wx_xbscope (c : Ct) (n : XName) (x : Word64) : (c.wx n x).xbscope = c.xbscope := by unfold Ct.wx; split <;> rfl
@[simp] theorem wx_xbpf (c : Ct) (n : XName) (x : Word64) : (c.wx n x).xbpf = c.xbpf := by unfold Ct.wx; split <;> rfl
@[simp] theorem wx_resv (c : Ct) (n : XName) (x : Word64) : (c.wx n x).resv = c.resv := by unfold Ct.wx; split <;> rfl
@[simp] theorem wx_active (c : Ct) (n : XName) (x : Word64) : (c.wx n x).active = c.active := by unfold Ct.wx; split <;> rfl
@[simp] theorem wx_stalled (c : Ct) (n : XName) (x : Word64) : (c.wx n x).stalled = c.stalled := by unfold Ct.wx; split <;> rfl
@[simp] theorem wx_ending (c : Ct) (n : XName) (x : Word64) : (c.wx n x).ending = c.ending := by unfold Ct.wx; split <;> rfl
@[simp] theorem wx_late (c : Ct) (n : XName) (x : Word64) : (c.wx n x).late = c.late := by unfold Ct.wx; split <;> rfl
@[simp] theorem wx_fetched (c : Ct) (n : XName) (x : Word64) : (c.wx n x).fetched = c.fetched := by unfold Ct.wx; split <;> rfl

end Sys2Proof.Machine
end

