-- ==== Sys2Proof/Laws/Vector.lean ====
section
/-! SUPPORT. The elements of a vector register: what a write of one element and the common effect of R243 and R263 give at every
element, and the effect of the members built on them. -/

namespace Sys2Proof.Machine

/-! ## Bits and elements -/

theorem getLsbD_onesAt (W lo n k : Nat) : (onesAt W lo n).getLsbD k = (decide (k < W) && decide (lo ≤ k) && decide (k < lo + n)) := by
  simp only [onesAt, BitVec.getLsbD_shiftLeft, BitVec.getLsbD_ofNat, Nat.testBit_two_pow_sub_one]
  by_cases h1 : k < W <;> by_cases h2 : lo ≤ k <;> by_cases h3 : k < lo + n <;> simp [h1, h2, h3] <;> omega

theorem getLsbD_bvMerge {W : Nat} (x y m : BitVec W) (k : Nat) (h : k < W) :
    (bvMerge x y m).getLsbD k = if m.getLsbD k then y.getLsbD k else x.getLsbD k := by
  simp only [bvMerge, BitVec.getLsbD_or, BitVec.getLsbD_and, BitVec.getLsbD_not]
  cases hm : m.getLsbD k <;> simp [h]

theorem getLsbD_putElem (x : VReg) (w i v k : Nat) (h : k < 4096) :
    (putElem x w i v).getLsbD k = if w * i ≤ k ∧ k < w * i + w then v.testBit (k - w * i) else x.getLsbD k := by
  unfold putElem
  rw [getLsbD_bvMerge _ _ _ _ h, getLsbD_onesAt]
  simp only [h, decide_true, Bool.true_and, Bool.and_eq_true, decide_eq_true_eq]
  split
  · rename_i hk
    rw [BitVec.getLsbD_shiftLeft, BitVec.getLsbD_ofNat, Nat.testBit_mod_two_pow]
    simp [h]
    have : k - w * i < 4096 := by omega
    have : k - w * i < w := by omega
    simp [*]
  · rfl

theorem testBit_elem (x : VReg) (w i j : Nat) : (elem x w i).testBit j = (decide (j < w) && x.getLsbD (w * i + j)) := by
  simp only [elem]
  have e := BitVec.getLsbD_extractLsb' (x := x) (start := w * i) (len := w) (i := j)
  rw [← e]; rfl

theorem elem_lt (x : VReg) (w i : Nat) : elem x w i < 2 ^ w := (x.extractLsb' (w * i) w).isLt

/-- One element written is read back, and the others stay (R224). -/
theorem elem_putElem (x : VReg) (w i j v : Nat) (h : w * i + w ≤ 4096) :
    elem (putElem x w i v) w j = if j = i then v % 2 ^ w else elem x w j := by
  apply Nat.eq_of_testBit_eq
  intro b
  rw [testBit_elem]
  by_cases hb : b < w
  · by_cases hk : w * j + b < 4096
    · rw [getLsbD_putElem _ _ _ _ _ hk]
      by_cases hj : j = i
      · subst hj
        simp [hb, Nat.testBit_mod_two_pow]
      · have hne : ¬ (w * i ≤ w * j + b ∧ w * j + b < w * i + w) := by
          intro ⟨h1, h2⟩
          rcases Nat.lt_or_gt_of_ne hj with c | c
          · have : w * (j + 1) ≤ w * i := Nat.mul_le_mul_left w c
            rw [Nat.mul_add] at this; omega
          · have : w * (i + 1) ≤ w * j := Nat.mul_le_mul_left w c
            rw [Nat.mul_add] at this; omega
        rw [if_neg hne, if_neg hj, testBit_elem]
    · have hj : j ≠ i := by intro e; subst e; omega
      rw [if_neg hj, testBit_elem, BitVec.getLsbD_of_ge _ _ (by omega), BitVec.getLsbD_of_ge _ _ (by omega)]
  · simp only [hb, decide_false, Bool.false_and]
    symm
    split
    · rw [Nat.testBit_mod_two_pow]; simp [hb]
    · rw [testBit_elem]; simp [hb]

/-! ## The common effect -/

/-- The register after the first `e` elements. -/
theorem vecRun_succ (old : VReg) (w e : Nat) (act : KReg) (zero : Bool) (f : Nat → Res) :
    vecRun old w (e + 1) act zero f =
      (if act.getLsbD e then (vecRun old w e act zero f).put w e (f e)
        else if zero then (vecRun old w e act zero f).put w e (0, 0) else vecRun old w e act zero f) := by
  simp [vecRun, upto, List.range_succ]

/-- R243: within the shape an active element takes Op(i), an inactive one stays, or becomes 0 under ZERO; above it nothing changes. -/
theorem vecRun_elem (old : VReg) (w : Nat) (act : KReg) (zero : Bool) (f : Nat → Res) : ∀ (e : Nat), w * e ≤ 4096 → ∀ n,
    elem (vecRun old w e act zero f).val w n =
      if n < e then (if act.getLsbD n then (f n).1 % 2 ^ w else if zero then 0 else elem old w n) else elem old w n
  | 0, _, n => by simp [vecRun, upto]
  | e + 1, h, n => by
    have hw : w * e + w ≤ 4096 := by rw [Nat.mul_add] at h; omega
    have ih := vecRun_elem old w act zero f e (by omega) n
    rw [vecRun_succ]
    by_cases ha : act.getLsbD e
    · simp only [ha, if_true, VOut.put]
      rw [elem_putElem _ _ _ _ _ hw]
      by_cases hn : n = e
      · subst hn; simp [ha]
      · rw [if_neg hn, ih]
        by_cases hl : n < e
        · rw [if_pos hl, if_pos (show n < e + 1 by omega)]
        · rw [if_neg hl, if_neg (show ¬ n < e + 1 by omega)]
    · by_cases hz : zero
      · simp only [ha, hz, VOut.put]
        simp only [hz] at ih
        simp only [Bool.false_eq_true, if_false, if_true] at ih ⊢
        rw [elem_putElem _ _ _ _ _ hw]
        by_cases hn : n = e
        · subst hn; simp [ha]
        · rw [if_neg hn, ih]
          by_cases hl : n < e
          · rw [if_pos hl, if_pos (show n < e + 1 by omega)]
          · rw [if_neg hl, if_neg (show ¬ n < e + 1 by omega)]
      · simp only [ha, hz] at ih ⊢
        simp only [Bool.false_eq_true, if_false] at ih ⊢
        rw [ih]
        by_cases hn : n = e
        · subst hn; simp [ha]
        · by_cases hl : n < e
          · rw [if_pos hl, if_pos (show n < e + 1 by omega)]
          · rw [if_neg hl, if_neg (show ¬ n < e + 1 by omega)]

/-- The bits of a register above the elements of the shape stay (R243). -/
theorem vecRun_above (old : VReg) (w : Nat) (act : KReg) (zero : Bool) (f : Nat → Res) : ∀ (e k : Nat), w * e ≤ k → k < 4096 →
    (vecRun old w e act zero f).val.getLsbD k = old.getLsbD k
  | 0, k, _, _ => by simp [vecRun, upto]
  | e + 1, k, h, hk => by
    have h' : w * e + w ≤ k := by rw [Nat.mul_add] at h; omega
    have ih := vecRun_above old w act zero f e k (by omega) hk
    rw [vecRun_succ]
    split
    · simp only [VOut.put]; rw [getLsbD_putElem _ _ _ _ _ hk, if_neg (by omega), ih]
    · split
      · simp only [VOut.put]; rw [getLsbD_putElem _ _ _ _ _ hk, if_neg (by omega), ih]
      · exact ih

/-- The flags of the common effect are those of the active elements, ascending (R238). -/
theorem vecRun_hits (old : VReg) (w : Nat) (act : KReg) (zero : Bool) (f : Nat → Res) : ∀ e,
    (vecRun old w e act zero f).hits = ((List.range e).filter (fun i => act.getLsbD i && (f i).2 != 0)).map (fun i => (i, (f i).2))
  | 0 => rfl
  | e + 1 => by
    rw [vecRun_succ, List.range_succ, List.filter_append, List.map_append, ← vecRun_hits old w act zero f e]
    by_cases ha : act.getLsbD e
    · by_cases hf : (f e).2 = 0
      · simp [ha, hf, VOut.put]
      · simp [ha, hf, VOut.put]
    · by_cases hz : zero <;> simp [ha, hz, VOut.put]

/-- An operation that raises no flag leaves none in the common effect. -/
theorem vecRun_no_hits (old : VReg) (w : Nat) (act : KReg) (zero : Bool) (f : Nat → Res) (e : Nat) (h : ∀ i, (f i).2 = 0) :
    (vecRun old w e act zero f).hits = [] := by
  rw [vecRun_hits]
  simp [h]

@[simp] theorem regs_raise_nil (r : MtRegs) : r.raise [] = r := by
  simp [MtRegs.raise, eixNew]

/-- Reads of FST and EIX see what they saw, where a member has left these as they were (R238). -/
theorem hide_same (cv : Convoy) (r : MtRegs) (h : r.fst = cv.work.fst ∧ r.eixNv = cv.work.eixNv ∧ r.eixDz = cv.work.eixDz ∧ r.eixOf = cv.work.eixOf ∧
    r.eixUf = cv.work.eixUf ∧ r.eixNx = cv.work.eixNx) : cv.hide r = cv.hidden := by
  obtain ⟨h1, h2, h3, h4, h5, h6⟩ := h
  simp [Convoy.hide, h1, h2, h3, h4, h5, h6]

@[simp] theorem hide_work (cv : Convoy) : cv.hide cv.work = cv.hidden := hide_same cv cv.work ⟨rfl, rfl, rfl, rfl, rfl, rfl⟩

@[simp] theorem raise_nil (cv : Convoy) : cv.raise [] = cv := by
  simp [Convoy.raise]

/-! ## Members -/

open Sys2Proof.Claims

/-- A clean member does its work and ends. -/
theorem asMember_clean (s : State) (i : Instr) (work : State → State) (h : Clean s) :
    asMember s i work = .next (endMember (work s)) := by
  unfold asMember srcPoison
  simp [h.1, h.2]

theorem wv_ne {n : VName} (h : n ≠ 0) (cv : Convoy) (x m : VReg) : cv.wv n x m = { cv with
    work := cv.work.wp (cv.phys n) x
    vmask := tset 0 cv.vmask (cv.phys n) (tget 0 cv.vmask (cv.phys n) ||| m) } := if_neg h

/-- A member whose work is one vector write of the common effect. -/
theorem run_writes {s : State} {i : Instr} {d : VName} {w : Nat} {f : Convoy → Nat → Res} {val flags : Nat → Nat}
    (he : exec i s = asMember s i (fun s => s.modCv (fun cv => cv.run d w (f cv)))) (h : Clean s) (hw : w * s.cv.elems ≤ 4096)
    (hv : ∀ n, (f s.cv n).1 % 2 ^ w = val n) (hf : ∀ n, (f s.cv n).2 = flags n) : Writes s i d w val flags := by
  refine ⟨endMember (s.modCv (fun cv => cv.run d w (f cv))), by rw [he, asMember_clean s i _ h], ?_, ?_, ?_, ?_, ?_⟩
  · refine ⟨⟨rfl, rfl, ?_⟩, ?_⟩
    · simp [endMember_cv, Convoy.run, Convoy.putV]
    · by_cases hd : d = 0
      · subst hd; rfl
      · simp only [endMember_cv, modCv_cv, Convoy.run, Convoy.putV, wv_ne hd]; rfl
  · intro n
    show elem (((s.cv.run d w (f s.cv)).rv d)) w n = _
    simp only [Convoy.run, Convoy.putV, rv_raise, rv_wv, if_true]
    rw [vecRun_elem _ _ _ _ _ _ hw]
    simp only [hv]
  · intro k hk hk'
    show ((s.cv.run d w (f s.cv)).rv d).getLsbD k = _
    simp only [Convoy.run, Convoy.putV, rv_raise, rv_wv, if_true]
    exact vecRun_above _ _ _ _ _ _ _ hk hk'
  · intro n hn
    show (s.cv.run d w (f s.cv)).rv n = _
    simp only [Convoy.run, Convoy.putV, rv_raise, rv_wv, if_neg hn]
  · show (s.cv.run d w (f s.cv)).work = { s.cv.work.raise (hitsOf s flags) with v := (s.cv.run d w (f s.cv)).work.v }
    have hh : hitsOf s flags = (vecRun (s.cv.rv d) w s.cv.elems s.cv.gmask s.cv.pfx.zero (f s.cv)).hits := by
      rw [vecRun_hits]; simp only [hitsOf, hf]
    rw [hh]
    by_cases hd : d = 0
    · subst hd; rfl
    · simp only [Convoy.run, Convoy.putV, wv_ne hd]; rfl

/-- A scalar member. -/
theorem gOp_writes {s : State} {i : Instr} {d : GName} {f : Convoy → Word64} {x : Word64} (he : exec i s = gOp s i d f)
    (h : Clean s) (hx : f s.cv = x) : WritesG s i d x := by
  refine ⟨endMember (s.modCv (fun cv => cv.wg d (f cv))), by rw [he, gOp, asMember_clean s i _ h], ⟨⟨rfl, rfl, rfl⟩, ?_⟩, ?_, ?_, rfl, rfl⟩
  · have hh : s.cv.hide (s.cv.work.wg d (f s.cv)) = s.cv.hidden := by
      unfold MtRegs.wg
      split
      · exact hide_work s.cv
      · exact hide_same s.cv _ ⟨rfl, rfl, rfl, rfl, rfl, rfl⟩
    show _ = { s.cv with
      pfx := {}, member := s.cv.member + 1, work := s.cv.work.wg d (f s.cv), hidden := s.cv.hide (s.cv.work.wg d (f s.cv)) }
    rw [hh]
    rfl
  · intro n
    show (s.cv.work.wg d (f s.cv)).rg n = _
    rw [rg_wg, hx]
    by_cases h0 : n = 0
    · subst h0
      rw [if_pos rfl]
      by_cases hd : (0 : GName) = d
      · rw [if_pos hd, if_pos hd.symm]
      · rw [if_neg hd]; rfl
    · rw [if_neg h0]
      by_cases hd : n = d
      · rw [if_pos hd, if_pos hd, if_neg (hd ▸ h0)]
      · rw [if_neg hd, if_neg hd]; rfl
  · show s.cv.work.wg d (f s.cv) = { s.cv.work with g := (s.cv.work.wg d (f s.cv)).g }
    unfold MtRegs.wg; split <;> rfl

end Sys2Proof.Machine
end

