-- ==== Sys2Proof/Laws/Arith.lean ====
section
/-! SUPPORT. The machine's arithmetic on numbers is the bit-vector arithmetic the claims are stated in. -/

namespace Sys2Proof.Machine

open Sys2Proof.Claims

theorem el_toNat (x : VReg) (w n : Nat) : (el x w n).toNat = elem x w n := rfl

theorem ofNat_elem (x : VReg) (w n : Nat) : BitVec.ofNat w (elem x w n) = el x w n := by
  apply BitVec.eq_of_toNat_eq; rw [BitVec.toNat_ofNat, Nat.mod_eq_of_lt (elem_lt x w n), el_toNat]

/-- Sign extension of a number is the signed value of its word. -/
theorem sxt_eq_toInt (w x : Nat) (h : 0 < w) : sxt w x = (BitVec.ofNat w x).toInt := by
  have e : (2 : Nat) ^ w = 2 * 2 ^ (w - 1) := by rw [← Nat.pow_succ', Nat.succ_eq_add_one, Nat.sub_add_cancel h]
  rw [BitVec.toInt_eq_toNat_cond, BitVec.toNat_ofNat]
  unfold sxt
  by_cases c : x % 2 ^ w < 2 ^ (w - 1)
  · rw [if_pos c, if_pos (by omega)]
  · rw [if_neg c, if_neg (by omega)]

theorem sxt_elem (x : VReg) (w n : Nat) (h : 0 < w) : sxt w (elem x w n) = (el x w n).toInt := by
  rw [sxt_eq_toInt _ _ h, ofNat_elem]

/-- The low bits of an integer are its word. -/
theorem wrapW_eq (w : Nat) (x : Int) : wrapW w x = (BitVec.ofInt w x).toNat := by
  rw [BitVec.toNat_ofInt]; rfl

theorem bits_pos (sz : Size) : 0 < sz.bits := by cases sz <;> decide

theorem valOf_elem (p : Pfx) (x : VReg) (w n : Nat) (h : 0 < w) : valOf p.sgn w (elem x w n) = num p (el x w n) := by
  unfold valOf num
  split
  · exact sxt_elem x w n h
  · rfl

/-- R245 as the claims say it. -/
theorem fitInt_eq (p : Pfx) (w : Nat) (x : Int) (h : 0 < w) : fitInt p.sat p.sgn w x = (narrow p w x, satFlag p w x) := by
  have e : (2 : Int) ^ w = 2 * (2 : Int) ^ (w - 1) := by rw [← pow_succ', Nat.sub_add_cancel h]
  have hp : (0 : Int) < (2 : Int) ^ (w - 1) := by positivity
  unfold fitInt narrow satFlag clamp
  simp only [wrapW_eq, Nat.cast_pow, Nat.cast_ofNat]
  cases p.sat <;> simp only [Bool.false_eq_true, if_false, if_true, Bool.false_and, Bool.true_and, bne_iff_ne, ne_eq]
  cases p.sgn <;> simp only [Bool.false_eq_true, if_false, if_true]
  · by_cases c1 : x < 0
    · rw [if_pos c1, max_eq_left (by omega), if_pos (by omega)]
    · rw [if_neg c1]
      by_cases c2 : (2 : Int) ^ w - 1 < x
      · rw [if_pos c2, min_eq_right (by omega), max_eq_right (by omega), if_pos (by omega)]
      · rw [if_neg c2, min_eq_left (by omega), max_eq_right (by omega), if_neg (by omega)]
  · by_cases c1 : x < -(2 : Int) ^ (w - 1)
    · rw [if_pos c1, min_eq_left (by omega), max_eq_left (by omega), if_pos (by omega)]
    · rw [if_neg c1]
      by_cases c2 : (2 : Int) ^ (w - 1) - 1 < x
      · rw [if_pos c2, min_eq_right (by omega), max_eq_right (by omega), if_pos (by omega)]
      · rw [if_neg c2, min_eq_left (by omega), max_eq_right (by omega), if_neg (by omega)]

theorem narrow_lt (p : Pfx) (w : Nat) (x : Int) : narrow p w x % 2 ^ w = narrow p w x :=
  Nat.mod_eq_of_lt (BitVec.isLt _)

theorem mod_toNat {w : Nat} (x : BitVec w) : x.toNat % 2 ^ w = x.toNat := Nat.mod_eq_of_lt x.isLt

end Sys2Proof.Machine
end

