-- ==== Sys2Proof/Laws/Memory.lean ====
section
/-! SUPPORT. What an operation over memory can do to the settled image. Those of the live image leave the counts of its regions (R76) and the
canonical forms, and the settled image itself where no home slice was full (R66, R69); those that write it keep its canonical form. -/

namespace Sys2Proof.Machine

open Sys2Proof.Claims

/-! ## Canonical forms and counts -/

/-- The canonical forms of the settled image and of the tables of cores and of home-slice lines are kept. -/
structure FormKept (s t : State) : Prop where
  mem : s.memWf = true → t.memWf = true
  cores : twf ({} : Core) s.cores = true → twf ({} : Core) t.cores = true
  slices : twf ({} : SliceLine) s.slices = true → twf ({} : SliceLine) t.slices = true

theorem FormKept.refl (s : State) : FormKept s s := ⟨id, id, id⟩
theorem FormKept.trans {s t u : State} (h : FormKept s t) (g : FormKept t u) : FormKept s u := ⟨g.mem ∘ h.mem, g.cores ∘ h.cores, g.slices ∘ h.slices⟩

/-- So are the counts of the SRAM regions, and the partition of memory. -/
structure Kept (s t : State) : Prop extends FormKept s t where
  setlc : t.setlc = s.setlc
  iwc : t.iwc = s.iwc
  share : t.share = s.share

theorem Kept.refl (s : State) : Kept s s := ⟨.refl s, rfl, rfl, rfl⟩
theorem Kept.trans {s t u : State} (h : Kept s t) (g : Kept t u) : Kept s u :=
  ⟨h.toFormKept.trans g.toFormKept, g.setlc.trans h.setlc, g.iwc.trans h.iwc, g.share.trans h.share⟩

theorem Kept.foldl {α : Type} (f : State → α → State) (h : ∀ s a, Kept s (f s a)) (l : List α) (s : State) : Kept s (l.foldl f s) := by
  induction l generalizing s with
  | nil => exact .refl s
  | cons a l ih => exact (h s a).trans (ih _)

theorem FormKept.foldl {α : Type} (f : State → α → State) (h : ∀ s a, FormKept s (f s a)) (l : List α) (s : State) : FormKept s (l.foldl f s) := by
  induction l generalizing s with
  | nil => exact .refl s
  | cons a l ih => exact (h s a).trans (ih _)

/-- A fold of writes keeps the form of a table. -/
theorem foldl_twf {α β : Type} [DecidableEq β] (z : β) (f : Tab β → α → Tab β) (h : ∀ t a, twf z t = true → twf z (f t a) = true) (l : List α) (t : Tab β)
    (g : twf z t = true) : twf z (l.foldl f t) = true := by
  induction l generalizing t with
  | nil => exact g
  | cons a l ih => exact ih _ (h t a g)

theorem setCore_kept (s : State) (c : Nat) (x : Core) : Kept s (s.setCore c x) := ⟨⟨id, tset_twf ({} : Core) _ _ _, id⟩, rfl, rfl, rfl⟩
theorem modCore_kept (s : State) (c : Nat) (f : Core → Core) : Kept s (s.modCore c f) := setCore_kept s c _
theorem setSlice_kept (s : State) (l : Nat) (x : SliceLine) : Kept s (s.setSlice l x) := ⟨⟨id, id, tset_twf ({} : SliceLine) _ _ _⟩, rfl, rfl, rfl⟩
theorem fresh_kept (s : State) (n : Nat) : Kept s { s with fresh := n } := ⟨⟨id, id, id⟩, rfl, rfl, rfl⟩
theorem vrst_kept (s : State) (l : List VrstPkt) : Kept s { s with vrst := l } := ⟨⟨id, id, id⟩, rfl, rfl, rfl⟩
theorem poison_kept (s : State) (l : List Nat) : Kept s { s with arrPoison := l } := ⟨⟨id, id, id⟩, rfl, rfl, rfl⟩

theorem dropCopies_kept (s : State) (line : Nat) (mask : LineMask) (ex : Option Nat) : Kept s (dropCopies s line mask ex) :=
  ⟨⟨id, tmap_twf ({} : Core) _ _, id⟩, rfl, rfl, rfl⟩

theorem lateCount_kept (s : State) (line : Nat) : Kept s (lateCount s line) := by
  unfold lateCount
  dsimp only
  split
  · exact .refl s
  · split
    · exact ⟨⟨id, tmap_twf ({} : Core) _ _, id⟩, rfl, rfl, rfl⟩
    · exact ⟨⟨id, id, id⟩, rfl, rfl, rfl⟩

theorem arrWrite_kept (s : State) (line : Nat) (mask : LineMask) (data : LineData) : Kept s (s.arrWrite line mask data) :=
  ⟨⟨fun g => foldl_twf 0 _ (fun t i h => by split; exacts [tset_twf 0 _ _ _ h, h]) _ _ g, id, id⟩, rfl, rfl, rfl⟩

theorem fillHeld_kept (s : State) (line : Nat) (secs : BitVec 4) : Kept s (fillHeld s line secs) := by
  unfold fillHeld
  dsimp only
  split
  · exact .refl s
  · exact setSlice_kept s line _

theorem writeHeld_kept (s : State) (line : Nat) (mask : LineMask) (data : LineData) (kind : WriteKind) (pz : BitVec 4) (ex : Option Nat) :
    Kept s (writeHeld s line mask data kind pz ex) := by
  unfold writeHeld
  dsimp only
  split
  · exact .refl s
  · exact (setSlice_kept s line _).trans (dropCopies_kept _ line mask ex)

theorem dropSectors_kept (s : State) (core line : Nat) (secs : BitVec 4) : Kept s (dropSectors s core line secs) := setCore_kept s core _

theorem addHeld_kept (s : State) (p : VrstPkt) : Kept s (addHeld s p) := by
  unfold addHeld
  dsimp only
  exact ((fillHeld_kept s p.line _).trans (writeHeld_kept _ p.line _ _ _ _ _)).trans (dropSectors_kept _ _ _ _)

theorem closeHeld_kept (s : State) (line : Nat) : Kept s (closeHeld s line) := (vrst_kept s _).trans (Kept.foldl _ addHeld_kept _ _)

theorem sliceWriteOut_kept (s : State) (line : Nat) (mask : LineMask) : Kept s (sliceWriteOut s line mask) := by
  unfold sliceWriteOut
  dsimp only
  split
  · exact .refl s
  · exact ((lateCount_kept s line).trans (arrWrite_kept _ line _ _)).trans ((poison_kept _ _).trans (setSlice_kept _ line _))

theorem arriveSector_kept (s : State) (sec : Nat) (mask : BitVec 32) (data : BitVec 256) (pz : Bool) : Kept s (arriveSector s sec mask data pz) := by
  unfold arriveSector
  dsimp only
  split
  · exact (arrWrite_kept s _ _ _).trans (poison_kept _ _)
  · exact arrWrite_kept s _ _ _

theorem settles_kept (s : State) (l : List Settle) : Kept s { s with settles := l } := ⟨⟨id, id, id⟩, rfl, rfl, rfl⟩

theorem lateOnce_kept (s : State) (n line : Nat) : Kept s (lateOnce s n line) := by
  unfold lateOnce
  dsimp only
  split
  · exact .refl s
  · exact (lateCount_kept s line).trans (settles_kept _ _)

theorem lateSettles_kept (s : State) (line : Nat) : Kept s (lateSettles s line) :=
  Kept.foldl _ (fun s n => by split; exacts [lateOnce_kept s n line, .refl s]) _ s

theorem sectorsFirst_kept (s : State) (line : Nat) : Kept s (sectorsFirst s line) := by
  unfold sectorsFirst
  dsimp only
  split
  · exact .refl s
  · exact ((lateSettles_kept s line).trans (Kept.foldl (fun (s : State) (e : Nat × BitVec 32 × BitVec 256 × Bool) => arriveSector s e.1 e.2.1 e.2.2.1 e.2.2.2)
      (fun s e => arriveSector_kept s e.1 _ _ _) _ _)).trans (settles_kept _ _)

/-- A full home slice makes room: bytes go to the arrays, and the forms stand. -/
theorem evictSlice_kept (s : State) (line : Nat) : Kept s (evictSlice s line) :=
  (((closeHeld_kept s line).trans (sectorsFirst_kept _ line)).trans (sliceWriteOut_kept _ line _)).trans (setSlice_kept _ line _)

theorem sliceRoom_kept (s : State) (line : Nat) : Kept s (sliceRoom s line) := by
  unfold sliceRoom
  dsimp only
  split
  · exact .refl s
  · split
    · exact .refl s
    · exact (fresh_kept s _).trans (evictSlice_kept _ _)

/-! ## Which lines the slices hold -/

/-- `t` holds every line that `s` does, and those other than `line` as `s` does. -/
structure Grows (s t : State) (line : Nat) : Prop where
  held : ∀ k, s.slice k ≠ {} → t.slice k ≠ {}
  other : ∀ k, k ≠ line → t.slice k = s.slice k

theorem Grows.refl (s : State) (line : Nat) : Grows s s line := ⟨fun _ h => h, fun _ _ => rfl⟩
theorem Grows.trans {s t u : State} {line : Nat} (h : Grows s t line) (g : Grows t u line) : Grows s u line :=
  ⟨fun k hk => g.held k (h.held k hk), fun k hk => (g.other k hk).trans (h.other k hk)⟩

theorem setSlice_grows (s : State) (line : Nat) (x : SliceLine) (h : x ≠ {}) : Grows s (s.setSlice line x) line := by
  constructor
  · intro k hk
    rw [slice_setSlice]
    split
    · exact h
    · exact hk
  · intro k hk
    rw [slice_setSlice, if_neg hk]

theorem live_ne (x : SliceLine) (h : x.live = true) : x ≠ {} := fun e => by rw [e] at h; cases h

theorem fillHeld_grows (s : State) (line : Nat) (secs : BitVec 4) :
    Grows s (fillHeld s line secs) line ∧ (sectorMask secs &&& ~~~(s.slice line).held ≠ 0 → (fillHeld s line secs).slice line ≠ {}) := by
  unfold fillHeld
  dsimp only
  split
  · rename_i h
    exact ⟨.refl s line, fun g => absurd h g⟩
  · exact ⟨setSlice_grows s line _ (live_ne _ rfl), fun _ => by rw [slice_setSlice, if_pos rfl]; exact live_ne _ rfl⟩

theorem writeHeld_grows (s : State) (line : Nat) (mask : LineMask) (data : LineData) (kind : WriteKind) (pz : BitVec 4) (ex : Option Nat) :
    Grows s (writeHeld s line mask data kind pz ex) line ∧ (mask ≠ 0 → (writeHeld s line mask data kind pz ex).slice line ≠ {}) := by
  unfold writeHeld
  dsimp only
  split
  · rename_i h
    exact ⟨.refl s line, fun g => absurd h g⟩
  · have key : ∀ x : SliceLine, x.live = true → Grows s (dropCopies (s.setSlice line x) line mask ex) line ∧
        (dropCopies (s.setSlice line x) line mask ex).slice line ≠ {} := by
      intro x hx
      have h := setSlice_grows s line x (live_ne x hx)
      refine ⟨⟨h.held, h.other⟩, ?_⟩
      show (s.setSlice line x).slice line ≠ {}
      rw [slice_setSlice, if_pos rfl]
      exact live_ne x hx
    exact ⟨(key _ rfl).1, fun _ => (key _ rfl).2⟩

theorem dropSectors_grows (s : State) (core line k : Nat) (secs : BitVec 4) : Grows s (dropSectors s core line secs) k := ⟨fun _ h => h, fun _ _ => rfl⟩

theorem addHeld_grows (s : State) (p : VrstPkt) : Grows s (addHeld s p) p.line ∧
    (sectorMask p.secs &&& ~~~(s.slice p.line).held ≠ 0 → (addHeld s p).slice p.line ≠ {}) := by
  unfold addHeld
  dsimp only
  have h := fillHeld_grows s p.line p.secs
  exact ⟨(h.1.trans (writeHeld_grows _ p.line _ _ _ _ _).1).trans (dropSectors_grows _ _ _ _ _),
    fun g => (dropSectors_grows _ _ _ p.line _).held _ ((writeHeld_grows _ p.line _ _ _ _ _).1.held _ (h.2 g))⟩

theorem foldl_grows {α : Type} (f : State → α → State) (line : Nat) (l : List α) (h : ∀ s, ∀ a ∈ l, Grows s (f s a) line) (s : State) :
    Grows s (l.foldl f s) line := by
  induction l generalizing s with
  | nil => exact .refl s line
  | cons a l ih => exact (h s a (by simp)).trans (ih (fun s b hb => h s b (by simp [hb])) _)

theorem mem_insertSid (p q : VrstPkt) (l : List VrstPkt) : q ∈ insertSid p l ↔ q = p ∨ q ∈ l := by
  induction l with
  | nil => simp [insertSid]
  | cons a l ih =>
    simp only [insertSid]
    split
    · simp
    · simp only [List.mem_cons, ih]
      tauto

/-- A batch holds packets to its own line. -/
theorem batchOf_line (s : State) (line : Nat) : ∀ p ∈ batchOf s line, p.line = line := by
  have key : ∀ (l : List VrstPkt), (∀ p ∈ l, p.line = line) → ∀ b : List VrstPkt, (∀ p ∈ b, p.line = line) →
      ∀ p ∈ l.foldl (fun l p => insertSid p l) b, p.line = line := by
    intro l
    induction l with
    | nil => intro _ b hb; exact hb
    | cons a l ih =>
      intro hl b hb
      refine ih (fun p hp => hl p (by simp [hp])) _ (fun p hp => ?_)
      rcases (mem_insertSid a p b).mp hp with rfl | hp
      · exact hl p (by simp)
      · exact hb p hp
  refine key _ (fun p hp => ?_) [] (fun p hp => by cases hp)
  have := (List.mem_filter.mp hp).2
  simp only [VrstPkt.inBatch, Bool.and_eq_true, beq_iff_eq] at this
  exact this.2

theorem closeHeld_grows (s : State) (line : Nat) : Grows s (closeHeld s line) line :=
  Grows.trans (t := { s with vrst := s.vrst.filter (fun p => !p.inBatch line) }) ⟨fun _ h => h, fun _ _ => rfl⟩
    (foldl_grows _ line _ (fun s p hp => by have h := (addHeld_grows s p).1; rw [batchOf_line _ line p hp] at h; exact h) _)

theorem arriveSector_slice (s : State) (sec : Nat) (mask : BitVec 32) (data : BitVec 256) (pz : Bool) : (arriveSector s sec mask data pz).slices = s.slices := by
  unfold arriveSector
  dsimp only
  split <;> rfl

theorem lateCount_slices (s : State) (line : Nat) : (lateCount s line).slices = s.slices := by
  unfold lateCount
  dsimp only
  split
  · rfl
  · split <;> rfl

theorem lateSettles_slices (s : State) (line : Nat) : (lateSettles s line).slices = s.slices := by
  unfold lateSettles
  generalize upto s.settles.length = l
  induction l generalizing s with
  | nil => rfl
  | cons n l ih =>
    refine (ih _).trans ?_
    dsimp only
    split
    · unfold lateOnce
      dsimp only
      split
      · rfl
      · exact lateCount_slices s line
    · rfl

theorem sectorsFirst_slice (s : State) (line : Nat) : (sectorsFirst s line).slices = s.slices := by
  have key : ∀ (l : List (Nat × BitVec 32 × BitVec 256 × Bool)) (s : State),
      (l.foldl (fun (s : State) e => arriveSector s e.1 e.2.1 e.2.2.1 e.2.2.2) s).slices = s.slices := by
    intro l
    induction l with
    | nil => intro s; rfl
    | cons a l ih => intro s; exact (ih _).trans (arriveSector_slice s _ _ _ _)
  unfold sectorsFirst
  dsimp only
  split
  · rfl
  · exact (key _ _).trans (lateSettles_slices s line)

theorem sliceWriteOut_other (s : State) (line k : Nat) (mask : LineMask) (h : k ≠ line) : (sliceWriteOut s line mask).slice k = s.slice k := by
  unfold sliceWriteOut
  dsimp only
  split
  · rfl
  · rw [slice_setSlice, if_neg h]
    unfold lateCount
    dsimp only
    split
    · rfl
    · split <;> rfl

/-- A slice that evicts a line holds every other as before. -/
theorem evictSlice_other (s : State) (line k : Nat) (h : k ≠ line) : (evictSlice s line).slice k = s.slice k := by
  unfold evictSlice
  rw [slice_setSlice, if_neg h, sliceWriteOut_other _ _ _ _ h]
  show tget ({} : SliceLine) (sectorsFirst (closeHeld s line) line).slices k = _
  rw [sectorsFirst_slice]
  exact (closeHeld_grows s line).other k h

theorem heldLines_share {s t : State} (h : t.share = s.share) (line : Nat) :
    heldLines t line = (t.slices.map Prod.fst).filter (fun x => sliceNo s (128 * x) == sliceNo s (128 * line)) := by
  unfold heldLines sliceNo homeDie windowOf
  rw [h]

theorem mem_heldLines (s : State) (h : twf ({} : SliceLine) s.slices = true) (line k : Nat) :
    k ∈ heldLines s line ↔ s.slice k ≠ {} ∧ sliceNo s (128 * k) = sliceNo s (128 * line) := by
  unfold heldLines
  rw [List.mem_filter, mem_keys _ _ _ h, beq_iff_eq]
  exact Iff.rfl

theorem nodup_heldLines (s : State) (h : twf ({} : SliceLine) s.slices = true) (line : Nat) : (heldLines s line).Nodup :=
  (nodup_keys _ _ h).filter _

/-- Where no line has been given up, a slice that has room now had room before. -/
theorem Roomy.of_grows {s t : State} (k : Kept s t) (w : twf ({} : SliceLine) s.slices = true) (h : ∀ k, s.slice k ≠ {} → t.slice k ≠ {})
    (r : Roomy t) : Roomy s := by
  intro line
  refine Nat.lt_of_le_of_lt (((nodup_heldLines s w line).subperm ?_).length_le) (r line)
  intro x hx
  have hx := (mem_heldLines s w line x).mp hx
  rw [heldLines_share k.share, List.mem_filter, mem_keys _ _ _ (k.slices w)]
  exact ⟨h x hx.1, by rw [beq_iff_eq]; exact hx.2⟩

/-- Where room was made for a line that then came, the slice is full. -/
theorem not_roomy_of_evicted {s t : State} (k : Kept s t) (w : twf ({} : SliceLine) s.slices = true) (line : Nat) (hl : s.slice line = {})
    (hf : ¬ (sliceWays s line).length < 12) (v : Nat) (h : ∀ x, x ≠ v → s.slice x ≠ {} → t.slice x ≠ {}) (hn : t.slice line ≠ {}) : ¬ Roomy t := by
  intro r
  have hfull : ¬ (heldLines s line).length < 12 := by
    intro hlt
    apply hf
    unfold sliceWays
    dsimp only
    unfold heldLines at hlt
    rw [if_pos hlt]
    decide
  have hin : line ∉ heldLines s line := fun hm => ((mem_heldLines s w line line).mp hm).1 hl
  have hnd : (line :: (heldLines s line).erase v).Nodup :=
    List.nodup_cons.mpr ⟨fun hm => hin (List.mem_of_mem_erase hm), (nodup_heldLines s w line).erase v⟩
  have hsub : (line :: (heldLines s line).erase v) ⊆ heldLines t line := by
    intro x hx
    rw [heldLines_share k.share, List.mem_filter, mem_keys _ _ _ (k.slices w)]
    rcases List.mem_cons.mp hx with rfl | hx
    · exact ⟨hn, by simp⟩
    · have hm := (nodup_heldLines s w line).mem_erase_iff.mp hx
      have hx := (mem_heldLines s w line x).mp hm.2
      exact ⟨h x hm.1 hx.1, by rw [beq_iff_eq]; exact hx.2⟩
  have hle := (hnd.subperm hsub).length_le
  have herase : (heldLines s line).length ≤ ((heldLines s line).erase v).length + 1 := by
    rw [List.length_erase]
    split <;> omega
  simp only [List.length_cons] at hle
  have := r line
  omega

/-! ## Operations of the live image -/

/-- The forms and the counts are kept, and the settled image with what is on its way to it, where no home slice is full afterwards. -/
structure LiveOnly (s t : State) : Prop extends Kept s t where
  room : twf ({} : SliceLine) s.slices = true → Roomy t →
    Roomy s ∧ t.arrays = s.arrays ∧ t.arrPoison = s.arrPoison ∧ t.latewb = s.latewb ∧ t.settles = s.settles

theorem LiveOnly.refl (s : State) : LiveOnly s s := ⟨.refl s, fun _ r => ⟨r, rfl, rfl, rfl, rfl⟩⟩

theorem LiveOnly.trans {s t u : State} (h : LiveOnly s t) (g : LiveOnly t u) : LiveOnly s u := by
  refine ⟨h.toKept.trans g.toKept, fun w r => ?_⟩
  obtain ⟨r', a', b', c', d'⟩ := g.room (h.slices w) r
  obtain ⟨r'', a, b, c, d⟩ := h.room w r'
  exact ⟨r'', a'.trans a, b'.trans b, c'.trans c, d'.trans d⟩

/-- An operation that makes no room. -/
theorem LiveOnly.of_grows {s t : State} (k : Kept s t) (h : ∀ k, s.slice k ≠ {} → t.slice k ≠ {}) (a : t.arrays = s.arrays)
    (b : t.arrPoison = s.arrPoison) (c : t.latewb = s.latewb) (d : t.settles = s.settles) : LiveOnly s t :=
  ⟨k, fun w r => ⟨Roomy.of_grows k w h r, a, b, c, d⟩⟩

/-- An operation that makes room, where it has to, for a line that it then brings. -/
theorem LiveOnly.of_room {s t : State} (line : Nat) (k : Kept s t) (g : Grows (sliceRoom s line) t line)
    (hn : s.slice line = {} → t.slice line ≠ {}) (a : t.arrays = (sliceRoom s line).arrays) (b : t.arrPoison = (sliceRoom s line).arrPoison)
    (c : t.latewb = (sliceRoom s line).latewb) (d : t.settles = (sliceRoom s line).settles) : LiveOnly s t := by
  by_cases h1 : s.slice line ≠ {}
  · have e : sliceRoom s line = s := by unfold sliceRoom; rw [if_pos h1]
    rw [e] at g a b c d
    exact .of_grows k g.held a b c d
  · have h1' : s.slice line = {} := by simpa using h1
    by_cases h2 : (sliceWays s line).length < 12
    · have e : sliceRoom s line = s := by unfold sliceRoom; rw [if_neg h1]; dsimp only; rw [if_pos h2]
      rw [e] at g a b c d
      exact .of_grows k g.held a b c d
    · refine ⟨k, fun w r => absurd r (not_roomy_of_evicted k w line h1' h2
        ((sliceWays s line).getD (Config.victim s.fresh % (sliceWays s line).length) line) (fun x hx hs => ?_) (hn h1'))⟩
      refine g.held x ?_
      unfold sliceRoom
      rw [if_neg h1]
      dsimp only
      rw [if_neg h2, evictSlice_other _ _ _ hx]
      exact hs

theorem LiveOnly.foldl {α : Type} (f : State → α → State) (h : ∀ s a, LiveOnly s (f s a)) (l : List α) (s : State) : LiveOnly s (l.foldl f s) := by
  induction l generalizing s with
  | nil => exact .refl s
  | cons a l ih => exact (h s a).trans (ih _)

/-- A fold that carries the state as a component of what it gathers. -/
theorem LiveOnly.foldl_of {α β : Type} (st : β → State) (f : β → α → β) (h : ∀ b a, LiveOnly (st b) (st (f b a))) (l : List α) (b : β) :
    LiveOnly (st b) (st (l.foldl f b)) := by
  induction l generalizing b with
  | nil => exact .refl _
  | cons a l ih => exact (h b a).trans (ih _)

theorem setCore_live (s : State) (c : Nat) (x : Core) : LiveOnly s (s.setCore c x) := .of_grows (setCore_kept s c x) (fun _ h => h) rfl rfl rfl rfl
theorem modCore_live (s : State) (c : Nat) (f : Core → Core) : LiveOnly s (s.modCore c f) := setCore_live s c _

theorem fillHeld_same (s : State) (line : Nat) (secs : BitVec 4) : let t := fillHeld s line secs
    t.arrays = s.arrays ∧ t.arrPoison = s.arrPoison ∧ t.latewb = s.latewb ∧ t.settles = s.settles := by
  unfold fillHeld
  dsimp only
  split <;> exact ⟨rfl, rfl, rfl, rfl⟩

theorem writeHeld_same (s : State) (line : Nat) (mask : LineMask) (data : LineData) (kind : WriteKind) (pz : BitVec 4) (ex : Option Nat) :
    let t := writeHeld s line mask data kind pz ex
    t.arrays = s.arrays ∧ t.arrPoison = s.arrPoison ∧ t.latewb = s.latewb ∧ t.settles = s.settles := by
  unfold writeHeld
  dsimp only
  split <;> exact ⟨rfl, rfl, rfl, rfl⟩

theorem addHeld_same (s : State) (p : VrstPkt) : let t := addHeld s p
    t.arrays = s.arrays ∧ t.arrPoison = s.arrPoison ∧ t.latewb = s.latewb ∧ t.settles = s.settles := by
  unfold addHeld
  dsimp only
  have h := fillHeld_same s p.line p.secs
  have g := fun m d z => writeHeld_same (fillHeld s p.line p.secs) p.line m d .other z (some p.core)
  exact ⟨(g _ _ _).1.trans h.1, (g _ _ _).2.1.trans h.2.1, (g _ _ _).2.2.1.trans h.2.2.1, (g _ _ _).2.2.2.trans h.2.2.2⟩

/-- A fill of a slice: the settled image stands, but for what a full slice gives up. -/
theorem sliceFill_live (s : State) (line : Nat) (secs : BitVec 4) : LiveOnly s (sliceFill s line secs) := by
  unfold sliceFill
  split
  · exact .refl s
  · rename_i hw
    have g := fillHeld_grows (sliceRoom s line) line secs
    have e := fillHeld_same (sliceRoom s line) line secs
    have kr := fillHeld_kept (sliceRoom s line) line secs
    refine .of_room line ((sliceRoom_kept s line).trans kr) g.1 (fun hl => ?_) e.1 e.2.1 e.2.2.1 e.2.2.2
    by_cases hr : (sliceRoom s line).slice line = {}
    · apply g.2
      rw [hr]
      rw [hl] at hw
      exact hw
    · exact g.1.held line hr

/-- A write at a home slice: the settled image stands, but for what a full slice gives up. -/
theorem sliceWrite_live (s : State) (line : Nat) (mask : LineMask) (data : LineData) (kind : WriteKind) (pz : BitVec 4) (ex : Option Nat) :
    LiveOnly s (sliceWrite s line mask data kind pz ex) := by
  unfold sliceWrite
  split
  · exact .refl s
  · rename_i hm
    have g := writeHeld_grows (sliceRoom s line) line mask data kind pz ex
    have e := writeHeld_same (sliceRoom s line) line mask data kind pz ex
    have kr := writeHeld_kept (sliceRoom s line) line mask data kind pz ex
    exact .of_room line ((sliceRoom_kept s line).trans kr) g.1 (fun _ => g.2 hm) e.1 e.2.1 e.2.2.1 e.2.2.2

theorem applyPacket_live (s : State) (p : VrstPkt) : LiveOnly s (applyPacket s p) := by
  unfold applyPacket
  split
  · exact .refl s
  · rename_i hm
    have g := addHeld_grows (sliceRoom s p.line) p
    have e := addHeld_same (sliceRoom s p.line) p
    have kr := addHeld_kept (sliceRoom s p.line) p
    refine .of_room p.line ((sliceRoom_kept s p.line).trans kr) g.1 (fun _ => ?_) e.1 e.2.1 e.2.2.1 e.2.2.2
    by_cases hr : (sliceRoom s p.line).slice p.line = {}
    · apply g.2
      rw [hr]
      intro h0
      apply hm
      have : sectorMask p.secs &&& ~~~(0 : LineMask) = sectorMask p.secs := by rw [show ~~~(0 : LineMask) = BitVec.allOnes 128 by decide, BitVec.and_allOnes]
      exact this ▸ h0
    · exact g.1.held _ hr

theorem countReq_live (s : State) (core pa : Nat) : LiveOnly s (countReq s core pa) := by unfold countReq; exact modCore_live s core _
theorem countXreq_live (s : State) (core : Nat) : LiveOnly s (countXreq s core) := modCore_live s core _
theorem addStale_live (s : State) (core n : Nat) : LiveOnly s (addStale s core n) := by
  unfold addStale
  split
  · exact .refl s
  · exact modCore_live s core _

theorem vrst_live (s : State) (l : List VrstPkt) : LiveOnly s { s with vrst := l } := .of_grows (vrst_kept s l) (fun _ h => h) rfl rfl rfl rfl
theorem fresh_live (s : State) (n : Nat) : LiveOnly s { s with fresh := n } := .of_grows (fresh_kept s n) (fun _ h => h) rfl rfl rfl rfl

theorem closeBatch_live (s : State) (line : Nat) : LiveOnly s (closeBatch s line) := by
  unfold closeBatch
  split
  · exact (vrst_live s _).trans (LiveOnly.foldl _ applyPacket_live _ _)
  · exact .refl s

theorem sendOne_live (s : State) (p : VrstPkt) : LiveOnly s (applyPacket (closeBatch s p.line) p) :=
  (closeBatch_live s p.line).trans (applyPacket_live _ p)

theorem performSent_live (s : State) (line : Nat) : LiveOnly s (performSent s line) := by
  unfold performSent
  exact (vrst_live s _).trans (LiveOnly.foldl (fun (s : State) (p : VrstPkt) => applyPacket (closeBatch s p.line) p) sendOne_live _ _)

theorem closeLine_live (s : State) (line : Nat) : LiveOnly s (closeLine s line) := by
  unfold closeLine
  dsimp only
  split
  · exact (closeBatch_live s line).trans (performSent_live _ line)
  · exact closeBatch_live s line

theorem closeRange_live (s : State) (pa n : Nat) : LiveOnly s (closeRange s pa n) := LiveOnly.foldl _ (fun s _ => closeLine_live s _) _ s

theorem writeBack_live (s : State) (core line : Nat) (mask : LineMask) : LiveOnly s (writeBack s core line mask) := by
  unfold writeBack
  dsimp only
  split
  · exact .refl s
  · exact (((countReq_live s core _).trans (closeLine_live _ line)).trans (sliceWrite_live _ line _ _ _ _ _)).trans (modCore_live _ core _)

theorem evictLine_live (s : State) (core line : Nat) : LiveOnly s (evictLine s core line) :=
  (writeBack_live s core line _).trans (modCore_live _ core _)

theorem writeBackAll_live (s : State) (core : Nat) : LiveOnly s (writeBackAll s core) :=
  LiveOnly.foldl _ (fun s line => writeBack_live s core line _) _ s

theorem dropDirectory_live (s : State) (line : Nat) : LiveOnly s (dropDirectory s line) :=
  LiveOnly.foldl _ (fun s c => by split; exacts [evictLine_live s c line, .refl s]) _ s

theorem dirRoom_live (s : State) (line : Nat) : LiveOnly s (dirRoom s line) := by
  unfold dirRoom
  dsimp only
  split
  · exact .refl s
  · exact (fresh_live s _).trans (dropDirectory_live _ _)

theorem makeRoom_live (s : State) (core line : Nat) : LiveOnly s (makeRoom s core line) := by
  unfold makeRoom
  dsimp only
  split
  · exact .refl s
  · refine LiveOnly.trans (t := if (l1Ways (s.core core) line).length < 8 then s else
      evictLine { s with fresh := s.fresh + 1 } core ((l1Ways (s.core core) line).getD (Config.victim s.fresh % (l1Ways (s.core core) line).length) line))
      ?_ (dirRoom_live _ line)
    split
    · exact .refl s
    · exact (fresh_live s _).trans (evictLine_live _ core _)

theorem l1Fetch_live (s : State) (core line : Nat) (secs : BitVec 4) : LiveOnly s (l1Fetch s core line secs).2 := by
  unfold l1Fetch
  dsimp only
  exact ((makeRoom_live s core line).trans (sliceFill_live _ line secs)).trans (modCore_live _ core _)

theorem l1Load_live (s : State) (core who line o n : Nat) : LiveOnly s (l1Load s core who line o n).2 := by
  unfold l1Load
  dsimp only
  split
  · exact writeBack_live s core line _
  · exact ((writeBack_live s core line _).trans (modCore_live _ core _)).trans (l1Fetch_live _ core line _)

theorem l1Store_live (s : State) (core who line o : Nat) (bytes : List Byte) : LiveOnly s (l1Store s core who line o bytes) := by
  have h : LiveOnly s (if ((s.core core).line line).live then s else s.modCore core (fun c => c.sampleCount 3 1)) := by
    split
    · exact .refl s
    · exact modCore_live s core _
  unfold l1Store
  generalize (if ((s.core core).line line).live then s else s.modCore core (fun c => c.sampleCount 3 1)) = u at h
  refine h.trans ?_
  dsimp only
  split
  · exact (makeRoom_live u core line).trans (modCore_live _ core _)
  · exact ((makeRoom_live u core line).trans (modCore_live _ core _)).trans (modCore_live _ core _)

theorem flushSectors_live (s : State) (core line : Nat) (mask : LineMask) : LiveOnly s (flushSectors s core line mask) := by
  unfold flushSectors
  dsimp only
  exact (writeBack_live s core line _).trans (modCore_live _ core _)

theorem sliceLoad_live (s : State) (line o n : Nat) : LiveOnly s (sliceLoad s line o n).2 := sliceFill_live s line _

theorem homeWrite_live (s : State) (pa : Nat) (bytes : List Byte) (ex : Option Nat) (pz : Bool) : LiveOnly s (homeWrite s pa bytes ex pz) :=
  LiveOnly.foldl _ (fun _ _ => sliceWrite_live _ _ _ _ _ _ _) _ s

theorem homeRead_live (s : State) (pa n : Nat) : LiveOnly s (homeRead s pa n).2.2.2 :=
  LiveOnly.foldl_of (fun (b : Nat × List Nat × Bool × State) => b.2.2.2) _ (fun _ _ => sliceLoad_live _ _ _ _) _ (0, [], false, s)

theorem events_live (s : State) (l : List RelEvent) : LiveOnly s { s with events := l } :=
  .of_grows ⟨⟨id, id, id⟩, rfl, rfl, rfl⟩ (fun _ h => h) rfl rfl rfl rfl
theorem logEvent_live (s : State) (off die core pa : Nat) : LiveOnly s (logEvent s off die core pa) := events_live s _

theorem readEntry_live (s : State) (pa : Nat) : LiveOnly s (readEntry s pa).2 := (closeLine_live s _).trans (sliceLoad_live _ _ _ _)

theorem walkFrom_live (core ctx va level tab : Nat) (s : State) : LiveOnly s (walkFrom s core ctx va level tab).2 := by
  induction level generalizing s tab with
  | zero =>
    unfold walkFrom
    repeat' (first | exact LiveOnly.refl s | exact readEntry_live s _ | exact ((readEntry_live s _).trans (modCore_live _ core _)).trans (logEvent_live _ _ _ _ _) | omega | split | dsimp only)
  | succ l ih =>
    unfold walkFrom
    dsimp only
    repeat' (first | exact LiveOnly.refl s | exact readEntry_live s _ | exact ((readEntry_live s _).trans (modCore_live _ core _)).trans (ih _ _) | exact ((readEntry_live s _).trans (modCore_live _ core _)).trans (logEvent_live _ _ _ _ _) | split)

theorem fillTlb_live (s : State) (core ctx va e : Nat) : LiveOnly s (fillTlb s core ctx va e) := by
  unfold fillTlb
  exact modCore_live s core _

theorem pageWalk_live (s : State) (core ctx va : Nat) : LiveOnly s (pageWalk s core ctx va).2 := by
  unfold pageWalk
  split
  · exact .refl s
  split
  · exact .refl s
  dsimp only
  have h := walkFrom_live core ctx va (walkStart s core ctx va).1 (walkStart s core ctx va).2 s
  split
  · rename_i g; rw [g] at h; exact h
  · rename_i g; rw [g] at h; exact h.trans (fillTlb_live _ _ _ _ _)

theorem pageXlat_live (s : State) (core ctx va : Nat) (need : Need) : LiveOnly s (pageXlat s core ctx va need).2 := by
  unfold pageXlat
  split
  · exact .refl s
  split
  · exact .refl s
  dsimp only
  have h := pageWalk_live s core ctx va
  split
  · split
    · rename_i g; rw [g] at h; exact h
    · rename_i g; rw [g] at h; exact h
  · exact .refl s

/-! ## Shared operations -/

theorem posted_live (s : State) (l : Tab (List (Nat × Nat))) : LiveOnly s { s with posted := l } :=
  .of_grows ⟨⟨id, id, id⟩, rfl, rfl, rfl⟩ (fun _ h => h) rfl rfl rfl rfl
theorem modCv_live (s : State) (f : Convoy → Convoy) : LiveOnly s (s.modCv f) := .of_grows ⟨⟨id, id, id⟩, rfl, rfl, rfl⟩ (fun _ h => h) rfl rfl rfl rfl
theorem endMember_live (s : State) : LiveOnly s (endMember s) := modCv_live s _
theorem addFault_live (s : State) (phase kind sub widx : Nat) (body : List Nat) : LiveOnly s (addFault s phase kind sub widx body) := by
  unfold addFault
  exact modCv_live s _
theorem modCt_live (s : State) (f : Ct → Ct) : LiveOnly s (s.modCt f) := modCore_live s _ _
theorem ctTrap_live (s : State) (cause : Nat) (tval : Word64) : LiveOnly s (ctTrap s cause tval) := modCt_live s _

theorem postWrite_live (s : State) (core who dev va : Nat) : LiveOnly s (postWrite s core who dev va) := by
  unfold postWrite
  split
  · exact logEvent_live s _ _ _ _
  · exact posted_live s _

theorem sendPacket_live (s : State) (p : VrstPkt) : LiveOnly s (sendPacket s p) := by
  unfold sendPacket
  split
  · exact postWrite_live s _ _ _ _
  · dsimp only
    split
    · exact (closeBatch_live s _).trans (vrst_live _ _)
    · exact vrst_live s _

theorem tallied_live (s : State) (core : Nat) (t : Tally) : LiveOnly s (tallied s core t) :=
  ((addStale_live s core _).trans (LiveOnly.foldl _ (fun s _ => countReq_live s core _) _ _)).trans (LiveOnly.foldl _ (fun s _ => countXreq_live s core) _ _)

theorem remoteRead_live (s : State) (x : Xlat) (n : Nat) (l : List Store) (t : Tally) (i va : Nat) : LiveOnly s (remoteRead s x n l t i va).2.2 := by
  unfold remoteRead
  split <;> exact fresh_live s _

/-- A load moves lines, and leaves the settled image and its counts. -/
theorem agentLoad_live (s : State) (core who : Nat) (x : Xlat) (n : Nat) (l : List Store) (t : Tally) (i va : Nat) :
    LiveOnly s (agentLoad s core who x n l t i va).2.2 := by
  unfold agentLoad
  split
  · exact remoteRead_live s x n l _ i va
  · exact (closeRange_live s x.pa n).trans
      (LiveOnly.foldl_of (fun (b : Nat × Tally × State) => b.2.2) _ (fun _ _ => l1Load_live _ _ _ _ _ _) _ (0, t, closeRange s x.pa n))

/-- A store enters the L1, or reaches a home slice, or leaves for another node; the settled image waits. -/
theorem commitStore_live (s : State) (core who : Nat) (st : Store) : LiveOnly s (commitStore s core who st) := by
  unfold commitStore
  split
  · split
    · exact .refl s
    · exact (countXreq_live s core).trans (postWrite_live _ core _ _ _)
  · dsimp only
    split
    · exact (closeRange_live s _ _).trans ((flushSectors_live _ core _ _).trans (homeWrite_live _ _ _ _ _))
    · refine (closeRange_live s _ _).trans (LiveOnly.foldl _ (fun s p => ?_) _ _)
      split
      · exact (l1Store_live s core who _ _ _).trans (modCore_live _ core _)
      · exact l1Store_live s core who _ _ _

theorem atomicRead_live (s : State) (core : Nat) (x : Xlat) (n : Nat) (l : List Store) (t : Tally) (i va : Nat) :
    LiveOnly s (atomicRead s core x n l t i va).2.2 := by
  unfold atomicRead
  split
  · exact remoteRead_live s x n l _ i va
  · exact ((closeRange_live s x.pa n).trans (flushSectors_live _ core _ _)).trans (sliceLoad_live _ _ _ _)

theorem flushPackets_live (s : State) (core : Nat) : LiveOnly s (flushPackets s core) := LiveOnly.foldl _ (fun s _ => closeLine_live s _) _ s

/-- A release moves bytes of the live image alone (R118). -/
theorem releaseWork_live (s : State) (core : Nat) (sc : Scope) : LiveOnly s (releaseWork s core sc) := by
  unfold releaseWork
  split
  · exact (flushPackets_live s core).trans (writeBackAll_live _ core)
  · exact .refl s

/-! ## Operations that write the settled image -/

/-- A counter of the reliability block and its event leave the memory and the tables of lines. -/
theorem countDie_kept (s : State) (die off pa : Nat) : Kept s (countDie s die off pa) := ⟨⟨id, id, id⟩, rfl, rfl, rfl⟩

theorem poisonedBy_kept (s : State) (die : Nat) (l : List Nat) : Kept s (poisonedBy s die l) := Kept.foldl _ (fun s pa => countDie_kept s die 0x20 pa) l s

theorem commitStep_formKept (s : State) (b : BankCmd) (out : List (Nat × Nat × Nat × Bool)) : FormKept s (commitStep s b out) := by
  unfold commitStep
  refine FormKept.trans ?_ (poisonedBy_kept _ b.die _).toFormKept
  exact ⟨fun g => foldl_twf 0 _ (fun t r h => tsetRange_twf 0 _ t r.1 h) out _ g, id, id⟩

theorem tracePut_formKept (s : State) (core w : Nat) : FormKept s (tracePut s core w) := by
  unfold tracePut
  dsimp only
  split
  · exact .refl s
  · split
    · exact ((arrWrite_kept s _ _ _).trans (modCore_kept _ core _)).toFormKept
    · exact (modCore_kept s core _).toFormKept

/-- What an unlisted address reads as, and every listed one is another: the memory of the machine after start-up is in the form. -/
theorem reset_memWf : State.reset.memWf = true := by decide

theorem reset_cores : twf ({} : Core) State.reset.cores = true := by decide

/-- A byte of the settled image after a write of the bytes of a mask. -/
theorem arrByte_arrWrite (s : State) (line : Nat) (mask : LineMask) (data : LineData) (pa : Nat) :
    (s.arrWrite line mask data).arrByte pa =
      if pa / 128 = line ∧ mask.getLsbD (pa % 128) = true then data.extractLsb' (8 * (pa % 128)) 8 else s.arrByte pa := by
  have key : ∀ n, n ≤ 128 → ∀ m : List Host.Cell,
      tget (0 : Byte) ((upto n).foldl (fun m i => if mask.getLsbD i then tset 0 m (128 * line + i) (data.extractLsb' (8 * i) 8) else m) m) pa =
      if pa / 128 = line ∧ pa % 128 < n ∧ mask.getLsbD (pa % 128) = true then data.extractLsb' (8 * (pa % 128)) 8 else tget 0 m pa := by
    intro n
    induction n with
    | zero => intro _ m; simp [upto]
    | succ n ih =>
      intro hn m
      rw [show upto (n + 1) = upto n ++ [n] from List.range_succ, List.foldl_append]
      simp only [List.foldl_cons, List.foldl_nil]
      by_cases hm : mask.getLsbD n = true
      · rw [if_pos hm, tget_tset, ih (by omega) m]
        by_cases he : pa = 128 * line + n
        · rw [if_pos he, if_pos]
          · rw [he, Nat.mul_add_mod, Nat.mod_eq_of_lt (by omega)]
          · rw [he]; refine ⟨by omega, by omega, ?_⟩
            rw [Nat.mul_add_mod, Nat.mod_eq_of_lt (by omega)]; exact hm
        · rw [if_neg he]
          by_cases hc : pa / 128 = line ∧ pa % 128 < n ∧ mask.getLsbD (pa % 128) = true
          · rw [if_pos hc, if_pos ⟨hc.1, by omega, hc.2.2⟩]
          · rw [if_neg hc, if_neg]
            rintro ⟨h1, h2, h3⟩
            exact hc ⟨h1, by omega, h3⟩
      · rw [if_neg hm, ih (by omega) m]
        by_cases hc : pa / 128 = line ∧ pa % 128 < n ∧ mask.getLsbD (pa % 128) = true
        · rw [if_pos hc, if_pos ⟨hc.1, by omega, hc.2.2⟩]
        · rw [if_neg hc, if_neg]
          rintro ⟨h1, h2, h3⟩
          refine hc ⟨h1, ?_, h3⟩
          by_contra h4
          exact hm (by rwa [show pa % 128 = n by omega] at h3)
  have := key 128 (le_refl _) s.arrays
  unfold State.arrByte State.arrWrite
  dsimp only
  rw [this]
  have h := Nat.mod_lt pa (show 0 < 128 by decide)
  simp [h]

end Sys2Proof.Machine
end

