-- ==== Sys2Proof/Laws/PerInstr.lean ====
section
/-! SUPPORT. One lemma for each instruction: its word decodes to it again (R201 to R222, R375). -/

namespace Sys2Proof

/-! ## Fields of a word -/

theorem low_of_append {w v : Nat} (x : BitVec w) (y : BitVec v) (i n : Nat) (h : i + n ≤ v) :
    (x ++ y).extractLsb' i n = y.extractLsb' i n := by
  ext j hj; simp [BitVec.getLsbD_append]; omega

theorem high_of_append {w v : Nat} (x : BitVec w) (y : BitVec v) (i n : Nat) :
    (x ++ y).extractLsb' (v + i) n = x.extractLsb' i n := by
  ext j hj
  simp only [BitVec.getElem_extractLsb', BitVec.getLsbD_append]
  rw [show v + i + j - v = i + j by omega]
  simp; omega

theorem whole {v : Nat} (y : BitVec v) : y.extractLsb' 0 v = y := by ext j hj; simp

/-- The decoder's field split undoes the R format (R201). -/
theorem decodeWord_encR (c : Bool) (op : BitVec 6) (d a b : BitVec 7) (f : BitVec 4) :
    decodeWord (encR c op d a b f) = decodeF c op d a b f := by
  have h5 : (encR c op d a b f).extractLsb' 0 4 = f := (low_of_append _ f 0 4 (by decide)).trans (whole f)
  have h4 : (encR c op d a b f).extractLsb' 4 7 = b :=
    (high_of_append (BitVec.ofBool c ++ op ++ d ++ a ++ b) f 0 7).trans ((low_of_append _ b 0 7 (by decide)).trans (whole b))
  have h3 : (encR c op d a b f).extractLsb' 11 7 = a :=
    (high_of_append (BitVec.ofBool c ++ op ++ d ++ a ++ b) f 7 7).trans ((high_of_append (BitVec.ofBool c ++ op ++ d ++ a) b 0 7).trans
      ((low_of_append _ a 0 7 (by decide)).trans (whole a)))
  have h2 : (encR c op d a b f).extractLsb' 18 7 = d :=
    (high_of_append (BitVec.ofBool c ++ op ++ d ++ a ++ b) f 14 7).trans ((high_of_append (BitVec.ofBool c ++ op ++ d ++ a) b 7 7).trans
      ((high_of_append (BitVec.ofBool c ++ op ++ d) a 0 7).trans ((low_of_append _ d 0 7 (by decide)).trans (whole d))))
  have h1 : (encR c op d a b f).extractLsb' 25 6 = op :=
    (high_of_append (BitVec.ofBool c ++ op ++ d ++ a ++ b) f 21 6).trans ((high_of_append (BitVec.ofBool c ++ op ++ d ++ a) b 14 6).trans
      ((high_of_append (BitVec.ofBool c ++ op ++ d) a 7 6).trans ((high_of_append (BitVec.ofBool c ++ op) d 0 6).trans
        ((low_of_append _ op 0 6 (by decide)).trans (whole op)))))
  have hx : (encR c op d a b f).extractLsb' 31 1 = BitVec.ofBool c :=
    (high_of_append (BitVec.ofBool c ++ op ++ d ++ a ++ b) f 27 1).trans ((high_of_append (BitVec.ofBool c ++ op ++ d ++ a) b 20 1).trans
      ((high_of_append (BitVec.ofBool c ++ op ++ d) a 13 1).trans ((high_of_append (BitVec.ofBool c ++ op) d 6 1).trans
        ((high_of_append (BitVec.ofBool c) op 0 1).trans (whole _)))))
  have h0 : (encR c op d a b f)[31] = c := by
    have := congrArg (fun v : BitVec 1 => v[0]) hx
    simpa using this
  unfold decodeWord
  rw [h0, h1, h2, h3, h4, h5]

/-! ## Register fields (R203) -/

theorem badG_g7 (x : GName) : badG (g7 x) = false := by simp [badG, g7]
theorem gOf_g7 (x : GName) : gOf (g7 x) = x := by
  apply BitVec.eq_of_toNat_eq; simp [gOf, g7]; omega
theorem kOf_k7 (x : KName) : kOf (k7 x) = x := by
  apply BitVec.eq_of_toNat_eq; simp [kOf, k7]; omega
theorem zOf_z7 (x : ZName) : zOf (z7 x) = x := by
  apply BitVec.eq_of_toNat_eq; simp [zOf, z7]; omega
theorem qOf_q7 (x : QName) : qOf (q7 x) = x := by
  apply BitVec.eq_of_toNat_eq; simp [qOf, q7]; omega
theorem badK_k7 (x : KName) (h : kOk x = true) : badK (k7 x) = false := by
  simp only [kOk, decide_eq_true_eq] at h; simp [badK, k7]; omega
theorem badZ_z7 (x : ZName) : badZ (z7 x) = false := by simp [badZ, z7]; omega
theorem badQ_q7 (x : QName) (h : qOk x = true) : badQ (q7 x) = false := by
  simp only [qOk, decide_eq_true_eq] at h; simp [badQ, q7]; omega
theorem nz_zero (n : Nat) : nz (0 : BitVec n) = false := by simp [nz]

theorem g7_zero (x : GName) : (g7 x = 0#7) = (x = 0#6) := by
  simp only [g7, ← BitVec.toNat_inj, BitVec.toNat_setWidth, BitVec.toNat_ofNat, eq_iff_iff]; omega
theorem g7_top (x : GName) : (g7 x = 63#7) = (x = 63#6) := by
  simp only [g7, ← BitVec.toNat_inj, BitVec.toNat_setWidth, BitVec.toNat_ofNat, eq_iff_iff]; omega

/-- The immediate of `glui` from its two fields. -/
theorem split_lui (i : BitVec 17) : (i.extractLsb' 10 7 ++ i.extractLsb' 0 10 : BitVec 17) = i :=
  (@BitVec.extractLsb'_append_extractLsb'_eq_extractLsb' 17 10 0 10 7 i (by decide)).trans (whole i)

/-- The low eleven bits of an I word (R201). -/
theorem split_imm (i : BitVec 11) : (i.extractLsb' 4 7 ++ i.extractLsb' 0 4 : BitVec 11) = i :=
  (@BitVec.extractLsb'_append_extractLsb'_eq_extractLsb' 11 4 0 4 7 i (by decide)).trans (whole i)

/-- The low eighteen bits of a J word. -/
theorem split_disp (x : BitVec 18) : (x.extractLsb' 11 7 ++ x.extractLsb' 4 7 ++ x.extractLsb' 0 4 : BitVec 18) = x := by
  rw [@BitVec.extractLsb'_append_extractLsb'_eq_extractLsb' 18 11 4 7 7 x (by decide)]
  exact (@BitVec.extractLsb'_append_extractLsb'_eq_extractLsb' 18 4 0 4 14 x (by decide)).trans (whole x)

/-- The fields of a P word (R206). -/
theorem split_payload (k : BitVec 4) (p : BitVec 21) :
    ((k ++ p.extractLsb' 18 3 : BitVec 7).extractLsb' 0 3 ++ p.extractLsb' 11 7 ++ p.extractLsb' 4 7 ++ p.extractLsb' 0 4 : BitVec 21) = p := by
  have e : (k ++ p.extractLsb' 18 3 : BitVec 7).extractLsb' 0 3 = p.extractLsb' 18 3 :=
    (low_of_append k (p.extractLsb' 18 3) 0 3 (by decide)).trans (whole _)
  rw [e, @BitVec.extractLsb'_append_extractLsb'_eq_extractLsb' 21 18 11 7 3 p (by decide)]
  rw [@BitVec.extractLsb'_append_extractLsb'_eq_extractLsb' 21 11 4 7 10 p (by decide)]
  exact (@BitVec.extractLsb'_append_extractLsb'_eq_extractLsb' 21 4 0 4 17 p (by decide)).trans (whole p)

theorem payload_kind (k : BitVec 4) (y : BitVec 3) : (k ++ y : BitVec 7).extractLsb' 3 4 = k :=
  (high_of_append k y 0 4).trans (whole k)

/-! ## Fields of immediates, displacements and payloads -/

theorem top_append {w v : Nat} (x : BitVec w) (y : BitVec v) (n : Nat) (h : v ≤ n) : (x ++ y).getLsbD n = x.getLsbD (n - v) := by
  simp [BitVec.getLsbD_append, Nat.not_lt.mpr h]

theorem low_bit {w v : Nat} (x : BitVec w) (y : BitVec v) (n : Nat) (h : n < v) : (x ++ y).getLsbD n = y.getLsbD n := by
  simp [BitVec.getLsbD_append, h]

theorem imm7_9_2 (x : BitVec 2) (m : BitVec 3) (i : BitVec 6) :
    (x ++ m ++ i : BitVec 11).extractLsb' 9 2 = x :=
  (high_of_append (x ++ m) i 3 2).trans ((high_of_append x m 0 2).trans (whole x))
theorem imm7_6_3 (x : BitVec 2) (m : BitVec 3) (i : BitVec 6) :
    (x ++ m ++ i : BitVec 11).extractLsb' 6 3 = m :=
  (high_of_append (x ++ m) i 0 3).trans ((low_of_append x m 0 3 (by decide)).trans (whole m))
theorem imm7_0_6 (x : BitVec 2) (m : BitVec 3) (i : BitVec 6) :
    (x ++ m ++ i : BitVec 11).extractLsb' 0 6 = i :=
  (low_of_append (x ++ m) i 0 6 (by decide)).trans (whole i)

theorem immG_6_4 (x : BitVec 5) (i : BitVec 6) :
    (x ++ i : BitVec 11).extractLsb' 6 4 = x.extractLsb' 0 4 :=
  high_of_append x i 0 4
theorem immG_0_6 (x : BitVec 5) (i : BitVec 6) :
    (x ++ i : BitVec 11).extractLsb' 0 6 = i :=
  (low_of_append x i 0 6 (by decide)).trans (whole i)
theorem immG_b10 (x : BitVec 5) (i : BitVec 6) : (x ++ i : BitVec 11)[10] = x[4] := by
  show (x ++ i).getLsbD 10 = x.getLsbD 4
  rw [top_append _ _ _ (by decide)]

theorem immL_0_10 (x : BitVec 1) (i : BitVec 10) :
    (x ++ i : BitVec 11).extractLsb' 0 10 = i :=
  (low_of_append x i 0 10 (by decide)).trans (whole i)
theorem immL_b10 (x : BitVec 1) (i : BitVec 10) : (x ++ i : BitVec 11)[10] = x[0] := by
  show (x ++ i).getLsbD 10 = x.getLsbD 0
  rw [top_append _ _ _ (by decide)]

theorem immM_8_2 (x : BitVec 1) (m : BitVec 2) (i : BitVec 8) :
    (x ++ m ++ i : BitVec 11).extractLsb' 8 2 = m :=
  (high_of_append (x ++ m) i 0 2).trans ((low_of_append x m 0 2 (by decide)).trans (whole m))
theorem immM_0_8 (x : BitVec 1) (m : BitVec 2) (i : BitVec 8) :
    (x ++ m ++ i : BitVec 11).extractLsb' 0 8 = i :=
  (low_of_append (x ++ m) i 0 8 (by decide)).trans (whole i)
theorem immM_b10 (x : BitVec 1) (m : BitVec 2) (i : BitVec 8) : (x ++ m ++ i : BitVec 11)[10] = x[0] := by
  show (x ++ m ++ i).getLsbD 10 = x.getLsbD 0
  rw [top_append _ _ _ (by decide), top_append _ _ _ (by decide)]

theorem immT_8_3 (m : BitVec 3) (t : BitVec 3) (k : BitVec 5) :
    (m ++ t ++ k : BitVec 11).extractLsb' 8 3 = m :=
  (high_of_append (m ++ t) k 3 3).trans ((high_of_append m t 0 3).trans (whole m))
theorem immT_5_3 (m : BitVec 3) (t : BitVec 3) (k : BitVec 5) :
    (m ++ t ++ k : BitVec 11).extractLsb' 5 3 = t :=
  (high_of_append (m ++ t) k 0 3).trans ((low_of_append m t 0 3 (by decide)).trans (whole t))
theorem immT_0_5 (m : BitVec 3) (t : BitVec 3) (k : BitVec 5) :
    (m ++ t ++ k : BitVec 11).extractLsb' 0 5 = k :=
  (low_of_append (m ++ t) k 0 5 (by decide)).trans (whole k)

theorem dispB_15_3 (c : BitVec 3) (d : BitVec 15) :
    (c ++ d : BitVec 18).extractLsb' 15 3 = c :=
  (high_of_append c d 0 3).trans (whole c)
theorem dispB_0_15 (c : BitVec 3) (d : BitVec 15) :
    (c ++ d : BitVec 18).extractLsb' 0 15 = d :=
  (low_of_append c d 0 15 (by decide)).trans (whole d)

theorem payK_6_15 (x : BitVec 15) (b : BitVec 1) (k : BitVec 5) :
    (x ++ b ++ k : BitVec 21).extractLsb' 6 15 = x :=
  (high_of_append (x ++ b) k 1 15).trans ((high_of_append x b 0 15).trans (whole x))
theorem payK_0_5 (x : BitVec 15) (b : BitVec 1) (k : BitVec 5) :
    (x ++ b ++ k : BitVec 21).extractLsb' 0 5 = k :=
  (low_of_append (x ++ b) k 0 5 (by decide)).trans (whole k)
theorem payK_b5 (x : BitVec 15) (b : BitVec 1) (k : BitVec 5) : (x ++ b ++ k : BitVec 21)[5] = b[0] := by
  show (x ++ b ++ k).getLsbD 5 = b.getLsbD 0
  rw [top_append _ _ _ (by decide), low_bit _ _ _ (by decide)]

theorem payR_10_11 (x : BitVec 11) (v : BitVec 7) (m : BitVec 3) :
    (x ++ v ++ m : BitVec 21).extractLsb' 10 11 = x :=
  (high_of_append (x ++ v) m 7 11).trans ((high_of_append x v 0 11).trans (whole x))
theorem payR_3_7 (x : BitVec 11) (v : BitVec 7) (m : BitVec 3) :
    (x ++ v ++ m : BitVec 21).extractLsb' 3 7 = v :=
  (high_of_append (x ++ v) m 0 7).trans ((low_of_append x v 0 7 (by decide)).trans (whole v))
theorem payR_0_3 (x : BitVec 11) (v : BitVec 7) (m : BitVec 3) :
    (x ++ v ++ m : BitVec 21).extractLsb' 0 3 = m :=
  (low_of_append (x ++ v) m 0 3 (by decide)).trans (whole m)

theorem payS_3_18 (x : BitVec 18) (s : BitVec 1) (z : BitVec 1) (t : BitVec 1) :
    (x ++ s ++ z ++ t : BitVec 21).extractLsb' 3 18 = x :=
  (high_of_append (x ++ s ++ z) t 2 18).trans ((high_of_append (x ++ s) z 1 18).trans ((high_of_append x s 0 18).trans (whole x)))
theorem payS_b0 (x : BitVec 18) (s : BitVec 1) (z : BitVec 1) (t : BitVec 1) : (x ++ s ++ z ++ t : BitVec 21)[0] = t[0] := by
  show (x ++ s ++ z ++ t).getLsbD 0 = t.getLsbD 0
  rw [low_bit _ _ _ (by decide)]
theorem payS_b1 (x : BitVec 18) (s : BitVec 1) (z : BitVec 1) (t : BitVec 1) : (x ++ s ++ z ++ t : BitVec 21)[1] = z[0] := by
  show (x ++ s ++ z ++ t).getLsbD 1 = z.getLsbD 0
  rw [top_append _ _ _ (by decide), low_bit _ _ _ (by decide)]
theorem payS_b2 (x : BitVec 18) (s : BitVec 1) (z : BitVec 1) (t : BitVec 1) : (x ++ s ++ z ++ t : BitVec 21)[2] = s[0] := by
  show (x ++ s ++ z ++ t).getLsbD 2 = s.getLsbD 0
  rw [top_append _ _ _ (by decide), top_append _ _ _ (by decide), low_bit _ _ _ (by decide)]

theorem payT_5_16 (x : BitVec 16) (k : BitVec 5) :
    (x ++ k : BitVec 21).extractLsb' 5 16 = x :=
  (high_of_append x k 0 16).trans (whole x)
theorem payT_0_5 (x : BitVec 16) (k : BitVec 5) :
    (x ++ k : BitVec 21).extractLsb' 0 5 = k :=
  (low_of_append x k 0 5 (by decide)).trans (whole k)

theorem sysF_7_4 (x : BitVec 4) (f : BitVec 7) :
    (x ++ f : BitVec 11).extractLsb' 7 4 = x :=
  (high_of_append x f 0 4).trans (whole x)
theorem sysF_0_7 (x : BitVec 4) (f : BitVec 7) :
    (x ++ f : BitVec 11).extractLsb' 0 7 = f :=
  (low_of_append x f 0 7 (by decide)).trans (whole f)

theorem setQ_0_6 (x : BitVec 1) (s : BitVec 6) :
    (x ++ s : BitVec 7).extractLsb' 0 6 = s :=
  (low_of_append x s 0 6 (by decide)).trans (whole s)
theorem setQ_b6 (x : BitVec 1) (s : BitVec 6) : (x ++ s : BitVec 7)[6] = x[0] := by
  show (x ++ s).getLsbD 6 = x.getLsbD 0
  rw [top_append _ _ _ (by decide)]

theorem descW_2_5 (x : BitVec 5) (w : BitVec 2) :
    (x ++ w : BitVec 7).extractLsb' 2 5 = x :=
  (high_of_append x w 0 5).trans (whole x)
theorem descW_0_2 (x : BitVec 5) (w : BitVec 2) :
    (x ++ w : BitVec 7).extractLsb' 0 2 = w :=
  (low_of_append x w 0 2 (by decide)).trans (whole w)

theorem barL_3_4 (x : BitVec 4) (l : BitVec 3) :
    (x ++ l : BitVec 7).extractLsb' 3 4 = x :=
  (high_of_append x l 0 4).trans (whole x)
theorem barL_0_3 (x : BitVec 4) (l : BitVec 3) :
    (x ++ l : BitVec 7).extractLsb' 0 3 = l :=
  (low_of_append x l 0 3 (by decide)).trans (whole l)

/-! ## The control thread's words (R375) -/

theorem encX_0_7 (f : BitVec 7) (s : BitVec 5) (r : BitVec 5) (m : BitVec 3) (d : BitVec 5) (o : BitVec 7) :
    (encX o m f s r d).extractLsb' 0 7 = o :=
  (low_of_append (f ++ s ++ r ++ m ++ d) o 0 7 (by decide)).trans (whole o)
theorem encX_7_5 (f : BitVec 7) (s : BitVec 5) (r : BitVec 5) (m : BitVec 3) (d : BitVec 5) (o : BitVec 7) :
    (encX o m f s r d).extractLsb' 7 5 = d :=
  (high_of_append (f ++ s ++ r ++ m ++ d) o 0 5).trans ((low_of_append (f ++ s ++ r ++ m) d 0 5 (by decide)).trans (whole d))
theorem encX_12_3 (f : BitVec 7) (s : BitVec 5) (r : BitVec 5) (m : BitVec 3) (d : BitVec 5) (o : BitVec 7) :
    (encX o m f s r d).extractLsb' 12 3 = m :=
  (high_of_append (f ++ s ++ r ++ m ++ d) o 5 3).trans ((high_of_append (f ++ s ++ r ++ m) d 0 3).trans ((low_of_append (f ++ s ++ r) m 0 3 (by decide)).trans (whole m)))
theorem encX_15_5 (f : BitVec 7) (s : BitVec 5) (r : BitVec 5) (m : BitVec 3) (d : BitVec 5) (o : BitVec 7) :
    (encX o m f s r d).extractLsb' 15 5 = r :=
  (high_of_append (f ++ s ++ r ++ m ++ d) o 8 5).trans ((high_of_append (f ++ s ++ r ++ m) d 3 5).trans ((high_of_append (f ++ s ++ r) m 0 5).trans ((low_of_append (f ++ s) r 0 5 (by decide)).trans (whole r))))
theorem encX_20_5 (f : BitVec 7) (s : BitVec 5) (r : BitVec 5) (m : BitVec 3) (d : BitVec 5) (o : BitVec 7) :
    (encX o m f s r d).extractLsb' 20 5 = s :=
  (high_of_append (f ++ s ++ r ++ m ++ d) o 13 5).trans ((high_of_append (f ++ s ++ r ++ m) d 8 5).trans ((high_of_append (f ++ s ++ r) m 5 5).trans ((high_of_append (f ++ s) r 0 5).trans ((low_of_append f s 0 5 (by decide)).trans (whole s)))))
theorem encX_25_7 (f : BitVec 7) (s : BitVec 5) (r : BitVec 5) (m : BitVec 3) (d : BitVec 5) (o : BitVec 7) :
    (encX o m f s r d).extractLsb' 25 7 = f :=
  (high_of_append (f ++ s ++ r ++ m ++ d) o 18 7).trans ((high_of_append (f ++ s ++ r ++ m) d 13 7).trans ((high_of_append (f ++ s ++ r) m 10 7).trans ((high_of_append (f ++ s) r 5 7).trans ((high_of_append f s 0 7).trans (whole f)))))
theorem encX_25_3 (f : BitVec 7) (s r : BitVec 5) (m : BitVec 3) (d : BitVec 5) (o : BitVec 7) :
    (encX o m f s r d).extractLsb' 25 3 = f.extractLsb' 0 3 :=
  (high_of_append (f ++ s ++ r ++ m ++ d) o 18 3).trans ((high_of_append (f ++ s ++ r ++ m) d 13 3).trans ((high_of_append (f ++ s ++ r) m 10 3).trans ((high_of_append (f ++ s) r 5 3).trans (high_of_append f s 0 3))))
theorem encX_25_5 (f : BitVec 7) (s r : BitVec 5) (m : BitVec 3) (d : BitVec 5) (o : BitVec 7) :
    (encX o m f s r d).extractLsb' 25 5 = f.extractLsb' 0 5 :=
  (high_of_append (f ++ s ++ r ++ m ++ d) o 18 5).trans ((high_of_append (f ++ s ++ r ++ m) d 13 5).trans ((high_of_append (f ++ s ++ r) m 10 5).trans ((high_of_append (f ++ s) r 5 5).trans (high_of_append f s 0 5))))
theorem encX_25_6 (f : BitVec 7) (s r : BitVec 5) (m : BitVec 3) (d : BitVec 5) (o : BitVec 7) :
    (encX o m f s r d).extractLsb' 25 6 = f.extractLsb' 0 6 :=
  (high_of_append (f ++ s ++ r ++ m ++ d) o 18 6).trans ((high_of_append (f ++ s ++ r ++ m) d 13 6).trans ((high_of_append (f ++ s ++ r) m 10 6).trans ((high_of_append (f ++ s) r 5 6).trans (high_of_append f s 0 6))))
theorem encX_b25 (f : BitVec 7) (s r : BitVec 5) (m : BitVec 3) (d : BitVec 5) (o : BitVec 7) : (encX o m f s r d)[25] = f[0] := by
  show (f ++ s ++ r ++ m ++ d ++ o).getLsbD 25 = f.getLsbD 0
  rw [top_append _ _ _ (by decide), top_append _ _ _ (by decide), top_append _ _ _ (by decide), top_append _ _ _ (by decide),
    top_append _ _ _ (by decide)]

theorem encX_low (f : BitVec 7) (s r : BitVec 5) (m : BitVec 3) (d : BitVec 5) (o : BitVec 7) :
    (encX o m f s r d).extractLsb' 0 2 = o.extractLsb' 0 2 :=
  low_of_append (f ++ s ++ r ++ m ++ d) o 0 2 (by decide)

theorem pad_lt_5 : ∀ m : BitVec 5, ¬ (32 ≤ (0#2 ++ m : BitVec 7).toNat) := by decide
theorem pad_low_5 : ∀ m : BitVec 5, (0#2 ++ m : BitVec 7).extractLsb' 0 5 = m := by decide
theorem pad_lt_6 : ∀ m : BitVec 6, ¬ (64 ≤ (0#1 ++ m : BitVec 7).toNat) := by decide
theorem pad_low_6 : ∀ m : BitVec 6, (0#1 ++ m : BitVec 7).extractLsb' 0 6 = m := by decide
theorem pad_lt_3 : ∀ m : BitVec 3, ¬ (8 ≤ (0#4 ++ m : BitVec 7).toNat) := by decide
theorem pad_low_3 : ∀ m : BitVec 3, (0#4 ++ m : BitVec 7).extractLsb' 0 3 = m := by decide

theorem decodeCt_custom0 (f : BitVec 7) (s r : BitVec 5) (m : BitVec 3) (d : BitVec 5) :
    decodeCt (encX 0xB m f s r d) = decXbam (encX 0xB m f s r d) := by
  unfold decodeCt decRv32
  rw [encX_low, if_pos (by decide), encX_0_7]
  rfl

theorem decodeCt_custom1 (f : BitVec 7) (s r : BitVec 5) (m : BitVec 3) (d : BitVec 5) :
    decodeCt (encX 0x2B m f s r d) = decXbam (encX 0x2B m f s r d) := by
  unfold decodeCt decRv32
  rw [encX_low, if_pos (by decide), encX_0_7]
  rfl

namespace Laws.RoundTrip

/-- The word of a well-formed instruction decodes to the instruction. -/
def Statement (i : Instr) : Prop :=
  ∀ w, encode i = some w → wellFormed i = true → if ctSide i then decodeCt w = i else decodeMt w = .ok i

theorem of_fields {i : Instr} {c : Bool} {op : BitVec 6} {d a b : BitVec 7} {f : BitVec 4} (hs : ctSide i = false)
    (he : encode i = some (encR c op d a b f)) (h : wellFormed i = true → decodeF c op d a b f = .ok i) : Statement i := by
  intro w hw hwf
  rw [he, Option.some.injEq] at hw
  simp only [hs, Bool.false_eq_true, if_false, decodeMt, ← hw, decodeWord_encR, h hwf]

theorem checked_ok {opc rsv reg : Bool} {i j : Instr} (h1 : opc = false) (h2 : rsv = false) (h3 : reg = false) (h4 : i = j) :
    checked opc rsv reg i = .ok j := by
  simp [checked, h1, h2, h3, h4]

theorem of_ct {i : Instr} {w : Word32} (hs : ctSide i = true) (he : encode i = some w) (h : decodeCt w = i) : Statement i := by
  intro w' hw _
  rw [he, Option.some.injEq] at hw
  simp only [hs, if_true, ← hw, h]

theorem of_none {i : Instr} (he : encode i = none) : Statement i := by
  intro w hw
  simp [he] at hw

theorem vadd (c : Bool) (d : VName) (a : VName) (b : VName) (sz : Size) : Statement (.vadd c d a b sz) := by
  refine of_fields rfl rfl (fun _ => ?_)
  cases sz <;> rfl

theorem vsub (c : Bool) (d : VName) (a : VName) (b : VName) (sz : Size) : Statement (.vsub c d a b sz) := by
  refine of_fields rfl rfl (fun _ => ?_)
  cases sz <;> rfl

theorem vmul (c : Bool) (d : VName) (a : VName) (b : VName) (sz : Size) : Statement (.vmul c d a b sz) := by
  refine of_fields rfl rfl (fun _ => ?_)
  cases sz <;> rfl

theorem vmulh (c : Bool) (d : VName) (a : VName) (b : VName) (sz : Size) : Statement (.vmulh c d a b sz) := by
  refine of_fields rfl rfl (fun _ => ?_)
  cases sz <;> rfl

theorem vmulhn (c : Bool) (d : VName) (a : VName) (b : VName) (sz : Size) : Statement (.vmulhn c d a b sz) := by
  refine of_fields rfl rfl (fun _ => ?_)
  cases sz <;> rfl

theorem vmin (c : Bool) (d : VName) (a : VName) (b : VName) (sz : Size) : Statement (.vmin c d a b sz) := by
  refine of_fields rfl rfl (fun _ => ?_)
  cases sz <;> rfl

theorem vmax (c : Bool) (d : VName) (a : VName) (b : VName) (sz : Size) : Statement (.vmax c d a b sz) := by
  refine of_fields rfl rfl (fun _ => ?_)
  cases sz <;> rfl

theorem vminn (c : Bool) (d : VName) (a : VName) (b : VName) (sz : Size) : Statement (.vminn c d a b sz) := by
  refine of_fields rfl rfl (fun _ => ?_)
  cases sz <;> rfl

theorem vmaxn (c : Bool) (d : VName) (a : VName) (b : VName) (sz : Size) : Statement (.vmaxn c d a b sz) := by
  refine of_fields rfl rfl (fun _ => ?_)
  cases sz <;> rfl

theorem vabs (c : Bool) (d : VName) (a : VName) (sz : Size) : Statement (.vabs c d a sz) := by
  refine of_fields rfl rfl (fun _ => ?_)
  cases sz <;> rfl

theorem vneg (c : Bool) (d : VName) (a : VName) (sz : Size) : Statement (.vneg c d a sz) := by
  refine of_fields rfl rfl (fun _ => ?_)
  cases sz <;> rfl

theorem vand (c : Bool) (d : VName) (a : VName) (b : VName) (sz : Size) : Statement (.vand c d a b sz) := by
  refine of_fields rfl rfl (fun _ => ?_)
  cases sz <;> rfl

theorem vor (c : Bool) (d : VName) (a : VName) (b : VName) (sz : Size) : Statement (.vor c d a b sz) := by
  refine of_fields rfl rfl (fun _ => ?_)
  cases sz <;> rfl

theorem vxor (c : Bool) (d : VName) (a : VName) (b : VName) (sz : Size) : Statement (.vxor c d a b sz) := by
  refine of_fields rfl rfl (fun _ => ?_)
  cases sz <;> rfl

theorem vandn (c : Bool) (d : VName) (a : VName) (b : VName) (sz : Size) : Statement (.vandn c d a b sz) := by
  refine of_fields rfl rfl (fun _ => ?_)
  cases sz <;> rfl

theorem vshl (c : Bool) (d : VName) (a : VName) (b : VName) (sz : Size) : Statement (.vshl c d a b sz) := by
  refine of_fields rfl rfl (fun _ => ?_)
  cases sz <;> rfl

theorem vshr (c : Bool) (d : VName) (a : VName) (b : VName) (sz : Size) : Statement (.vshr c d a b sz) := by
  refine of_fields rfl rfl (fun _ => ?_)
  cases sz <;> rfl

theorem vsra (c : Bool) (d : VName) (a : VName) (b : VName) (sz : Size) : Statement (.vsra c d a b sz) := by
  refine of_fields rfl rfl (fun _ => ?_)
  cases sz <;> rfl

theorem vrot (c : Bool) (d : VName) (a : VName) (b : VName) (sz : Size) : Statement (.vrot c d a b sz) := by
  refine of_fields rfl rfl (fun _ => ?_)
  cases sz <;> rfl

theorem vfsh (c : Bool) (d : VName) (a : VName) (b : VName) (sz : Size) : Statement (.vfsh c d a b sz) := by
  refine of_fields rfl rfl (fun _ => ?_)
  cases sz <;> rfl

theorem vbext (c : Bool) (d : VName) (a : VName) (b : VName) (sz : Size) : Statement (.vbext c d a b sz) := by
  refine of_fields rfl rfl (fun _ => ?_)
  cases sz <;> rfl

theorem vbins (c : Bool) (d : VName) (a : VName) (b : VName) (sz : Size) : Statement (.vbins c d a b sz) := by
  refine of_fields rfl rfl (fun _ => ?_)
  cases sz <;> rfl

theorem vclz (c : Bool) (d : VName) (a : VName) (sz : Size) : Statement (.vclz c d a sz) := by
  refine of_fields rfl rfl (fun _ => ?_)
  cases sz <;> rfl

theorem vpopc (c : Bool) (d : VName) (a : VName) (sz : Size) : Statement (.vpopc c d a sz) := by
  refine of_fields rfl rfl (fun _ => ?_)
  cases sz <;> rfl

theorem vmv (c : Bool) (d : VName) (a : VName) (sz : Size) : Statement (.vmv c d a sz) := by
  refine of_fields rfl rfl (fun _ => ?_)
  cases sz <;> rfl

theorem vsel (c : Bool) (d : VName) (a : VName) (b : VName) (sz : Size) : Statement (.vsel c d a b sz) := by
  refine of_fields rfl rfl (fun _ => ?_)
  cases sz <;> rfl

theorem vcvt (c : Bool) (d : VName) (a : VName) (sz : Size) : Statement (.vcvt c d a sz) := by
  refine of_fields rfl rfl (fun _ => ?_)
  cases sz <;> rfl

theorem vidx (c : Bool) (d : VName) (sz : Size) : Statement (.vidx c d sz) := by
  refine of_fields rfl rfl (fun _ => ?_)
  cases sz <;> rfl

theorem vaddi (c : Bool) (d : VName) (a : VName) (sz : Size) (i : BitVec 6) : Statement (.vaddi c d a sz i) := by
  refine of_fields rfl rfl (fun h => ?_)
  show decIntImm c d a (_ ++ _) = _
  simp only [split_imm, decIntImm, imm7_9_2, imm7_6_3, imm7_0_6]
  cases sz <;> simp_all [Size.code, Size.ofCode]

theorem vandi (c : Bool) (d : VName) (a : VName) (sz : Size) (i : BitVec 6) : Statement (.vandi c d a sz i) := by
  refine of_fields rfl rfl (fun h => ?_)
  show decIntImm c d a (_ ++ _) = _
  simp only [split_imm, decIntImm, imm7_9_2, imm7_6_3, imm7_0_6]
  cases sz <;> simp_all [Size.code, Size.ofCode]

theorem vori (c : Bool) (d : VName) (a : VName) (sz : Size) (i : BitVec 6) : Statement (.vori c d a sz i) := by
  refine of_fields rfl rfl (fun h => ?_)
  show decIntImm c d a (_ ++ _) = _
  simp only [split_imm, decIntImm, imm7_9_2, imm7_6_3, imm7_0_6]
  cases sz <;> simp_all [Size.code, Size.ofCode]

theorem vxori (c : Bool) (d : VName) (a : VName) (sz : Size) (i : BitVec 6) : Statement (.vxori c d a sz i) := by
  refine of_fields rfl rfl (fun h => ?_)
  show decIntImm c d a (_ ++ _) = _
  simp only [split_imm, decIntImm, imm7_9_2, imm7_6_3, imm7_0_6]
  cases sz <;> simp_all [Size.code, Size.ofCode]

theorem vshli (c : Bool) (d : VName) (a : VName) (sz : Size) (i : BitVec 6) : Statement (.vshli c d a sz i) := by
  refine of_fields rfl rfl (fun h => ?_)
  show decIntImm c d a (_ ++ _) = _
  simp only [split_imm, decIntImm, imm7_9_2, imm7_6_3, imm7_0_6]
  cases sz <;> simp_all [Size.code, Size.ofCode, Size.bits, Size.bytes, checked, wellFormed] <;> exact of_decide_eq_true h

theorem vshri (c : Bool) (d : VName) (a : VName) (sz : Size) (i : BitVec 6) : Statement (.vshri c d a sz i) := by
  refine of_fields rfl rfl (fun h => ?_)
  show decIntImm c d a (_ ++ _) = _
  simp only [split_imm, decIntImm, imm7_9_2, imm7_6_3, imm7_0_6]
  cases sz <;> simp_all [Size.code, Size.ofCode, Size.bits, Size.bytes, checked, wellFormed] <;> exact of_decide_eq_true h

theorem vsrai (c : Bool) (d : VName) (a : VName) (sz : Size) (i : BitVec 6) : Statement (.vsrai c d a sz i) := by
  refine of_fields rfl rfl (fun h => ?_)
  show decIntImm c d a (_ ++ _) = _
  simp only [split_imm, decIntImm, imm7_9_2, imm7_6_3, imm7_0_6]
  cases sz <;> simp_all [Size.code, Size.ofCode, Size.bits, Size.bytes, checked, wellFormed] <;> exact of_decide_eq_true h

theorem vmvi (c : Bool) (d : VName) (sz : Size) (i : BitVec 6) : Statement (.vmvi c d sz i) := by
  refine of_fields rfl rfl (fun h => ?_)
  show decIntImm c d 0 (_ ++ _) = _
  simp only [split_imm, decIntImm, imm7_9_2, imm7_6_3, imm7_0_6]
  cases sz <;> simp_all [Size.code, Size.ofCode, checked, nz]

theorem gadd (c : Bool) (d : GName) (a : GName) (b : GName) : Statement (.gadd c d a b) := by
  refine of_fields rfl rfl (fun h => ?_)
  simp_all [decodeF, decG, checked, badG_g7, gOf_g7]

theorem gsub (c : Bool) (d : GName) (a : GName) (b : GName) : Statement (.gsub c d a b) := by
  refine of_fields rfl rfl (fun h => ?_)
  simp_all [decodeF, decG, checked, badG_g7, gOf_g7]

theorem gmul (c : Bool) (d : GName) (a : GName) (b : GName) : Statement (.gmul c d a b) := by
  refine of_fields rfl rfl (fun h => ?_)
  simp_all [decodeF, decG, checked, badG_g7, gOf_g7]

theorem gand (c : Bool) (d : GName) (a : GName) (b : GName) : Statement (.gand c d a b) := by
  refine of_fields rfl rfl (fun h => ?_)
  simp_all [decodeF, decG, checked, badG_g7, gOf_g7]

theorem gor (c : Bool) (d : GName) (a : GName) (b : GName) : Statement (.gor c d a b) := by
  refine of_fields rfl rfl (fun h => ?_)
  simp_all [decodeF, decG, checked, badG_g7, gOf_g7]

theorem gxor (c : Bool) (d : GName) (a : GName) (b : GName) : Statement (.gxor c d a b) := by
  refine of_fields rfl rfl (fun h => ?_)
  simp_all [decodeF, decG, checked, badG_g7, gOf_g7]

theorem gshl (c : Bool) (d : GName) (a : GName) (b : GName) : Statement (.gshl c d a b) := by
  refine of_fields rfl rfl (fun h => ?_)
  simp_all [decodeF, decG, checked, badG_g7, gOf_g7]

theorem gshr (c : Bool) (d : GName) (a : GName) (b : GName) : Statement (.gshr c d a b) := by
  refine of_fields rfl rfl (fun h => ?_)
  simp_all [decodeF, decG, checked, badG_g7, gOf_g7]

theorem gsra (c : Bool) (d : GName) (a : GName) (b : GName) : Statement (.gsra c d a b) := by
  refine of_fields rfl rfl (fun h => ?_)
  simp_all [decodeF, decG, checked, badG_g7, gOf_g7]

theorem gmv (c : Bool) (d : GName) (a : GName) : Statement (.gmv c d a) := by
  refine of_fields rfl rfl (fun h => ?_)
  simp_all [decodeF, decG, checked, nz, badG_g7, gOf_g7]

theorem gaddi (c : Bool) (d : GName) (a : GName) (i : BitVec 11) : Statement (.gaddi c d a i) := by
  refine of_fields rfl rfl (fun h => ?_)
  simp_all [decodeF, checked, badG_g7, gOf_g7, split_imm]

theorem gandi (c : Bool) (d : GName) (a : GName) (i : BitVec 11) : Statement (.gandi c d a i) := by
  refine of_fields rfl rfl (fun h => ?_)
  simp_all [decodeF, checked, badG_g7, gOf_g7, split_imm]

theorem gshli (c : Bool) (d : GName) (a : GName) (i : BitVec 6) : Statement (.gshli c d a i) := by
  refine of_fields rfl rfl (fun h => ?_)
  simp_all [decodeF, decGImm, checked, nz, badG_g7, gOf_g7, split_imm, immG_6_4, immG_0_6, immG_b10]

theorem glui (c : Bool) (d : GName) (i : BitVec 17) : Statement (.glui c d i) := by
  refine of_fields rfl rfl (fun h => ?_)
  show decGImm c (g7 d) _ (_ ++ _) = _
  simp only [split_imm, decGImm, immL_0_10, immL_b10]
  simp [checked, badG_g7, gOf_g7, split_lui]

theorem vfadd (c : Bool) (d : VName) (a : VName) (b : VName) (ft : FType) : Statement (.vfadd c d a b ft) := by
  refine of_fields rfl rfl (fun _ => ?_)
  cases ft <;> rfl

theorem vfsub (c : Bool) (d : VName) (a : VName) (b : VName) (ft : FType) : Statement (.vfsub c d a b ft) := by
  refine of_fields rfl rfl (fun _ => ?_)
  cases ft <;> rfl

theorem vfmul (c : Bool) (d : VName) (a : VName) (b : VName) (ft : FType) : Statement (.vfmul c d a b ft) := by
  refine of_fields rfl rfl (fun _ => ?_)
  cases ft <;> rfl

theorem vfdiv (c : Bool) (d : VName) (a : VName) (b : VName) (ft : FType) : Statement (.vfdiv c d a b ft) := by
  refine of_fields rfl rfl (fun _ => ?_)
  cases ft <;> rfl

theorem vfma (c : Bool) (d : VName) (a : VName) (b : VName) (ft : FType) : Statement (.vfma c d a b ft) := by
  refine of_fields rfl rfl (fun _ => ?_)
  cases ft <;> rfl

theorem vfms (c : Bool) (d : VName) (a : VName) (b : VName) (ft : FType) : Statement (.vfms c d a b ft) := by
  refine of_fields rfl rfl (fun _ => ?_)
  cases ft <;> rfl

theorem vfnma (c : Bool) (d : VName) (a : VName) (b : VName) (ft : FType) : Statement (.vfnma c d a b ft) := by
  refine of_fields rfl rfl (fun _ => ?_)
  cases ft <;> rfl

theorem vfnms (c : Bool) (d : VName) (a : VName) (b : VName) (ft : FType) : Statement (.vfnms c d a b ft) := by
  refine of_fields rfl rfl (fun _ => ?_)
  cases ft <;> rfl

theorem vfmin (c : Bool) (d : VName) (a : VName) (b : VName) (ft : FType) : Statement (.vfmin c d a b ft) := by
  refine of_fields rfl rfl (fun _ => ?_)
  cases ft <;> rfl

theorem vfmax (c : Bool) (d : VName) (a : VName) (b : VName) (ft : FType) : Statement (.vfmax c d a b ft) := by
  refine of_fields rfl rfl (fun _ => ?_)
  cases ft <;> rfl

theorem vfabs (c : Bool) (d : VName) (a : VName) (ft : FType) : Statement (.vfabs c d a ft) := by
  refine of_fields rfl rfl (fun _ => ?_)
  cases ft <;> rfl

theorem vfneg (c : Bool) (d : VName) (a : VName) (ft : FType) : Statement (.vfneg c d a ft) := by
  refine of_fields rfl rfl (fun _ => ?_)
  cases ft <;> rfl

theorem vfsgn (c : Bool) (d : VName) (a : VName) (b : VName) (ft : FType) : Statement (.vfsgn c d a b ft) := by
  refine of_fields rfl rfl (fun _ => ?_)
  cases ft <;> rfl

theorem vfsqrt (c : Bool) (d : VName) (a : VName) (ft : FType) : Statement (.vfsqrt c d a ft) := by
  refine of_fields rfl rfl (fun _ => ?_)
  cases ft <;> rfl

theorem vfrcp (c : Bool) (d : VName) (a : VName) (ft : FType) : Statement (.vfrcp c d a ft) := by
  refine of_fields rfl rfl (fun _ => ?_)
  cases ft <;> rfl

theorem vfrsq (c : Bool) (d : VName) (a : VName) (ft : FType) : Statement (.vfrsq c d a ft) := by
  refine of_fields rfl rfl (fun _ => ?_)
  cases ft <;> rfl

theorem vfexp2 (c : Bool) (d : VName) (a : VName) (ft : FType) : Statement (.vfexp2 c d a ft) := by
  refine of_fields rfl rfl (fun _ => ?_)
  cases ft <;> rfl

theorem vflog2 (c : Bool) (d : VName) (a : VName) (ft : FType) : Statement (.vflog2 c d a ft) := by
  refine of_fields rfl rfl (fun _ => ?_)
  cases ft <;> rfl

theorem vftanh (c : Bool) (d : VName) (a : VName) (ft : FType) : Statement (.vftanh c d a ft) := by
  refine of_fields rfl rfl (fun _ => ?_)
  cases ft <;> rfl

theorem vfsigm (c : Bool) (d : VName) (a : VName) (ft : FType) : Statement (.vfsigm c d a ft) := by
  refine of_fields rfl rfl (fun _ => ?_)
  cases ft <;> rfl

theorem vfcls (c : Bool) (d : VName) (a : VName) (ft : FType) : Statement (.vfcls c d a ft) := by
  refine of_fields rfl rfl (fun _ => ?_)
  cases ft <;> rfl

theorem vfscale (c : Bool) (d : VName) (a : VName) (b : VName) (ft : FType) : Statement (.vfscale c d a b ft) := by
  refine of_fields rfl rfl (fun _ => ?_)
  cases ft <;> rfl

theorem vsrnd (c : Bool) (d : VName) (a : VName) (b : VName) (ft : FType) : Statement (.vsrnd c d a b ft) := by
  refine of_fields rfl rfl (fun _ => ?_)
  cases ft <;> rfl

theorem vfcvt (c : Bool) (d : VName) (a : VName) (f : BitVec 4) : Statement (.vfcvt c d a f) := of_fields rfl rfl (fun _ => rfl)

theorem vfcvtiInto (c : Bool) (d : VName) (a : VName) (t : TName) (ft : FType) : Statement (.vfcvtiInto c d a t ft) := by
  refine of_fields rfl rfl (fun h => ?_)
  cases ft <;> simp_all [decodeF, decCvti, checked, FType.code, FType.ofCode, badG_g7, gOf_g7, wellFormed]

theorem vfcvtiOut (c : Bool) (d : VName) (a : VName) (t : TName) (ft : FType) : Statement (.vfcvtiOut c d a t ft) := by
  refine of_fields rfl rfl (fun h => ?_)
  cases ft <;> simp_all [decodeF, decCvti, checked, FType.code, FType.ofCode, badG_g7, gOf_g7, wellFormed]

theorem vrng (c : Bool) (d : VName) (sz : Size) : Statement (.vrng c d sz) := by
  refine of_fields rfl rfl (fun _ => ?_)
  cases sz <;> rfl

theorem kwhilelt (c : Bool) (d : KName) (a : GName) (b : GName) (sz : Size) : Statement (.kwhilelt c d a b sz) := by
  refine of_fields rfl rfl (fun h => ?_)
  cases sz <;> simp_all [decodeF, decKwhile, checked, Size.code, Size.ofCode, badG_g7, gOf_g7, badK_k7, kOf_k7, wellFormed]

theorem kwhilele (c : Bool) (d : KName) (a : GName) (b : GName) (sz : Size) : Statement (.kwhilele c d a b sz) := by
  refine of_fields rfl rfl (fun h => ?_)
  cases sz <;> simp_all [decodeF, decKwhile, checked, Size.code, Size.ofCode, badG_g7, gOf_g7, badK_k7, kOf_k7, wellFormed]

theorem kcmp816 (c : Bool) (d : KName) (a : VName) (b : VName) (cond : ICond) (wide : Bool) : Statement (.kcmp816 c d a b cond wide) := by
  refine of_fields rfl rfl (fun h => ?_)
  cases cond <;> cases wide <;> simp_all [decodeF, decKcmp, checked, ICond.code, ICond.ofCode, badK_k7, kOf_k7, wellFormed]

theorem kcmp3264 (c : Bool) (d : KName) (a : VName) (b : VName) (cond : ICond) (wide : Bool) : Statement (.kcmp3264 c d a b cond wide) := by
  refine of_fields rfl rfl (fun h => ?_)
  cases cond <;> cases wide <;> simp_all [decodeF, decKcmp, checked, ICond.code, ICond.ofCode, badK_k7, kOf_k7, wellFormed]

theorem kfcmp (c : Bool) (d : KName) (a : VName) (b : VName) (cond : FCond) (ft : FType) : Statement (.kfcmp c d a b cond ft) := by
  refine of_fields rfl rfl (fun h => ?_)
  cases cond <;> cases ft <;> simp_all [decodeF, decKfcmp, checked, FCond.code, FCond.ofCode, FType.code, FType.ofCode, badK_k7, kOf_k7, wellFormed]

theorem kand (c : Bool) (d : KName) (a : KName) (b : KName) : Statement (.kand c d a b) := by
  refine of_fields rfl rfl (fun h => ?_)
  simp_all [decodeF, decMaskMisc, checked, badK_k7, kOf_k7, wellFormed]

theorem kor (c : Bool) (d : KName) (a : KName) (b : KName) : Statement (.kor c d a b) := by
  refine of_fields rfl rfl (fun h => ?_)
  simp_all [decodeF, decMaskMisc, checked, badK_k7, kOf_k7, wellFormed]

theorem kxor (c : Bool) (d : KName) (a : KName) (b : KName) : Statement (.kxor c d a b) := by
  refine of_fields rfl rfl (fun h => ?_)
  simp_all [decodeF, decMaskMisc, checked, badK_k7, kOf_k7, wellFormed]

theorem kandn (c : Bool) (d : KName) (a : KName) (b : KName) : Statement (.kandn c d a b) := by
  refine of_fields rfl rfl (fun h => ?_)
  simp_all [decodeF, decMaskMisc, checked, badK_k7, kOf_k7, wellFormed]

theorem knot (c : Bool) (d : KName) (a : KName) : Statement (.knot c d a) := by
  refine of_fields rfl rfl (fun h => ?_)
  simp_all [decodeF, decMaskMisc, checked, nz, badK_k7, kOf_k7, wellFormed]

theorem kmv (c : Bool) (d : KName) (a : KName) : Statement (.kmv c d a) := by
  refine of_fields rfl rfl (fun h => ?_)
  simp_all [decodeF, decMaskMisc, checked, nz, badK_k7, kOf_k7, wellFormed]

theorem kpop (c : Bool) (d : GName) (a : KName) : Statement (.kpop c d a) := by
  refine of_fields rfl rfl (fun h => ?_)
  simp_all [decodeF, decMaskMisc, checked, nz, badG_g7, gOf_g7, badK_k7, kOf_k7, wellFormed]

theorem kfirst (c : Bool) (d : GName) (a : KName) : Statement (.kfirst c d a) := by
  refine of_fields rfl rfl (fun h => ?_)
  simp_all [decodeF, decMaskMisc, checked, nz, badG_g7, gOf_g7, badK_k7, kOf_k7, wellFormed]

theorem kset (c : Bool) (d : KName) (a : GName) : Statement (.kset c d a) := by
  refine of_fields rfl rfl (fun h => ?_)
  simp_all [decodeF, decMaskMisc, checked, nz, badG_g7, gOf_g7, badK_k7, kOf_k7, wellFormed]

theorem kld (c : Bool) (d : KName) (a : GName) : Statement (.kld c d a) := by
  refine of_fields rfl rfl (fun h => ?_)
  simp_all [decodeF, decMaskMisc, checked, nz, badG_g7, gOf_g7, badK_k7, kOf_k7, wellFormed]

theorem kst (c : Bool) (d : KName) (a : GName) : Statement (.kst c d a) := by
  refine of_fields rfl rfl (fun h => ?_)
  simp_all [decodeF, decMaskMisc, checked, nz, badG_g7, gOf_g7, badK_k7, kOf_k7, wellFormed]

theorem vshapeImm (c : Bool) (rows : BitVec 7) (cols : BitVec 7) : Statement (.vshapeImm c rows cols) := by
  refine of_fields rfl rfl (fun h => ?_)
  simp_all [decodeF, decMaskMisc, checked, nz, wellFormed]

theorem vshapeReg (c : Bool) (a : GName) (b : GName) : Statement (.vshapeReg c a b) := by
  refine of_fields rfl rfl (fun h => ?_)
  simp_all [decodeF, decMaskMisc, checked, nz, badG_g7, gOf_g7]

theorem tcoll (c : Bool) (d : GName) (t : TName) : Statement (.tcoll c d t) := by
  refine of_fields rfl rfl (fun h => ?_)
  simp only [wellFormed, Bool.and_eq_true, bne_iff_ne, ne_eq] at h
  exact checked_ok rfl (nz_zero 7) (by simp [badG_g7, g7_zero, g7_top]; exact h) (by rw [gOf_g7, gOf_g7])

theorem gsubbr (a : GName) (disp : BitVec 18) : Statement (.gsubbr a disp) := by
  refine of_fields rfl rfl (fun h => ?_)
  simp_all [decodeF, checked, badG_g7, gOf_g7, split_disp]

theorem vperm (c : Bool) (d : VName) (a : VName) (b : VName) (sz : Size) : Statement (.vperm c d a b sz) := by
  refine of_fields rfl rfl (fun _ => ?_)
  cases sz <;> rfl

theorem vzip (c : Bool) (d : VName) (a : VName) (b : VName) (sz : Size) : Statement (.vzip c d a b sz) := by
  refine of_fields rfl rfl (fun _ => ?_)
  cases sz <;> rfl

theorem vunzip (c : Bool) (d : VName) (a : VName) (sz : Size) : Statement (.vunzip c d a sz) := by
  refine of_fields rfl rfl (fun _ => ?_)
  cases sz <;> rfl

theorem vslup (c : Bool) (d : VName) (a : VName) (b : GName) (sz : Size) : Statement (.vslup c d a b sz) := by
  refine of_fields rfl rfl (fun h => ?_)
  cases sz <;> simp_all [decodeF, decXl, checked, Size.code, Size.ofCode, badG_g7, gOf_g7]

theorem vsldn (c : Bool) (d : VName) (a : VName) (b : GName) (sz : Size) : Statement (.vsldn c d a b sz) := by
  refine of_fields rfl rfl (fun h => ?_)
  cases sz <;> simp_all [decodeF, decXl, checked, Size.code, Size.ofCode, badG_g7, gOf_g7]

theorem vbcast (c : Bool) (d : VName) (a : VName) (b : GName) (sz : Size) : Statement (.vbcast c d a b sz) := by
  refine of_fields rfl rfl (fun h => ?_)
  cases sz <;> simp_all [decodeF, decXl, checked, Size.code, Size.ofCode, badG_g7, gOf_g7]

theorem vtrans (c : Bool) (d : VName) (a : VName) (sz : Size) : Statement (.vtrans c d a sz) := by
  refine of_fields rfl rfl (fun _ => ?_)
  cases sz <;> rfl

theorem vcomp (c : Bool) (d : VName) (a : VName) (sz : Size) : Statement (.vcomp c d a sz) := by
  refine of_fields rfl rfl (fun _ => ?_)
  cases sz <;> rfl

theorem vrsum (c : Bool) (d : VName) (a : VName) (xt : XType) : Statement (.vrsum c d a xt) := by
  refine of_fields rfl rfl (fun _ => ?_)
  cases xt <;> rfl

theorem vrmax (c : Bool) (d : VName) (a : VName) (xt : XType) : Statement (.vrmax c d a xt) := by
  refine of_fields rfl rfl (fun _ => ?_)
  cases xt <;> rfl

theorem vrmin (c : Bool) (d : VName) (a : VName) (xt : XType) : Statement (.vrmin c d a xt) := by
  refine of_fields rfl rfl (fun _ => ?_)
  cases xt <;> rfl

theorem vrand (c : Bool) (d : VName) (a : VName) (xt : XType) : Statement (.vrand c d a xt) := by
  refine of_fields rfl rfl (fun h => ?_)
  cases xt <;> simp_all [decodeF, decRed, checked, XType.code, XType.ofCode, wellFormed]

theorem vror (c : Bool) (d : VName) (a : VName) (xt : XType) : Statement (.vror c d a xt) := by
  refine of_fields rfl rfl (fun h => ?_)
  cases xt <;> simp_all [decodeF, decRed, checked, XType.code, XType.ofCode, wellFormed]

theorem vscan (c : Bool) (d : VName) (a : VName) (xt : XType) : Statement (.vscan c d a xt) := by
  refine of_fields rfl rfl (fun _ => ?_)
  cases xt <;> rfl

theorem vexpd (c : Bool) (d : VName) (a : VName) (xt : XType) : Statement (.vexpd c d a xt) := by
  refine of_fields rfl rfl (fun _ => ?_)
  cases xt <;> rfl

theorem vlsnd (c : Bool) (a : VName) : Statement (.vlsnd c a) := of_fields rfl rfl (fun _ => rfl)

theorem vlrcv (c : Bool) (d : VName) : Statement (.vlrcv c d) := of_fields rfl rfl (fun _ => rfl)

theorem vld (c : Bool) (d : VName) (a : GName) (sz : Size) (off : BitVec 8) : Statement (.vld c d a sz off) := by
  refine of_fields rfl rfl (fun h => ?_)
  show decM 0 c d (g7 a) (_ ++ _) = _
  simp only [split_imm, decM, immM_8_2, immM_0_8, immM_b10]
  cases sz <;> simp [Size.code, Size.ofCode, checked, badG_g7, gOf_g7]

theorem vst (c : Bool) (d : VName) (a : GName) (sz : Size) (off : BitVec 8) : Statement (.vst c d a sz off) := by
  refine of_fields rfl rfl (fun h => ?_)
  show decM 1 c d (g7 a) (_ ++ _) = _
  simp only [split_imm, decM, immM_8_2, immM_0_8, immM_b10]
  cases sz <;> simp [Size.code, Size.ofCode, checked, badG_g7, gOf_g7]

theorem vlds (c : Bool) (d : VName) (a : GName) (b : GName) (sz : Size) : Statement (.vlds c d a b sz) := by
  refine of_fields rfl rfl (fun h => ?_)
  cases sz <;> simp_all [decodeF, decStride, checked, Size.code, Size.ofCode, badG_g7, gOf_g7]

theorem vsts (c : Bool) (d : VName) (a : GName) (b : GName) (sz : Size) : Statement (.vsts c d a b sz) := by
  refine of_fields rfl rfl (fun h => ?_)
  cases sz <;> simp_all [decodeF, decStride, checked, Size.code, Size.ofCode, badG_g7, gOf_g7]

theorem vldx (c : Bool) (d : VName) (a : GName) (b : VName) (sz : Size) : Statement (.vldx c d a b sz) := by
  refine of_fields rfl rfl (fun h => ?_)
  cases sz <;> simp_all [decodeF, decStride, checked, Size.code, Size.ofCode, badG_g7, gOf_g7]

theorem vstx (c : Bool) (d : VName) (a : GName) (b : VName) (sz : Size) : Statement (.vstx c d a b sz) := by
  refine of_fields rfl rfl (fun h => ?_)
  cases sz <;> simp_all [decodeF, decStride, checked, Size.code, Size.ofCode, badG_g7, gOf_g7]

theorem vldff (c : Bool) (d : VName) (a : GName) (sz : Size) (off : BitVec 8) : Statement (.vldff c d a sz off) := by
  refine of_fields rfl rfl (fun h => ?_)
  show decM 3 c d (g7 a) (_ ++ _) = _
  simp only [split_imm, decM, immM_8_2, immM_0_8, immM_b10]
  cases sz <;> simp [Size.code, Size.ofCode, checked, badG_g7, gOf_g7]

theorem vldra (c : Bool) (d : VName) (a : GName) (sz : Size) (off : BitVec 8) : Statement (.vldra c d a sz off) := by
  refine of_fields rfl rfl (fun h => ?_)
  show decM 3 c d (g7 a) (_ ++ _) = _
  simp only [split_imm, decM, immM_8_2, immM_0_8, immM_b10]
  cases sz <;> simp [Size.code, Size.ofCode, checked, badG_g7, gOf_g7]

theorem vldt (c : Bool) (d : VName) (t : TName) (b : GName) (tc : TChoice) : Statement (.vldt c d t b tc) := by
  refine of_fields rfl rfl (fun h => ?_)
  cases tc <;> simp_all [decodeF, decTensor, checked, TChoice.code, TChoice.ofCode, badG_g7, gOf_g7]

theorem vstt (c : Bool) (d : VName) (t : TName) (b : GName) (tc : TChoice) : Statement (.vstt c d t b tc) := by
  refine of_fields rfl rfl (fun h => ?_)
  cases tc <;> simp_all [decodeF, decTensor, checked, TChoice.code, TChoice.ofCode, badG_g7, gOf_g7]

theorem vldtag (c : Bool) (d : VName) (t : TName) (b : GName) (tc : TChoice) : Statement (.vldtag c d t b tc) := by
  refine of_fields rfl rfl (fun h => ?_)
  cases tc <;> simp_all [decodeF, decTensor, checked, TChoice.code, TChoice.ofCode, badG_g7, gOf_g7]

theorem gld (c : Bool) (d : GName) (a : GName) (sext : Bool) (sz : Size) (off : BitVec 8) : Statement (.gld c d a sext sz off) := by
  refine of_fields rfl rfl (fun h => ?_)
  show decM 5 c (g7 d) (g7 a) (_ ++ _) = _
  simp only [split_imm, decM, immM_8_2, immM_0_8, immM_b10]
  cases sext <;> cases sz <;> simp [Size.code, Size.ofCode, checked, badG_g7, gOf_g7]

theorem gst (c : Bool) (d : GName) (a : GName) (sz : Size) (off : BitVec 8) : Statement (.gst c d a sz off) := by
  refine of_fields rfl rfl (fun h => ?_)
  show decM 6 c (g7 d) (g7 a) (_ ++ _) = _
  simp only [split_imm, decM, immM_8_2, immM_0_8, immM_b10]
  cases sz <;> simp [Size.code, Size.ofCode, checked, badG_g7, gOf_g7]

theorem vamo (c : Bool) (d : VName) (a : GName) (b : VName) (op : AmoOp) : Statement (.vamo c d a b op) := by
  refine of_fields rfl rfl (fun h => ?_)
  cases op <;> simp_all [decodeF, checked, AmoOp.code, AmoOp.ofCode, badG_g7, gOf_g7]

theorem vamoRow (c : Bool) (d : VName) (a : GName) (b : VName) (op : AmoOp) : Statement (.vamoRow c d a b op) := by
  refine of_fields rfl rfl (fun h => ?_)
  cases op <;> simp_all [decodeF, checked, AmoOp.code, AmoOp.ofCode, badG_g7, gOf_g7]

theorem gamo (c : Bool) (d : GName) (a : GName) (b : GName) (dbl : Bool) (op : AmoOp) : Statement (.gamo c d a b dbl op) := by
  refine of_fields rfl rfl (fun h => ?_)
  cases dbl <;> cases op <;> simp_all [decodeF, checked, AmoOp.code, AmoOp.ofCode, badG_g7, gOf_g7]

theorem vrst (c : Bool) (d : VName) (a : GName) (b : VName) (bf : Bool) : Statement (.vrst c d a b bf) := by
  refine of_fields rfl rfl (fun h => ?_)
  cases bf <;> simp_all [decodeF, decMemSys, checked, badG_g7, gOf_g7]

theorem pref (c : Bool) (a : GName) : Statement (.pref c a) := by
  refine of_fields rfl rfl (fun h => ?_)
  simp_all [decodeF, decMemSys, checked, nz, badG_g7, gOf_g7]

theorem fence (c : Bool) (scope : Scope) (el : Bool) (es : Bool) (ll : Bool) (ls : Bool) : Statement (.fence c scope el es ll ls) := by
  refine of_fields rfl rfl (fun h => ?_)
  cases el <;> cases es <;> cases ll <;> cases ls <;> first | (cases scope <;> rfl) | simp [wellFormed] at h

theorem clean (c : Bool) (a : GName) (b : GName) : Statement (.clean c a b) := by
  refine of_fields rfl rfl (fun h => ?_)
  simp_all [decodeF, decMemSys, checked, nz, badG_g7, gOf_g7]

theorem inval (c : Bool) (a : GName) (b : GName) : Statement (.inval c a b) := by
  refine of_fields rfl rfl (fun h => ?_)
  simp_all [decodeF, decMemSys, checked, nz, badG_g7, gOf_g7]

theorem settle (c : Bool) (a : GName) : Statement (.settle c a) := by
  refine of_fields rfl rfl (fun h => ?_)
  simp_all [decodeF, decMemSys, checked, nz, badG_g7, gOf_g7]

theorem renew (c : Bool) (a : GName) (scope : Scope) : Statement (.renew c a scope) := by
  refine of_fields rfl rfl (fun _ => ?_)
  cases scope <;> simp [decodeF, decMemSys, checked, nz, badG_g7, gOf_g7, Scope.code, Scope.ofCode]

theorem setlc (c : Bool) (d : GName) (a : GName) (scope : Scope) : Statement (.setlc c d a scope) := by
  refine of_fields rfl rfl (fun _ => ?_)
  cases scope <;> simp [decodeF, decMemSys, checked, nz, badG_g7, gOf_g7, Scope.code, Scope.ofCode]

theorem iwc (c : Bool) (d : GName) (a : GName) : Statement (.iwc c d a) := by
  refine of_fields rfl rfl (fun h => ?_)
  simp_all [decodeF, decMemSys, checked, nz, badG_g7, gOf_g7]

theorem rmul (c : Bool) (d : VName) (a : VName) (b : VName) (rt : RType) : Statement (.rmul c d a b rt) := by
  refine of_fields rfl rfl (fun h => ?_)
  cases rt <;> simp_all [decodeF, decRev, checked, RType.code, RType.ofCode, wellFormed]

theorem umul (c : Bool) (d : VName) (a : VName) (b : VName) (rt : RType) : Statement (.umul c d a b rt) := by
  refine of_fields rfl rfl (fun h => ?_)
  cases rt <;> simp_all [decodeF, decRev, checked, RType.code, RType.ofCode, wellFormed]

theorem radd (c : Bool) (d : VName) (a : VName) (b : VName) (rt : RType) : Statement (.radd c d a b rt) := by
  refine of_fields rfl rfl (fun h => ?_)
  cases rt <;> simp_all [decodeF, decRev, checked, RType.code, RType.ofCode, wellFormed]

theorem uadd (c : Bool) (d : VName) (a : VName) (b : VName) (rt : RType) : Statement (.uadd c d a b rt) := by
  refine of_fields rfl rfl (fun h => ?_)
  cases rt <;> simp_all [decodeF, decRev, checked, RType.code, RType.ofCode, wellFormed]

theorem rfma (c : Bool) (d : VName) (a : VName) (b : VName) (rt : RType) : Statement (.rfma c d a b rt) := by
  refine of_fields rfl rfl (fun h => ?_)
  cases rt <;> simp_all [decodeF, decRev, checked, RType.code, RType.ofCode, wellFormed]

theorem ufma (c : Bool) (d : VName) (a : VName) (b : VName) (rt : RType) : Statement (.ufma c d a b rt) := by
  refine of_fields rfl rfl (fun h => ?_)
  cases rt <;> simp_all [decodeF, decRev, checked, RType.code, RType.ofCode, wellFormed]

theorem rnarrow (c : Bool) (d : VName) (a : VName) (rt : RType) : Statement (.rnarrow c d a rt) := by
  refine of_fields rfl rfl (fun h => ?_)
  cases rt <;> simp_all [decodeF, decRev, checked, nz, RType.code, RType.ofCode, wellFormed]

theorem unarrow (c : Bool) (d : VName) (a : VName) (rt : RType) : Statement (.unarrow c d a rt) := by
  refine of_fields rfl rfl (fun h => ?_)
  cases rt <;> simp_all [decodeF, decRev, checked, nz, RType.code, RType.ofCode, wellFormed]

theorem rshr (c : Bool) (d : VName) (a : VName) (b : GName) (rt : RType) : Statement (.rshr c d a b rt) := by
  refine of_fields rfl rfl (fun h => ?_)
  cases rt <;> simp_all [decodeF, decRev, checked, RType.code, RType.ofCode, badG_g7, gOf_g7, wellFormed]

theorem ushr (c : Bool) (d : VName) (a : VName) (b : GName) (rt : RType) : Statement (.ushr c d a b rt) := by
  refine of_fields rfl rfl (fun h => ?_)
  cases rt <;> simp_all [decodeF, decRev, checked, RType.code, RType.ofCode, badG_g7, gOf_g7, wellFormed]

theorem rscale (c : Bool) (d : VName) (a : VName) (b : GName) (bf : Bool) : Statement (.rscale c d a b bf) := by
  refine of_fields rfl rfl (fun h => ?_)
  cases bf <;> simp_all [decodeF, decRev, checked, badG_g7, gOf_g7, wellFormed]

theorem uscale (c : Bool) (d : VName) (a : VName) (b : GName) (bf : Bool) : Statement (.uscale c d a b bf) := by
  refine of_fields rfl rfl (fun h => ?_)
  cases bf <;> simp_all [decodeF, decRev, checked, badG_g7, gOf_g7, wellFormed]

theorem rlrelu (c : Bool) (d : VName) (a : VName) (rt : RType) (k : BitVec 5) : Statement (.rlrelu c d a rt k) := by
  refine of_fields rfl rfl (fun h => ?_)
  show decTalus c d a (_ ++ _) = _
  simp only [split_imm, decTalus, immT_8_3, immT_5_3, immT_0_5]
  cases rt <;> simp_all [RType.code, RType.ofCode, checked, wellFormed]

theorem ulrelu (c : Bool) (d : VName) (a : VName) (rt : RType) (k : BitVec 5) : Statement (.ulrelu c d a rt k) := by
  refine of_fields rfl rfl (fun h => ?_)
  show decTalus c d a (_ ++ _) = _
  simp only [split_imm, decTalus, immT_8_3, immT_5_3, immT_0_5]
  cases rt <;> simp_all [RType.code, RType.ofCode, checked, wellFormed]

theorem tsave (c : Bool) (a : GName) : Statement (.tsave c a) := by
  refine of_fields rfl rfl (fun h => ?_)
  simp_all [decodeF, decTalus, checked, nz, badG_g7, gOf_g7]

theorem trest (c : Bool) (a : GName) : Statement (.trest c a) := by
  refine of_fields rfl rfl (fun h => ?_)
  simp_all [decodeF, decTalus, checked, nz, badG_g7, gOf_g7]

theorem tmark (c : Bool) (d : GName) : Statement (.tmark c d) := by
  refine of_fields rfl rfl (fun h => ?_)
  simp_all [decodeF, decTalus, checked, nz, badG_g7, gOf_g7]

theorem tchk (c : Bool) (a : GName) : Statement (.tchk c a) := by
  refine of_fields rfl rfl (fun h => ?_)
  simp_all [decodeF, decTalus, checked, nz, badG_g7, gOf_g7]

theorem tdepth (c : Bool) (d : GName) : Statement (.tdepth c d) := by
  refine of_fields rfl rfl (fun h => ?_)
  simp_all [decodeF, decTalus, checked, nz, badG_g7, gOf_g7]

theorem mattach (c : Bool) (a : GName) : Statement (.mattach c a) := by
  refine of_fields rfl rfl (fun h => ?_)
  simp_all [decodeF, decEngCtl, checked, nz, badG_g7, gOf_g7]

theorem mdetach (c : Bool) : Statement (.mdetach c) := of_fields rfl rfl (fun _ => rfl)

theorem mzero (c : Bool) (z : ZName) : Statement (.mzero c z) := by
  refine of_fields rfl rfl (fun h => ?_)
  simp_all [decodeF, decEngCtl, checked, nz, badZ_z7, zOf_z7]

theorem tdef (c : Bool) (t : TName) (a : GName) : Statement (.tdef c t a) := by
  refine of_fields rfl rfl (fun h => ?_)
  simp_all [decodeF, decEngCtl, checked, nz, badG_g7, gOf_g7]

theorem tget (c : Bool) (d : GName) (t : TName) (w : BitVec 2) : Statement (.tget c d t w) := by
  refine of_fields rfl rfl (fun h => ?_)
  simp_all [decodeF, decEngCtl, checked, nz, badG_g7, gOf_g7, descW_2_5, descW_0_2]

theorem qfence (c : Bool) (set : BitVec 6) : Statement (.qfence c set) := by
  refine of_fields rfl rfl (fun h => ?_)
  simp_all [decodeF, decEngCtl, checked, nz, setQ_0_6, setQ_b6, wellFormed]

theorem qwait (c : Bool) (q : QName) (a : GName) : Statement (.qwait c q a) := by
  refine of_fields rfl rfl (fun h => ?_)
  simp_all [decodeF, decEngCtl, checked, nz, badG_g7, gOf_g7, badQ_q7, qOf_q7, wellFormed]

theorem qcnt (c : Bool) (d : GName) (q : QName) : Statement (.qcnt c d q) := by
  refine of_fields rfl rfl (fun h => ?_)
  simp_all [decodeF, decEngCtl, checked, nz, badG_g7, gOf_g7, badQ_q7, qOf_q7, wellFormed]

theorem mmac (c : Bool) (z : ZName) (ta : TName) (tb : TName) (idx : Bool) (tc : TChoice) (sat : Bool) : Statement (.mmac c z ta tb idx tc sat) := by
  refine of_fields rfl rfl (fun h => ?_)
  cases idx <;> cases tc <;> cases sat <;> simp_all [decodeF, decMmac, checked, TChoice.code, TChoice.ofCode, badG_g7, gOf_g7, badZ_z7, zOf_z7]

theorem vzrd (c : Bool) (v : VName) (z : ZName) (b : GName) (hi : Bool) : Statement (.vzrd c v z b hi) := by
  refine of_fields rfl rfl (fun h => ?_)
  cases hi <;> simp_all [decodeF, decAcc, checked, badG_g7, gOf_g7, badZ_z7, zOf_z7]

theorem vzwr (c : Bool) (v : VName) (z : ZName) (b : GName) (hi : Bool) : Statement (.vzwr c v z b hi) := by
  refine of_fields rfl rfl (fun h => ?_)
  cases hi <;> simp_all [decodeF, decAcc, checked, badG_g7, gOf_g7, badZ_z7, zOf_z7]

theorem vzcrd (c : Bool) (v : VName) (z : ZName) (b : GName) : Statement (.vzcrd c v z b) := by
  refine of_fields rfl rfl (fun h => ?_)
  simp_all [decodeF, decAcc, checked, badG_g7, gOf_g7, badZ_z7, zOf_z7]

theorem vzcwr (c : Bool) (v : VName) (z : ZName) (b : GName) : Statement (.vzcwr c v z b) := by
  refine of_fields rfl rfl (fun h => ?_)
  simp_all [decodeF, decAcc, checked, badG_g7, gOf_g7, badZ_z7, zOf_z7]

theorem cpy (c : Bool) (d : TName) (a : TName) (b : GName) : Statement (.cpy c d a b) := by
  refine of_fields rfl rfl (fun h => ?_)
  simp_all [decodeF, decEngCmd, checked, badG_g7, gOf_g7]

theorem gath (c : Bool) (d : TName) (a : TName) (b : GName) : Statement (.gath c d a b) := by
  refine of_fields rfl rfl (fun h => ?_)
  simp_all [decodeF, decEngCmd, checked, badG_g7, gOf_g7]

theorem scat (c : Bool) (d : TName) (a : TName) (b : GName) : Statement (.scat c d a b) := by
  refine of_fields rfl rfl (fun h => ?_)
  simp_all [decodeF, decEngCmd, checked, badG_g7, gOf_g7]

theorem coll (c : Bool) (d : TName) (a : TName) (b : GName) : Statement (.coll c d a b) := by
  refine of_fields rfl rfl (fun h => ?_)
  simp_all [decodeF, decEngCmd, checked, badG_g7, gOf_g7]

theorem bank (c : Bool) (a : GName) (b : GName) : Statement (.bank c a b) := by
  refine of_fields rfl rfl (fun h => ?_)
  simp_all [decodeF, decEngCmd, checked, nz, badG_g7, gOf_g7]

theorem br (disp : BitVec 18) : Statement (.br disp) := by
  refine of_fields rfl rfl (fun h => ?_)
  simp_all [decodeF, decBr, checked, split_disp]

theorem jal (a : GName) (disp : BitVec 18) : Statement (.jal a disp) := by
  refine of_fields rfl rfl (fun h => ?_)
  show decBr false (g7 a) (_ ++ _ ++ _) = _
  simp only [wellFormed, bne_iff_ne, ne_eq] at h
  simp [split_disp, decBr, checked, badG_g7, gOf_g7, g7_zero]
  exact h

theorem bcc (a : GName) (cond : GCond) (disp : BitVec 15) : Statement (.bcc a cond disp) := by
  refine of_fields rfl rfl (fun h => ?_)
  cases cond <;> simp_all [decodeF, decBcc, checked, GCond.code, GCond.ofCode, badG_g7, gOf_g7, split_disp, dispB_15_3, dispB_0_15]

theorem bk (k : KName) (inv : Bool) (disp : BitVec 15) : Statement (.bk k inv disp) := by
  refine of_fields rfl rfl (fun h => ?_)
  cases inv <;> simp_all [decodeF, decBcc, checked, badK_k7, kOf_k7, split_disp, dispB_15_3, dispB_0_15, wellFormed]

theorem nop (c : Bool) : Statement (.nop c) := of_fields rfl rfl (fun _ => rfl)

theorem stop (c : Bool) : Statement (.stop c) := of_fields rfl rfl (fun _ => rfl)

theorem yield (c : Bool) : Statement (.yield c) := of_fields rfl rfl (fun _ => rfl)

theorem bar (c : Bool) (level : BitVec 3) : Statement (.bar c level) := by
  refine of_fields rfl rfl (fun h => ?_)
  simp_all [decodeF, decCtl, checked, nz, barL_3_4, barL_0_3]

theorem jr (c : Bool) (a : GName) : Statement (.jr c a) := by
  refine of_fields rfl rfl (fun h => ?_)
  simp_all [decodeF, decCtl, checked, nz, badG_g7, gOf_g7]

theorem lfetch (c : Bool) (a : GName) : Statement (.lfetch c a) := by
  refine of_fields rfl rfl (fun h => ?_)
  simp_all [decodeF, decCtl, checked, nz, badG_g7, gOf_g7]

theorem sread (c : Bool) (d : GName) (num : BitVec 11) : Statement (.sread c d num) := by
  refine of_fields rfl rfl (fun h => ?_)
  simp_all [decodeF, decSys, checked, nz, badG_g7, gOf_g7, split_imm, wellFormed]

theorem swrite (c : Bool) (d : GName) (num : BitVec 11) : Statement (.swrite c d num) := by
  refine of_fields rfl rfl (fun h => ?_)
  simp_all [decodeF, decSys, checked, nz, badG_g7, gOf_g7, split_imm, wellFormed]

theorem trap (c : Bool) (code : BitVec 11) : Statement (.trap c code) := by
  refine of_fields rfl rfl (fun h => ?_)
  simp_all [decodeF, decSys, checked, nz, split_imm]

theorem brk (c : Bool) (code : BitVec 11) : Statement (.brk c code) := by
  refine of_fields rfl rfl (fun h => ?_)
  simp_all [decodeF, decSys, checked, nz, split_imm]

theorem wbase (c : Bool) (n : BitVec 11) : Statement (.wbase c n) := by
  refine of_fields rfl rfl (fun h => ?_)
  simp_all [decodeF, decSys, checked, nz, split_imm]

theorem fclr (c : Bool) (flags : BitVec 7) : Statement (.fclr c flags) := by
  refine of_fields rfl rfl (fun h => ?_)
  simp_all [decodeF, decSys, checked, nz, split_imm, sysF_7_4, sysF_0_7]

theorem poolq (c : Bool) (d : GName) (query : BitVec 11) : Statement (.poolq c d query) := by
  refine of_fields rfl rfl (fun h => ?_)
  simp_all [decodeF, decSys, checked, nz, badG_g7, gOf_g7, split_imm, wellFormed]

theorem maskSelect (inv : Bool) (k : KName) : Statement (.maskSelect inv k) := by
  refine of_fields rfl rfl (fun h => ?_)
  show decPrefix false (BitVec.extractLsb' 3 4 _) (_ ++ _ ++ _ ++ _) = _
  simp only [wellFormed, kOk, decide_eq_true_eq] at h
  simp only [payload_kind, split_payload, decPrefix, payK_6_15, payK_0_5, payK_b5]
  cases inv <;> simp [checked, nz, h]

theorem rounding (v : VName) (mode : RMode) : Statement (.rounding v mode) := by
  refine of_fields rfl rfl (fun h => ?_)
  cases mode <;> simp_all [decodeF, decPrefix, checked, RMode.code, RMode.ofCode, nz, split_payload, payload_kind, payR_10_11, payR_3_7, payR_0_3, wellFormed]

theorem saturateAndZeroing (sgn : Bool) (zero : Bool) (sat : Bool) : Statement (.saturateAndZeroing sgn zero sat) := by
  refine of_fields rfl rfl (fun h => ?_)
  cases sgn <;> cases zero <;> cases sat <;> simp_all [decodeF, decPrefix, checked, nz, wellFormed]

theorem immediateExtension (imm : BitVec 21) : Statement (.immediateExtension imm) := by
  refine of_fields rfl rfl (fun h => ?_)
  simp_all [decodeF, decPrefix, checked, split_payload, payload_kind]

theorem secondType (code : BitVec 5) : Statement (.secondType code) := by
  refine of_fields rfl rfl (fun h => ?_)
  simp_all [decodeF, decPrefix, checked, nz, split_payload, payload_kind, payT_5_16, payT_0_5]

theorem mtBcast (rs1 : XName) (rs2 : XName) : Statement (.mtBcast rs1 rs2) := by
  refine of_ct rfl rfl ?_
  rw [decodeCt_custom0]
  simp [decXbam, rvF3, rvF7, rvRd, rvRs1, rvRs2, encX_0_7, encX_7_5, encX_12_3, encX_15_5, encX_20_5, encX_25_7]

theorem mtSend (rs1 : XName) (rs2 : XName) (m : BitVec 5) : Statement (.mtSend rs1 rs2 m) := by
  refine of_ct rfl rfl ?_
  rw [decodeCt_custom0]
  simp [decXbam, rvF3, rvF7, rvRd, rvRs1, rvRs2, encX_0_7, encX_7_5, encX_12_3, encX_15_5, encX_20_5, encX_25_7, pad_lt_5, pad_low_5, encX_25_5]

theorem mtWait (rs1 : XName) : Statement (.mtWait rs1) := by
  refine of_ct rfl rfl ?_
  rw [decodeCt_custom0]
  simp [decXbam, rvF3, rvF7, rvRd, rvRs1, rvRs2, encX_0_7, encX_7_5, encX_12_3, encX_15_5, encX_20_5, encX_25_7]

theorem mtGet (rd : XName) (rs1 : XName) (n : BitVec 6) : Statement (.mtGet rd rs1 n) := by
  refine of_ct rfl rfl ?_
  rw [decodeCt_custom0]
  simp [decXbam, rvF3, rvF7, rvRd, rvRs1, rvRs2, encX_0_7, encX_7_5, encX_12_3, encX_15_5, encX_20_5, encX_25_7, pad_lt_6, pad_low_6, encX_25_6]

theorem mtPut (rs1 : XName) (n : BitVec 6) (rs2 : XName) : Statement (.mtPut rs1 n rs2) := by
  refine of_ct rfl rfl ?_
  rw [decodeCt_custom0]
  simp [decXbam, rvF3, rvF7, rvRd, rvRs1, rvRs2, encX_0_7, encX_7_5, encX_12_3, encX_15_5, encX_20_5, encX_25_7, pad_lt_6, pad_low_6, encX_25_6]

theorem mtStop (rs1 : XName) : Statement (.mtStop rs1) := by
  refine of_ct rfl rfl ?_
  rw [decodeCt_custom0]
  simp [decXbam, rvF3, rvF7, rvRd, rvRs1, rvRs2, encX_0_7, encX_7_5, encX_12_3, encX_15_5, encX_20_5, encX_25_7]

theorem mtStat (rd : XName) (h : Bool) : Statement (.mtStat rd h) := by
  refine of_ct rfl rfl ?_
  rw [decodeCt_custom0]
  cases h <;> simp [decXbam, rvF3, rvF7, rvRd, rvRs1, rvRs2, encX_0_7, encX_7_5, encX_12_3, encX_15_5, encX_20_5, encX_25_7, encX_b25]

theorem mtFlt (rd : XName) (rs1 : XName) (rs2 : XName) : Statement (.mtFlt rd rs1 rs2) := by
  refine of_ct rfl rfl ?_
  rw [decodeCt_custom0]
  simp [decXbam, rvF3, rvF7, rvRd, rvRs1, rvRs2, encX_0_7, encX_7_5, encX_12_3, encX_15_5, encX_20_5, encX_25_7]

theorem mtLnk (pairs : Bool) : Statement (.mtLnk pairs) := by
  refine of_ct rfl rfl ?_
  rw [decodeCt_custom1]
  cases pairs <;> simp [decXbam, rvF3, rvF7, rvRd, rvRs1, rvRs2, encX_0_7, encX_7_5, encX_12_3, encX_15_5, encX_20_5, encX_25_7, encX_b25]

theorem mtBar (rs1 : XName) (level : BitVec 3) : Statement (.mtBar rs1 level) := by
  refine of_ct rfl rfl ?_
  rw [decodeCt_custom1]
  simp [decXbam, rvF3, rvF7, rvRd, rvRs1, rvRs2, encX_0_7, encX_7_5, encX_12_3, encX_15_5, encX_20_5, encX_25_7, pad_lt_3, pad_low_3, encX_25_3]

theorem mtEng (rs1 : XName) (rs2 : XName) : Statement (.mtEng rs1 rs2) := by
  refine of_ct rfl rfl ?_
  rw [decodeCt_custom1]
  simp [decXbam, rvF3, rvF7, rvRd, rvRs1, rvRs2, encX_0_7, encX_7_5, encX_12_3, encX_15_5, encX_20_5, encX_25_7]

theorem ctFence (tso : Bool) (pred : BitVec 4) (succ : BitVec 4) (rd : XName) (rs1 : XName) : Statement (.ctFence tso pred succ rd rs1) := of_none rfl

theorem ctFenceI (rd : XName) (rs1 : XName) (imm : BitVec 12) : Statement (.ctFenceI rd rs1 imm) := of_none rfl

theorem ctLoadStore (op : RvMem) (r : XName) (rs1 : XName) (imm : BitVec 12) (len : RvLen) : Statement (.ctLoadStore op r rs1 imm len) := of_none rfl

theorem ctAmo (op : RvAmo) (dbl : Bool) (aq : Bool) (rl : Bool) (rd : XName) (rs1 : XName) (rs2 : XName) : Statement (.ctAmo op dbl aq rl rd rs1 rs2) := of_none rfl

theorem ctLr (dbl : Bool) (aq : Bool) (rl : Bool) (rd : XName) (rs1 : XName) : Statement (.ctLr dbl aq rl rd rs1) := of_none rfl

theorem ctSc (dbl : Bool) (aq : Bool) (rl : Bool) (rd : XName) (rs1 : XName) (rs2 : XName) : Statement (.ctSc dbl aq rl rd rs1 rs2) := of_none rfl

theorem ctPageFault (va : Word64) (kind : BitVec 2) : Statement (.ctPageFault va kind) := of_none rfl

theorem xbscopeWrite (op : RvCsr) (imm : Bool) (rd : XName) (rs1 : XName) : Statement (.xbscopeWrite op imm rd rs1) := of_none rfl

theorem xbresumeWrite (op : RvCsr) (imm : Bool) (rd : XName) (rs1 : XName) : Statement (.xbresumeWrite op imm rd rs1) := of_none rfl

theorem convoyReissue (mirror : Bool) (member : BitVec 2) (group : BitVec 3) : Statement (.convoyReissue mirror member group) := of_none rfl

theorem pageWalk (ctx : BitVec 4) (va : Word64) : Statement (.pageWalk ctx va) := of_none rfl

theorem l1Fill (victim : Option Nat) : Statement (.l1Fill victim) := of_none rfl

theorem homeSliceWrite (line : Nat) (mask : LineMask) (data : LineData) : Statement (.homeSliceWrite line mask data) := of_none rfl

theorem homeSliceFill (evict : Option Nat) (serves : Bool) : Statement (.homeSliceFill evict serves) := of_none rfl

theorem atomicAtSlice (size : Size) (op : AmoOp) (x : Word64) : Statement (.atomicAtSlice size op x) := of_none rfl

theorem fabricRequest (src : Nat) (addr : Nat) (req : FabReq) : Statement (.fabricRequest src addr req) := of_none rfl

theorem accessErrorResponse (dev : Nat) (va : Word64) : Statement (.accessErrorResponse dev va) := of_none rfl

theorem spanUpdate (value : Word64) : Statement (.spanUpdate value) := of_none rfl

theorem registerWrite (pa : Nat) (value : Word64) : Statement (.registerWrite pa value) := of_none rfl

theorem qmapWrite (quad : Nat) (value : Word64) : Statement (.qmapWrite quad value) := of_none rfl

theorem lqdWrite (part : Nat) (queue : Nat) (value : Word64) : Statement (.lqdWrite part queue value) := of_none rfl

theorem queueRelease (value : Word64) : Statement (.queueRelease value) := of_none rfl

theorem poisonConsume (loc : Place) : Statement (.poisonConsume loc) := of_none rfl

theorem doubleBitError (loc : Place) : Statement (.doubleBitError loc) := of_none rfl

theorem markerFlit (port : Nat) (pool : Bool) : Statement (.markerFlit port pool) := of_none rfl

theorem clockThrottle (down : Bool) : Statement (.clockThrottle down) := of_none rfl

theorem deviceStartup (status : BitVec 2) (dev : BitVec 11) (share : BitVec 7) (ports : BitVec 18) (fw : Word64) : Statement (.deviceStartup status dev share ports fw) := of_none rfl

theorem watchdogHaltNotice (dev : Nat) (halted : Bool) : Statement (.watchdogHaltNotice dev halted) := of_none rfl

theorem fabricResponse (dev : Nat) (error : Bool) : Statement (.fabricResponse dev error) := of_none rfl

theorem ctRiscvInstruction (op : RvOp) (len : RvLen) : Statement (.ctRiscvInstruction op len) := of_none rfl

theorem mtSync : Statement (.mtSync) := by
  refine of_ct rfl rfl ?_
  rw [decodeCt_custom1]
  simp [decXbam, rvF3, rvF7, rvRd, rvRs1, rvRs2, encX_0_7, encX_7_5, encX_12_3, encX_15_5, encX_20_5, encX_25_7]

theorem ecallEndPart : Statement (.ecallEndPart) := of_ct rfl rfl (by decide)

theorem faultInterrupt : Statement (.faultInterrupt) := of_none rfl

theorem convoyIssue : Statement (.convoyIssue) := of_none rfl

theorem convoyRetire : Statement (.convoyRetire) := of_none rfl

theorem convoyFault : Statement (.convoyFault) := of_none rfl

theorem lodeTake : Statement (.lodeTake) := of_none rfl

theorem lodeFill : Statement (.lodeFill) := of_none rfl

theorem mtPutApply : Statement (.mtPutApply) := of_none rfl

theorem mtGetSample : Statement (.mtGetSample) := of_none rfl

theorem mtStopApply : Statement (.mtStopApply) := of_none rfl

theorem barrierComplete : Statement (.barrierComplete) := of_none rfl

theorem linkWaitEnd : Statement (.linkWaitEnd) := of_none rfl

theorem sectorTimerExpiry : Statement (.sectorTimerExpiry) := of_none rfl

theorem vrstPacket : Statement (.vrstPacket) := of_none rfl

theorem hwPrefetch : Statement (.hwPrefetch) := of_none rfl

theorem portDown : Statement (.portDown) := of_none rfl

theorem settleEntry : Statement (.settleEntry) := of_none rfl

theorem settleStartNotice : Statement (.settleStartNotice) := of_none rfl

theorem settleSectorWrite : Statement (.settleSectorWrite) := of_none rfl

theorem renewEntry : Statement (.renewEntry) := of_none rfl

theorem bankEntry : Statement (.bankEntry) := of_none rfl

theorem bankAccept : Statement (.bankAccept) := of_none rfl

theorem tileStep : Statement (.tileStep) := of_none rfl

theorem countNotice : Statement (.countNotice) := of_none rfl

theorem cpyEntry : Statement (.cpyEntry) := of_none rfl

theorem tagSet : Statement (.tagSet) := of_none rfl

theorem gathScatEntry : Statement (.gathScatEntry) := of_none rfl

theorem mmacEntry : Statement (.mmacEntry) := of_none rfl

theorem mzeroEntry : Statement (.mzeroEntry) := of_none rfl

theorem collEntry : Statement (.collEntry) := of_none rfl

theorem collectiveMatch : Statement (.collectiveMatch) := of_none rfl

theorem collWatchdogTimeout : Statement (.collWatchdogTimeout) := of_none rfl

theorem qfenceMarkerComplete : Statement (.qfenceMarkerComplete) := of_none rfl

theorem entryComplete : Statement (.entryComplete) := of_none rfl

theorem spanUpdateComplete : Statement (.spanUpdateComplete) := of_none rfl

theorem tlbinvPage : Statement (.tlbinvPage) := of_none rfl

theorem tlbinvContext : Statement (.tlbinvContext) := of_none rfl

theorem tlbinvAll : Statement (.tlbinvAll) := of_none rfl

theorem tlbinvComplete : Statement (.tlbinvComplete) := of_none rfl

theorem qmapTakesEffect : Statement (.qmapTakesEffect) := of_none rfl

theorem tailWrite : Statement (.tailWrite) := of_none rfl

theorem admissionTick : Statement (.admissionTick) := of_none rfl

theorem admissionPass : Statement (.admissionPass) := of_none rfl

theorem preemption : Statement (.preemption) := of_none rfl

theorem preemptSaveComplete : Statement (.preemptSaveComplete) := of_none rfl

theorem corePartEnd : Statement (.corePartEnd) := of_none rfl

theorem gangStop : Statement (.gangStop) := of_none rfl

theorem gangResume : Statement (.gangResume) := of_none rfl

theorem gangAbort : Statement (.gangAbort) := of_none rfl

theorem syncState : Statement (.syncState) := of_none rfl

theorem preempt : Statement (.preempt) := of_none rfl

theorem record : Statement (.record) := of_none rfl

theorem dump : Statement (.dump) := of_none rfl

theorem attest : Statement (.attest) := of_none rfl

theorem mailboxComplete : Statement (.mailboxComplete) := of_none rfl

theorem debugHalt : Statement (.debugHalt) := of_none rfl

theorem debugRelease : Statement (.debugRelease) := of_none rfl

theorem sample : Statement (.sample) := of_none rfl

theorem flitCrcRetry : Statement (.flitCrcRetry) := of_none rfl

end Laws.RoundTrip

end Sys2Proof
end

