-- ==== Sys2Proof/Tests/Slice0.lean ====
section
/-! SUPPORT. Tests and witnesses: ill-formed terms and words that are refused, words of every row of the opcode table that
has one, small steps with results worked out from the spec's rules, and for each obligation a state that meets its hypotheses. -/

open Sys2Proof Sys2Proof.Machine Sys2Proof.Claims

namespace Sys2Proof.Tests

set_option Elab.async false

/-! ## Ill-formed terms (R203, R206, R214 to R222) -/

/-- One ill-formed term for each check of `wellFormed`. -/
def illFormed : List Instr :=
  [.vshli false 1 2 .b8 8, .vshri false 1 2 .b16 16, .vsrai false 1 2 .b32 32, .vfcvtiInto false 0 1 2 .f32, .vfcvtiInto false 127 1 2 .f32,
   .vfcvtiOut false 1 0 2 .f32, .vfcvtiOut false 1 127 2 .f32, .kwhilelt false 24 1 2 .b8, .kwhilele false 31 1 2 .b8,
   .kcmp816 false 24 1 2 .eq false, .kcmp3264 false 24 1 2 .eq false, .kfcmp false 24 1 2 .eq .f32, .kand false 24 0 0, .kand false 0 24 0,
   .kand false 0 0 24, .kor false 0 0 24, .kxor false 0 24 0, .kandn false 24 0 0, .knot false 0 24, .kmv false 24 0, .kpop false 1 24,
   .kfirst false 1 24, .kset false 24 1, .kld false 24 1, .kst false 24 1, .vshapeImm false 127 4, .tcoll false 0 1, .tcoll false 63 1,
   .vrand false 1 2 .f32, .vror false 1 2 .bf16, .vror false 1 2 .f16, .fence false .die false false true true,
   .fence false .die true true false false, .rmul false 0 1 2 .i8, .rmul false 3 1 3 .i8, .umul false 0 1 2 .i8, .radd false 3 1 3 .i8,
   .uadd false 0 1 2 .i8, .rfma false 3 3 1 .i8, .ufma false 3 1 3 .i8, .rscale false 0 1 2 false, .uscale false 0 1 2 false,
   .rnarrow false 1 2 .i8, .rnarrow false 1 2 .bf16, .unarrow false 1 2 .n8, .rshr false 1 2 3 .f32, .ushr false 1 2 3 .bf16,
   .rlrelu false 1 2 .i8 0, .ulrelu false 0 2 .i8 1, .qfence false 0, .qwait false 6 1, .qcnt false 1 7, .jal 0 1, .bk 24 false 1,
   .sread false 1 0x05, .swrite false 1 0x41, .poolq false 1 13, .maskSelect false 24, .rounding 1 .rne,
   .saturateAndZeroing false false false, .saturateAndZeroing true true false]

theorem test_ill_formed_terms_are_refused : illFormed.all (fun i => !wellFormed i) = true := by decide

def rejects (w : Word32) (c : Cause) : Bool :=
  match decodeMt w with
  | .ok _ => false
  | .error e => e == c

/-- R201, R203, R212, R214 to R222: an unassigned opcode, reserved bits and values, and register numbers out of range. -/
theorem test_ill_formed_words_are_refused : ([
    (0x7C000000#32, Cause.opc), (0x4A002E00#32, .rsv), (0x78000801#32, .rsv), (0x3B2FFFFA#32, .reg), (0x7A25800D#32, .rsv),
    (0x04102F05#32, .rsv)] : List (Word32 × Cause)).all (fun p => rejects p.1 p.2) = true := by decide

/-! ## Decoding: one word of every instruction, from the encoding tables of the spec (R201 to R222, R375)

Each word is the fixed bits of its form with a value in every field; those that the spec writes out as examples are in
the theorems `test_words_of_the_spec_1` and on. -/

def reads (w : Word32) (i : Instr) : Bool :=
  match decodeMt w with
  | .ok j => decide (j = i)
  | .error _ => false

theorem test_decode_integers_1 : ([
    (0x80102861#32, .vadd true 4 5 6 .b16), (0x00102865#32, .vsub false 4 5 6 .b16), (0x80102869#32, .vmul true 4 5 6 .b16),
    (0x0010286D#32, .vmulh false 4 5 6 .b16), (0x82102861#32, .vmulhn true 4 5 6 .b16), (0x02102865#32, .vmin false 4 5 6 .b16),
    (0x82102869#32, .vmax true 4 5 6 .b16), (0x0210286D#32, .vminn false 4 5 6 .b16), (0x84102861#32, .vmaxn true 4 5 6 .b16),
    (0x04102805#32, .vabs false 4 5 .b16), (0x84102809#32, .vneg true 4 5 .b16), (0x0410286D#32, .vand false 4 5 6 .b16),
    (0x86102861#32, .vor true 4 5 6 .b16), (0x06102865#32, .vxor false 4 5 6 .b16), (0x86102869#32, .vandn true 4 5 6 .b16),
    (0x0610286D#32, .vshl false 4 5 6 .b16), (0x88102861#32, .vshr true 4 5 6 .b16), (0x08102865#32, .vsra false 4 5 6 .b16),
    (0x88102869#32, .vrot true 4 5 6 .b16), (0x0810286D#32, .vfsh false 4 5 6 .b16), (0x8A102861#32, .vbext true 4 5 6 .b16),
    (0x0A102865#32, .vbins false 4 5 6 .b16), (0x8A102809#32, .vclz true 4 5 .b16), (0x0A10280D#32, .vpopc false 4 5 .b16)] : List (Word32 × Instr)).all (fun p => reads p.1 p.2) = true := by decide

theorem test_decode_integers_2 : ([
    (0x8C102801#32, .vmv true 4 5 .b16), (0x0C102865#32, .vsel false 4 5 6 .b16), (0x8C102809#32, .vcvt true 4 5 .b16),
    (0x0C10000D#32, .vidx false 4 .b16), (0x8E102A2A#32, .vaddi true 4 5 .b16 0x2A), (0x0E102A6A#32, .vandi false 4 5 .b16 0x2A),
    (0x8E102AAA#32, .vori true 4 5 .b16 0x2A), (0x0E102AEA#32, .vxori false 4 5 .b16 0x2A),
    (0x8E3C7B0F#32, .vshli true 0xF 0xF .b16 0xF), (0x0E3C7B4F#32, .vshri false 0xF 0xF .b16 0xF),
    (0x8E3C7B8F#32, .vsrai true 0xF 0xF .b16 0xF), (0x0E1003EA#32, .vmvi false 4 .b16 0x2A)] : List (Word32 × Instr)).all (fun p => reads p.1 p.2) = true := by decide

theorem test_decode_scalars : ([
    (0x90102860#32, .gadd true 4 5 6), (0x10102861#32, .gsub false 4 5 6), (0x90102862#32, .gmul true 4 5 6),
    (0x10102863#32, .gand false 4 5 6), (0x90102864#32, .gor true 4 5 6), (0x10102865#32, .gxor false 4 5 6),
    (0x90102866#32, .gshl true 4 5 6), (0x10102867#32, .gshr false 4 5 6), (0x90102868#32, .gsra true 4 5 6),
    (0x10102809#32, .gmv false 4 5), (0x92102FF0#32, .gaddi true 4 5 0x7F0), (0x1410282A#32, .gandi false 4 5 0x2A),
    (0x9610282A#32, .gshli true 4 5 0x2A), (0x161357CD#32, .glui false 4 0x1ABCD)] : List (Word32 × Instr)).all (fun p => reads p.1 p.2) = true := by decide

theorem test_decode_floats_1 : ([
    (0x98102861#32, .vfadd true 4 5 6 .bf16), (0x18102865#32, .vfsub false 4 5 6 .bf16), (0x98102869#32, .vfmul true 4 5 6 .bf16),
    (0x1810286D#32, .vfdiv false 4 5 6 .bf16), (0x9A102861#32, .vfma true 4 5 6 .bf16), (0x1A102865#32, .vfms false 4 5 6 .bf16),
    (0x9A102869#32, .vfnma true 4 5 6 .bf16), (0x1A10286D#32, .vfnms false 4 5 6 .bf16), (0x9C102861#32, .vfmin true 4 5 6 .bf16),
    (0x1C102865#32, .vfmax false 4 5 6 .bf16), (0x9C102809#32, .vfabs true 4 5 .bf16), (0x1C10280D#32, .vfneg false 4 5 .bf16),
    (0x9E102861#32, .vfsgn true 4 5 6 .bf16), (0x1E102805#32, .vfsqrt false 4 5 .bf16), (0x9E102809#32, .vfrcp true 4 5 .bf16),
    (0x1E10280D#32, .vfrsq false 4 5 .bf16), (0xA0102801#32, .vfexp2 true 4 5 .bf16), (0x20102805#32, .vflog2 false 4 5 .bf16),
    (0xA0102809#32, .vftanh true 4 5 .bf16), (0x2010280D#32, .vfsigm false 4 5 .bf16), (0xA2102801#32, .vfcls true 4 5 .bf16),
    (0x22102865#32, .vfscale false 4 5 6 .bf16), (0xA2102869#32, .vsrnd true 4 5 6 .bf16), (0x24102803#32, .vfcvt false 4 5 3)] : List (Word32 × Instr)).all (fun p => reads p.1 p.2) = true := by decide

theorem test_decode_floats_2 : ([
    (0xA6102891#32, .vfcvtiInto true 4 5 9 .bf16), (0x26102899#32, .vfcvtiOut false 4 5 9 .bf16), (0xA8100001#32, .vrng true 4 .b16)] : List (Word32 × Instr)).all (fun p => reads p.1 p.2) = true := by decide

theorem test_decode_masks : ([
    (0x30102861#32, .kwhilelt false 4 5 6 .b16), (0xB0102869#32, .kwhilele true 4 5 6 .b16),
    (0x32102869#32, .kcmp816 false 4 5 6 .ltn true), (0xB4102869#32, .kcmp3264 true 4 5 6 .ltn true),
    (0x36102865#32, .kfcmp false 4 5 6 .lt .bf16), (0xB8102860#32, .kand true 4 5 6), (0x38102861#32, .kor false 4 5 6),
    (0xB8102862#32, .kxor true 4 5 6), (0x38102863#32, .kandn false 4 5 6), (0xB8102804#32, .knot true 4 5),
    (0x38102805#32, .kmv false 4 5), (0xB8102806#32, .kpop true 4 5), (0x38102807#32, .kfirst false 4 5),
    (0xB8102808#32, .kset true 4 5), (0x38102809#32, .kld false 4 5), (0xB810280A#32, .kst true 4 5),
    (0x380008FB#32, .vshapeImm false 1 0xF), (0xB800286C#32, .vshapeReg true 5 6), (0x3810480D#32, .tcoll false 4 9),
    (0x3A17FFFA#32, .gsubbr 5 0x3FFFA)] : List (Word32 × Instr)).all (fun p => reads p.1 p.2) = true := by decide

theorem test_decode_lanes : ([
    (0x3C102861#32, .vperm false 4 5 6 .b16), (0xBC102865#32, .vzip true 4 5 6 .b16), (0x3C102809#32, .vunzip false 4 5 .b16),
    (0xBC10286D#32, .vslup true 4 5 6 .b16), (0x3E102861#32, .vsldn false 4 5 6 .b16), (0xBE102865#32, .vbcast true 4 5 6 .b16),
    (0x3E102809#32, .vtrans false 4 5 .b16), (0xBE10280D#32, .vcomp true 4 5 .b16), (0x40102802#32, .vrsum false 4 5 .i32),
    (0xC0102812#32, .vrmax true 4 5 .i32), (0x40102822#32, .vrmin false 4 5 .i32), (0xC0102832#32, .vrand true 4 5 .i32),
    (0x40102842#32, .vror false 4 5 .i32), (0xC0102852#32, .vscan true 4 5 .i32), (0x40102862#32, .vexpd false 4 5 .i32),
    (0xC2002800#32, .vlsnd true 5), (0x42100001#32, .vlrcv false 4)] : List (Word32 × Instr)).all (fun p => reads p.1 p.2) = true := by decide

theorem test_decode_accesses_1 : ([
    (0xC81029F0#32, .vld true 4 5 .b16 0xF0), (0x4A1029F0#32, .vst false 4 5 .b16 0xF0), (0xCC102861#32, .vlds true 4 5 6 .b16),
    (0x4C102865#32, .vsts false 4 5 6 .b16), (0xCC102869#32, .vldx true 4 5 6 .b16), (0x4C10286D#32, .vstx false 4 5 6 .b16),
    (0xCE1029F0#32, .vldff true 4 5 .b16 0xF0), (0x4E102DF0#32, .vldra false 4 5 .b16 0xF0), (0xD0104862#32, .vldt true 4 9 6 .t0),
    (0x50104866#32, .vstt false 4 9 6 .t0), (0xD010486A#32, .vldtag true 4 9 6 .t0), (0x52102DF0#32, .gld false 4 5 true .b16 0xF0),
    (0xD41029F0#32, .gst true 4 5 .b16 0xF0), (0x56102862#32, .vamo false 4 5 6 .max), (0xD610286A#32, .vamoRow true 4 5 6 .max),
    (0x5810286A#32, .gamo false 4 5 6 true .max), (0xDA102861#32, .vrst true 4 5 6 true), (0x5A002802#32, .pref false 5),
    (0x5AE80003#32, .fence false .die false true true true), (0xDA002864#32, .clean true 5 6), (0x5A002865#32, .inval false 5 6),
    (0xDA002806#32, .settle true 5), (0x5A102807#32, .renew false 5 .dev), (0xDA102848#32, .setlc true 4 5 .dev)] : List (Word32 × Instr)).all (fun p => reads p.1 p.2) = true := by decide

theorem test_decode_accesses_2 : ([
    (0x5A102809#32, .iwc false 4 5)] : List (Word32 × Instr)).all (fun p => reads p.1 p.2) = true := by decide

theorem test_decode_reversibles : ([
    (0xDC102862#32, .rmul true 4 5 6 .i32), (0x5C10286A#32, .umul false 4 5 6 .i32), (0xDE102862#32, .radd true 4 5 6 .i32),
    (0x5E10286A#32, .uadd false 4 5 6 .i32), (0xE0102862#32, .rfma true 4 5 6 .i32), (0x6010286A#32, .ufma false 4 5 6 .i32),
    (0xE2102802#32, .rnarrow true 4 5 .i32), (0x6210280A#32, .unarrow false 4 5 .i32), (0xE4102862#32, .rshr true 4 5 6 .i32),
    (0x6410286A#32, .ushr false 4 5 6 .i32), (0xE4102867#32, .rscale true 4 5 6 true), (0x6410286F#32, .uscale false 4 5 6 true),
    (0xE6102843#32, .rlrelu true 4 5 .i32 3), (0x66102943#32, .ulrelu false 4 5 .i32 3), (0xE6002A00#32, .tsave true 5),
    (0x66002B00#32, .trest false 5), (0xE6100400#32, .tmark true 4), (0x66002D00#32, .tchk false 5), (0xE6100600#32, .tdepth true 4)] : List (Word32 × Instr)).all (fun p => reads p.1 p.2) = true := by decide

theorem test_decode_engines : ([
    (0x68002800#32, .mattach false 5), (0xE8000001#32, .mdetach true), (0x681C0002#32, .mzero false 7),
    (0xE80C2803#32, .tdef true 3 5), (0x68104824#32, .tget false 4 9 2), (0xE8540005#32, .qfence true 0x15),
    (0x680C2806#32, .qwait false 3 5), (0xE8101807#32, .qcnt true 4 3), (0x6A08286D#32, .mmac false 2 5 6 true .t0 true),
    (0xEC203862#32, .vzrd true 8 7 6 true), (0x6C203866#32, .vzwr false 8 7 6 true), (0xEC203868#32, .vzcrd true 8 7 6),
    (0x6C20386C#32, .vzcwr false 8 7 6), (0xEE102860#32, .cpy true 4 5 6), (0x6E102861#32, .gath false 4 5 6),
    (0xEE102862#32, .scat true 4 5 6), (0x6E102863#32, .coll false 4 5 6), (0xEE002864#32, .bank true 5 6)] : List (Word32 × Instr)).all (fun p => reads p.1 p.2) = true := by decide

theorem test_decode_controls : ([
    (0x7402FFFD#32, .br 0x2FFFD), (0x7416FFFD#32, .jal 5 0x2FFFD), (0x7615FFFC#32, .bcc 5 .gez 0x7FFC),
    (0x760FFFFC#32, .bk 3 true 0x7FFC), (0x78000000#32, .nop false), (0xF8000001#32, .stop true), (0x78000002#32, .yield false),
    (0xF8040003#32, .bar true 1), (0x78002804#32, .jr false 5), (0xF8002805#32, .lfetch true 5), (0x7A100010#32, .sread false 4 0x10),
    (0xFA104010#32, .swrite true 4 0x10), (0x7A008005#32, .trap false 5), (0xFA00C005#32, .brk true 5),
    (0x7A010004#32, .wbase false 4), (0xFA01407F#32, .fclr true 0x7F), (0x7A11800C#32, .poolq false 4 0xC)] : List (Word32 × Instr)).all (fun p => reads p.1 p.2) = true := by decide

theorem test_decode_prefixes : ([
    (0x7E000023#32, .maskSelect true 3), (0x7E200003#32, .rounding 0 .rup), (0x7E400005#32, .saturateAndZeroing true false true),
    (0x7E61C040#32, .immediateExtension 0x1C040), (0x7E800005#32, .secondType 5)] : List (Word32 × Instr)).all (fun p => reads p.1 p.2) = true := by decide

theorem test_decode_threads : ([
    (0x00B5000B#32, .mtBcast 0xA 0xB), (0x0AB5100B#32, .mtSend 0xA 0xB 5), (0x0005200B#32, .mtWait 0xA),
    (0x1205378B#32, .mtGet 0xF 0xA 9), (0x12B5400B#32, .mtPut 0xA 9 0xB), (0x0005500B#32, .mtStop 0xA),
    (0x0200678B#32, .mtStat 0xF true), (0x00B5778B#32, .mtFlt 0xF 0xA 0xB), (0x0200002B#32, .mtLnk true),
    (0x0205102B#32, .mtBar 0xA 1), (0x0000202B#32, .mtSync), (0x00B5302B#32, .mtEng 0xA 0xB), (0x00000073#32, .ecallEndPart)] : List (Word32 × Instr)).all (fun p => decide (decodeCt p.1 = p.2)) = true := by decide

/-! Words that the spec's own programs and tables write out, with the assembly they stand for. -/

theorem test_words_of_the_spec_1 : ([
    (0x92142810#32, .gaddi true 5 5 16), (0x3A2FFFFA#32, .gsubbr 11 (-6)), (0xC8002800#32, .vld true 0 5 .b8 0),
    (0x4A002800#32, .vst false 0 5 .b8 0), (0x4E282D00#32, .vldra false 10 5 .b16 0),
    (0x300000B0#32, .kwhilelt false 0 0 11 .b8), (0x380000FB#32, .vshapeImm false 0 15), (0x78000000#32, .nop false),
    (0x78000001#32, .stop false), (0x78000002#32, .yield false), (0x7E400001#32, .saturateAndZeroing false false true),
    (0x7E400002#32, .saturateAndZeroing false true false), (0x7E000022#32, .maskSelect true 2),
    (0x7E000003#32, .maskSelect false 3), (0x7E200001#32, .rounding 0 .rtz), (0x7E800001#32, .secondType 1),
    (0x8E000003#32, .vaddi true 0 0 .b8 3), (0x8000004A#32, .vmul true 0 0 4 .b32), (0xC8002A00#32, .vld true 0 5 .b32 0),
    (0x4A003A00#32, .vst false 0 7 .b32 0), (0x182048A0#32, .vfadd false 8 9 10 .f32), (0x00102862#32, .vadd false 4 5 6 .b32),
    (0x0E0818FF#32, .vxori false 2 3 .b8 (-1)), (0x22102868#32, .vsrnd false 4 5 6 .f32)] : List (Word32 × Instr)).all (fun p => reads p.1 p.2) = true := by decide

theorem test_words_of_the_spec_2 : ([
    (0x28180002#32, .vrng false 6 .b32), (0x3C102862#32, .vperm false 4 5 6 .b32), (0x3C102865#32, .vzip false 4 5 6 .b16),
    (0x3C102809#32, .vunzip false 4 5 .b16), (0x3C08184D#32, .vslup false 2 3 4 .b16), (0x3E081842#32, .vsldn false 2 3 4 .b32),
    (0x3E081846#32, .vbcast false 2 3 4 .b32), (0x3E08180A#32, .vtrans false 2 3 .b32), (0x3E08180E#32, .vcomp false 2 3 .b32),
    (0x401C4008#32, .vrsum false 7 8 .f32), (0x401C4012#32, .vrmax false 7 8 .i32), (0x401C4025#32, .vrmin false 7 8 .n16),
    (0x401C4033#32, .vrand false 7 8 .i64), (0x401C4044#32, .vror false 7 8 .n8), (0x400C2052#32, .vscan false 3 4 .i32),
    (0x402C5062#32, .vexpd false 11 10 .i32), (0x42001800#32, .vlsnd false 3), (0x42140001#32, .vlrcv false 5),
    (0x48182920#32, .vld false 6 5 .b16 32), (0x4A203AFC#32, .vst false 8 7 .b32 (-4)), (0x4C102891#32, .vlds false 4 5 9 .b16),
    (0x4C102896#32, .vsts false 4 5 9 .b32), (0x4C10286A#32, .vldx false 4 5 6 .b32), (0x4C10286E#32, .vstx false 4 5 6 .b32)] : List (Word32 × Instr)).all (fun p => reads p.1 p.2) = true := by decide

theorem test_words_of_the_spec_3 : ([
    (0x4E102A00#32, .vldff false 4 5 .b32 0), (0x501018A0#32, .vldt false 4 3 10 .dflt), (0x501018A6#32, .vstt false 4 3 10 .t0),
    (0x501018AB#32, .vldtag false 4 3 10 .t1), (0x52242E02#32, .gld false 9 5 true .b32 2),
    (0x52242904#32, .gld false 9 5 false .b16 4), (0x54242B02#32, .gst false 9 5 .b64 2),
    (0x56102860#32, .vamo false 4 5 6 .add), (0x582428A8#32, .gamo false 9 5 10 true .add), (0x5A002802#32, .pref false 5),
    (0x5A002860#32, .vrst false 0 5 6 false), (0x5AE80003#32, .fence false .die false true true true),
    (0x5BE40003#32, .fence false .core true true true true), (0x5A002864#32, .clean false 5 6), (0x5A002806#32, .settle false 5),
    (0x5A042807#32, .renew false 5 .core), (0x5A242848#32, .setlc false 9 5 .dev), (0x5A242809#32, .iwc false 9 5),
    (0x5C102862#32, .rmul false 4 5 6 .i32), (0x5C10286A#32, .umul false 4 5 6 .i32), (0x5E102867#32, .radd false 4 5 6 .bf16),
    (0x5E10286F#32, .uadd false 4 5 6 .bf16), (0x602048A6#32, .rfma false 8 9 10 .f32), (0x602048AE#32, .ufma false 8 9 10 .f32)] : List (Word32 × Instr)).all (fun p => reads p.1 p.2) = true := by decide

theorem test_words_of_the_spec_4 : ([
    (0x62102802#32, .rnarrow false 4 5 .i32), (0x6210280A#32, .unarrow false 4 5 .i32), (0x64102862#32, .rshr false 4 5 6 .i32),
    (0x6410286A#32, .ushr false 4 5 6 .i32), (0x64102866#32, .rscale false 4 5 6 false),
    (0x6410286E#32, .uscale false 4 5 6 false), (0x661028C3#32, .rlrelu false 4 5 .f32 3),
    (0x661029C3#32, .ulrelu false 4 5 .f32 3), (0x66002A00#32, .tsave false 5), (0x66002B00#32, .trest false 5),
    (0x66240400#32, .tmark false 9), (0x66004D00#32, .tchk false 9), (0x66240600#32, .tdepth false 9),
    (0x680C2803#32, .tdef false 3 5), (0x68241824#32, .tget false 9 3 2), (0x68004800#32, .mattach false 9),
    (0x68000001#32, .mdetach false), (0x68080002#32, .mzero false 2), (0x68C00005#32, .qfence false 48),
    (0x68104806#32, .qwait false 4 9), (0x68242007#32, .qcnt false 9 4), (0x6A000827#32, .mmac false 0 1 2 false .t1 true),
    (0x6A000828#32, .mmac false 0 1 2 true .dflt false), (0x6C201842#32, .vzrd false 8 3 4 true)] : List (Word32 × Instr)).all (fun p => reads p.1 p.2) = true := by decide

theorem test_words_of_the_spec_5 : ([
    (0x6C201844#32, .vzwr false 8 3 4 false), (0x6C201848#32, .vzcrd false 8 3 4), (0x6C20184C#32, .vzcwr false 8 3 4),
    (0x6E1018A0#32, .cpy false 4 3 10), (0x6E1018A1#32, .gath false 4 3 10), (0x6E1018A2#32, .scat false 4 3 10),
    (0x6E1018A3#32, .coll false 4 3 10), (0x6E002864#32, .bank false 5 6), (0x7403FFFD#32, .br (-3)), (0x74080006#32, .jal 2 6),
    (0x76140004#32, .bcc 5 .eqz 4), (0x760F0002#32, .bk 3 false 2), (0x78040003#32, .bar false 1), (0x78002804#32, .jr false 5),
    (0x78002805#32, .lfetch false 5), (0x7A240000#32, .sread false 9 0), (0x7A244003#32, .swrite false 9 3),
    (0x7A008005#32, .trap false 5), (0x7A00C000#32, .brk false 0), (0x7A010004#32, .wbase false 4),
    (0x7A01407F#32, .fclr false 127), (0x7A258000#32, .poolq false 9 0)] : List (Word32 × Instr)).all (fun p => reads p.1 p.2) = true := by decide

/-- The control thread's words that the spec writes out (R375, R192). -/
theorem test_control_words_of_the_spec : ([
    (0x00B5000B#32, .mtBcast 10 11), (0x0AB5100B#32, .mtSend 10 11 5), (0x0006200B#32, .mtWait 12),
    (0x1206B70B#32, .mtGet 14 13 9), (0x12E6C00B#32, .mtPut 13 9 14), (0x0006500B#32, .mtStop 12),
    (0x0200678B#32, .mtStat 15 true), (0x00E6F78B#32, .mtFlt 15 13 14), (0x0200002B#32, .mtLnk true),
    (0x0206102B#32, .mtBar 12 1), (0x0000202B#32, .mtSync), (0x00B5302B#32, .mtEng 10 11), (0x00000073#32, .ecallEndPart),
    (0x00000893#32, .ctRiscvInstruction (.aluImm .add false 17 0 0) .full)] : List (Word32 × Instr)).all (fun p => decide (decodeCt p.1 = p.2)) = true := by decide

/-- RISC-V words, from the base encodings (R144, log 9). -/
theorem test_riscv_words : ([
    (0x0085A503#32, .ctLoadStore .lw 10 11 8 .full), (0x00B53423#32, .ctLoadStore .sd 11 10 8 .full),
    (0x6108#32, .ctLoadStore .ld 10 10 0 (.comp 0x6108)),
    (0x4505#32, .ctRiscvInstruction (.aluImm .add false 10 0 1) (.comp 0x4505)),
    (0x00C58533#32, .ctRiscvInstruction (.alu .add false 10 11 12) .full),
    (0x02C5D533#32, .ctRiscvInstruction (.mul .divu false 10 11 12) .full),
    (0x00C5F553#32, .ctRiscvInstruction (.fop .add false 10 11 12 7) .full),
    (0xFE0518E3#32, .ctRiscvInstruction (.branch .ne 10 0 (-8)) .full), (0x30200073#32, .ctRiscvInstruction .mret .full),
    (0x00100073#32, .ctRiscvInstruction .ebreak .full), (0x1005A52F#32, .ctLr false false false 10 11),
    (0x18C5B52F#32, .ctSc true false false 10 11 12), (0x04C5A52F#32, .ctAmo .add false true false 10 11 12),
    (0x0330000F#32, .ctFence false 3 3 0 0), (0x0000100F#32, .ctFenceI 0 0 0)] : List (Word32 × Instr)).all (fun p => decide (decodeCt p.1 = p.2)) = true := by decide

/-! ## A small device

One core with one micro-thread; a span at VA 0 that names the SRAM of die 0, for every kind of access; nothing in the caches. -/

def spanAll : Word64 := 0x2000000000000071
def core0 : Core := { launch := some placeLaunch, mts := [(0, { code := 2 })] }
def dev (c : Core) : State := { State.reset with ctxd := [(0, 1)], span := [(0, spanAll)], cores := [(0, c)] }
def member (r : MtRegs) (p : Pfx := {}) : Convoy :=
  { live := true, words := [0x78000000], widx := 1, nmemb := 1, shp := r.shp, work := r, pfx := p }
def inConvoy (r : MtRegs) (p : Pfx := {}) : State := { dev core0 with cv := member r p }

/-- What the translation of a micro-thread's access reads is as in the small device. -/
structure Like (s : State) : Prop where
  ctxd : s.ctxd = [(0, 1)]
  span : s.span = [(0, spanAll)]
  spanErr : s.spanErr = []
  share : s.share = 16
  devnum : s.devnum = 0
  core : s.cv.core = 0
  ctx : s.ctxOf 0 = 0
  final : s.cv.final = false

theorem spanXlat_congr (s t : State) (d c v : Nat) (n : Need) (h1 : s.ctxd = t.ctxd) (h2 : s.span = t.span) (h3 : s.spanErr = t.spanErr)
    (h4 : s.share = t.share) (h5 : s.devnum = t.devnum) : spanXlat s d c v n = spanXlat t d c v n := by
  have hp : plWindow s = plWindow t := by funext x; simp only [plWindow, h4]
  simp only [spanXlat, ctxValid, spanMalformed, hp, h1, h2, h3, h5]
  rfl

theorem span_low (a : Nat) (need : Need) (h : a < 2 ^ 25) : spanXlat (dev core0) 0 0 a need = .ok { pa := sramBase + a } := by
  have h2 : bits a 25 16 = 0 := by unfold bits; rw [Nat.div_eq_of_lt h]; rfl
  have h3 : a % 2 ^ 25 = a := Nat.mod_eq_of_lt h
  have c : ctxValid (dev core0) 0 = true := by decide
  have e : (tget 0 (dev core0).span (spanKey 0 0 0)).toNat = 0x2000000000000071 := by decide
  have d : tget 0 (dev core0).spanErr (spanKey 0 0 0) = 0 := by decide
  have m : spanMalformed (dev core0) 0x2000000000000071 = false := by decide
  have w : plWindow (dev core0) (bits 0x2000000000000071 57 5) = some (sramBase, sramSize) := by decide
  have b : bit 0x2000000000000071 0 = true ∧ bit 0x2000000000000071 4 = true ∧ bit 0x2000000000000071 5 = true ∧ bit 0x2000000000000071 6 = true ∧
    bit 0x2000000000000071 45 = false ∧ bit 0x2000000000000071 63 = false := by decide
  have o : bits 0x2000000000000071 25 19 = 0 := by decide
  unfold spanXlat
  rw [h2, h3]
  simp only [c, e, d, m, w, b, o]
  simp [sramSize, show ¬ 0x020000000000 ≤ a by omega]

theorem Like.lookup_low {s : State} (l : Like s) (need : Need) (a : Nat) (h : a < 2 ^ 25) : lookup s need a = .ok { pa := sramBase + a } := by
  unfold lookup cvXlat
  have hd : dieOf s.cv.core = 0 := by rw [l.core]; rfl
  simp only [l.final]
  have hc : s.ctxOf s.cv.core = 0 := by rw [l.core]; exact l.ctx
  rw [hd, hc, Nat.mod_eq_of_lt (show a < 2 ^ 64 by omega), ← span_low a need h]
  exact spanXlat_congr _ _ _ _ _ _ l.ctxd l.span l.spanErr l.share l.devnum

/-- The next span is not valid. -/
theorem Like.lookup_high {s : State} (l : Like s) (need : Need) (a : Nat) (h : a / 2 ^ 25 = 1) (y : Xlat) : lookup s need a ≠ .ok y := by
  unfold lookup cvXlat
  have hd : dieOf s.cv.core = 0 := by rw [l.core]; rfl
  simp only [l.final]
  have hc : s.ctxOf s.cv.core = 0 := by rw [l.core]; exact l.ctx
  rw [hd, hc, Nat.mod_eq_of_lt (show a < 2 ^ 64 by omega),
    spanXlat_congr s (dev core0) 0 0 a need l.ctxd l.span l.spanErr l.share l.devnum]
  have h2 : bits a 25 16 = 1 := by unfold bits; rw [h]; rfl
  have c : ctxValid (dev core0) 0 = true := by decide
  have e : (tget 0 (dev core0).span (spanKey 0 0 1)).toNat = 0 := by decide
  have d : tget 0 (dev core0).spanErr (spanKey 0 0 1) = 0 := by decide
  have b : bit 0 0 = false := by decide
  unfold spanXlat
  rw [h2]
  simp only [c, e, d, b]
  simp [show ¬ 0x020000000000 ≤ a by omega]

/-- Whether every byte of some elements lies in the small device's span. -/
def low (ns : List Nat) (bytes : Nat) (addr : Nat → Option Nat) : Bool :=
  ns.all (fun n => (addr n).all (fun a => decide (a + bytes ≤ 2 ^ 25)))

theorem low_of {ns : List Nat} {bytes : Nat} {addr : Nat → Option Nat} (h : low ns bytes addr = true) {n a j : Nat} (hn : n ∈ ns)
    (ha : addr n = some a) (hj : j < bytes) : a + j < 2 ^ 25 := by
  have := List.all_eq_true.mp h n hn
  rw [ha] at this
  have : a + bytes ≤ 2 ^ 25 := by simpa using this
  omega

theorem Like.reaches {s : State} (l : Like s) (need : Need) {ns : List Nat} {bytes : Nat} {addr : Nat → Option Nat}
    (h : low ns bytes addr = true) : Reaches s need ns bytes addr :=
  fun _ hn a ha j hj => ⟨_, l.lookup_low need (a + j) (low_of h hn ha hj)⟩

theorem Like.atHome {s : State} (l : Like s) (need : Need) {ns : List Nat} {bytes : Nat} {addr : Nat → Option Nat}
    (h : low ns bytes addr = true) : AtHome s need ns bytes addr := by
  intro n hn a ha j hj x hx
  rw [l.lookup_low need (a + j) (low_of h hn ha hj)] at hx
  cases hx
  rfl

/-- A core without cached lines or poison, and no packet on its way. -/
structure Still (s : State) (core : Nat) : Prop where
  cores : Canonical s
  vrst : s.vrst = []
  l1 : (s.core core).l1 = []

theorem Still.coherent {s : State} {core : Nat} (q : Still s core) : Coherent s core := by
  refine ⟨q.cores, q.vrst, fun pa h => ?_⟩
  have e : (s.core core).line (pa / 128) = {} := by simp [Core.line, q.l1, tget]
  rw [e] at h
  simp at h

theorem noPoison_dev (c : Core) (cv : Convoy) (h : c.l1 = []) : NoPoison { dev c with cv := cv } := by
  refine ⟨rfl, fun st h => absurd h (by simp [dev, State.reset]), fun line => ⟨rfl, fun o => ?_⟩⟩
  by_cases ho : 0 = o
  · subst ho
    show (c.line line).poison = 0
    simp [Core.line, h, tget]
  · have : State.core { dev c with cv := cv } o = {} := by simp [State.core, dev, tget, ho]
    rw [this]
    rfl

theorem other_core (s : State) (c : Core) (h : s.cores = [(0, c)]) (o : Nat) (ho : o ≠ 0) : s.core o = {} := by
  simp [State.core, h, tget, Ne.symm ho]

/-- The one core of a device has no other beside it that has stored. -/
theorem quiet_of (s : State) (c : Core) (h : s.cores = [(0, c)]) (pa : Nat) : Quiet s 0 pa := by
  intro o ho
  rw [other_core s c h o ho]
  simp [Core.line, tget]

theorem cleanSlices_of (s : State) (h1 : s.slices = []) (h2 : s.settles = []) : CleanSlices s := by
  intro pa
  have e : s.slice (pa / 128) = {} := by simp [State.slice, h1, tget]
  simp only [e, landByte, h2]
  simp

theorem noPoison_of (s : State) (c : Core) (h : s.cores = [(0, c)]) (h1 : c.l1 = []) (h2 : s.arrPoison = []) (h3 : s.settles = [])
    (h4 : s.slices = []) : NoPoison s := by
  refine ⟨h2, fun st hs => absurd hs (by simp [h3]), fun line => ⟨by simp [State.slice, h4, tget], fun o => ?_⟩⟩
  by_cases ho : o = 0
  · subst ho
    simp [State.core, h, tget, Core.line, h1]
  · rw [other_core s c h o ho]
    rfl

theorem roomFor_of (s : State) (c : Core) (h : s.cores = [(0, c)]) (h1 : c.l1 = []) (h2 : s.slices = []) (line : Nat) : RoomFor s 0 line := by
  have e : s.core 0 = c := by simp [State.core, h, tget]
  refine ⟨?_, ?_, ?_⟩
  · simp [e, l1Ways, h1]
  · simp [tracked, h, h1]
  · simp [heldLines, h2]

theorem like_dev (c : Core) (cv : Convoy) (h : c.info.ctx = 0) (hc : cv.core = 0) (hf : cv.final = false := by rfl) :
    Like { dev c with cv := cv } := ⟨rfl, rfl, rfl, rfl, rfl, hc, h, hf⟩

theorem still_dev (c : Core) (cv : Convoy) (h : c.l1 = []) (hw : twf ({} : Core) [(0, c)] = true) : Still { dev c with cv := cv } 0 :=
  ⟨⟨hw, rfl⟩, rfl, h⟩

theorem clean_inConvoy (r : MtRegs) (p : Pfx) : Clean (inConvoy r p) := ⟨rfl, rfl⟩
theorem like_inConvoy (r : MtRegs) (p : Pfx) : Like (inConvoy r p) := like_dev _ _ rfl rfl
theorem coherent_inConvoy (r : MtRegs) (p : Pfx) : Coherent (inConvoy r p) 0 := (still_dev core0 (member r p) rfl (by decide)).coherent
theorem noPoison_inConvoy (r : MtRegs) (p : Pfx) : NoPoison (inConvoy r p) := noPoison_dev core0 _ rfl

/-- Descriptors: 2 × 4 of BF16 in the scratchpad at 0x800, as in the spec's example (R346); 4 of F32 in memory at 0x100; 32 of E4M3
with scales in memory. -/
def tScr : TDesc := ⟨0x0221000000000800, 0x0001000000000004, 2, 4⟩
def tMem : TDesc := ⟨0x0100000000000100, 0x0001000000000004, 0, 0⟩
def tMx : TDesc := ⟨0x0114000000000000, 0x0001000000000020, 0, 0⟩
def core1 : Core := { core0 with tens := [(1, tScr), (2, tMem), (3, tMx)] }
def withTens (r : MtRegs) (p : Pfx := {}) : State := { dev core1 with cv := member r p }

theorem clean_withTens (r : MtRegs) (p : Pfx) : Clean (withTens r p) := ⟨rfl, rfl⟩
theorem like_withTens (r : MtRegs) (p : Pfx) : Like (withTens r p) := like_dev _ _ rfl rfl
theorem coherent_withTens (r : MtRegs) (p : Pfx) : Coherent (withTens r p) 0 := (still_dev core1 (member r p) rfl (by decide)).coherent
theorem noPoison_withTens (r : MtRegs) (p : Pfx) : NoPoison (withTens r p) := noPoison_dev core1 _ rfl

/-- A shape of 4 × 128, the largest (R211); of 1 × 4; of 2 × 4. -/
def full : MtRegs := { shp := 0x37F }
def four : MtRegs := { shp := 3 }
def eight : MtRegs := { shp := 0x103 }

/-! ## Witnesses: the members of a convoy

Each theorem gives states and operands that meet the hypotheses of the clauses of one obligation. -/

theorem witness_VectorIntegerBinaryForms : Clean (inConvoy full) ∧ Size.b8.bits * (inConvoy full).cv.elems ≤ 4096 ∧
    Clean (inConvoy four { sat := true }) ∧ Size.b64.bits * (inConvoy four { sat := true }).cv.elems ≤ 4096 :=
  ⟨clean_inConvoy .., by decide, clean_inConvoy .., by decide⟩

theorem witness_VectorIntegerUnaryForms : Clean (inConvoy full) ∧ Size.b8.bits * (inConvoy full).cv.elems ≤ 4096 ∧
    cnt6 (inConvoy full).cv.pfx 7 < Size.b8.bits ∧ cnt6 (inConvoy full).cv.pfx 0 < Size.b8.bits :=
  ⟨clean_inConvoy .., by decide, by decide, by decide⟩

theorem witness_Conversions : Clean (inConvoy full) ∧ Size.b8.bits * (inConvoy full).cv.elems ≤ 4096 ∧ (inConvoy full).cv.pfx.ty = none ∧
    Clean (inConvoy four { ty := some 8 }) ∧ Size.b64.bits * (inConvoy four { ty := some 8 }).cv.elems ≤ 4096 ∧
    vcvtSrc (some 8) .b64 = some (.int 8 true) ∧
    vfcvtPair (some 2) 1 = some (.flt fmtF16, .flt fmtBF16) ∧ vsrndDst none .f32 = some (.flt fmtBF16) ∧
    Clean (withTens four) ∧ mxFmt (startDesc (withTens four) 3).fmt = some fmtE4M3 ∧
    codeWidth (startDesc (withTens four) 3).fmt * (withTens four).cv.elems ≤ 4096 ∧ ftBits .f32 * (withTens four).cv.elems ≤ 4096 ∧
    (0 < (withTens four).cv.rows ∧ 0 < ((withTens four).cv.cols + 31) / 32) ∧ act (withTens four) = [0, 1, 2, 3] :=
  ⟨clean_inConvoy .., by decide, rfl, clean_inConvoy .., by decide, rfl, rfl, rfl, clean_withTens .., rfl, by decide, by decide, by decide,
    by decide +kernel⟩

theorem witness_ScalarForms : Clean (inConvoy four) ∧ cnt6 (inConvoy four).cv.pfx 63 < 64 := ⟨clean_inConvoy .., by decide⟩

theorem witness_Compares : Clean (inConvoy full) ∧ Clean (inConvoy four { zero := true }) := ⟨clean_inConvoy .., clean_inConvoy ..⟩

theorem witness_MaskForms : Clean (inConvoy full) ∧ (inConvoy full).cv.elems ≤ 512 := ⟨clean_inConvoy .., by decide⟩

theorem witness_ShapeFormsAndCountedBranch :
    (let s := inConvoy { full with g := [(5, 4), (6, 128)] }
     Clean s ∧ 1 ≤ (s.cv.rg 5).toNat ∧ (s.cv.rg 5).toNat ≤ 128 ∧ 1 ≤ (s.cv.rg 6).toNat ∧ (s.cv.rg 6).toNat ≤ 128 ∧
       (s.cv.rg 5).toNat * (s.cv.rg 6).toNat ≤ 512) ∧
    (let s := inConvoy { full with g := [(5, 129), (6, 5), (7, 103)] }
     Clean s ∧ 128 < (s.cv.rg 5).toNat ∧ (s.cv.rg 0).toNat = 0 ∧ 512 < (s.cv.rg 6).toNat * (s.cv.rg 7).toNat) :=
  ⟨⟨clean_inConvoy .., by decide, by decide, by decide, by decide, by decide⟩, clean_inConvoy .., by decide, by decide, by decide⟩

/-- A descriptor's bytes at 0x100, as the small device's core reads them. -/
theorem words_at {s : State} (l : Like s) (c : Core) (h : s.cores = [(0, c)]) (need : Need) (a n v : Nat) (ha : a + n ≤ 2 ^ 25)
    (hb : (List.range n).all (fun j => BitVec.ofNat 8 (v / 2 ^ (8 * j)) == readByte s (sramBase + (a + j))) = true) :
    ∀ j y, j < n → lookup s need (a + j) = .ok y → Quiet s 0 y.pa ∧ BitVec.ofNat 8 (v / 2 ^ (8 * j)) = readByte s y.pa := by
  intro j y hj hy
  rw [l.lookup_low _ _ (by omega)] at hy
  cases hy
  exact ⟨quiet_of s c h _, eq_of_beq (List.all_eq_true.mp hb j (List.mem_range.mpr hj))⟩

theorem witness_DescriptorForms :
    (let s := withTens { four with g := [(5, 0x100), (6, 0x110)] }
     Clean s ∧ Coherent s s.cv.core ∧ (s.cv.rg 6).toNat % 32 ≠ 0 ∧ (s.cv.rg 5).toNat % 32 = 0 ∧
       Reaches s { r := true } [0] 32 (fun _ => some (s.cv.rg 5).toNat) ∧ AtHome s { r := true } [0] 32 (fun _ => some (s.cv.rg 5).toNat) ∧
       (∀ j y, j < 32 → lookup s { r := true } (0x100 + j) = .ok y → Quiet s 0 y.pa ∧ BitVec.ofNat 8 (0 / 2 ^ (8 * j)) = readByte s y.pa) ∧
       (⟨0, 0, 0, 0⟩ : TDesc).malformed = false ∧ NoPoison s ∧ sttOn s = false ∧ CleanSlices s ∧ s.cv.final = false) ∧
    (let s := { withTens four with arrays := [(sramBase + 0x100, 1)] }
     Clean s ∧ Coherent s s.cv.core ∧ s.cv.final = false ∧
       (∀ j y, j < 32 → lookup s { r := true } (0x100 + j) = .ok y → Quiet s 0 y.pa ∧ BitVec.ofNat 8 (1 / 2 ^ (8 * j)) = readByte s y.pa) ∧
       (⟨1, 0, 0, 0⟩ : TDesc).malformed = true) ∧
    (let s := withTens four
     let x := seeTens s 1
     x.rank = 2 ∧ ¬ x.isScaled ∧ x.stride 0 = 1 ∧ x.stride 1 = x.stride 0 * x.dim 0 ∧ x.dim 0 * x.dim 1 < 2 ^ 48 ∧ (seeTens s 9).rank = 0 ∧
       (seeTens s 3).rank = 1 ∧ (seeTens s 3).isScaled) :=
  ⟨⟨clean_withTens .., coherent_withTens .., by decide, by decide, (like_withTens ..).reaches _ (by decide),
    (like_withTens ..).atHome _ (by decide), words_at (like_withTens ..) core1 rfl _ _ _ _ (by decide) (by decide +kernel), by decide,
    noPoison_withTens .., by decide, cleanSlices_of _ rfl rfl, rfl⟩,
    ⟨⟨rfl, rfl⟩, Still.coherent ⟨⟨by decide, rfl⟩, rfl, rfl⟩, rfl,
      words_at ⟨rfl, rfl, rfl, rfl, rfl, rfl, rfl, rfl⟩ core1 rfl _ _ _ _ (by decide) (by decide +kernel), by decide⟩, by decide⟩

theorem witness_FloatArithmetic : Clean (inConvoy four) ∧ ftBits .f32 * (inConvoy four).cv.elems ≤ 4096 ∧
    Clean (inConvoy { full with shp := 0x17F }) ∧ ftBits .f16 * (inConvoy { full with shp := 0x17F }).cv.elems ≤ 4096 :=
  ⟨clean_inConvoy .., by decide, clean_inConvoy .., by decide⟩

theorem witness_RoundingKeepsValues : (0x7F7FFFFF < 2 ^ fmtF32.width ∧ isNan (fmtF32.read 0x7F7FFFFF) = false) ∧
    (0xFF < 2 ^ fmtE4M3.width ∧ isNan (fmtE4M3.read 0xFE) = false) ∧ (1 < 2 ^ fmtE2M1.width ∧ isNan (fmtE2M1.read 1) = false) := by decide

theorem witness_CrossLaneMoves : Clean (inConvoy full) ∧ Size.b8.bits * (inConvoy full).cv.elems ≤ 4096 ∧
    xtBits .i8 * (inConvoy full).cv.elems ≤ 4096 ∧ (inConvoy full).cv.fifo = [] ∧
    (let s := { inConvoy full with cv := { member full with fifo := [⟨7, 0⟩] } }
     Clean s ∧ s.cv.fifo = ⟨7, 0⟩ :: []) :=
  ⟨clean_inConvoy .., by decide, by decide, rfl, ⟨rfl, rfl⟩, rfl⟩

theorem witness_Reductions : Clean (inConvoy full) ∧ xtFlt .i8 = false ∧ xtBits .i8 * (inConvoy full).cv.elems ≤ 4096 ∧
    (inConvoy full).cv.elems ≤ 512 ∧
    (let s := inConvoy { four with k := [] }
     Clean s ∧ xtFlt .f32 = true ∧ xtBits .f32 * s.cv.elems ≤ 4096 ∧ ∀ n, n < s.cv.elems → s.cv.gmask.getLsbD n = false) ∧
    (let s := inConvoy four
     let leaf := fun i => if i < s.cv.elems ∧ s.cv.gmask.getLsbD i = true then some (fltLeaf (fmtF32.read (elem (s.cv.rv 5) 32 i))) else none
     s.cv.elems ≤ 512 ∧ (∃ r, treeNode (fltSum s.cv.mode (s.cv.rnd 32 0)) leaf 9 0 = some r) ∧
       (∃ r, treeNode (fltBest true) leaf 9 0 = some r) ∧ ∃ r, treeNode (fltBest false) leaf 9 0 = some r) := by
  refine ⟨clean_inConvoy .., rfl, by decide, by decide, ⟨clean_inConvoy .., rfl, by decide, fun n _ => ?_⟩, by decide,
    Option.isSome_iff_exists.mp (by decide +kernel), Option.isSome_iff_exists.mp (by decide +kernel), Option.isSome_iff_exists.mp (by decide +kernel)⟩
  have : (inConvoy { four with k := [] }).cv.gmask = 0 := by decide +kernel
  rw [this]
  simp

/-- A property of every address of some elements, tested. -/
theorem addr_all {ns : List Nat} {f : Nat → Option Nat} {P : Nat → Prop} [DecidablePred P]
    (h : (ns.all fun e => (f e).all fun p => decide (P p)) = true) : ∀ e ∈ ns, ∀ p, f e = some p → P p := by
  intro e he p hp
  have := List.all_eq_true.mp h e he
  rw [hp] at this
  simpa using this

theorem Like.atHome_wide {s : State} (l : Like s) (need : Need) {ns : List Nat} {bytes : Nat} {addr : Nat → Option Nat}
    (h : (ns.all fun e => (addr e).all fun p => decide (p + bytes ≤ 2 ^ 26)) = true) : AtHome s need ns bytes addr := by
  intro n hn a ha j hj x hx
  have ha' : a + bytes ≤ 2 ^ 26 := addr_all (P := fun p => p + bytes ≤ 2 ^ 26) h n hn a ha
  by_cases hl : a + j < 2 ^ 25
  · rw [l.lookup_low need _ hl] at hx
    cases hx
    rfl
  · exact absurd hx (l.lookup_high need _ (by omega) x)

def inMem : State := inConvoy { four with g := [(5, 0x100), (6, 0x40), (7, 0x7E), (8, 0x1FFFFF8), (9, 0x2000000)] }
theorem clean_inMem : Clean inMem := clean_inConvoy ..
theorem like_inMem : Like inMem := like_inConvoy ..
theorem coherent_inMem : Coherent inMem inMem.cv.core := coherent_inConvoy ..
theorem noPoison_inMem : NoPoison inMem := noPoison_inConvoy ..

theorem witness_VectorLoads : Clean inMem ∧ Size.b64.bits * inMem.cv.elems ≤ 4096 ∧ Coherent inMem inMem.cv.core ∧
    Reaches inMem { r := true } (act inMem) 2 (unitAddr inMem 5 0 2) ∧ Reaches inMem { r := true } (act inMem) 2 (strideAddr inMem 5 6 2) ∧
    Reaches inMem { r := true } (act inMem) 2 (indexAddr inMem 5 4 2) ∧
    (∀ e ∈ act inMem, ∀ p, unitAddr inMem 5 0 2 (e / inMem.cv.cols * inMem.cv.cols) = some p → p / 128 = (p + inMem.cv.cols * 2 - 1) / 128) ∧
    ¬ (∀ e ∈ act inMem, ∀ p, unitAddr inMem 7 0 2 (e / inMem.cv.cols * inMem.cv.cols) = some p → p / 128 = (p + inMem.cv.cols * 2 - 1) / 128) ∧
    Reaches inMem { r := true } (List.range 8) 8 (plainAddr inMem 5 8) ∧ AtHome inMem { r := true } (List.range 8) 8 (plainAddr inMem 5 8) ∧
    NoPoison inMem ∧ sttOn inMem = false ∧ inMem.cv.final = false ∧
    (let s := { inMem with cv := { inMem.cv with final := true, reads := [(4, 7)] } }
     s.cv.final = true ∧ s.cv.reads = (4, 7) :: []) := by
  refine ⟨clean_inMem, by decide, coherent_inMem, like_inMem.reaches _ (by decide +kernel), like_inMem.reaches _ (by decide +kernel),
    like_inMem.reaches _ (by decide +kernel), addr_all (by decide +kernel), fun h => ?_, like_inMem.reaches _ (by decide +kernel),
    like_inMem.atHome _ (by decide +kernel), noPoison_inMem, by decide, rfl, rfl, rfl⟩
  have := h 0 (by decide +kernel) 0x7E (by decide +kernel)
  revert this
  decide +kernel

theorem witness_VectorStoresAndRefusals_stores : Clean inMem ∧ Reaches inMem { w := true } (act inMem) 2 (unitAddr inMem 5 0 2) ∧
    Reaches inMem { w := true } (act inMem) 2 (strideAddr inMem 5 6 2) ∧ Reaches inMem { w := true } (act inMem) 2 (indexAddr inMem 5 4 2) ∧
    Reaches inMem { w := true } (List.range 8) 8 (plainAddr inMem 5 8) :=
  ⟨clean_inMem, like_inMem.reaches _ (by decide +kernel), like_inMem.reaches _ (by decide +kernel), like_inMem.reaches _ (by decide +kernel),
    like_inMem.reaches _ (by decide +kernel)⟩

/-- Element 2 of four words at 0x1FFFFF8 is the first of the next span. -/
theorem witness_VectorStoresAndRefusals_refusals : Clean inMem ∧ inMem.cv.elems ≤ 512 ∧
    (∃ e ∈ act inMem, ∃ p j, unitAddr inMem 8 0 4 e = some p ∧ j < 4 ∧ ∀ y, lookup inMem { r := true } (p + j) ≠ .ok y) ∧
    (∃ e ∈ act inMem, ∃ p j, strideAddr inMem 8 6 4 e = some p ∧ j < 4 ∧ ∀ y, lookup inMem { r := true } (p + j) ≠ .ok y) ∧
    (∃ e ∈ act inMem, ∃ p j, indexAddr inMem 9 4 4 e = some p ∧ j < 4 ∧ ∀ y, lookup inMem { w := true } (p + j) ≠ .ok y) ∧
    (∃ e ∈ List.range 8, ∃ p j, plainAddr inMem 8 8 e = some p ∧ j < 8 ∧ ∀ y, lookup inMem { w := true } (p + j) ≠ .ok y) :=
  ⟨clean_inMem, by decide,
    ⟨2, by decide +kernel, 0x2000000, 0, by decide +kernel, by decide, like_inMem.lookup_high _ _ (by decide)⟩,
    ⟨2, by decide +kernel, 0x2000000, 0, by decide +kernel, by decide, like_inMem.lookup_high _ _ (by decide)⟩,
    ⟨0, by decide +kernel, 0x2000000, 0, by decide +kernel, by decide, like_inMem.lookup_high _ _ (by decide)⟩,
    ⟨7, by decide, 0x2000030, 0, by decide +kernel, by decide, like_inMem.lookup_high _ _ (by decide)⟩⟩

theorem witness_FaultOnlyFirst :
    (let s := inMem
     Clean s ∧ Size.b32.bits * s.cv.elems ≤ 4096 ∧ Coherent s s.cv.core ∧ NoPoison s ∧ sttOn s = false ∧ s.spanErr = [] ∧ s.cv.final = false ∧
       AtHome s { r := true } (act s) 4 (unitAddr s 8 0 4) ∧ act s = 0 :: [1, 2, 3] ∧ Reaches s { r := true } [0] 4 (unitAddr s 8 0 4) ∧
       2 ∈ [1, 2, 3] ∧ (∃ p j, unitAddr s 8 0 4 2 = some p ∧ j < 4 ∧ ∀ y, lookup s { r := true } (p + j) ≠ .ok y) ∧
       (∀ n ∈ [1, 2, 3], n < 2 → ∀ p j, unitAddr s 8 0 4 n = some p → j < 4 → ∃ x, lookup s { r := true } (p + j) = .ok x ∧ x.ns = false) ∧
       ¬ Reaches s { r := true } [0] 4 (unitAddr s 9 0 4)) ∧
    act (inConvoy { four with k := [] }) = [] := by
  refine ⟨⟨clean_inMem, by decide, coherent_inMem, noPoison_inMem, by decide, rfl, rfl, like_inMem.atHome_wide _ (by decide +kernel), by decide +kernel,
    like_inMem.reaches _ (by decide +kernel), by decide, ⟨0x2000000, 0, by decide +kernel, by decide, like_inMem.lookup_high _ _ (by decide)⟩,
    fun n hn h2 p j hp hj => ?_, fun h => ?_⟩, by decide +kernel⟩
  · have h1 : n = 1 := by revert hn h2; simp; omega
    subst h1
    have := addr_all (ns := [1]) (f := unitAddr inMem 8 0 4) (P := fun p => p + 4 ≤ 2 ^ 25) (by decide +kernel) 1 (by simp) p hp
    exact ⟨_, like_inMem.lookup_low _ _ (by omega), rfl⟩
  · obtain ⟨x, hx⟩ := h 0 (by simp) 0x2000000 (by decide +kernel) 0 (by decide)
    exact like_inMem.lookup_high _ _ (by decide) x hx

def tFar : TDesc := ⟨0x02210000003FFF00, 0x0001000000000004, 2, 4⟩
def tagged (tags : Tab Byte) : State := { dev { core1 with tens := [(1, tScr), (2, tMem), (4, tFar)], tags := tags } with cv := member four }
theorem clean_tagged (tags : Tab Byte) : Clean (tagged tags) := ⟨rfl, rfl⟩
theorem like_tagged (tags : Tab Byte) : Like (tagged tags) := like_dev _ _ rfl rfl

theorem inScratch_of {s : State} {x : TDesc} {f : Nat → Option Int}
    (h : ((act s).all fun e => (f e).all fun (a : Int) => decide (0 ≤ a ∧ a + (x.width / 8 : Nat) ≤ (s.core s.cv.core).scrBytes)) = true) : InScratch s x f := by
  intro n hn a ha
  have := List.all_eq_true.mp h n hn
  rw [ha] at this
  simpa using this

/-- Tags equal to what is expected, one behind it at slot 1 (by 1, the least, and by 128, the most), and one ahead of it. -/
theorem witness_TensorAccesses :
    (let s := tagged []
     Clean s ∧ Coherent s s.cv.core ∧ (startDesc s 2).scratch = false ∧ (startDesc s 2).width % 8 = 0 ∧ (startDesc s 2).width * s.cv.elems ≤ 4096 ∧
       (∀ need, Reaches s need (act s) 4 (tensMem s (startDesc s 2) false 5)) ∧
       (startDesc s 1).scratch = true ∧ (startDesc s 1).width % 8 = 0 ∧ (startDesc s 1).width * s.cv.elems ≤ 4096 ∧
       InScratch s (startDesc s 1) (tensPlace s (startDesc s 1) false 5) ∧
       ¬ InScratch s (startDesc s 4) (tensPlace s (startDesc s 4) false 5) ∧
       (∀ k, Touches s (startDesc s 1) (tensPlace s (startDesc s 1) false 6) k → (tget 0 (s.core s.cv.core).tags k).toNat = (s.cv.rg 5).toNat % 256) ∧
       InScratch s (startDesc s 1) (tensPlace s (startDesc s 1) false 6) ∧
       ∀ e ∈ ((s.core s.cv.core).queue 0).entries.head?, ∀ w ∈ e.was, w.2.2 = false) ∧
    (∀ n : Byte, n = 1 ∨ n = 128 → let s := tagged [(1, n)]
      Touches s (startDesc s 1) (tensPlace s (startDesc s 1) false 6) 1 ∧
        1 ≤ ((tget 0 (s.core s.cv.core).tags 1).toNat + 256 - 0) % 256 ∧ ((tget 0 (s.core s.cv.core).tags 1).toNat + 256 - 0) % 256 ≤ 128) ∧
    (let s := tagged [(1, 129)]
     (∀ k, (tget 0 (s.core s.cv.core).tags k).toNat = 0 ∨ 129 ≤ ((tget 0 (s.core s.cv.core).tags k).toNat + 256 - 0) % 256) ∧
       Touches s (startDesc s 1) (tensPlace s (startDesc s 1) false 6) 1 ∧ (tget 0 (s.core s.cv.core).tags 1).toNat ≠ 0) := by
  refine ⟨⟨clean_tagged _, (still_dev _ _ rfl (by decide)).coherent, by decide, by decide, by decide,
    fun need => (like_tagged _).reaches _ (by decide +kernel), by decide, by decide, by decide, inScratch_of (by decide +kernel), fun h => ?_,
    fun _ _ => rfl, inScratch_of (by decide +kernel), fun _ h => by cases h⟩, fun n hn => ?_, ⟨fun k => ?_, ?_, by decide⟩⟩
  · have := (h 0 (by decide +kernel) 0x3FFF00 (by decide +kernel)).2
    revert this
    decide
  · obtain rfl | rfl := hn <;>
      exact ⟨⟨by decide, 0, by decide +kernel, 0x800, by decide +kernel, by decide⟩, by decide, by decide⟩
  · by_cases hk : 1 = k
    · subst hk
      exact .inr (by decide)
    · left
      simp [tagged, dev, State.core, member, tget, hk]
  · exact ⟨by decide, 0, by decide +kernel, 0x800, by decide +kernel, by decide⟩

/-- One 32 MiB page at VA 0, for every access, at the start of the SRAM. -/
def paged : State :=
  { dev { core0 with tlb := [⟨0, 0, 25, 0x2000000000000CF3⟩] } with
    cv := member { four with g := [(5, 0x100), (6, 0x2000000), (7, 0x101), (8, 0xFFC)] } }

theorem witness_ScalarAccesses : Clean paged ∧ Coherent paged paged.cv.core ∧ unitAddr paged 5 0 8 0 = some 0x100 ∧
    (∃ accs u, scalarXlat paged { r := true } 0x100 8 = (.ok accs, u) ∧ ∀ acc ∈ accs, acc.x.dev = none) ∧
    (∃ accs u, scalarXlat paged { w := true } 0x100 8 = (.ok accs, u)) ∧
    (∃ accs u, scalarXlat paged { r := true } 0xFFC 8 = (.ok accs, u) ∧ accs.length = 2 ∧ ∀ acc ∈ accs, acc.x.dev = none) ∧
    ((paged.cv.rg 5).toNat % 8 = 0 ∧ ∃ acc accs u, scalarXlat paged rw_ 0x100 8 = (.ok (acc :: accs), u) ∧ acc.x.dev = none) ∧
    ((paged.cv.rg 6).toNat % 8 = 0 ∧ ∃ p e u, scalarXlat paged { r := true } 0x2000000 8 = (.error (p, e), u)) ∧
    (∃ p e u, scalarXlat paged rw_ 0x2000000 8 = (.error (p, e), u)) ∧
    (unitAddr paged 6 0 8 0 = some 0x2000000 ∧ ∃ p e u, scalarXlat paged { w := true } 0x2000000 8 = (.error (p, e), u)) ∧ paged.cv.final = false ∧ (paged.cv.rg 7).toNat % 4 ≠ 0 ∧ NoPoison paged ∧ sttOn paged = false := by
  have ok : ∀ need va l, (scalarXlat paged need va 8).1.toOption = some l → ∃ u, scalarXlat paged need va 8 = (.ok l, u) := by
    intro need va l h
    cases e : scalarXlat paged need va 8 with
    | mk a u =>
      rw [e] at h
      cases a with
      | ok x => exact ⟨u, by cases h; rfl⟩
      | error x => cases h
  have bad : ∀ need va, (scalarXlat paged need va 8).1.toOption = none → ∃ p e u, scalarXlat paged need va 8 = (.error (p, e), u) := by
    intro need va h
    cases e : scalarXlat paged need va 8 with
    | mk a u =>
      rw [e] at h
      cases a with
      | ok x => cases h
      | error x => exact ⟨x.1, x.2, u, rfl⟩
  have h1 := ok { r := true } 0x100 [⟨0, 0, 8, 0x100, { pa := sramBase + 0x100 }⟩] (by decide +kernel)
  have h2 := ok { w := true } 0x100 [⟨0, 0, 8, 0x100, { pa := sramBase + 0x100 }⟩] (by decide +kernel)
  have h3 := ok { r := true } 0xFFC [⟨0, 0, 4, 0xFFC, { pa := sramBase + 0xFFC }⟩, ⟨0, 4, 4, 0x1000, { pa := sramBase + 0x1000 }⟩] (by decide +kernel)
  have h4 := ok rw_ 0x100 [⟨0, 0, 8, 0x100, { pa := sramBase + 0x100 }⟩] (by decide +kernel)
  obtain ⟨u1, h1⟩ := h1
  obtain ⟨u2, h2⟩ := h2
  obtain ⟨u3, h3⟩ := h3
  obtain ⟨u4, h4⟩ := h4
  exact ⟨⟨rfl, rfl⟩, (still_dev _ _ rfl (by decide)).coherent, by decide, ⟨_, u1, h1, by simp⟩, ⟨_, u2, h2⟩, ⟨_, u3, h3, rfl, by simp⟩,
    ⟨by decide, _, _, u4, h4, rfl⟩, ⟨by decide, bad _ _ (by decide +kernel)⟩, bad _ _ (by decide +kernel),
    ⟨by decide, bad _ _ (by decide +kernel)⟩, rfl, by decide, noPoison_dev _ _ rfl, by decide⟩

def atomics : State := inConvoy { four with g := [(5, 0x100), (7, 0x78), (8, 0x101)] } { ty := some 0 }

theorem witness_VectorAtomicsAndRemoteReduces_atomics : Clean atomics ∧ Coherent atomics atomics.cv.core ∧ vamoType atomics.cv.pfx.ty = some (.flt fmtF32) ∧
    fmtF32.width * atomics.cv.elems ≤ 4096 ∧ (atomics.cv.rg 5).toNat % 4 = 0 ∧ Reaches atomics rw_ (act atomics) 4 (plainAddr atomics 5 4) ∧
    (∀ e ∈ act atomics, ∀ p, plainAddr atomics 5 4 (e / atomics.cv.cols * atomics.cv.cols) = some p → p / 128 = (p + atomics.cv.cols * 4 - 1) / 128) ∧
    (atomics.cv.rg 8).toNat % 4 ≠ 0 ∧ (atomics.cv.rg 7).toNat % 4 = 0 ∧
    ¬ (∀ e ∈ act atomics, ∀ p, plainAddr atomics 7 4 (e / atomics.cv.cols * atomics.cv.cols) = some p → p / 128 = (p + atomics.cv.cols * 4 - 1) / 128) := by
  refine ⟨clean_inConvoy .., coherent_inConvoy .., rfl, by decide, by decide, (like_inConvoy ..).reaches _ (by decide +kernel),
    addr_all (by decide +kernel), by decide, by decide, fun h => ?_⟩
  have := h 0 (by decide +kernel) 0x78 (by decide +kernel)
  revert this
  decide +kernel

theorem witness_VectorAtomicsAndRemoteReduces_reduces : Clean inMem ∧ Coherent inMem inMem.cv.core ∧ vrstCode inMem.cv.pfx.ty = some 0 ∧
    (inMem.cv.rg 5).toNat % 4 = 0 ∧ Reaches inMem rw_ (act inMem) 4 (plainAddr inMem 5 4) ∧ (inMem.cv.rg 7).toNat % 4 ≠ 0 :=
  ⟨clean_inMem, coherent_inMem, rfl, by decide, like_inMem.reaches _ (by decide +kernel), by decide⟩

/-- A store across the end of a line, and an atomic's within one; no home slice holds anything. -/
theorem witness_StoresLand : Coherent inMem 0 ∧ CleanSlices inMem ∧ Quiet inMem 0 (sramBase + 0x80) ∧
    (let st : Store := { pa := sramBase + 0x7F, bytes := [1, 2] }
    st.dev = none ∧ st.atomic = false ∧ (st.pa ≤ sramBase + 0x80 ∧ sramBase + 0x80 < st.pa + st.bytes.length)) ∧
    (let st : Store := { pa := sramBase + 0x78, bytes := [1, 2, 3, 4, 5, 6, 7, 8], atomic := true }
     st.dev = none ∧ st.atomic = true ∧ st.pa % 128 + st.bytes.length ≤ 128 ∧ (st.pa ≤ sramBase + 0x7F ∧ sramBase + 0x7F < st.pa + st.bytes.length)) :=
  ⟨coherent_inMem, cleanSlices_of _ rfl rfl, quiet_of _ core0 rfl _, by decide, by decide⟩

theorem witness_CacheForms : (Clean inMem ∧ Coherent inMem inMem.cv.core ∧ inMem.sched.head? ≠ some .delay ∧ inMem.cv.wait ≠ .issue ∧
      (∃ x, lookup inMem { r := true } (inMem.cv.rg 5).toNat = .ok x ∧ x.dev = none ∧ x.ns = false ∧ RoomFor inMem inMem.cv.core (x.pa / 128) ∧
        (inMem.core inMem.cv.core).line (x.pa / 128) = {}) ∧
      NoPoison inMem ∧ inMem.banks = [] ∧ (∀ x, lookup inMem { r := true } (inMem.cv.rg 9).toNat ≠ .ok x) ∧ postedCount inMem inMem.cv.core inMem.cv.mt .sys = 0 ∧
      inMem.spanErr = []) ∧
    (let s := { inMem with sched := [.delay] }
     s.sched = .delay :: [] ∧ ∃ x, lookup s { r := true } (s.cv.rg 5).toNat = .ok x ∧ x.dev = none ∧ x.ns = false ∧ s.banks = []) ∧
    (let s := { inMem with posted := [(3, [(0, 0)])] }
     Clean s ∧ 0 < postedCount s s.cv.core s.cv.mt .sys ∧ s.cv.cands = [] ∧ s.cv.final = false) ∧
    (let s := { inMem with cv := { inMem.cv with wait := .issue } }
     Clean s ∧ s.cv.wait = .issue) ∧
    (inMem.cv.rg 0).toNat = 0 ∧ RangeReaches inMem rw_ (inMem.cv.rg 5).toNat (inMem.cv.rg 6).toNat ∧ (inMem.cv.rg 6).toNat ≠ 0 ∧
    ¬ RangeReaches inMem rw_ (inMem.cv.rg 9).toNat (inMem.cv.rg 6).toNat := by
  have g5 : (inMem.cv.rg 5).toNat = 0x100 := by decide
  have g6 : (inMem.cv.rg 6).toNat = 0x40 := by decide
  have g9 : (inMem.cv.rg 9).toNat = 0x2000000 := by decide
  rw [g5, g6, g9]
  refine ⟨⟨clean_inMem, coherent_inMem, by decide, by decide, ⟨_, like_inMem.lookup_low _ _ (by decide), rfl, rfl, roomFor_of _ core0 rfl rfl rfl _,
      by decide +kernel⟩, noPoison_inMem, rfl, like_inMem.lookup_high _ _ (by decide), by decide +kernel, rfl⟩,
    ⟨rfl, _, Like.lookup_low ⟨rfl, rfl, rfl, rfl, rfl, rfl, rfl, rfl⟩ _ 0x100 (by decide), rfl, rfl, rfl⟩,
    ⟨⟨rfl, rfl⟩, by decide +kernel, rfl, rfl⟩, ⟨⟨rfl, rfl⟩, rfl⟩, by decide,
    ⟨by decide, fun k hk => ⟨_, like_inMem.lookup_low _ _ (by omega)⟩⟩, by decide, fun h => ?_⟩
  obtain ⟨x, hx⟩ := h.2 0 (by decide)
  exact like_inMem.lookup_high _ _ (by decide) x hx

theorem witness_RegionForms : Clean inMem ∧ (inMem.cv.rg 5).toNat / 65536 * 65536 = 0 ∧ (inMem.cv.rg 9).toNat / 65536 * 65536 = 0x2000000 ∧
    (∃ x, lookup inMem { rw_ with localOnly := true } 0 = .ok x) ∧ (∃ x, lookup inMem { r := true, localOnly := true } 0 = .ok x) ∧
    (∀ x, lookup inMem { rw_ with localOnly := true } 0x2000000 ≠ .ok x) ∧ (∀ x, lookup inMem { r := true, localOnly := true } 0x2000000 ≠ .ok x) :=
  ⟨clean_inMem, by decide, by decide, ⟨_, like_inMem.lookup_low _ _ (by decide)⟩, ⟨_, like_inMem.lookup_low _ _ (by decide)⟩,
    like_inMem.lookup_high _ _ (by decide), like_inMem.lookup_high _ _ (by decide)⟩

/-- A share of 128 chunks with just the room of one frame of four words: bitmap, slots and header are 8, 16 and 8 bytes. -/
def lastRoom : State := inConvoy { four with tsd := 0x7FFE0 }

theorem witness_ReversibleForward : Clean lastRoom ∧ rtBits .i32 * lastRoom.cv.elems ≤ 4096 ∧ lastRoom.cv.elems ≤ 512 ∧
    frameLen lastRoom .i32 = 32 ∧ Room lastRoom 32 ∧
    (.add, .radd false 4 5 6 .i32, .uadd false 4 5 6 .i32) ∈ revPair false 4 5 6 0 .i32 0 ∧ wellFormed (.radd false 4 5 6 .i32) = true ∧
    (.scale, .rscale false 4 5 7 false, .uscale false 4 5 7 false) ∈ revPair false 4 5 6 7 .f32 0 ∧ wellFormed (.rscale false 4 5 7 false) = true ∧
    (.lrelu, .rlrelu false 4 5 .i32 1, .ulrelu false 4 5 .i32 1) ∈ revPair false 4 5 6 7 .i32 1 ∧ wellFormed (.rlrelu false 4 5 .i32 1) = true :=
  ⟨clean_inConvoy .., by decide, by decide, by decide +kernel, ⟨by decide, by decide, by decide, by decide, by decide⟩, by decide, by decide, by decide, by decide, by decide, by decide⟩

theorem witness_UndoRestores : Clean lastRoom ∧ twf (0 : Byte) lastRoom.cv.talus = true ∧ (∃ t, exec (.radd false 4 5 6 .i32) lastRoom = .next t) ∧
    wellFormed (.uadd false 4 5 6 .i32) = true := ⟨clean_inConvoy .., by decide, ⟨_, rfl⟩, by decide⟩

/-- One frame of 32 bytes on the stack, a scree from 0x10000 to 0x20000, and the three words of such a stack at 0x100. -/
def stacked : State := inConvoy { four with g := [(5, 0x100), (6, 0x101), (9, 0x10000000020)], tsd := 0x10000000020, scb := 0x10000, scl := 0x20000 }
def toRestore : State :=
  { inConvoy { four with g := [(5, 0x100)] } with
    arrays := [(sramBase + 0x100, 0x20), (sramBase + 0x105, 1), (sramBase + 0x10A, 1), (sramBase + 0x112, 2)] }

theorem witness_TalusForms :
    (Clean stacked ∧ stacked.cv.rg 9 = stacked.cv.work.tsd ∧ stacked.cv.rg 5 ≠ stacked.cv.work.tsd ∧ frames (inConvoy four) = 0 ∧
      0 < frames stacked ∧ depth stacked ≤ 4096 * chunks stacked ∧ 8 ≤ depth stacked ∧
      leNat (trange 0 stacked.cv.talus (depth stacked - 8) 8) / 2 ^ 57 ≠ RevKind.add.cls * 8 + RType.i32.code.toNat) ∧
    (Coherent stacked stacked.cv.core ∧ (stacked.cv.rg 6).toNat % 32 ≠ 0 ∧ (stacked.cv.rg 5).toNat % 32 = 0 ∧
      screeBad stacked.cv.work.scb = false ∧ (depth stacked + 4095) / 4096 = 1 ∧ stacked.cv.work.scb.toNat + 4096 * 1 ≤ stacked.cv.work.scl.toNat ∧
      (∃ x, lookup stacked { w := true } 0x100 = .ok x) ∧
      ∀ n, 1 - chunks stacked ≤ n → n < 1 → ∃ y, lookup stacked { w := true } (0x10000 + 4096 * n) = .ok y) ∧
    (Clean toRestore ∧ Coherent toRestore toRestore.cv.core ∧ toRestore.cv.work.tsd = 0 ∧ toRestore.cv.final = false ∧ restBad 0x10000000020 0x10000 0x20000 0 = false ∧
      Reaches toRestore { r := true } [0] 32 (fun _ => some 0x100) ∧ AtHome toRestore { r := true } [0] 32 (fun _ => some 0x100) ∧
      CleanSlices toRestore ∧ NoPoison toRestore ∧
      (∀ j y, j < 32 → lookup toRestore { r := true } (0x100 + j) = .ok y → Quiet toRestore 0 y.pa ∧
        BitVec.ofNat 8 ((0x10000000020 + 0x10000 * 2 ^ 64 + 0x20000 * 2 ^ 128) / 2 ^ (8 * j)) = readByte toRestore y.pa) ∧
      (∀ n, 1 - chunks toRestore ≤ n → n < 1 → ∃ y, lookup toRestore rw_ (0x10000 + 4096 * n) = .ok y ∧ y.dev = none)) := by
  have l : Like toRestore := ⟨rfl, rfl, rfl, rfl, rfl, rfl, rfl, rfl⟩
  exact ⟨⟨clean_inConvoy .., by decide, by decide, by decide, by decide, by decide, by decide, by decide⟩,
    ⟨coherent_inConvoy .., by decide, by decide, by decide, by decide, by decide, ⟨_, (like_inConvoy ..).lookup_low _ _ (by decide)⟩,
      fun n _ hn => ⟨_, (like_inConvoy ..).lookup_low _ _ (by omega)⟩⟩,
    ⟨rfl, rfl⟩, Still.coherent ⟨⟨by decide, rfl⟩, rfl, rfl⟩, rfl, rfl, by decide, l.reaches _ (by decide), l.atHome _ (by decide),
    cleanSlices_of _ rfl rfl, noPoison_of _ core0 rfl rfl rfl rfl rfl, words_at l core0 rfl _ _ _ _ (by decide) (by decide +kernel), fun n _ hn => ⟨_, l.lookup_low _ _ (by omega), rfl⟩⟩

theorem witness_RandomNumbers : Clean (inConvoy full) ∧ Size.b8.bits * (inConvoy full).cv.elems ≤ 4096 := ⟨clean_inConvoy .., by decide⟩

/-- A count is behind gA by 1, and by 2^31, the most; it is not behind where they are equal. -/
theorem witness_EngineForms : Clean (inConvoy four) ∧
    (let s := inConvoy { four with g := [(5, 1), (6, 0x80000000)] }
     let n := ((s.core s.cv.core).queue 4).count
     Clean s ∧ (n - (s.cv.rg 0).setWidth 32).msb = false ∧ (n - (s.cv.rg 5).setWidth 32).msb = true ∧ (n - (s.cv.rg 6).setWidth 32).msb = true ∧
       s.cv.cands = []) :=
  ⟨clean_inConvoy .., clean_inConvoy .., by decide, by decide, by decide, rfl⟩

theorem witness_AccumulatorForms : Clean (inConvoy { four with g := [(5, 31), (6, 32), (7, 255), (8, 256)] }) := clean_inConvoy ..

theorem witness_ControlForms : Clean (inConvoy four) ∧ (inConvoy four).cv.skipBrk = false ∧
    ((inConvoy four).core 0).dbgctl.getLsbD 1 = false ∧
    (let s := { dev { core0 with dbgctl := 2 } with cv := member four }
     Clean s ∧ s.cv.skipBrk = false ∧ (s.core s.cv.core).dbgctl.getLsbD 1 = true) ∧
    (let s := { inConvoy four with cv := { member four with skipBrk := true } }
     Clean s ∧ s.cv.skipBrk = true) ∧
    (0, 1024) ∈ poolFacts (inConvoy four) ∧ (12, 0) ∈ poolFacts (inConvoy four) ∧ 13 ≤ (13 : BitVec 11).toNat ∧
    (inConvoy four).cv.pfx = {} :=
  ⟨clean_inConvoy .., rfl, by decide, ⟨⟨rfl, rfl⟩, rfl, by decide⟩, ⟨⟨rfl, rfl⟩, rfl⟩, by decide, by decide, by decide, rfl⟩

theorem witness_BarrierArrival : (Clean inMem ∧ Coherent inMem inMem.cv.core ∧ inMem.cv.wait ≠ .issue ∧ CleanSlices inMem) ∧
    (let s := { inMem with cv := { inMem.cv with wait := .issue } }
     Clean s ∧ s.cv.wait = .issue) := ⟨⟨clean_inMem, coherent_inMem, by decide, cleanSlices_of _ rfl rfl⟩, ⟨rfl, rfl⟩, rfl⟩

/-- A frame of 32 bytes that a class and type with v4 as destination left, in a shape of 1 × 4: bitmap, slots and header (R321 to R323). -/
def framed (k : RevKind) (rt : RType) : State :=
  let head := k.cls * 2 ^ 60 + rt.code.toNat * 2 ^ 57 + 4 * 2 ^ 50 + 3 * 2 ^ 36 + 30 * 2 ^ 20 + 24
  { dev core0 with cv := { (member { four with tsd := 0x10000000020 }) with talus := tsetRange 0 [] 24 (leBytes 8 head) } }

theorem witness_MembersComplete_members :
    (let s := inConvoy full
     Clean s ∧ Size.b8.bits * s.cv.elems ≤ 4096 ∧ s.cv.pfx.ty = none) ∧
    (let s := inConvoy four { ty := some 8 }
     Clean s ∧ Size.b64.bits * s.cv.elems ≤ 4096 ∧ s.cv.pfx.ty.isSome = true ∧ vcvtSrc s.cv.pfx.ty .b64 = some (.int 8 true)) ∧
    (let s := inConvoy four { ty := some 2 }
     Clean s ∧ vfcvtPair s.cv.pfx.ty 1 = some (.flt fmtF16, .flt fmtBF16) ∧ (NFmt.flt fmtBF16).width * s.cv.elems ≤ 4096) ∧
    vsrndDst (inConvoy full).cv.pfx.ty .f32 = some (.flt fmtBF16) ∧ (NFmt.flt fmtBF16).width * (inConvoy four).cv.elems ≤ 4096 ∧
    (let s := withTens four
     Clean s ∧ ftBits .f32 * s.cv.elems ≤ 4096 ∧ s.cv.elems ≤ 512 ∧ codeWidth (startDesc s 3).fmt * s.cv.elems ≤ 4096) ∧
    (Clean inMem ∧ Coherent inMem inMem.cv.core ∧ inMem.cv.wait ≠ .issue ∧ inMem.sched.head? ≠ some .delay ∧
      postedCount inMem inMem.cv.core inMem.cv.mt .sys = 0 ∧ (inMem.cv.rg 6).toNat ≠ 0 ∧
      RangeReaches inMem rw_ (inMem.cv.rg 5).toNat (inMem.cv.rg 6).toNat ∧ (∃ x, lookup inMem { r := true } (inMem.cv.rg 5).toNat = .ok x) ∧
      ∀ x, lookup inMem { r := true } (inMem.cv.rg 9).toNat ≠ .ok x) := by
  have g9 : (inMem.cv.rg 9).toNat = 0x2000000 := by decide
  have g5 : (inMem.cv.rg 5).toNat = 0x100 := by decide
  have g6 : (inMem.cv.rg 6).toNat = 0x40 := by decide
  rw [g5, g6, g9]
  exact ⟨⟨clean_inConvoy .., by decide, rfl⟩, ⟨clean_inConvoy .., by decide, rfl, rfl⟩, ⟨clean_inConvoy .., rfl, by decide⟩, rfl, by decide,
    ⟨clean_withTens .., by decide, by decide, by decide⟩, clean_inMem, coherent_inMem, by decide, by decide, by decide +kernel, by decide,
    ⟨by decide, fun k hk => ⟨_, like_inMem.lookup_low _ _ (by omega)⟩⟩, ⟨_, like_inMem.lookup_low _ _ (by decide)⟩,
    like_inMem.lookup_high _ _ (by decide)⟩

theorem witness_MembersComplete_undos :
    (∀ k ∈ [RevKind.mul, .add, .fma, .narrow, .shr, .lrelu], Clean (framed k .i32) ∧ rtBits .i32 * (framed k .i32).cv.elems ≤ 4096 ∧
      Matches (framed k .i32) k .i32 4) ∧
    (Clean (framed .scale .f32) ∧ RType.f32 = bfType false ∧ Matches (framed .scale .f32) .scale .f32 4) := by
  unfold Clean Matches
  decide +kernel

/-- An empty stack, a scree of no chunk, and at 0x100 the words of another such stack. -/
def emptied : State :=
  { inConvoy { four with g := [(5, 0x100)], scb := 0x20000, scl := 0x20000 } with arrays := [(sramBase + 0x10A, 1), (sramBase + 0x112, 1)] }

theorem witness_MembersComplete_stacks : Clean emptied ∧ emptied.cv.work.tsd = 0 ∧ emptied.cv.final = false ∧ (emptied.cv.rg 5).toNat % 32 = 0 ∧
    emptied.cv.work.scb.toNat ≤ emptied.cv.work.scl.toNat ∧ lookup emptied { w := true } (emptied.cv.rg 5).toNat = .ok { pa := sramBase + 0x100 } ∧
    screeBad 0x10000 = false ∧ Coherent emptied emptied.cv.core ∧ CleanSlices emptied ∧ NoPoison emptied ∧
    lookup emptied { r := true } (emptied.cv.rg 5).toNat = .ok { pa := sramBase + 0x100 } ∧
    (∀ j, j < 32 → Quiet emptied 0 (sramBase + 0x100 + j) ∧
      BitVec.ofNat 8 ((0x10000 * 2 ^ 64 + 0x10000 * 2 ^ 128) / 2 ^ (8 * j)) = readByte emptied (sramBase + 0x100 + j)) := by
  have l : Like emptied := ⟨rfl, rfl, rfl, rfl, rfl, rfl, rfl, rfl⟩
  have g5 : (emptied.cv.rg 5).toNat = 0x100 := by decide
  rw [g5]
  exact ⟨⟨rfl, rfl⟩, rfl, rfl, by decide, by decide, l.lookup_low _ _ (by decide), by decide, Still.coherent ⟨⟨by decide, rfl⟩, rfl, rfl⟩, cleanSlices_of _ rfl rfl,
    noPoison_of _ core0 rfl rfl rfl rfl rfl, l.lookup_low _ _ (by decide), fun j hj => ⟨quiet_of _ core0 rfl _, by revert j; decide +kernel⟩⟩

theorem witness_SpecialRegisters :
    (let s := inConvoy { four with g := [(5, 512), (6, 513), (7, 0x7F7F), (8, 3), (9, 4), (10, 0x4FF)] }
     Clean s ∧ (0x18, s.cv.work.mgr.setWidth 64) ∈ mtReg s.cv.work ∧ (0x35, 0) ∈ coreReg s (s.core s.cv.core) ∧ s.cv.stagedSreg 0x35 = none ∧
       s.cv.stagedSreg 0x40 = none ∧
       ((0x02, { s.cv.work with grc := 512 }) ∈ mtSet s.cv.work (s.cv.rg 5) ∧ Accepts s 0x02 (s.cv.rg 5)) ∧
       ¬ Accepts s 0x02 (s.cv.rg 6) ∧ 0x02 ∈ (mtReg s.cv.work).map Prod.fst ∧
       (512 < shpRows ((s.cv.rg 7).setWidth 32) * shpCols ((s.cv.rg 7).setWidth 32) ∧ Accepts s 0x03 (s.cv.rg 7)) ∧
       ((0x20, 0) ∈ coreReg s (s.core s.cv.core) ∧ Accepts s 0x20 (s.cv.rg 8)) ∧ ¬ Accepts s 0x20 (s.cv.rg 9) ∧
       0x20 ∈ (coreReg s (s.core s.cv.core)).map Prod.fst ∧ Accepts s 0x00 0x47F ∧ ¬ Accepts s 0x00 (s.cv.rg 10)) := by
  refine ⟨clean_inConvoy .., by decide, by decide, by decide, by decide, ⟨by decide +kernel, ?_⟩, fun h => ?_, by decide, ⟨by decide, ?_⟩, ⟨by decide, ?_⟩,
    fun h => ?_, by decide, ?_, fun h => ?_⟩
  · refine ⟨?_, ?_, ?_, ?_, ?_, ?_, ?_, ?_, ?_, ?_, fun q hq h => ?_⟩
    all_goals first | (intro h; exact absurd h (by decide)) | (intro; decide) | skip
    interval_cases q <;> exact absurd h (by decide)
  · exact absurd (h.2.2.1 rfl) (by decide)
  · refine ⟨?_, ?_, ?_, ?_, ?_, ?_, ?_, ?_, ?_, ?_, fun q hq h => ?_⟩
    all_goals first | (intro h; exact absurd h (by decide)) | (intro; decide) | skip
    interval_cases q <;> exact absurd h (by decide)
  · refine ⟨?_, ?_, ?_, ?_, ?_, ?_, ?_, ?_, ?_, ?_, fun q hq h => ?_⟩
    all_goals first | (intro h; exact absurd h (by decide)) | (intro; decide) | skip
    interval_cases q <;> exact absurd h (by decide)
  · exact absurd (h.2.2.2.2.2.2.2.2.1 rfl) (by decide)
  · refine ⟨?_, ?_, ?_, ?_, ?_, ?_, ?_, ?_, ?_, ?_, fun q hq h => ?_⟩
    all_goals first | (intro h; exact absurd h (by decide)) | (intro; decide) | skip
    interval_cases q <;> exact absurd h (by decide)
  · exact absurd (h.1 rfl) (by decide)

/-! ## Witnesses: the control thread -/

def thread (a : Ct) (m : Mt := { code := 0 }) : State := dev { core0 with mts := [(0, m)], ct := { a with active := true } }
theorem canonical_thread (a : Ct) (m : Mt) : Canonical (thread a m) := by
  refine ⟨?_, rfl⟩
  simp [thread, dev, twf, twfFrom, core0]
theorem coherent_thread (a : Ct) (m : Mt) : Coherent (thread a m) 0 := Still.coherent ⟨canonical_thread a m, rfl, rfl⟩
theorem noPoison_thread (a : Ct) (m : Mt) : NoPoison (thread a m) := noPoison_dev _ _ rfl

/-- x5 is a lode's address, x6 a misaligned one, x7 names micro-thread 0, x8 an address in the SRAM. -/
def regs : Tab Word64 := [(5, 0x80), (6, 0x81), (7, 1), (8, 0x10000000100), (9, 0x10000000FFC), (17, 1)]
def sixteen : List (Word64 × Option Word64) := List.replicate 16 (0x80, none)

theorem witness_ThreadWaits :
    (let s := thread { x := regs }
     let c := s.core s.curCore
     (s.ct.rx 5).toNat % 128 = 0 ∧ (∀ k ∈ launched c (s.ct.rx 7), (c.mt k).lodeq.length < 16) ∧ (0 : BitVec 5).toNat < c.info.n ∧
       (s.ct.rx 6).toNat % 128 ≠ 0 ∧ (∀ k ∈ launched c (s.ct.rx 7), (c.mt k).isIdle = true ∧ .stop k ∉ c.pending) ∧
       (0 : BitVec 3).toNat < c.info.nlev ∧ (∀ k, k < c.info.n → (s.ct.rx 0).toNat ≤ tget 0 (c.mt k).bars 0) ∧
       ¬ (∀ k, k < c.info.n → (s.ct.rx 7).toNat ≤ tget 0 (c.mt k).bars 0) ∧ c.info.nlev ≤ (1 : BitVec 3).toNat ∧
       (∀ k, k < c.info.n → (c.mt k).isIdle = true) ∧ twf ({} : Mt) c.mts = true) ∧
    (let s := thread { x := regs } { code := 1, lodeq := sixteen }
     let c := s.core s.curCore
     Canonical s ∧ (∃ k ∈ launched c (s.ct.rx 7), 16 ≤ (c.mt k).lodeq.length) ∧
       ¬ (∀ k ∈ launched c (s.ct.rx 7), (c.mt k).isIdle = true ∧ .stop k ∉ c.pending) ∧ ¬ (∀ k, k < c.info.n → (c.mt k).isIdle = true)) := by
  refine ⟨by decide +kernel, canonical_thread .., ⟨0, by decide, by decide⟩, by decide, by decide⟩

theorem witness_ThreadRequests :
    (let s := thread { x := regs }
     let c := s.core s.curCore
     Canonical s ∧ ((5 : BitVec 6) ≠ 0 ∧ (s.ct.rx 0).toNat % 32 < c.info.n) ∧ ¬ ((s.ct.rx 7).toNat % 32 < c.info.n) ∧ c.got = none ∧
       (∀ m r, .get 0 m r ∉ c.pending) ∧ (∀ q, c.queueFull q = false)) ∧
    (let s := dev { core0 with ct := { x := regs }, got := some (9, 7) }
     (s.core s.curCore).got = some (9, 7) ∧ ∀ k, ((s.core s.curCore).mt k).code < 8) ∧
    (let s := dev { core0 with queues := [(1, { entries := List.replicate 32 { cmd := .mzero 0 } })] }
     (s.core s.curCore).queueFull 1 = true) ∧
    decodeMt 0x68080002#32 = .ok (.mzero false 2) ∧ decodeMt 0x68C00005#32 = .ok (.qfence false 48) ∧
    decodeMt 0x6E101800#32 = .ok (.cpy false 4 3 0) ∧ decodeMt 0x6E101801#32 = .ok (.gath false 4 3 0) ∧
    decodeMt 0x6E101802#32 = .ok (.scat false 4 3 0) ∧ decodeMt 0x6E101803#32 = .ok (.coll false 4 3 0) ∧
    decodeMt 0x6E000004#32 = .ok (.bank false 0 0) ∧ ∀ i, decodeMt 0x7C000000#32 ≠ .ok i := by
  refine ⟨⟨canonical_thread .., by decide, by decide, rfl, fun m r h => ?_, fun q => rfl⟩, ⟨rfl, fun k => ?_⟩,
    by decide, by decide, by decide, by decide, by decide, by decide, by decide, by decide, fun i h => ?_⟩
  · cases (show _ ∈ ([] : List Pending) from h)
  · show (tget ({} : Mt) [(0, ({ code := 2 } : Mt))] k).code < 8
    simp only [tget]
    split_ifs <;> simp
  · have : decodeMt 0x7C000000#32 = .error .opc := by decide
    rw [this] at h
    cases h

theorem bad_of {α β : Type} {x : Except α β × State} (h : x.1.toOption = none) : ∃ e u, x = (.error e, u) := by
  cases x with
  | mk r u => cases r with
    | ok y => cases h
    | error e => exact ⟨e, u, rfl⟩
theorem ok_of {α β : Type} {x : Except α β × State} {y : β} (h : x.1.toOption = some y) : ∃ u, x = (.ok y, u) := by
  cases x with
  | mk r u => cases r with
    | ok z => cases h; exact ⟨u, rfl⟩
    | error e => cases h

/-- A core with a faulted micro-thread, in both modes; a fetch, a read and a write of U mode that no page holds. -/
theorem witness_TrapEntries :
    (let s := thread { machine := false }
     s.ct.machine = false ∧ s.ct.rx 17 = 0) ∧
    (let s := thread { machine := false, x := regs }
     s.ct.machine = false ∧ s.ct.rx 17 ≠ 0) ∧
    (thread {}).ct.machine = true ∧
    (let s := thread { machine := false, mie := 0x10000 } { code := 4 }
     (∃ k, k < 32 ∧ ((s.core s.curCore).mt k).code = 4) ∧ s.ct.mie.getLsbD 16 = true ∧ s.ct.active = true ∧ s.ct.machine = false ∧
       (s.core s.curCore).halted = false ∧ (s.core s.curCore).stopping = false) ∧
    (let s := dev { core0 with queues := [(3, { held := true })], ct := { mie := 0x10000, mstatus := 8, active := true } }
     (∃ q, q < 6 ∧ ((s.core s.curCore).queue q).held = true) ∧ s.ct.mie.getLsbD 16 = true ∧ s.ct.active = true ∧
       s.ct.mstatus.getLsbD 3 = true ∧ (s.core s.curCore).halted = false ∧ (s.core s.curCore).stopping = false) ∧
    (let s := thread { machine := false }
     Coherent s s.curCore ∧ CleanSlices s ∧ s.ct.machine = false ∧ (∃ e u, ctFetchXlat s s.curCore (0 : Word64).toNat = (.error e, u)) ∧
       ∀ k : BitVec 2, k ≠ 2 → k ≠ 3 → ∃ e u, ctXlat s s.curCore (0 : Word64).toNat { r := k == 0, w := k == 1 } = (.error e, u)) ∧
    (let s := thread { xbpf := List.replicate 8 0x1001 }
     Canonical s ∧ s.ct.machine = true ∧ 7 < 8 ∧ s.ct.xbpf.length = 8) := by
  refine ⟨⟨rfl, by decide⟩, ⟨rfl, by decide⟩, rfl, ⟨⟨0, by decide, by decide⟩, by decide, rfl, rfl, rfl, rfl⟩,
    ⟨⟨3, by decide, by decide⟩, by decide, rfl, by decide, rfl, rfl⟩,
    ⟨coherent_thread .., cleanSlices_of _ rfl rfl, rfl, bad_of (by decide +kernel), fun k h2 h3 => ?_⟩, canonical_thread .., rfl, by decide, rfl⟩
  have : k = 0 ∨ k = 1 := by revert k; decide
  obtain rfl | rfl := this
  · exact bad_of (by decide +kernel)
  · exact bad_of (by decide +kernel)

theorem witness_TrapReturns :
    (let s := thread { machine := false }
     Canonical s ∧ s.ct.machine = false ∧ s.ct.mstatus.getLsbD 17 = false) ∧ (Canonical (thread {}) ∧ (thread {}).ct.machine = true) :=
  ⟨⟨canonical_thread .., rfl, by decide⟩, canonical_thread .., rfl⟩

theorem witness_RiscvOperations :
    (let s := thread { x := regs, mstatus := 0 }
     Canonical s ∧ s.ct.mstatus.getLsbD 13 = false ∧ s.ct.mstatus.getLsbD 14 = false) ∧
    (let s := thread { mstatus := 0x2000, fcsr := 0x60 }
     Canonical s ∧ s.ct.mstatus.getLsbD 13 = true ∧ s.ct.fcsr.extractLsb' 5 3 = 3 ∧ 5 ≤ (5 : BitVec 3).toNat ∧
       ((s.ct.fcsr.extractLsb' 5 3, RMode.rup) ∈ ([(0, .rne), (1, .rtz), (2, .rdn), (3, .rup), (4, .rna)] : List (BitVec 3 × RMode)))) :=
  ⟨⟨canonical_thread .., by decide, by decide⟩, canonical_thread .., by decide, by decide, by decide, by decide⟩

/-- An access across a page's end, in two pieces; stores and their delay; a poisoned granule in the core's L1; and an access that no
window holds, and that no page of U mode does. -/
theorem witness_ControlThreadAccesses :
    (let s := thread { x := regs }
     Coherent s s.curCore ∧ NoPoison s ∧ CleanSlices s ∧ s.ct.machine = true ∧ s.ct.late = [] ∧ s.sched.head? ≠ some .delay ∧
       memIsStore .lw = false ∧ memIsFloat .lw = false ∧ memIsStore .sd = true ∧
       (∃ l u, ctPieces s s.curCore 0x10000000FFC 8 { r := true } = (.ok l, u) ∧ l.length = 2 ∧ PiecesHome s l) ∧
       (∃ l u, ctPieces s s.curCore 0x10000000100 8 { w := true } = (.ok l, u) ∧ PiecesHome s l) ∧
       (∃ p e u, ctPieces s s.curCore 0x0E0000000000 8 { r := true } = (.error (p, e), u))) ∧
    (let s := thread { mstatus := 0 }
     memIsFloat .fld = true ∧ s.ct.mstatus.getLsbD 13 = false ∧ s.ct.mstatus.getLsbD 14 = false) ∧
    (let s := { thread { x := regs } with sched := [.delay] }
     Coherent s s.curCore ∧ NoPoison s ∧ s.ct.machine = true ∧ s.sched = .delay :: [] ∧
       ∃ l u, ctPieces s s.curCore 0x10000000100 8 { w := true } = (.ok l, u) ∧ PiecesHome s l) ∧
    (let s := dev { core0 with l1 := [(0x200000002, { live := true, poison := 1 })], ct := { x := regs, active := true } }
     Coherent s s.curCore ∧ s.ct.late = [] ∧ ∃ q u, ctPieces s s.curCore 0x10000000100 8 { r := true } = (.ok [q], u) ∧ PiecesHome s [q] ∧
       q.2.2.2.pa % 128 + 8 ≤ 128 ∧ PiecePoisoned s q) ∧
    (let s := thread { machine := false, x := regs }
     s.ct.machine = false ∧ ∃ e u, ctPieces s s.curCore 0x100 8 { r := true } = (.error e, u)) := by
  refine ⟨⟨coherent_thread .., noPoison_thread .., cleanSlices_of _ rfl rfl, rfl, rfl, by decide, by decide, by decide, by decide, ⟨_, _, rfl, rfl, ?_⟩,
    ⟨_, _, rfl, ?_⟩, ⟨_, _, _, rfl⟩⟩, by decide, ⟨Still.coherent ⟨canonical_thread _ _, rfl, rfl⟩, noPoison_thread .., rfl, rfl, _, _, rfl, ?_⟩,
    ⟨⟨⟨by decide +kernel, rfl⟩, rfl, fun pa h => ?_⟩, rfl, _, _, rfl, ?_, by decide, ?_⟩, rfl, bad_of (by decide +kernel)⟩
  · unfold PiecesHome
    decide
  · unfold PiecesHome
    decide
  · unfold PiecesHome
    decide
  · exfalso
    revert h
    by_cases hp : 0x200000002 = pa / 128
    · simp [dev, State.core, State.reset, tget, Core.line, hp.symm]
    · simp [dev, State.core, State.reset, tget, Core.line, hp]
  · unfold PiecesHome
    decide
  · unfold PiecePoisoned
    decide +kernel

theorem witness_ControlThreadAtomics :
    (let s := thread { x := regs }
     Coherent s s.curCore ∧ NoPoison s ∧ CleanSlices s ∧ postedCount s s.curCore 32 s.ct.scope = 0 ∧ (s.ct.rx 8).toNat % 8 = 0 ∧ (s.ct.rx 9).toNat % 8 ≠ 0 ∧
       (∃ x u, ctXlat s s.curCore (s.ct.rx 8).toNat rw_ = (.ok x, u) ∧ x.dev = none ∧ windowOf s x.pa ≠ .device) ∧
       (∃ x u, ctXlat s s.curCore (s.ct.rx 8).toNat { w := true } = (.ok x, u) ∧ ((s.core s.curCore).line (x.pa / 128)).dirty = 0 ∧
         s.ct.resv ≠ some (x.pa / 32))) ∧
    (let s := thread { x := regs, resv := some (0x10000000100 / 32), xbscope := 6 }
     Coherent s s.curCore ∧ NoPoison s ∧ s.ct.machine = true ∧ postedCount s s.curCore 32 s.ct.scope = 0 ∧ 2 ≤ scopeRank s.ct.scope ∧
       ∃ x u, ctXlat (releaseWork s s.curCore s.ct.scope) s.curCore (s.ct.rx 8).toNat { w := true } = (.ok x, u) ∧ s.ct.resv = some (x.pa / 32)) ∧
    (let s := { thread { x := regs, xbscope := 6 } with posted := [(3, [32])] }
     Coherent s s.curCore ∧ NoPoison s ∧ postedCount s s.curCore 32 s.ct.scope ≠ 0) := by
  refine ⟨⟨coherent_thread .., noPoison_thread .., cleanSlices_of _ rfl rfl, by decide +kernel, by decide, by decide, ⟨_, _, rfl, rfl, by decide⟩,
    ⟨_, _, rfl, by decide +kernel, by decide⟩⟩, ⟨coherent_thread .., noPoison_thread .., rfl, by decide +kernel, by decide, ?_⟩,
    Still.coherent ⟨canonical_thread _ _, rfl, rfl⟩, noPoison_thread .., by decide +kernel⟩
  obtain ⟨u, h⟩ := ok_of (x := ctXlat (releaseWork (thread { x := regs, resv := some (0x10000000100 / 32), xbscope := 6 })
    0 .sys) 0 0x10000000100 { w := true }) (y := { pa := 0x10000000100 }) (by decide +kernel)
  exact ⟨_, u, h, by decide⟩

/-- M mode: an access of 8 bytes at the end of the SRAM's first line, an atomic there with and without its reservation. -/
theorem witness_ThreadFormsComplete :
    (let s := thread { x := [(8, 0x1000000007C)], mstatus := 0x2000 }
     Coherent s s.curCore ∧ NoPoison s ∧ CleanSlices s ∧ s.ct.machine = true ∧ s.ct.late = [] ∧ s.sched.head? ≠ some .delay ∧
       s.ct.mstatus.getLsbD 13 = true ∧ (s.ct.rx 8 + (0 : BitVec 12).signExtend 64).toNat = 0x1000000007C ∧ 0x1000000007C + memBytes .ld ≤ 2 ^ 44 ∧
       ∀ j, j < memBytes .ld → InMem s (0x1000000007C + j)) ∧
    (∀ held : Bool, let s := thread { x := regs, xbscope := 6, resv := if held then some (0x10000000100 / 32) else none }
     Coherent s s.curCore ∧ NoPoison s ∧ s.ct.machine = true ∧ postedCount s s.curCore 32 s.ct.scope = 0 ∧ (s.ct.rx 8).toNat % 8 = 0 ∧
       (s.ct.rx 8).toNat + 8 ≤ 2 ^ 44 ∧ InMem s (s.ct.rx 8).toNat ∧ ((s.core s.curCore).line ((s.ct.rx 8).toNat / 128)).dirty = 0 ∧
       (s.ct.resv = some ((s.ct.rx 8).toNat / 32) ↔ held = true)) ∧
    (let s := thread { machine := false, mie := 0x10000 } { code := 4 }
     (∃ k, k < 32 ∧ ((s.core s.curCore).mt k).code = 4) ∧ s.ct.mie.getLsbD 16 = true ∧ s.ct.active = true ∧
       (s.core s.curCore).halted = false ∧ (s.core s.curCore).stopping = false ∧ s.ct.machine = false) := by
  refine ⟨⟨coherent_thread .., noPoison_thread .., cleanSlices_of _ rfl rfl, rfl, rfl, by decide, by decide, by decide, by decide, ?_⟩, fun held => ?_,
    ⟨⟨0, by decide, by decide⟩, by decide, rfl, rfl, rfl, rfl⟩⟩
  · unfold InMem
    decide
  · refine ⟨coherent_thread .., noPoison_thread .., rfl, ?_⟩
    unfold InMem
    revert held
    decide +kernel

theorem witness_FencesAndXbamrothCsrs :
    Coherent (thread {}) 0 ∧ (thread {}).ct.scope = .core ∧
    (Coherent (thread { xbscope := 2 }) 0 ∧ (thread { xbscope := 2 }).ct.scope = .die ∧ CleanSlices (thread { xbscope := 2 }) ∧
      postedCount (thread { xbscope := 2 }) 0 32 .die = 0) ∧
    (let s := { thread { xbscope := 6 } with posted := [(3, [32])] }
     Coherent s s.curCore ∧ 0 < postedCount s s.curCore 32 s.ct.scope) ∧
    (let s := thread { x := regs } { code := 4, record := [0x0F00000000000000] }
     let c := s.core s.curCore
     Canonical s ∧ s.ct.machine = true ∧ twf ({} : Mt) c.mts = true ∧ (s.ct.rx 7).getLsbD 0 = true ∧ (c.mt 0).code = 4 ∧
       kindOf (c.mt 0).record = 15) ∧
    (thread { machine := false }).ct.machine = false :=
  ⟨coherent_thread .., by decide, ⟨coherent_thread .., by decide, cleanSlices_of _ rfl rfl, by decide +kernel⟩,
    ⟨Still.coherent ⟨canonical_thread _ _, rfl, rfl⟩, by decide +kernel⟩,
    ⟨canonical_thread .., rfl, by decide +kernel, by decide, rfl, by decide⟩, rfl⟩

/-! ## Witnesses: events of convoys -/

theorem isOk_of {α β : Type} {x : Except α β × State} (h : x.1.toBool = true) : ∃ y u, x = (.ok y, u) := by
  cases x with
  | mk r u => cases r with
    | ok y => exact ⟨y, u, rfl⟩
    | error e => cases h

/-- A core whose micro-thread's next convoy is one word at 0x40000, with that word's lode there, in a shape of 4 × 128. -/
def ready (w : Word32) (code : Nat := 1) (retry : Bool := false) : Core :=
  { core0 with mts := [(0, { code := code, next := 0x40000, lode := some ⟨0x40000, [w, 0x78000001]⟩, retry := retry, regs := full })] }

theorem ready_turn (w : Word32) (h : mtReady (ready w) 0 = true) : Turn (ready w) 0 0 := by
  have other : ∀ n, n ≠ 0 → (ready w).mt n = {} := by
    intro n hn
    simp [ready, Core.mt, tget, Ne.symm hn]
  refine ⟨⟨h, rfl, fun p hp => absurd hp (by simp [ready, core0])⟩, rfl, fun n => ?_, fun n hn _ hr => ?_⟩
  · by_cases hn : n = 0
    · subst hn; rfl
    · rw [other n hn]
  · exfalso
    have hr := hr.1
    unfold mtReady at hr
    rw [other n hn] at hr
    simp at hr

/-- A convoy of the small device at its retirement, with its word 0 at 0. -/
def retiring (f : Convoy → Convoy) (m : Mt := { code := 2 }) : State := { dev { core0 with mts := [(0, m)] } with cv := f (member four) }

/-- `nop`, an undo, whose check decides whether it issues, an unassigned opcode, `vadd.i64` under 512 elements, and a `brk`, armed or not; then a convoy that keeps its place, one that waits for
a tag, one that faults. -/
theorem witness_ConvoyEvents :
    (let s := dev (ready 0x78000000)
     let c := s.core s.here.core
     twf ({} : Mt) c.mts = true ∧ Turn c (s.here.idx % 8) 0 ∧ (c.mt 0).nextWords = some (0, [0x78000000]) ∧ (c.mt 0).late = [] ∧
       ∃ ms, decodeConvoy (decEnv c (c.mt 0)) 0 [0x78000000] = .ok ms ∧ shapeBad (shpRows (c.mt 0).regs.shp * shpCols (c.mt 0).regs.shp) 0 ms = none ∧
         (∀ x ∈ ms, isBrk x.i = false) ∧ ms.any (fun x => decides x.i) = false) ∧
    (let s := dev (ready 0x5E102868)
     let c := s.core s.here.core
     Turn c (s.here.idx % 8) 0 ∧ (c.mt 0).nextWords = some (0, [0x5E102868]) ∧
       ∃ ms, decodeConvoy (decEnv c (c.mt 0)) 0 [0x5E102868] = .ok ms ∧ shapeBad (shpRows (c.mt 0).regs.shp * shpCols (c.mt 0).regs.shp) 0 ms = none ∧
         (∀ x ∈ ms, isBrk x.i = false) ∧ ms.any (fun x => decides x.i) = true) ∧
    (let s := dev (ready 0x7C000000)
     let c := s.core s.here.core
     twf ({} : Mt) c.mts = true ∧ Turn c (s.here.idx % 8) 0 ∧ (c.mt 0).nextWords = some (0, [0x7C000000]) ∧ (c.mt 0).late = [] ∧
       ∃ a cause, decodeConvoy (decEnv c (c.mt 0)) 0 [0x7C000000] = .error (a, cause)) ∧
    (let s := dev (ready 0x00102863)
     let c := s.core s.here.core
     twf ({} : Mt) c.mts = true ∧ Turn c (s.here.idx % 8) 0 ∧ (c.mt 0).nextWords = some (0, [0x00102863]) ∧ (c.mt 0).late = [] ∧
       ∃ ms a w, decodeConvoy (decEnv c (c.mt 0)) 0 [0x00102863] = .ok ms ∧
         shapeBad (shpRows (c.mt 0).regs.shp * shpCols (c.mt 0).regs.shp) 0 ms = some (a, w)) ∧
    (let c := ready 0x7A00C005
     twf ({} : Mt) c.mts = true ∧ Turn c 0 0 ∧ (c.mt 0).nextWords = some (0, [0x7A00C005]) ∧ (c.mt 0).late = [] ∧ (c.mt 0).skip = false ∧
       c.dbgctl.getLsbD 1 = false ∧ ∃ ms a code, decodeConvoy (decEnv c (c.mt 0)) 0 [0x7A00C005] = .ok ms ∧
         shapeBad (shpRows (c.mt 0).regs.shp * shpCols (c.mt 0).regs.shp) 0 ms = none ∧ findBrk ms = some (a, code)) ∧
    (let s := retiring (fun cv => { cv with wait := .issue })
     s.cv.live = true ∧ s.cv.brkArmed = false ∧ s.cv.wait = .issue) ∧
    (let r : List Word64 := mkRecord 17 0 1 0 false 0 []
     let s := retiring (fun cv => { cv with cands := [(7, r), (4, r)], wait := .issue })
     s.cv.wait = .issue ∧ s.cv.cands.filter (fun x => decide (x.1 ≤ 4)) = [] ++ (4, r) :: []) ∧
    (∀ k : Ctl, let s := retiring (fun cv => { cv with ctl := k })
     Retiring s ∧ s.cv.wait = .none ∧ s.cv.tens0 = none ∧ s.cv.stores = [] ∧ s.cv.cleans = [] ∧ s.cv.vpk = [] ∧ s.cv.enq = [] ∧
       s.cv.sregs = [] ∧ s.cv.send = none ∧ s.cv.attach = none ∧ s.cv.ctl = k ∧ (s.cv.head + BitVec.ofNat 64 (4 * s.cv.words.length)) % 128 ≠ 0 ∧
       ((s.core s.cv.core).mt s.cv.mt).lodeq = []) ∧
    (let r : List Word64 := mkRecord 17 0 1 0 false 0 []
     let s := retiring (fun cv => { cv with cands := [(5, r), (3, r), (3, [])] })
     s.cv.brkArmed = false ∧ s.cv.counted = true ∧ ((s.core s.cv.core).mt s.cv.mt).late = [] ∧ s.cv.wait ≠ .issue ∧
       s.cv.cands = [(5, r)] ++ (3, r) :: [(3, [])] ∧ (∀ x ∈ [(5, r)], 3 < x.1) ∧
       (∀ x ∈ ([(3, [])] : List (Nat × List Word64)), 3 ≤ x.1) ∧ kindOf r = 17) := by
  refine ⟨⟨by decide +kernel, ready_turn _ (by decide +kernel), by decide +kernel, rfl, _, rfl, by decide +kernel, by decide +kernel, by decide +kernel⟩,
    ⟨ready_turn _ (by decide +kernel), by decide +kernel, _, rfl, by decide +kernel, by decide +kernel, by decide +kernel⟩,
    ⟨by decide +kernel, ready_turn _ (by decide +kernel), by decide +kernel, rfl, _, _, rfl⟩,
    ⟨by decide +kernel, ready_turn _ (by decide +kernel), by decide +kernel, rfl, _, _, _, rfl, rfl⟩,
    ⟨by decide +kernel, ready_turn _ (by decide +kernel), by decide +kernel, rfl, rfl, by decide, _, _, _, rfl, by decide +kernel, rfl⟩,
    ⟨rfl, rfl, rfl⟩, ⟨rfl, rfl⟩, fun k => ⟨⟨rfl, rfl, rfl, rfl, rfl, show ([] : List Move).head? ≠ some .delay by decide⟩, rfl, rfl, rfl, rfl, rfl, rfl, rfl, rfl, rfl, rfl,
      show ((0 : Word64) + BitVec.ofNat 64 (4 * 1)) % 128 ≠ 0 by decide, rfl⟩, by decide⟩

/-- A convoy with an entry to place; a jump within its lode, to one that has to be fetched, to one that is not there; a barrier that is complete
and one that is not; a parked convoy with a member to run again; and a first run. -/
theorem witness_RetirementEffects :
    (let s := retiring (fun cv => { cv with enq := [(0, { cmd := .mzero 0 })], sregs := [(0x20, 3)], send := some ⟨7, 0⟩, attach := some 32 })
     Retiring s ∧ s.cv.wait = .none ∧ s.cv.tens0 = none ∧ s.cv.ctl = .seq ∧ (∀ e ∈ s.cv.enq, e.2.was = []) ∧
       (s.cv.head + BitVec.ofNat 64 (4 * s.cv.words.length)) % 128 ≠ 0 ∧ s.cv.sregs.filter (fun e => e.1 == 0x20) = [(0x20, 3)]) ∧
    (let l : Lode := ⟨0x40000, [0x78000000, 0x78000001]⟩
     let s := retiring (fun cv => { cv with ctl := .jump 0x40004 0 }) { code := 2, lode := some l }
     Retiring s ∧ s.cv.wait = .none ∧ (0x40004 : Word64) % 4 = 0 ∧ ((s.core s.cv.core).mt s.cv.mt).lode = some l ∧ l.va = 0x40004 / 128 * 128 ∧
       startBad l ((0x40004 - 0x40004 / 128 * 128 : Word64).toNat / 4) = none) ∧
    (let s := retiring (fun cv => { cv with ctl := .jump 0x40004 0 })
     (∀ x, ((s.core s.cv.core).mt s.cv.mt).lode = some x → x.va ≠ 0x40004 / 128 * 128) ∧
       ∃ l u, fetchLode { s with cv := ({} : Convoy) } s.cv.core (0x40004 / 128 * 128) = (.ok l, u)) ∧
    (let s := retiring (fun cv => { cv with ctl := .lfetch 0x2000000 })
     (0x2000000 : Word64) % 128 = 0 ∧ (0x2000002 : Word64) % 128 ≠ 0 ∧ ∃ e u, fetchLode { s with cv := ({} : Convoy) } s.cv.core 0x2000000 = (.error e, u)) ∧
    (let s := retiring (fun cv => { cv with wait := .bar 0 1 }) { code := 2, pend := 1 }
     Retiring s ∧ s.cv.wait = .bar 0 1 ∧ barComplete s s.cv.core 0 1 = true ∧ s.cv.ctl = .seq ∧ barPeers s s.cv.core 0 = []) ∧
    (let s := { retiring (fun cv => { cv with wait := .bar 0 1 }) with
       cores := [(0, { core0 with mts := [(0, { code := 2, pend := 1 }), (1, { code := 3, pend := 1, parked := some { mt := 1, wait := .bar 0 1 } })] })] }
     Retiring s ∧ s.cv.wait = .bar 0 1 ∧ barComplete s s.cv.core 0 1 = true ∧ s.cv.final = false ∧ barPeers s s.cv.core 0 ≠ [] ∧ s.cv.todo = []) ∧
    (let s := retiring (fun cv => { cv with wait := .bar 0 1 })
     Retiring s ∧ barComplete s s.cv.core 0 1 = false ∧ s.cv.final = false) ∧
    (let p := { member four with todo := [0x78000000] }
     let s := dev { core0 with mts := [(0, { code := 3, parked := some p })] }
     s.cv.live = false ∧ ((s.core s.here.core).mt s.here.idx).parked = some p ∧ p.core = s.here.core ∧ p.mt = s.here.idx ∧ p.todo ≠ []) ∧
    (let s := retiring (fun cv => { cv with trial := true })
     s.cv.live = true ∧ s.cv.brkArmed = false ∧ s.cv.counted = true ∧ s.cv.trial = true ∧ s.cv.wait = .none) := by
  refine ⟨⟨⟨rfl, rfl, rfl, rfl, rfl, by decide⟩, rfl, rfl, rfl, by decide, by decide, by decide⟩,
    ⟨⟨rfl, rfl, rfl, rfl, rfl, by decide⟩, rfl, by decide, rfl, by decide, by decide⟩, ⟨(fun x h => by cases h), isOk_of (by decide +kernel)⟩,
    ⟨by decide, by decide, bad_of (by decide +kernel)⟩, ⟨⟨rfl, rfl, rfl, rfl, rfl, by decide⟩, rfl, by decide +kernel, rfl, by decide +kernel⟩,
    ⟨⟨rfl, rfl, rfl, rfl, rfl, by decide⟩, rfl, by decide +kernel, rfl, by decide +kernel, rfl⟩,
    ⟨⟨rfl, rfl, rfl, rfl, rfl, by decide⟩, by decide +kernel, rfl⟩, ⟨rfl, rfl, rfl, rfl, by decide⟩, rfl, rfl, rfl, rfl, rfl⟩

/-- Beside the convoys' witnesses: span updates and invalidations with a convoy in flight on no core, and bytes that have arrived. -/
theorem witness_EventsComplete :
    (let c := ready 0x78000000
     Turn c 0 0 ∧ (c.mt 0).late = []) ∧
    (let s := { dev core0 with spPend := some (5, 7), tlbWaits := [(0, 5, 1)], tlbPosts := [3] }
     s.spPend = some (5, 7) ∧ (∀ e ∈ s.cores, ¬ ((∃ m ∈ e.2.mts, m.2.parked ≠ none) ∨ (s.cv.live = true ∧ s.cv.core = e.1))) ∧
       (∀ e ∈ s.cores, ∀ q ∈ e.2.queues, ∀ y ∈ q.2.entries, ∀ k ∈ y.held, k % 2 ^ 20 ≠ 5) ∧ Canonical s ∧
       (∀ y ∈ s.tlbWaits, bytesAhead s y.1 (s.core y.1) y.2.1 &&& y.2.2 = 0) ∧ ∀ k ∈ s.tlbPosts, postedAhead s k = false) := by
  refine ⟨⟨ready_turn _ (by decide +kernel), rfl⟩, rfl, ?_, by simp [dev, core0], ⟨by decide, rfl⟩, by decide +kernel, by decide⟩
  intro e he
  have : e = (0, core0) := by simpa [dev] using he
  subst this
  simp [core0, dev, State.reset]

theorem witness_HardwareErrors :
    (let s := dev (ready 0x78000000)
     mtReady (s.core s.here.core) s.here.idx = true ∧ (s.core s.here.core).issues s.here.idx = true ∧ ((s.core s.here.core).mt s.here.idx).late = [] ∧
       ((s.core s.here.core).mt s.here.idx).retry = false) ∧
    (let s := dev (ready 0x78000000 1 true)
     mtReady (s.core s.here.core) s.here.idx = true ∧ ((s.core s.here.core).mt s.here.idx).retry = true) ∧
    (poisonAt (retiring id) (.array 0x60) = none ∧ ranConvoy (dev core0) 0 0 = none) ∧
    (let s := { retiring id with arrPoison := [3] }
     poisonAt s (.array 0x60) = some (0, 0x60) ∧ ranConvoy s s.here.core s.here.idx = some s.cv ∧ s.cv.cands = []) ∧
    (let r : List Word64 := mkRecord 17 0 1 0 false 0 [0x60]
     let s := { retiring (fun cv => { cv with cands := [(7, r), (7, [])] }) with arrPoison := [3] }
     poisonAt s (.array 0x60) = some (0, 0x60) ∧ ranConvoy s s.here.core s.here.idx = some s.cv ∧ s.cv.cands = [] ++ (7, r) :: [(7, [])] ∧
       (∀ x ∈ ([(7, [])] : List (Nat × List Word64)), 7 ≤ x.1) ∧ (kindOf r = 17 ∧ subOf r = 0 ∧ (r.getD 2 0).toNat = 0x60) ∧ s.cv.counted = true ∧
       ((s.core s.here.core).mt s.here.idx).late = []) ∧
    (let r : List Word64 := mkRecord 17 0 1 0 false 0 [0x60]
     let p : Convoy := { cands := [(7, r), (5, mkRecord 3 0 1 0 true 0 [])] }
     let s := { dev { core0 with mts := [(0, { code := 3, parked := some p })] } with arrPoison := [3] }
     ranConvoy s s.here.core s.here.idx = some p ∧ p.cands = [(7, r)] ++ (5, mkRecord 3 0 1 0 true 0 []) :: [] ∧
       kindOf (mkRecord 3 0 1 0 true 0 []) ≠ 17) ∧
    (let s := dev { core0 with mts := [(0, { code := 1, fifo := [⟨7, 0⟩] })] }
     ((s.core 0).mt 0).fifo[511 / 512]? = some ⟨7, 0⟩) ∧
    (let s := dev { core0 with l1 := [(0, { dirty := 1, data := 5 })] }
     ((s.core 0).line 0).dirty.extractLsb' 0 32 ≠ 0 ∧ ((s.core 0).line 0).dirty.extractLsb' 32 32 = 0) ∧
    (let s := { dev core0 with slices := [(0, { held := 0xFFFFFFFF, dirty := 1, data := 5 })] }
     ((s.slice 0).dirty ||| (s.slice 0).guarded).extractLsb' 0 32 ≠ 0 ∧ (s.slice 0).held.extractLsb' 0 32 ≠ 0 ∧
       ((s.slice 0).dirty ||| (s.slice 0).guarded).extractLsb' 32 32 = 0) ∧
    Coherent (dev core0) 0 ∧ CleanSlices (dev core0) ∧ (dev core0).settles = [] ∧ InMem (dev core0) 0x10000000000 ∧
    (tget 0 (dev core0).span (spanKey 0 0 0)).getLsbD 62 = false ∧ ctxValid (dev core0) 0 = true ∧
    (let s := { dev core0 with span := [(0, 0x6000000000000071)] }
     (tget 0 s.span (spanKey 0 0 0)).getLsbD 62 = true ∧ tget 0 s.spanErr (spanKey 0 0 0) = 0) ∧
    (let s := { dev core0 with span := [(0, 0x6000000000000071)], spanErr := [(0, 1)] }
     (tget 0 s.span (spanKey 0 0 0)).getLsbD 62 = true ∧ tget 0 s.spanErr (spanKey 0 0 0) ≠ 0) ∧
    (let s := dev { core0 with tlb := [⟨0, 0, 25, 0x2000000000000CF3⟩] }
     0 < (s.core 0).tlb.length) :=
  ⟨⟨by decide +kernel, rfl, rfl, rfl⟩, ⟨by decide +kernel, rfl⟩, ⟨by decide, by decide +kernel⟩, ⟨by decide, by decide +kernel, rfl⟩,
    ⟨by decide, by decide +kernel, rfl, by decide, by decide, rfl, rfl⟩, ⟨by decide +kernel, rfl, by decide⟩, rfl,
    by decide +kernel, by decide +kernel, Still.coherent ⟨⟨by decide, rfl⟩, rfl, rfl⟩, cleanSlices_of _ rfl rfl, rfl,
    by unfold InMem; decide, by decide, by decide, by decide, by decide, by decide⟩

/-- A second level with two micro-threads, of which one has arrived at its first instance. -/
def twoLevels (pend1 : BitVec 8) : Core :=
  { launch := some { placeLaunch with n := 2, ctl := 0x1000 }, mts := [(0, { code := 2, pend := 1 }), (1, { code := 2, pend := pend1 })] }

theorem witness_BoundaryEvents :
    (let s := dev { core0 with mts := [(0, { code := 0, lodeq := [(0x80, some 7), (0x100, none)] })] }
     let m := (s.core s.here.core).mt s.here.idx
     m.code = 0 ∧ m.lodeq = (0x80, some 7) :: [(0x100, none)]) ∧
    (let s := dev { core0 with mts := [(0, { code := 1, next := 0x84 })] }
     let m := (s.core s.here.core).mt s.here.idx
     m.code = 1 ∧ m.lode = none ∧ m.parked = none ∧ m.late = [] ∧ CleanSlices s ∧ Canonical s ∧ NoPoison s ∧ s.vrst = [] ∧ (s.core s.here.core).lodeCache = [] ∧
       ∃ x, spanXlat s (dieOf 0) (s.ctxOf 0) (m.next / 128 * 128).toNat { x := true, localOnly := true } = .ok x) ∧
    (let s := dev { core0 with mts := [(0, { code := 3, next := 0x2000000 })] }
     let m := (s.core s.here.core).mt s.here.idx
     m.code = 3 ∧ m.lode = none ∧ m.parked = none ∧ Canonical s ∧
       ∃ e, spanXlat s (dieOf 0) (s.ctxOf 0) (m.next / 128 * 128).toNat { x := true, localOnly := true } = .error e) ∧
    (let s := dev { core0 with pending := [.put 1 3 8, .put 0 3 9, .get 0 3 10, .stop 0] }
     let c := s.core s.here.core
     c.pending = [.put 1 3 8] ++ .put 0 3 9 :: [.get 0 3 10, .stop 0] ∧ (∀ p ∈ ([.put 1 3 8] : List Pending), p.of 0 = false) ∧
(c.mt 0).parked = none ∧ (c.mt 0).late = [] ∧ 0 < c.info.n) ∧
    (let s := dev { core0 with pending := [.get 0 3 10] }
     (s.core s.here.core).pending = [] ++ .get 0 3 10 :: []) ∧
    (∀ w : Wait, let s := dev { core0 with pending := [.stop 0], mts := [(0, { code := 3, parked := some { wait := w } })] }
     (s.core s.here.core).pending = [] ++ .stop 0 :: [] ∧ s.here.idx < (s.core s.here.core).info.n ∧
       (w = .bar 0 1 → ({ wait := w } : Convoy).waitsOpen = true) ∧ (w = .none → ({ wait := w } : Convoy).waitsOpen = false)) ∧
    (∀ p ∈ ((dev core0).core 0).pending, p.of 0 = false) ∧
    (let s := dev (ready 0x78000000 3)
     ((s.core s.here.core).mt s.here.idx).code = 3 ∧ mtReady (s.core s.here.core) s.here.idx = true) ∧
    (let s := dev (twoLevels 1)
     s.here.sub < (s.core s.here.core).info.nlev ∧ instanceArrived s s.here.core s.here.sub (tget 0 (s.core s.here.core).seen s.here.sub + 1) = true) ∧
    (let s := dev (twoLevels 0)
     instanceArrived s s.here.core s.here.sub (tget 0 (s.core s.here.core).seen s.here.sub + 1) = false) := by
  have can : ∀ m : Mt, Canonical (dev { core0 with mts := [(0, m)] }) := by
    intro m
    refine ⟨?_, rfl⟩
    simp [dev, twf, twfFrom, core0]
  refine ⟨⟨rfl, rfl⟩, ⟨rfl, rfl, rfl, rfl, cleanSlices_of _ rfl rfl, can _, noPoison_dev _ _ rfl, rfl, rfl, _, rfl⟩, ⟨rfl, rfl, rfl, can _, _, rfl⟩, by decide +kernel,
    rfl, fun w => ⟨rfl, show (0 : Nat) < 1 by decide, fun h => by subst h; rfl, fun h => by subst h; rfl⟩, by decide,
    ⟨rfl, by decide +kernel⟩, ⟨by decide, by decide +kernel⟩, by decide +kernel⟩

/-! ## Witnesses: memory, fabric and engines -/

theorem coherent_dev (c : Core) (h : c.l1 = []) (hw : twf ({} : Core) [(0, c)] = true) : Coherent (dev c) 0 := Still.coherent ⟨⟨hw, rfl⟩, rfl, h⟩
theorem noPoison_plain (c : Core) (h : c.l1 = []) : NoPoison (dev c) := noPoison_dev c {} h

/-- The translation of an engine's access. -/
theorem Like.eng_low {s : State} (l : Like s) (need : Need) (a : Nat) (h : a < 2 ^ 25) : engLookup s 0 need a = .ok { pa := sramBase + a } := by
  have := l.lookup_low need a h
  unfold lookup cvXlat at this
  simp only [l.final] at this
  rw [l.core, Nat.mod_eq_of_lt (by omega)] at this
  exact this
theorem Like.eng_high {s : State} (l : Like s) (need : Need) (a : Nat) (h : a / 2 ^ 25 = 1) (y : Xlat) : engLookup s 0 need a ≠ .ok y := by
  have := l.lookup_high need a h y
  unfold lookup cvXlat at this
  simp only [l.final] at this
  rw [l.core, Nat.mod_eq_of_lt (by omega)] at this
  exact this
theorem like_plain (c : Core) (h : c.info.ctx = 0) : Like (dev c) := like_dev c {} h rfl
theorem cleanSlices_dev (c : Core) : CleanSlices (dev c) := cleanSlices_of _ rfl rfl

/-- Page tables at PA 0, 0x1000 and 0x2000, with a 32 MiB leaf at level 1 for VA 0. -/
def tables : State :=
  { dev core0 with arrays := [(0, 1), (1, 0x10), (0x1000, 1), (0x1001, 0x20), (0x2000, 0xF3), (0x2001, 0x0C), (0x2007, 0x20)] }

/-- A core whose L1 knows the last line of a page, without a byte of it. -/
def liveCore : Core := { core0 with l1 := [(0x10000000000 / 128 + 31, { live := true })] }
theorem line_live (l : Nat) : (liveCore.line l).valid = 0 ∧ (liveCore.line l).poison = 0 := by
  simp only [Core.line, liveCore, tget]
  repeat' split
  all_goals exact ⟨rfl, rfl⟩

def packet : VrstPkt := { sid := 0, core := 0, line := 0x10000000000 / 128, bf := false, rm := .rne, elems := [(124, .fin false 1 0, 0)] }

/-- A slice that knows the first line of a page. -/
def behind : State := { dev core0 with here := { sub := 1, pa := 0x10000000080 }, slices := [(0x10000000000 / 128, { live := true })] }

theorem noPoison_behind : NoPoison behind := by
  refine ⟨rfl, fun st h => absurd h (by simp [behind, dev, State.reset]), fun line => ⟨?_, fun o => ?_⟩⟩
  · simp only [behind, State.slice, tget]
    repeat' split
    all_goals rfl
  · by_cases ho : o = 0
    · subst ho
      rfl
    · rw [other_core _ core0 rfl o ho]
      rfl

/-- A byte in the SRAM; the last word of a line; memory that a span keeps from speculation; a live line before another. -/
theorem witness_MemoryEvents :
    ((tget 0 (dev core0).ctxd 0).getLsbD 0 = true ∧ ((dev core0).core 0).walk = [] ∧ ((dev core0).core 0).torn = false ∧ (dev core0).vrst = [] ∧ tableWalk (dev core0) 0 3 0 = none) ∧
    ((tget 0 tables.ctxd 0).getLsbD 0 = true ∧ (tables.core 0).walk = [] ∧ (tables.core 0).torn = false ∧ tables.vrst = [] ∧ (tget 0 tables.ctxd 0).toNat / 2 ^ 12 % 2 ^ 32 * 4096 = 0 ∧
      tableWalk tables 0 3 0 = some 0x2000000000000CF3) ∧
    (let s := { dev core0 with here := { pa := 0x10000000000 } }
     Coherent s 0 ∧ NoPoison s ∧ s.vrst = [] ∧ InMem s s.here.pa ∧ Canonical s ∧ CleanSlices s ∧ s.here.sub = 0 ∧
       InMem s (128 * 0) ∧ s.here.pa % 8 = 0 ∧ s.prefs = [] ∧ mayPrefetch s s.here.core s.here.pa = false ∧ RoomFor s 0 (s.here.pa / 128) ∧
       mayFill s s.here.pa = true) ∧
    (let s := { dev liveCore with here := { pa := 0x10000000000 } }
     s.prefs = [] ∧ mayPrefetch s s.here.core s.here.pa = true ∧ (s.core 0).line (s.here.pa / 128) = {} ∧ RoomFor s 0 (s.here.pa / 128) ∧
       Coherent s 0 ∧ NoPoison s ∧ s.sched.head? ≠ some .delay) ∧
    (let s := { dev liveCore with here := { pa := 0x10000000000 }, sched := [.delay] }
     mayPrefetch s s.here.core s.here.pa = true ∧ s.sched = .delay :: []) ∧
    (let s := { dev core0 with here := { pa := 0x10000000000 }, prefs := [(0, 0x10000000000 / 128)] }
     (s.here.core, s.here.pa / 128) ∈ s.prefs ∧ Coherent s 0 ∧ NoPoison s ∧ RoomFor s 0 (s.here.pa / 128)) ∧
    (0x1000000007C % 8 ≠ 0) ∧
    (let s := { dev core0 with here := { pa := 0x10000000000 }, vrst := [packet] }
     s.vrst = [] ++ packet :: [] ∧ packet.line = s.here.pa / 128 ∧ packet.dev = none ∧ packet.batch = false ∧
       packet.elems = [(124, .fin false 1 0, 0)] ∧ 124 + 4 ≤ 128 ∧ 124 % 4 = 0 ∧
       ∀ q ∈ ([] ++ [] : List VrstPkt), q.batch = false) ∧
    (let s := { dev core0 with here := { pa := 0x10000000000, sub := 1 }, span := [(0, 0xA000000000000071)] }
     s.here.sub ≠ 0 ∧ mayFill s s.here.pa = false ∧ (1024, s.here.pa / 128) ∉ s.prefs) ∧
    (∀ m ∈ ([[], [.delay]] : List (List Move)),
      let s := { behind with sched := m }
      s.here.sub ≠ 0 ∧ (1024, s.here.pa / 128) ∉ s.prefs ∧ s.here.pa / 128 % 32 ≠ 0 ∧ (s.slice (s.here.pa / 128 - 1)).live = true ∧
        mayFill s s.here.pa = true ∧ (heldLines s (s.here.pa / 128)).length < 12) ∧
    NoPoison behind ∧
    (let s := { dev core0 with here := { sub := 1, pa := 0x10000000000 }, prefs := [(1024, 0x10000000000 / 128)] }
     s.here.sub ≠ 0 ∧ (1024, s.here.pa / 128) ∈ s.prefs ∧ NoPoison s) := by
  refine ⟨⟨by decide, rfl, rfl, rfl, by decide +kernel⟩, ⟨by decide, rfl, rfl, rfl, by decide, by decide +kernel⟩,
    ⟨Still.coherent ⟨⟨by decide, rfl⟩, rfl, rfl⟩, noPoison_of _ core0 rfl rfl rfl rfl rfl, rfl, by unfold InMem; decide, ⟨by decide, rfl⟩, cleanSlices_of _ rfl rfl, rfl,
      by unfold InMem; decide, by decide, rfl, by decide +kernel, roomFor_of _ core0 rfl rfl rfl _, by decide +kernel⟩,
    ⟨rfl, by decide +kernel, by decide +kernel, ⟨by decide +kernel, by decide +kernel, by decide +kernel⟩, ⟨⟨by decide, rfl⟩, rfl, fun pa h => ?_⟩,
      ⟨rfl, fun st h => absurd h (by simp [dev, State.reset]), fun line => ⟨rfl, fun o => ?_⟩⟩, by decide⟩, ⟨by decide +kernel, rfl⟩,
    ⟨by decide, Still.coherent ⟨⟨by decide, rfl⟩, rfl, rfl⟩, noPoison_of _ core0 rfl rfl rfl rfl rfl, roomFor_of _ core0 rfl rfl rfl _⟩,
    by decide, by decide +kernel, ⟨by decide, by decide +kernel, by decide⟩, by decide +kernel, noPoison_behind,
    by decide, by decide, noPoison_of _ core0 rfl rfl rfl rfl rfl⟩
  · have := (line_live (pa / 128)).1
    change (Core.line (liveCore) (pa / 128)).valid.getLsbD _ = true at h
    rw [this] at h
    simp at h
  · by_cases ho : o = 0
    · subst ho
      exact (line_live line).2
    · rw [other_core _ liveCore rfl o ho]
      rfl

/-- A request to this device, at the first byte and the last of the SRAM of die 0, to the MARG register, and to another device; a port that is
down, and one whose marker has come. -/
theorem witness_FabricEvents :
    (let s := { dev core0 with ports := 1 }
     s.ports.getLsbD s.here.idx = true ∧ s.dump = none ∧ 0x10000000000 / 2 ^ 46 = s.devnum.toNat ∧ 0x10000000000 / 2 ^ 44 % 4 = 0 ∧ s.boot = 0 ∧ s.vrst = [] ∧
       Canonical s ∧ InMem s (0x10000000000 % 2 ^ 44) ∧ InMem s (0x10000000000 + sramSize - 8) ∧ InMem s (0x10000000000 + sramSize - 8 + 8 - 1) ∧
       0x10000000000 % 2 ^ 44 % 8 = 0 ∧ (0x0F0000005008 / 2 ^ 46 = s.devnum.toNat ∧ 0x0F0000005008 % 2 ^ 44 = 0x0F0000005008) ∧
       2 ^ 46 / 2 ^ 46 ≠ s.devnum.toNat ∧ windowOf s (0x10000000000 + sramSize) = .none ∧ tget [] s.posted 3 = []) ∧
    (let s := { dev core0 with ports := 1, posted := [(3, [(0, 0x100)])] }
     s.ports.getLsbD s.here.idx = true ∧ tget [] s.posted (s.here.core * 2048 + 3) = (0, 0x100) :: [] ∧ 0x100 = (0x100 : Word64).toNat ∧
       0x100 ≠ (0x180 : Word64).toNat) ∧
    (let s := { dev core0 with ports := 0 }
     ¬ (s.ports.getLsbD s.here.idx = true ∨ s.here.arrived = true)) ∧
    (let s := { dev core0 with ports := 0, here := { arrived := true } }
     ¬ s.ports.getLsbD s.here.idx = true ∧ s.here.arrived = true ∧ s.dump = none) ∧
    (let s := { dev { core0 with halted := true } with ports := 1, dump := some ⟨false, 0, [], [], 0, false⟩ }
     s.ports.getLsbD s.here.idx = true ∧ (∃ d, s.dump = some d ∧ s.here.idx ∉ d.open_) ∧ ∃ c ∈ s.cores, c.2.halted = true) := by
  refine ⟨⟨by decide, rfl, by decide, by decide, rfl, rfl, ⟨by decide, rfl⟩, ?_, ?_, ?_, by decide, by decide, by decide, by decide, rfl⟩, by decide, by decide, by decide,
    by decide, ⟨_, rfl, by decide⟩, by decide⟩ <;>
    (unfold InMem; decide)

/-- A core with one entry at the head of a queue. -/
def queued (q : Nat) (cmd : EngCmd) (x : Word64 := 0) (started : Bool := false) : Core :=
  { core0 with queues := [(q, { entries := [{ cmd := cmd, opnd := x, started := started }] })] }

theorem witness_SettleAndRenewEvents :
    (let s := dev (queued 5 (.settle 0x10000))
     startable (s.core s.here.core) 5 = some { cmd := .settle 0x10000 } ∧ (∃ x, engLookup s 0 { rw_ with localOnly := true } 0x10000 = .ok x) ∧ Coherent s 0) ∧
    (let s := dev (queued 5 (.settle 0x2000000))
     startable (s.core s.here.core) 5 = some { cmd := .settle 0x2000000 } ∧ ∀ x, engLookup s 0 { rw_ with localOnly := true } 0x2000000 ≠ .ok x) ∧
    (let s := { dev core0 with settles := [⟨0, 0, none, [0], [(5, 1, 7, false)], []⟩], here := { pa := 0xA0 } }
     (∃ st ∈ s.settles, st.region = s.here.pa / 65536 ∧ s.here.idx ∈ st.slices) ∧ s.settles = [] ++ ⟨0, 0, none, [0], [(5, 1, 7, false)], []⟩ :: [] ∧
       s.here.pa / 32 = 5 ∧ s.vrst = []) ∧
    (∀ x ∈ (dev core0).settles, ∀ y ∈ x.sectors, y.1 ≠ (dev core0).here.pa / 32) ∧
    (let s := dev (queued 5 (.renew 0x10000 .core))
     s.renews.find? (fun r => r.core == s.here.core) = none ∧ startable (s.core s.here.core) 5 = some { cmd := .renew 0x10000 .core } ∧
       ∃ x, engLookup s 0 { rw_ with localOnly := true } 0x10000 = .ok x) ∧
    (let s := dev (queued 5 (.renew 0x2000000 .core))
     startable (s.core s.here.core) 5 = some { cmd := .renew 0x2000000 .core } ∧ ∀ x, engLookup s 0 { rw_ with localOnly := true } 0x2000000 ≠ .ok x) ∧
    (let s := { dev core0 with renews := [⟨0, 0, .core, [], []⟩] }
     s.renews.find? (fun r => r.core == s.here.core) = some ⟨0, 0, .core, [], []⟩ ∧ s.here.sub = 0 ∧ s.here.idx ∈ renewCores s 0 .core ∧ s.here.idx ∉ ([] : List Nat) ∧
       Coherent s s.here.idx) := by
  exact ⟨⟨by decide, ⟨_, (like_plain _ rfl).eng_low _ _ (by decide)⟩, coherent_dev _ rfl (by decide)⟩, ⟨by decide, (like_plain _ rfl).eng_high _ _ (by decide)⟩,
    by decide, by decide, ⟨by decide, by decide, ⟨_, (like_plain _ rfl).eng_low _ _ (by decide)⟩⟩, ⟨by decide, (like_plain _ rfl).eng_high _ _ (by decide)⟩,
    by decide, rfl, by decide, by decide, Still.coherent ⟨⟨by decide, rfl⟩, rfl, rfl⟩⟩

/-- A block of one stream of bytes and the program "push stream 0", with its output at 0x400000 and its input at 0x800000; and one
whose output begins beyond 2 TiB. -/
def blockNum (out : Nat) : Nat := 2 ^ 53 + 2 ^ 48 + 8 * 2 ^ 25 + 8 * 2 ^ 5 + out * 2 ^ 64 + (out + 0x400000) * 2 ^ 128
def withBlock (x : Nat) (count : Word64) : State :=
  { dev (queued 4 (.bank 0x100 count)) with arrays := tsetRange 0 [] (sramBase + 0x100) (leBytes 96 x) }

theorem holds_block (x : Nat) (count : Word64) (h : (List.range 96).all (fun j =>
    BitVec.ofNat 8 (x / 2 ^ (8 * j)) == homeByte (withBlock x count) (sramBase + (0x100 + j))) = true) :
    ∀ j, j < 96 → ∃ y, engLookup (withBlock x count) 0 { r := true, localOnly := true } (0x100 + j) = .ok y ∧
      BitVec.ofNat 8 (x / 2 ^ (8 * j)) = homeByte (withBlock x count) y.pa := by
  intro j hj
  have l : Like (withBlock x count) := ⟨rfl, rfl, rfl, rfl, rfl, rfl, rfl, rfl⟩
  exact ⟨_, l.eng_low _ _ (by omega), eq_of_beq (List.all_eq_true.mp h j (List.mem_range.mpr hj))⟩

def command : BankCmd :=
  { core := 0, die := 0, rm := 0, esz := 1, ops := [0], consts := [0, 0, 0, 0], fin := [8, 0, 0, 0], fout := 8, ins := [0x800000], out := 0x400000,
    count := 5, map := [(0, sramBase)], accepted := true, tiles := [128] }

theorem witness_BankEvents :
    (let s := dev (queued 4 (.bank 0x100 0))
     startable (s.core s.here.core) 4 = some { cmd := .bank 0x100 0 } ∧ Fresh { cmd := .bank 0x100 0 }) ∧
    (let s := dev (queued 4 (.bank 0x101 1))
     startable (s.core s.here.core) 4 = some { cmd := .bank 0x101 1 } ∧ (0x101 : Word64).toNat % 32 ≠ 0) ∧
    (let s := { dev (queued 4 (.bank 0x100 1)) with here := { sub := 1 } }
     startable (s.core s.here.core) 4 = some { cmd := .bank 0x100 1 } ∧ s.here.sub ≠ 0 ∧
       ∀ j, j < 96 → ∃ y, engLookup s 0 { r := true, localOnly := true } (0x100 + j) = .ok y) ∧
    (let e : Entry := { cmd := .bank 0x100 1, started := true, work := true, rd := [8, 9], mr := [(0, { pa := sramBase })] }
     let s := { dev { core0 with queues := [(4, { entries := [e] })] } with here := { sub := 1 } }
     running (s.core s.here.core) 4 = some e ∧ s.here.sub ≠ 0 ∧ 8 = (0x100 : Word64).toNat / 32 + (s.here.sub - 1) ∧ 8 ∈ e.rd ∧ (∃ k ∈ e.rd, k ≠ 8) ∧
       inSpans e.mr (32 * 8) = some { pa := sramBase + 256 } ∧ s.vrst = [] ∧ Canonical s ∧ CleanSlices s) ∧
    (let s := withBlock (blockNum 0x400000) 5
     let f := blockOf (blockNum 0x400000)
     let m := xlatSpans s 0 { rw_ with localOnly := true } (((f.out :: f.ins.take f.nin).map (fun v => (streamSpans v 5).1)).flatten.foldl (fun l a => keyIn a l) [])
     startable (s.core s.here.core) 4 = some { cmd := .bank 0x100 5 } ∧ s.vrst = [] ∧ Canonical s ∧ CleanSlices s ∧
       (∀ j, j < 96 → ∃ y, engLookup s 0 { r := true, localOnly := true } (0x100 + j) = .ok y ∧
         BitVec.ofNat 8 (blockNum 0x400000 / 2 ^ (8 * j)) = homeByte s y.pa) ∧
       blockBad f = false ∧ (∀ v ∈ f.out :: f.ins.take f.nin, v + 5 ≤ 2 ^ 41) ∧ m.2 = [] ∧
       placementBad s f (m.1.map (fun y => (y.1, y.2.pa))) 5 = false) ∧
    (let s := withBlock (blockNum 0x20000000000) 5
     let f := blockOf (blockNum 0x20000000000)
     (∀ j, j < 96 → ∃ y, engLookup s 0 { r := true, localOnly := true } (0x100 + j) = .ok y ∧
       BitVec.ofNat 8 (blockNum 0x20000000000 / 2 ^ (8 * j)) = homeByte s y.pa) ∧
       blockBad f = false ∧ ∃ v ∈ f.out :: f.ins.take f.nin, 2 ^ 41 < v + 5) ∧
    blockBad (blockOf 0) = true ∧
    (let s := { dev core0 with banks := [{ command with accepted := false }] }
     s.banks = [] ++ { command with accepted := false } :: [] ∧ ({ command with accepted := false } : BankCmd).core = s.here.core) ∧
    (let s := { dev core0 with banks := [command] }
     s.banks = command :: [] ∧ command.core = s.here.core ∧ command.accepted = true ∧ command.tiles = [] ++ 128 :: [] ∧
       bankOf command 128 = s.here.idx ∧ command.esz = 1 ∧ command.out % command.esz = 0 ∧ (∃ m ∈ command.map, m.1 = 128 * 32768 / 2 ^ 25) ∧
       s.arrPoison = [] ∧ command.poison = false ∧ (4 < command.count ∧ (command.out + 4 * command.esz) / 32768 = 128)) := by
  refine ⟨⟨by decide, rfl⟩, by decide, ⟨by decide, by decide, fun j h => ⟨_, (like_plain _ rfl).eng_low _ _ (by omega)⟩⟩,
    ⟨by decide, by decide, by decide, by decide, by decide, by decide, rfl, ⟨by decide, rfl⟩, cleanSlices_of _ rfl rfl⟩,
    ⟨by decide +kernel, rfl, ⟨by decide, rfl⟩, cleanSlices_of _ rfl rfl, holds_block _ _ (by decide +kernel), by decide +kernel, by decide +kernel,
      by decide +kernel, by decide +kernel⟩,
    ⟨holds_block _ _ (by decide +kernel), by decide +kernel, by decide +kernel⟩, by decide +kernel, by decide, by decide⟩

/-! ## Witnesses: the engines' entries -/

/-- Descriptors: 2 × 4 of BF16 at scratchpad byte 0, the same in memory at 0x100, and 4 rows of 4 words of F32 at 0 and at 0x400. -/
def sZero : TDesc := ⟨0x0221000000000000, 0x0001000000000004, 2, 4⟩
def mBf : TDesc := ⟨0x0201000000000100, 0x0001000000000004, 2, 4⟩
def sTab : TDesc := ⟨0x0220000000000000, 0x0001000000000004, 4, 4⟩
def sDense : TDesc := ⟨0x0220000000000400, 0x0001000000000004, 4, 4⟩

/-- Two rows are taken, by a list of zeros at VA 0x100. -/
def twoRows : Word64 := 0x0002000000000100

theorem witness_EngineEvents_moves :
    (let s := dev (queued 0 (.cpy tScr sTab))
     startable (s.core s.here.core) 0 = some { cmd := .cpy tScr sTab } ∧ cpyBad tScr sTab 0 = true ∧ Fresh { cmd := .cpy tScr sTab }) ∧
    (let s := dev (queued 0 (.cpy tFar sZero))
     startable (s.core s.here.core) 0 = some { cmd := .cpy tFar sZero } ∧ cpyBad tFar sZero 0 = false ∧ tFar.scratch = true ∧
       0 < tFar.count ∧ ¬ (elemBit tFar false 0 + (tFar.width : Int) ≤ (((s.core s.here.core).scrBytes * 8 : Nat) : Int))) ∧
    (let s := dev (queued 0 (.cpy tScr sZero) 0x100)
     startable (s.core s.here.core) 0 = some { cmd := .cpy tScr sZero, opnd := 0x100 } ∧ cpyBad tScr sZero 0x100 = false ∧ tScr.scratch = true ∧
       sZero.scratch = true ∧ tScr.width % 8 = 0 ∧ s.here.sub = 0 ∧ s.vrst = [] ∧ Canonical s ∧ CleanSlices s ∧
       Fresh { cmd := .cpy tScr sZero, opnd := 0x100 } ∧
       (∀ i ∈ List.range tScr.count, 0 ≤ elemBit tScr false i ∧ elemBit tScr false i + 16 ≤ (((s.core s.here.core).scrBytes * 8 : Nat) : Int) ∧
         0 ≤ elemBit sZero false i ∧ elemBit sZero false i + 16 ≤ (((s.core s.here.core).scrBytes * 8 : Nat) : Int)) ∧
       ∀ j ∈ List.range tScr.count, j ≠ 0 → Apart 16 (elemBit tScr false 0) (elemBit tScr false j)) ∧
    (let s := dev (queued 0 (.cpy tScr mBf))
     startable (s.core s.here.core) 0 = some { cmd := .cpy tScr mBf } ∧ cpyBad tScr mBf 0 = false ∧ mBf.scratch = false ∧ s.vrst = [] ∧
       (∀ i ∈ List.range tScr.count, ∀ k ∈ List.range 2, (BitVec.ofInt 64 (elemBit mBf false i / 8)).toNat + k < 2 ^ 25) ∧
       ∀ a, a < 2 ^ 25 → ∃ y, engLookup s 0 { r := true } a = .ok y ∧ y.dev = none) ∧
    (let s := dev { core0 with queues := [(0, { entries := [{ cmd := .cpy tScr sZero, opnd := 0x101, started := true, tags := [1] }] })] }
     let s := { s with here := { idx := 1 } }
     (∃ e, running (s.core s.here.core) 0 = some e ∧ s.here.idx ∈ e.tags ∧ (∀ u ∈ e.wr, u / 256 ≠ s.here.idx) ∧ e.absR = [] ∧ e.absW = []) ∧
       twf ({} : Mt) (s.core s.here.core).mts = true) ∧
    (let s := { dev { core0 with queues := [(0, { entries := [{ cmd := .cpy tScr sZero, started := true, work := true, wr := [0, 1] }] })] } with
       here := { sub := 2, pa := 8 } }
     (∃ e, running (s.core s.here.core) 0 = some e ∧ e.cmd = .cpy tScr sZero ∧ e.work = true ∧ 1 ∈ e.wr) ∧ tScr.scratch = true ∧ sZero.scratch = true ∧
       s.here.sub = 2 ∧ s.here.pa / 8 = 1) ∧
    (let s := dev (queued 2 (.scat tScr sDense) twoRows)
     startable (s.core s.here.core) 2 = some { cmd := .scat tScr sDense, opnd := twoRows } ∧ gatherBad tScr sDense twoRows.toNat = true ∧ Fresh { cmd := .scat tScr sDense, opnd := twoRows }) ∧
    (let s := dev (queued 2 (.gath sDense sTab) twoRows)
     startable (s.core s.here.core) 2 = some { cmd := .gath sDense sTab, opnd := twoRows } ∧ gatherBad sTab sDense twoRows.toNat = false ∧
       sTab.scratch = true ∧ sDense.scratch = true ∧ sDense.width % 8 = 0 ∧ s.here.sub = 0 ∧ s.vrst = [] ∧ Canonical s ∧ CleanSlices s ∧
       Fresh { cmd := .gath sDense sTab, opnd := twoRows } ∧ twoRows.toNat / 2 ^ 48 = 2 ∧ twoRows.toNat % 2 ^ 48 = 0x100 ∧
       (∀ i k, i < 2 → k < 4 → ∃ y, engLookup s 0 { r := true } (0x100 + 4 * i + k) = .ok y ∧ y.dev = none ∧
         BitVec.ofNat 8 (0 / 2 ^ (8 * k)) = homeByte s y.pa) ∧ 0 < sTab.dim 1 ∧
       ∀ i ∈ List.range 2, ∀ j ∈ List.range 4, 0 ≤ rowBit sDense i j ∧ rowBit sDense i j + 32 ≤ (((s.core s.here.core).scrBytes * 8 : Nat) : Int) ∧
         0 ≤ rowBit sTab 0 j ∧ rowBit sTab 0 j + 32 ≤ (((s.core s.here.core).scrBytes * 8 : Nat) : Int)) := by
  refine ⟨⟨by decide, by decide, rfl⟩, by decide,
    ⟨by decide, by decide, by decide, by decide, by decide, rfl, rfl, ⟨by decide, rfl⟩, cleanSlices_of _ rfl rfl, rfl, by decide, by unfold Apart; decide⟩, ⟨by decide, by decide, by decide, rfl, by decide, fun a h => ⟨_, (like_plain _ rfl).eng_low _ _ h, rfl⟩⟩,
    ⟨⟨_, rfl, by decide, by decide, rfl, rfl⟩, by decide +kernel⟩, ⟨⟨_, rfl, rfl, rfl, by decide⟩, by decide, by decide, rfl, by decide⟩, ⟨by decide, by decide, rfl⟩,
    by decide, by decide, by decide, by decide, by decide, rfl, rfl, ⟨by decide, rfl⟩, cleanSlices_of _ rfl rfl, rfl, by decide, by decide, fun i k hi hk => ?_, by decide,
    by decide⟩
  refine ⟨_, (like_plain _ rfl).eng_low _ _ (by omega), rfl, ?_⟩
  simp [homeByte, State.slice, State.arrByte, dev, State.reset, tget]

/-- A product of a 2 × 4 matrix with another, transposed, on tile 0 within 32 rows; one on too few rows; a zeroed tile, the last one and
the first that is not there. -/
theorem witness_EngineEvents_matrix :
    (let s := dev (queued 1 (.mmac 0 1 tScr sZero none 0 0 true false 32))
     let j : MatJob := ⟨0, tScr, sZero, true, false, 4, 2, 2, none⟩
     running (s.core s.here.core) 1 = none ∧
       startable (s.core s.here.core) 1 = some { cmd := .mmac 0 1 tScr sZero none 0 0 true false 32 } ∧ s.here.sub = 0 ∧
       matError (s.core s.here.core) j 32 = 0 ∧ matError (s.core s.here.core) j 1 = 5 ∧ tScr.dim 0 = 4 ∧ sZero.nrows = 2 ∧ tScr.nrows = 2) ∧
    (let s := dev (queued 1 (.mzero 15))
     running (s.core s.here.core) 1 = none ∧ startable (s.core s.here.core) 1 = some { cmd := .mzero 15 } ∧ twf (0 : Word32) (s.core s.here.core).acc = true ∧
       (15 : ZName).toNat < (s.core s.here.core).accTiles) ∧
    (let s := dev { queued 1 (.mzero 15) with launch := some { placeLaunch with pool := BitVec.ofNat 32 (8 + 7 * 2 ^ 14) } }
     (s.core s.here.core).accTiles ≤ (15 : ZName).toNat) := by
  decide +kernel

/-- A group of one member, core 0, in a table of one entry at PA 0. -/
def grouped (d a : TDesc) (started work : Bool) : State :=
  { dev { core0 with queues := [(3, { entries := [{ cmd := .coll d a, started := started, work := work }] })] } with
    cgda := [(0, 0x8000000000000005)], cgdb := [(0, 0)] }
def mF32 : TDesc := ⟨0x0100000000000100, 0x0001000000000004, 0, 0⟩

theorem witness_QueueEvents :
    (let s := grouped mF32 sTab false false
     startable (s.core s.here.core) 3 = some { cmd := .coll mF32 sTab } ∧ collBad mF32 sTab 0 (collTable s 0).1.length = true ∧ Canonical s) ∧
    (let s := grouped mF32 mF32 false false
     startable (s.core s.here.core) 3 = some { cmd := .coll mF32 mF32 } ∧ (collTable s 0).1 = [(0, 0)] ∧ (s.devnum.toNat, s.here.core) ∈ (collTable s 0).1 ∧
       collBad mF32 mF32 0 (collTable s 0).1.length = false ∧ (collSpans s 0 mF32 mF32).1.2 = [] ∧ (collSpans s 0 mF32 mF32).2.2 = []) ∧
    (let s := grouped mF32 mF32 true true
     let l := (collTable s s.here.idx).1
     let u := (collTable s s.here.idx).2
     (collReady u s.here.idx l).map List.length = some 1 ∧ (∀ m ∈ l, m.1 = s.devnum.toNat) ∧
       twf ({} : Core) s.cores = true ∧ (∃ e, running (s.core s.here.core) 3 = some e ∧ e.cmd = .coll mF32 mF32 ∧ e.work = true) ∧
       (tget 0 s.cgda 0).toNat % 2 ^ 32 ≠ 0 ∧ collFrozen u l = false) ∧
    (let s := dev (queued 0 (.cpy tScr sZero) 0 true)
     twf ({} : Core) s.cores = true ∧ (∃ e, (((s.core 0).queue 0).entries = [e] ∧ entryDone s 0 0 e = true))) ∧
    (let s := dev (queued 0 (.cpy tScr sZero))
     ∃ e, (((s.core 0).queue 0).entries = [e] ∧ entryDone s 0 0 e = false)) ∧
    (let s := dev { core0 with queues := [(0, { entries := [{ cmd := .marker 7 3 }] }), (1, { entries := [{ cmd := .marker 7 3 }, { cmd := .mzero 0 }], held := true })] }
     headMarker (s.core 0) 0 = some (7, 3) ∧ (∀ n ∈ List.range 6, (3 : Nat).testBit n = true → headMarker (s.core 0) n = some (7, 3)) ∧
       (63 : Word64).toNat < 64 ∧ (63 : Word64).getLsbD 1 = true ∧ ((s.core 0).queue 1).held = true) ∧
    (let s := dev (queued 0 (.marker 7 3))
     headMarker (s.core 0) 0 = some (7, 3) ∧ (3 : Nat).testBit 1 = true ∧ headMarker (s.core 0) 1 ≠ some (7, 3)) ∧ 64 ≤ (64 : Word64).toNat := by
  refine ⟨⟨by decide +kernel, by decide +kernel, by decide, rfl⟩, by decide +kernel, ⟨by decide +kernel, by decide +kernel, by decide +kernel, ⟨_, rfl, rfl, rfl⟩, by decide, by decide +kernel⟩,
    ⟨by decide +kernel, _, rfl, by decide⟩, ⟨_, rfl, by decide⟩, by decide, by decide, by decide⟩

/-- Two members, whose entries agree or differ in their kind; an entry that has kept its place. -/
def pairOf (x : Word64) : State :=
  let e : Entry := { cmd := .coll mF32 mF32, started := true, work := true, turn := 1 }
  { dev core0 with
    cores := [(0, { core0 with queues := [(3, { entries := [e] })] }), (1, { core0 with queues := [(3, { entries := [{ e with memb := 1, opnd := x }] })] })],
    cgda := [(0, 0x8000040000000005)], arrays := [(9, 0x10)] }
def keysOf (x : Word64) : Option (List (Nat × Nat)) :=
  let s := pairOf x
  (collReady (collTable s 0).2 0 (collTable s 0).1).map (fun es => es.map (fun y => (y.2.1.opnd.toNat / 65536 % 8, y.2.2.2.count)))
theorem witness_QueueEvents_members :
    (collTable (pairOf 0) 0).1 = [(0, 0), (0, 1)] ∧ Canonical (pairOf 0) ∧ Canonical (pairOf 0x10000) ∧ (pairOf 0).here.sub = 0 ∧
      keysOf 0 = some [(0, 4), (0, 4)] ∧ keysOf 0x10000 = some [(0, 4), (1, 4)] ∧
    (let s := { dev { core0 with queues := [(3, { entries := [{ cmd := .coll mF32 mF32, turn := 1 }] })] } with
       cgda := [(0, 0x8000000000000005)], cgdb := [(0, 0)] }
     startable (s.core s.here.core) 3 = some { cmd := .coll mF32 mF32, turn := 1 } ∧ (collTable s 0).1 ≠ [] ∧
       collBad mF32 mF32 0 (collTable s 0).1.length = false ∧ (collSpans s 0 mF32 mF32).1.2 = [] ∧ (collSpans s 0 mF32 mF32).2.2 = []) :=
  ⟨by decide +kernel, ⟨by decide, rfl⟩, ⟨by decide, rfl⟩, rfl, by decide +kernel, by decide +kernel, by decide +kernel⟩

/-- A source of four words at 0x100, the first of them 1, that two members sum into 0x200 and 0x300. -/
def summand (d : TDesc) (m : Nat) : Entry :=
  { cmd := .coll d mF32, memb := m, started := true, work := true, turn := 1, rd := unitsOf mF32 (allBits mF32), mr := [(0, { pa := sramBase })],
    mw := [(0, { pa := sramBase })] }
def into (a : Word64) : TDesc := ⟨0x0100000000000000 + a, 0x0001000000000004, 0, 0⟩
def summing : State :=
  { dev core0 with
    cores := [(0, { core0 with queues := [(3, { entries := [summand (into 0x200) 0] })] }), (1, { core0 with queues := [(3, { entries := [summand (into 0x300) 1] })] })],
    cgda := [(0, 0x8000040000000005)], arrays := [(9, 0x10), (sramBase + 0x100, 1)] }

theorem summing_home (a : Word64) (h : a = 0x100 ∨ a = 0x200 ∨ a = 0x300) : TensorHome [(0, { pa := sramBase })] (into a) := by
  obtain rfl | rfl | rfl := h <;>
    (refine ⟨by decide, by decide, fun i k hi hk => ?_⟩
     have hi : i < 4 := hi
     have hk : k < 4 := hk
     interval_cases i <;> interval_cases k <;> exact ⟨by decide, _, rfl, rfl⟩)

theorem witness_QueueEvents_data :
    let s := summing
    let l := (collTable s 0).1
    let val := fun (_ i : Nat) => if i = 0 then 1 else 0
    let key := fun (y : Waiter) => (y.2.1.opnd.toNat / 65536 % 8, y.2.2.2.fmt, y.2.2.2.count)
    ∃ es, collReady (collTable s 0).2 0 l = some es ∧ (∀ m ∈ l, m.1 = s.devnum.toNat) ∧ Canonical s ∧ s.vrst = [] ∧ s.here.sub = 0 ∧
      (∀ o x, collOf s o 0 = some x → x.1.work = true → x.1.wr = []) ∧ (∀ y ∈ es, ∀ z ∈ es, key y = key z) ∧
      ∀ y ∈ es, collBad y.2.2.1 y.2.2.2 y.2.1.opnd.toNat l.length = false ∧ y.2.1.got = [] ∧ y.2.1.absR = [] ∧ y.2.1.absW = [] ∧
        y.2.1.rd = unitsOf y.2.2.2 (allBits y.2.2.2) ∧ TensorHome y.2.1.mr y.2.2.2 ∧ TensorHome y.2.1.mw y.2.2.1 ∧
        ∀ i k x, i < y.2.2.2.count → val y.2.1.memb i < 2 ^ y.2.2.2.width ∧ (k < y.2.2.2.width / 8 → elemAt y.2.1.mr y.2.2.2 i k = some x →
          BitVec.ofNat 8 (val y.2.1.memb i / 2 ^ (8 * k)) = homeByte s x.pa) := by
  have src : ∀ i k x, i < 4 → k < 4 → elemAt [(0, { pa := sramBase })] mF32 i k = some x →
      BitVec.ofNat 8 ((if i = 0 then 1 else 0) / 2 ^ (8 * k)) = homeByte summing x.pa := by
    intro i k x hi hk hx
    interval_cases i <;> interval_cases k <;> (cases hx; decide +kernel)
  refine ⟨[(0, summand (into 0x200) 0, into 0x200, mF32), (1, summand (into 0x300) 1, into 0x300, mF32)], by decide +kernel, by decide +kernel,
    ⟨by decide, rfl⟩, rfl, rfl, fun o x h _ => ?_, by decide, fun y hy => ?_⟩
  · by_cases h0 : o = 0
    · subst h0
      cases h
      rfl
    · by_cases h1 : o = 1
      · subst h1
        cases h
        rfl
      · have : State.core summing o = {} := by simp [State.core, summing, tget, Ne.symm h0, Ne.symm h1]
        unfold collOf at h
        rw [this] at h
        cases h
  · simp only [List.mem_cons, List.not_mem_nil, or_false] at hy
    obtain rfl | rfl := hy
    · exact ⟨by decide +kernel, rfl, rfl, rfl, rfl, summing_home 0x100 (by simp), summing_home 0x200 (by simp), fun i k x hi =>
        ⟨by dsimp only; split <;> decide, fun hk hx => src i k x hi hk hx⟩⟩
    · exact ⟨by decide +kernel, rfl, rfl, rfl, rfl, summing_home 0x100 (by simp), summing_home 0x300 (by simp), fun i k x hi =>
        ⟨by dsimp only; split <;> decide, fun hk hx => src i k x hi hk hx⟩⟩

/-! ## Witnesses: scheduler, management and mailbox -/

/-- A queue of 16 records at VA 0x10000 with one record published: entry 0x1000, the pool of the small device, one level of one
micro-thread; partition 0 has quad 0 and context 0. -/
def published : State :=
  { State.reset with
    ctxd := [(0, 1)], span := [(0, spanAll)], pcfg := [(0, 0x10)], qmap := [(0, 8)], lq := [(0, { lqd := 0x10401 })]
    arrays := tsetRange 0 [(sramBase + 0x10000, 1), (sramBase + 0x10101, 0x10)] (sramBase + 0x10110)
      (leBytes 40 (placeLaunch.pool.toNat + 0x1000 * 2 ^ 32 + 0x100001 * 2 ^ 256)) }

def rec0 : Nat := 0x1000 + (placeLaunch.pool.toNat + 0x1000 * 2 ^ 32 + 0x100001 * 2 ^ 256) * 2 ^ 128
def launch0 : Launch := { cores := [0], record := leBytes 24 (0x04000000 * 2 ^ 160), chosen := true }
def running0 (c : Core) : State := { dev c with launches := [launch0] }
def saved0 : Saved := { launch := launch0, images := [], places := [], at_ := 0, saving := true, gang := false, ready := false }

theorem pair_of {α β : Type} {x : α × β} {a : α} (h : x.1 = a) : x = (a, x.2) := by rw [← h]

theorem witness_SchedulerEvents_passes :
    (let s := dev core0
     (15 : Word64).toNat < 16 ∧ 16 ≤ (16 : Word64).toNat ∧ (∀ x ∈ holders s, ∀ o ∈ x.cores, o / 4 ≠ 127) ∧ s.saved = [] ∧ s.launches = [] ∧
       (∃ y, spanXlat s 0 (partCtx s 0) ((0x10401 : Word64).toNat / 4096 % 2 ^ 36 * 4096) { r := true } = .ok y ∧ y.dev = none) ∧
       (∀ y, spanXlat s 0 (partCtx s 0) ((0x2000401 : Word64).toNat / 4096 % 2 ^ 36 * 4096) { r := true } ≠ .ok y) ∧
       (lqOf s 0 0).lqd.getLsbD 0 = false ∧ (lqOf s 0 0).held = [] ∧ s.vrst = [] ∧ NoPoison s ∧ homeNum s (sramBase + 0x10000 + 8) 4 = homeNum s (sramBase + 0x10000 + 12) 4) ∧
    (let s := running0 core0
     ∃ x ∈ s.launches, ∃ o ∈ x.cores, o / 4 = s.here.idx) ∧
    (let s := { dev core0 with qmapHeld := [(0, 17)] }
     tget 0 s.qmapHeld s.here.idx ≠ 0) ∧
    ((0x10401 : Word64).toNat / 2 ^ 48 = 0 ∧ (0x10401 : Word64).toNat / 2 % 16 = 0 ∧ (0x10401 : Word64).getLsbD 0 = true ∧ 4 ≤ (0x10401 : Word64).toNat / 256 % 16) ∧
    (0x10301 : Word64).toNat / 256 % 16 = 3 ∧ (0x10C01 : Word64).toNat / 256 % 16 = 12 ∧
    ((lqOf published 0 0).lqd.getLsbD 0 = true ∧ published.boot = 0 ∧ Canonical published ∧ published.saved = [] ∧
      (∀ k, k ≠ 16 * 0 + 0 → (tget {} published.lq k).lqd.getLsbD 0 = false) ∧
      ∃ n r s1 s2 s3 tens stale, headRecord published 0 0 = (some (n, r), s1) ∧ afterDone s1 0 r = (true, s2) ∧
        judge s2 0 0 n r = (.fine tens stale, s3) ∧ recNlev r = 1 ∧ freeCores published 0 (recMat r) [] ≠ []) := by
  have hr : (headRecord published 0 0).1 = some (0, rec0) := by decide +kernel
  refine ⟨⟨by decide, by decide, by simp [holders, dev, State.reset], rfl, rfl, ⟨_, span_low 0x10000 _ (by decide), rfl⟩, ?_, by decide, by decide, rfl,
    noPoison_plain _ rfl, by decide⟩, by decide, by decide, by decide, by decide, by decide,
    ⟨by decide, rfl, ⟨by decide, rfl⟩, rfl, fun k hk => ?_, 0, rec0, (headRecord published 0 0).2, (afterDone (headRecord published 0 0).2 0 rec0).2,
      (judge (afterDone (headRecord published 0 0).2 0 rec0).2 0 0 0 rec0).2, [], 0, pair_of hr, pair_of (by decide +kernel),
      pair_of (by decide +kernel), by decide +kernel, by decide +kernel⟩⟩
  · exact (like_plain core0 rfl).eng_high _ 0x2000000 (by decide)
  · simp [published, tget, Ne.symm hk]

def saved1 : Saved := { saved0 with saving := false, gang := true }
def stopped : State := { dev core0 with gangs := [(0, { state := 2, granules := [0x10000000000] })], saved := [saved1] }

theorem witness_SchedulerEvents_launches :
    (let s := running0 core0
     launchOn s s.here.core = some launch0 ∧ launch0.chosen = true ∧ recPre (leNat launch0.record) = true ∧ s.cv.live = false ∧
       (∀ o ∈ launch0.cores, (s.core o).halted = false ∧ NoLate (s.core o)) ∧ partEnds (s.core 0) = false) ∧
    (let s := running0 { core0 with mts := [(0, { code := 0 })], ct := { ending := true, active := true } }
     partEnds (s.core 0) = true ∧ 0 ∉ launch0.ended ∧ (∀ o ∈ launch0.cores, o = 0 ∨ o ∈ launch0.ended) ∧ twf ({} : Core) s.cores = true) ∧
    (let s := { running0 { core0 with mts := [(0, { code := 0 })], ct := { ending := true, active := true } } with qmapHeld := [(0, 17)] }
     s.saved = [] ∧ twf (0 : Word64) s.qmapHeld = true ∧ tget 0 s.qmapHeld 0 ≠ 0) ∧
    (let s := { dev core0 with saved := [saved0] }
     s.saved[0]? = some saved0 ∧ saved0.saving = true ∧ s.here.core ∈ saved0.launch.cores ∧ twf ({} : Core) s.cores = true ∧ s.cv.live = false ∧
       (∀ o ∈ saved0.launch.cores, (s.core o).halted = false ∧ coreDrained (s.core o) saved0.gang = true)) ∧
    (let s := running0 { core0 with mts := [(0, { code := 4, record := [0x1100000000000000] })] }
     let m := (s.core s.here.core).mt s.here.idx
     launchOn s s.here.core = some launch0 ∧ m.code = 4 ∧ kindOf m.record = 17 ∧ s.cv.live = false ∧
       (∀ o ∈ launch0.cores, (s.core o).halted = false ∧ twf ({} : Mt) (s.core o).mts = true ∧ NoLate (s.core o))) ∧
    (let s := { dev { core0 with mts := [(0, { code := 4, record := [0x1100000000000000] })] } with saved := [{ saved0 with gang := true }] }
     let m := (s.core s.here.core).mt s.here.idx
     launchOn s s.here.core = none ∧ stoppingGang s s.here.core = some launch0 ∧ m.code = 4 ∧ kindOf m.record = 17 ∧
       (∀ o ∈ launch0.cores, twf ({} : Mt) (s.core o).mts = true) ∧ s.here.core ∈ launch0.cores) ∧
    (gangSaved stopped 0 (tget {} stopped.gangs 0) = some 0 ∧ stopped.saved[0]? = some saved1 ∧ (tget {} stopped.gangs 0).state = 2 ∧
      (tget {} stopped.gangs 0).more = false ∧ (tget {} stopped.gangs 0).granules = [0x10000000000] ∧ granuleHolds stopped 0x10000000000 = false ∧
      granuleHolds stopped 0x8000000000000000 = true) := by
  have late : ∀ (m : Mt), m.late = [] → NoLate { core0 with mts := [(0, m)] } := by
    intro m h
    refine ⟨rfl, fun i => ?_⟩
    simp only [Core.mt, tget]
    repeat' split
    all_goals first | exact h | rfl
  refine ⟨⟨by decide +kernel, by decide +kernel, by decide +kernel, by decide +kernel, fun o ho => ?_, by decide +kernel⟩, by decide +kernel, by decide, by decide +kernel,
    ⟨by decide +kernel, by decide +kernel, by decide +kernel, by decide +kernel, fun o ho => ?_⟩, by decide +kernel, by decide +kernel⟩
  all_goals
    have : o = 0 := by simpa [launch0] using ho
    subst this
  · exact ⟨rfl, late { code := 2 } rfl⟩
  · exact ⟨rfl, by decide +kernel, late { code := 4, record := [0x1100000000000000] } rfl⟩

theorem witness_ManagementEvents :
    ((dev core0).spBusy = false ∧ Canonical (dev core0) ∧ (dev core0).cv.live = false ∧ (∀ e ∈ (dev core0).cores, ∀ m ∈ e.2.mts, m.2.parked = none) ∧
      (dev core0).boot ≠ 2 ∧ (3 : BitVec 2) = 3 ∧ (64 : BitVec 7).toNat ≤ 64 ∧ 64 < (65 : BitVec 7).toNat ∧ (dev core0).saved = [] ∧ (∀ l ∈ (dev core0).launches, l.part ≠ 7) ∧ ((dev core0).core 0).halted = false ∧ lanePick ((dev core0).core 0) 0 = none ∧
      (dev core0).tlbWaits = [] ∧ (dev core0).tlbPosts = []) ∧
    (let s := { dev core0 with spBusy := true, spPend := some (5, 7) }
     s.spBusy = true ∧ s.spPend = some (5, 7) ∧ ∀ e ∈ s.cores, ∀ q ∈ e.2.queues, ∀ y ∈ q.2.entries, ∀ k ∈ y.held, k % 2 ^ 20 ≠ 5) ∧
    (let s := { dev { core0 with queues := [(0, { entries := [{ cmd := .mzero 0, held := [5] }] })] } with spBusy := true, spPend := some (5, 7) }
     ∃ e ∈ s.cores, ∃ q ∈ e.2.queues, ∃ y ∈ q.2.entries, ∃ k ∈ y.held, k % 2 ^ 20 = 5) ∧
    (let s := { dev { core0 with l1 := [(0, { dirty := 1 })] } with tlbWaits := [(0, 0, 1)] }
     ∃ y ∈ s.tlbWaits, y.2.2.getLsbD 0 = true ∧ ((s.core y.1).line y.2.1).dirty.getLsbD 0 = true) ∧
    (let s := { dev core0 with tlbPosts := [3], posted := [(3, [(0, 0)])] }
     ∃ k ∈ s.tlbPosts, postedAhead s k = true) ∧
    (let s := { dev core0 with tlbPosts := [3] }
     ∀ k ∈ s.tlbPosts, postedAhead s k = false) ∧
    ((0x10 : Word64) &&& 0xFFFFF00000FFFFE0 = 0 ∧ (0x20 : Word64) &&& 0xFFFFF00000FFFFE0 ≠ 0) ∧
    (∃ l ∈ (running0 core0).launches, l.part = 0) ∧ 0x0F0008000000 ≤ 0x0F0008000000 ∧ 0x0F0000001001 % 8 ≠ 0 ∧
    (let s := dev { core0 with halted := true, dbgctl := 8, smpcnt := 0, smpctl := 0 }
     (s.core 0).halted = true ∧ launchOn s 0 = none ∧ (s.core 0).dbgctl.getLsbD 3 = true ∧ (s.core 0).smpctl.toNat / 2 ^ 32 % 16 = 0 ∧ (s.core 0).trsize = 0) ∧
    (let s := dev { ready 0x78000000 with dbgctl := 8, smpcnt := 1, smpctl := 0x100000001 }
     (s.core 0).trsize = 0 ∧ (s.core 0).dbgctl.getLsbD 3 = true ∧ (lanePick (s.core 0) (s.here.idx % 8)).isSome = true ∧ 0 < (s.core 0).smpcnt ∧ (s.core 0).smpctl.toNat % 2 ^ 32 ≤ (s.core 0).smpcnt) := by
  refine ⟨⟨rfl, ⟨by decide, rfl⟩, rfl, by simp [dev, core0], by decide, rfl, by decide, by decide, rfl, by simp [dev, State.reset], rfl, by decide +kernel, rfl, rfl⟩,
    ⟨rfl, rfl, by simp [dev, core0]⟩, by simp [dev, core0], by decide, by decide +kernel, by decide +kernel, by decide, by simp [running0, launch0, dev], by decide, by decide, by decide,
    by decide +kernel⟩

/-- The commands by their code, with the MARG and the PARAM that each takes, and those it refuses. -/
def mailbox (code param : Nat) (arg : Word64) : State := { dev core0 with mbusy := true, mcmd := BitVec.ofNat 64 (code * 2 ^ 56 + param), marg := arg }

theorem witness_MailboxEvents :
    (∀ code ∈ [1, 2, 3, 4, 5], let s := mailbox code 0 0
      s.mbusy = true ∧ s.mdone = false ∧ s.mcmd.toNat / 2 ^ 56 = code ∧ s.mcmd.toNat % 256 = 0) ∧
    ((mailbox 1 0 0x10000000040).marg.toNat % 64 = 0 ∧ (mailbox 1 0 0x10000000041).marg.toNat % 64 ≠ 0 ∧ 0x10000000040 / 2 ^ 57 = 0 ∧
      0x10000000040 / 2 ^ 46 % 2 ^ 11 = (mailbox 1 0 0x10000000040).devnum.toNat ∧ 0x10000000040 / 2 ^ 44 % 4 = 0 ∧
      InMem (mailbox 1 0 0x10000000040) (0x10000000040 % 2 ^ 44) ∧ (mailbox 1 0 0x10000000040).vrst = [] ∧
      ¬ BadGlobal (mailbox 1 0 0x10000000040) 0x10000000040 40960 ∧ ¬ BadGlobal (mailbox 3 0 0x10000000000) 0x10000000000 896 ∧
      ¬ BadGlobal (mailbox 5 0 (2 ^ 46)) (2 ^ 46) (64 + reportBytes) ∧
      (Config.certificate.length ≤ 4096 → ¬ BadGlobal (mailbox 5 0 0) 0 (64 + reportBytes)) ∧ BadGlobal (mailbox 1 0 0) (0x10000000000 + sramSize) 40960 ∧ BadGlobal (mailbox 3 0 (2 ^ 57)) (2 ^ 57) 896) ∧
    (7 < (mailbox 2 8 0).mcmd.toNat % 256 ∧ (mailbox 2 7 0).mcmd.toNat % 256 ≤ 7) ∧
    (let s := { running0 core0 with mbusy := true, mcmd := 0x0200000000000000 }
     ∃ l ∈ s.launches, l.part = 0 ∧ recPre (leNat l.record) = true ∧ ∀ o ∈ l.cores, coreFreeable s o = true) ∧
    (let s := { running0 core0 with mbusy := true, mcmd := 0x0200000000000000, saved := [{ saved0 with saving := false, images := [(0, {})], places := [none] },
        { saved0 with saving := false, images := [(0, {})], places := [some 0] }], qmap := [(0, 8)] }
     ∃ l ∈ s.launches, ¬ ∀ o ∈ l.cores, coreFreeable s o = true) ∧
    (let s := { mailbox 3 0 0x10000000000 with arrays := [(sramBase + 8, 1), (sramBase + 25, 1)] }
     let w := fun k => if k = 1 then 1 else if k = 3 then 256 else 0
     (∀ k, k < 18 → w k < 2 ^ 64) ∧ (∀ k ∈ List.range 18, ∀ j ∈ List.range 8, BitVec.ofNat 8 (w k / 2 ^ (8 * j)) = homeByte s (0x10000000000 % 2 ^ 44 + 8 * k + j)) ∧
       1 ≤ w 1 ∧ w 1 ≤ 8 ∧ (∀ k ∈ List.range (w 1), w (3 + 2 * k) ≠ 0 ∧ w (2 + 2 * k) + w (3 + 2 * k) ≤ 2 ^ 41) ∧ s.admitted = [] ∧ s.launches = [] ∧ s.saved = []) ∧
    ((mailbox 4 2 0).mcmd.toNat % 256 = 2 ∧ (mailbox 4 1 0x1000).marg.toNat % 4096 = 0 ∧ (mailbox 4 1 0x1000).dump = none ∧ dumping (mailbox 4 1 0x1000) = false ∧ Canonical (mailbox 4 1 0x1000)) ∧
    ({ mailbox 5 0 0 with boot := 2 }.boot = 2 ∧ (mailbox 5 0 0).boot ≠ 2) ∧
    ({ mailbox 5 0 0 with mdone := true }.mdone = true ∧ (mailbox 5 0 0).msaves = []) ∧
    (let s := { mailbox 4 0 0 with dump := some { pool := false, addr := 0, open_ := [1, 2], counts := [], entries := 0, failed := false }, here := { idx := 2 }, ports := 4 }
     ∃ d, s.dump = some d ∧ dumping s = true ∧ s.ports.getLsbD s.here.idx = true ∧ s.ports.getLsbD 3 = false ∧ s.here.idx ∈ d.open_ ∧ (∃ k ∈ d.open_, k ≠ 2) ∧ d.failed = false) := by
  refine ⟨by decide, ⟨by decide, by decide, by decide, by decide, by decide, by unfold InMem; decide, rfl, by unfold BadGlobal InMem; decide,
      by unfold BadGlobal InMem; decide, fun h => ?_, fun hc h => ?_, by unfold BadGlobal InMem; decide, by unfold BadGlobal InMem; decide⟩,
    by decide, by decide +kernel, by decide +kernel,
    ⟨fun k _ => ?_, by decide +kernel, by decide, by decide, by decide, rfl, rfl, rfl⟩, ⟨by decide, by decide, rfl, by decide, ⟨by decide, rfl⟩⟩,
    by decide, by decide, ⟨_, rfl, by decide, by decide, by decide, by decide, by decide, rfl⟩⟩
  · rcases h with h | h | h
    · exact h (by decide)
    · exact h (by decide)
    · exact absurd h.1 (by decide)
  · rcases h with h | h | ⟨_, h | h⟩
    · exact h (by decide)
    · exact h (by decide)
    · exact h (by unfold InMem; decide)
    · have e : (0 + (64 + reportBytes) - 1) % 2 ^ 44 = 303 + Config.certificate.length := by
        unfold reportBytes
        omega
      rw [e] at h
      apply h
      have w : windowOf (mailbox 5 0 0) (303 + Config.certificate.length) = .inter := by
        unfold windowOf
        have g : (8 * (mailbox 5 0 0).share * giB : Nat) = 2 ^ 37 := by decide
        rw [if_pos (by omega), g, if_pos (by omega)]
      unfold InMem
      rw [w]
      decide
  dsimp only
  split_ifs <;> omega


/-! ## Witnesses: words and steps -/

theorem witness_DecodeAndEncodeAgree : (encode (.gaddi true 5 5 16) = some 0x92142810 ∧ wellFormed (.gaddi true 5 5 16) = true) ∧
    (encode (.mtBcast 10 11) = some 0x00B5000B ∧ wellFormed (.mtBcast 10 11) = true ∧ ctSide (.mtBcast 10 11) = true) ∧
    decodeMt 0x7A00C000#32 = .ok (.brk false 0) := by decide

/-- A control thread at a 4-byte instruction, and at one of the C extension. -/
def atWord (pc : Word64) : State :=
  { dev { core0 with ct := { active := true, pc := pc } } with
    sched := [.run 0 .ct], arrays := tsetRange 0 [] 0x10000000000 (leBytes 6 (0x4505 * 2 ^ 32 + 0x00000893)) }

theorem witness_StepRunsTheNext :
    (let s := { inConvoy four with cv := { member four with todo := [0x78000000] } }
     s.cv.live = true ∧ holdsNow s = false ∧ (s.core s.cv.core).tracing = false ∧ s.cv.todo = 0x78000000 :: [] ∧ decodeMt 0x78000000 = .ok (.nop false)) ∧
    ((inConvoy four).cv.live = true ∧ holdsNow (inConvoy four) = false ∧ (inConvoy four).cv.todo = []) ∧
    (let s := { inConvoy four with sched := [.hold] }
     s.cv.live = true ∧ s.cv.mayHold = true ∧ s.sched = .hold :: []) ∧
    (let s := { dev core0 with sched := [.hw (.corrected (.span 0 0 0))] }
     ¬ s.cv.live = true ∧ s.sched = .hw (.corrected (.span 0 0 0)) :: []) ∧
    (let s := { dev core0 with sched := [.event {} .admissionPass] }
     ¬ s.cv.live = true ∧ s.sched = .event {} .admissionPass :: []) ∧
    (let s := { dev (ready 0x78000000) with sched := [.run 0 (.mt 0)] }
     s.sched = .run 0 (.mt 0) :: [] ∧ mtTurn (s.core 0) 0 = some .convoyIssue) ∧
    (let s := { dev { core0 with mts := [(0, { code := 4 })], ct := { active := true, machine := false, mie := 0x10000 } } with sched := [.run 0 .ct] }
     s.sched = .run 0 .ct :: [] ∧ (s.core 0).ct.active = true ∧ (s.core 0).halted = false ∧ (s.core 0).stopping = false ∧ ctInterrupts (s.core 0) = true) ∧
    (∀ x : Word64 × Word32, x ∈ [(0x10000000000, 0x00000893), (0x10000000004, 0x4505)] →
      let s := atWord x.1
      let pc := (s.core 0).ct.pc.toNat
      s.sched = .run 0 .ct :: [] ∧ (s.core 0).ct.active = true ∧ (s.core 0).halted = false ∧ (s.core 0).stopping = false ∧
        ctInterrupts (s.core 0) = false ∧ (s.core 0).ct.machine = true ∧ pc % 2 = 0 ∧ pc + 4 ≤ 2 ^ 44 ∧ InMem s pc ∧ InMem s (pc + 2) ∧ Coherent s 0 ∧
        NoPoison s ∧ (s.core 0).ct.fetched = none ∧ CleanSlices s ∧ (∀ pa, Quiet s 0 pa) ∧
        (∀ j ∈ List.range (if x.2.toNat % 4 = 3 then 4 else 2), seenByte s 0 (pc + j) = x.2.extractLsb' (8 * j) 8) ∧
        (x.2.toNat % 4 ≠ 3 → x.2.toNat < 2 ^ 16)) ∧
    (let s := dev { core0 with ct := { active := true, fetched := some 0x893 } }
     (s.core 0).ct.fetched = some 0x893) ∧
    ((∀ h i, State.reset.sched.head? ≠ some (.event h i)) ∧ nextInstr State.reset = none) := by
  have can : ∀ pc, Canonical (atWord pc) := fun pc => ⟨by simp [atWord, dev, twf, twfFrom, core0], rfl⟩
  have coh : ∀ pc, Coherent (atWord pc) 0 := fun pc => Still.coherent ⟨can pc, rfl, rfl⟩
  have np : ∀ pc, NoPoison (atWord pc) := fun pc => noPoison_of _ _ rfl rfl rfl rfl rfl
  refine ⟨by decide, by decide, by decide, by decide, by decide, ⟨rfl, by decide +kernel⟩, by decide, fun x hx => ?_, rfl, fun h i => by simp [State.reset], by rfl⟩
  simp only [List.mem_cons, List.not_mem_nil, or_false] at hx
  obtain rfl | rfl := hx <;>
    exact ⟨rfl, rfl, rfl, rfl, by decide, rfl, by decide, by decide, by unfold InMem; decide, by unfold InMem; decide, coh _, np _, rfl,
      cleanSlices_of _ rfl rfl, fun pa => quiet_of _ _ rfl pa, by decide +kernel, by decide⟩

theorem mtTables_new : MtTables {} := ⟨rfl, fun p h => by cases h⟩
theorem coreTables_new : CoreTables {} := ⟨rfl, rfl, rfl, fun _ => mtTables_new⟩
theorem tables_reset : Tables State.reset := ⟨rfl, rfl, rfl, rfl, fun _ => coreTables_new, fun v h => by cases h⟩
theorem witness_StepKeepsTables : ∃ s, Tables s := ⟨_, tables_reset⟩

theorem roomy_of {s : State} (h : s.slices = []) : Roomy s := fun line => by simp [heldLines, h]
theorem witness_WhatChangesTheSettledImage : (∃ t, exec (.nop false) (inConvoy four) = .next t ∧ Canonical (inConvoy four) ∧ Roomy t) ∧
    (∃ t, exec .convoyRetire (inConvoy four) = .next t) := ⟨⟨_, rfl, ⟨by decide, rfl⟩, roomy_of rfl⟩, ⟨_, rfl⟩⟩

/-! ## One step at a time

Expected results are the spec's own worked examples, named by their rule, or are worked out by hand from the rule named. -/

/-- The state an instruction leaves, on a state whose convoy (or control thread) it runs in. -/
def ran (i : Instr) (s : State) : State :=
  match exec i s with
  | .next t => t
  | _ => s

/-- A register of elements of `w` bits, element 0 first, and back. -/
def pack (w : Nat) (l : List Nat) : VReg := BitVec.ofNat 4096 (l.foldr (fun x n => x % 2 ^ w + 2 ^ w * n) 0)
def read (s : State) (v : VName) (w n : Nat) : List Nat := (List.range n).map (fun k => elem (s.cv.rv v) w k)

/-- The kind of the fault a member found. -/
def found (s : State) : List Nat := s.cv.cands.map (fun p => kindOf p.2)

/-! ### Integer and loop -/

/-- R245: 100 + 100 in 8 bits wraps to −56, and saturates to 127 signed and to 200 unsigned. -/
theorem test_vadd_saturates :
    let s := fun (p : Pfx) => inConvoy { four with v := [(5, pack 8 [100, 128, 1]), (6, pack 8 [100, 255, 2])] } p
    read (ran (.vadd false 4 5 6 .b8) (s {})) 4 8 3 = [200, 127, 3] ∧
      read (ran (.vadd false 4 5 6 .b8) (s { sat := true, sgn := true })) 4 8 3 = [127, 128, 3] ∧
      read (ran (.vadd false 4 5 6 .b8) (s { sat := true })) 4 8 3 = [200, 255, 3] ∧
      (ran (.vadd false 4 5 6 .b8) (s { sat := true })).cv.work.fst = 0x20 := by decide +kernel

/-- R243: an inactive element stays, becomes 0 under ZERO, and an element outside the shape stays. -/
theorem test_vmv_masks :
    let s := fun (p : Pfx) => inConvoy { four with v := [(4, pack 32 [9, 9, 9, 9, 9]), (5, pack 32 [1, 2, 3, 4, 5])], k := [(0, BitVec.allOnes 512), (2, 5)] } p
    read (ran (.vmv false 4 5 .b32) (s { mask := some (2, false) })) 4 32 5 = [1, 9, 3, 9, 9] ∧
      read (ran (.vmv false 4 5 .b32) (s { mask := some (2, true), zero := true })) 4 32 5 = [0, 2, 0, 4, 9] := by decide +kernel

/-- R246: the high half of (−1) × (−1) is 0 signed and 0xFE unsigned. R247: leading zeros, and the value of |−128|. -/
theorem test_vmulh_and_vabs :
    let s := inConvoy { four with v := [(5, pack 8 [255, 128, 1, 0])] }
    read (ran (.vmulh false 4 5 5 .b8) s) 4 8 2 = [0, 64] ∧ read (ran (.vmulhn false 4 5 5 .b8) s) 4 8 2 = [254, 64] ∧
      read (ran (.vabs false 4 5 .b8) s) 4 8 3 = [1, 128, 1] ∧ read (ran (.vclz false 4 5 .b8) s) 4 8 4 = [0, 0, 7, 8] := by decide +kernel

/-- R246: a shift by the width or more. R246: a rotation by the count mod w. -/
theorem test_shifts_past_the_width :
    let s := inConvoy { four with v := [(5, pack 8 [0x81, 0x81, 0x81]), (6, pack 8 [7, 8, 9])] }
    read (ran (.vshl false 4 5 6 .b8) s) 4 8 3 = [0x80, 0, 0] ∧ read (ran (.vshr false 4 5 6 .b8) s) 4 8 3 = [1, 0, 0] ∧
      read (ran (.vsra false 4 5 6 .b8) s) 4 8 3 = [255, 255, 255] ∧ read (ran (.vrot false 4 5 6 .b8) s) 4 8 3 = [0xC0, 0x81, 3] := by decide +kernel

/-- R253: glui of 0x40 places 0x40 × 4,096; a negative immediate is extended. R252: a count is taken mod 64. -/
theorem test_scalars :
    let s := inConvoy { four with g := [(5, 3), (6, 65)] }
    (ran (.glui false 4 0x40) s).cv.rg 4 = 0x40000 ∧ (ran (.glui false 4 0x1FFFF) s).cv.rg 4 = 0xFFFFFFFFFFFFF000 ∧
      (ran (.gshl false 4 5 6) s).cv.rg 4 = 6 ∧ (ran (.gaddi false 0 5 1) s).cv.rg 0 = 0 := by decide +kernel

/-- R258, R260: the loop of 20 bytes in steps of 16: masks of 16 and of 4, and the branch taken once. -/
theorem test_counted_loop :
    let s := fun (left : Word64) (grc : Word32) => inConvoy { four with shp := 15, g := [(11, left)], grc := grc }
    (ran (.kwhilelt false 0 0 11 .b8) (s 20 0)).cv.work.grc = 16 ∧ (ran (.kwhilelt false 0 0 11 .b8) (s 4 0)).cv.rk 0 = 0xF ∧
      (ran (.gsubbr 11 (-6)) (s 20 16)).cv.rg 11 = 4 ∧ (ran (.gsubbr 11 (-6)) (s 20 16)).cv.ctl = .jump (-24) 0x78000000 ∧
      (ran (.gsubbr 11 (-6)) (s 4 4)).cv.ctl = .seq := by decide +kernel

/-- R254: a signed and an unsigned comparison of 0x80 with 1, with bits above E written 0. -/
theorem test_kcmp :
    let s := inConvoy { four with v := [(5, pack 8 [0x80, 1]), (6, pack 8 [1, 1])], k := [(0, BitVec.allOnes 512), (3, BitVec.allOnes 512)] }
    (ran (.kcmp816 false 3 5 6 .lt false) s).cv.rk 3 = 1 ∧ (ran (.kcmp816 false 3 5 6 .ltn false) s).cv.rk 3 = 0 ∧
      (ran (.kcmp816 false 3 5 6 .eq false) s).cv.rk 3 = 0xE := by decide +kernel

/-! ### Floats -/

/-- R264: 3 × 0.5 + 1 = 2.5 and its three signs. R233: a sum that overflows. R236: a signalling NaN raises NV. -/
theorem test_floats :
    let s := inConvoy { four with v := [(4, pack 32 [0x3F800000]), (5, pack 32 [0x40400000, 0x7F000000, 0x7F800001]), (6, pack 32 [0x3F000000, 0x7F000000])] }
    read (ran (.vfma false 4 5 6 .f32) s) 4 32 1 = [0x40200000] ∧ read (ran (.vfms false 4 5 6 .f32) s) 4 32 1 = [0x3F000000] ∧
      read (ran (.vfnma false 4 5 6 .f32) s) 4 32 1 = [0xC0200000] ∧ read (ran (.vfnms false 4 5 6 .f32) s) 4 32 1 = [0xBF000000] ∧
      read (ran (.vfadd false 4 5 6 .f32) s) 4 32 3 = [0x40600000, 0x7F800000, 0x7FC00000] ∧
      (ran (.vfadd false 4 5 6 .f32) s).cv.work.fst = 0x15 := by decide +kernel

/-- R270: `vsrnd` of 1.00390625 with random bits 0x7FFF and 0x8000. -/
theorem test_vsrnd :
    let s := inConvoy { four with v := [(5, pack 32 [0x3F808000, 0x3F808000]), (6, pack 16 [0x7FFF, 0x8000])] }
    read (ran (.vsrnd false 4 5 6 .f32) s) 4 16 2 = [0x3F80, 0x3F81] ∧ (ran (.vsrnd false 4 5 6 .f32) s).cv.work.eixNx = 0 := by decide +kernel

/-- R267: 1 / 4, √2 and 2^128. -/
theorem test_vfrcp_vfsqrt_vfexp2 :
    let s := inConvoy { four with v := [(5, pack 32 [0x40800000, 0x40000000, 0x43000000])] }
    read (ran (.vfrcp false 4 5 .f32) s) 4 32 1 = [0x3E800000] ∧ read (ran (.vfsqrt false 4 5 .f32) s) 4 32 2 = [0x40000000, 0x3FB504F3] ∧
      elem ((ran (.vfexp2 false 4 5 .f32) s).cv.rv 4) 32 2 = 0x7F800000 := by decide +kernel

def t5Core : Core := { core0 with tens := [(5, tMx)] }
def eightFloats : State :=
  { dev t5Core with cv := member { full with shp := 7, v := [(8, pack 32 [0x3F800000, 0x40400000, 0xC1A00000, 0x3DCCCCCD, 0, 0x42C80000, 0x40E00000, 0x3F000000])] } }

/-- R275, R276: the worked pair of `vfcvti.into` and `vfcvti.out` on MX E4M3. -/
theorem test_vfcvti :
    let t := ran (.vfcvtiInto false 20 8 5 .f32) eightFloats
    read t 20 8 9 = [0x48, 0x54, 0xEA, 0x2D, 0, 0x7C, 0x5E, 0x40, 0] ∧ read t 21 8 2 = [0x7D, 0] ∧ t.cv.work.fst = 1 ∧ t.cv.work.eixNx = 3 ∧
      read (ran (.vfcvtiOut false 9 20 5 .f32) t) 9 32 8 =
        [0x3F800000, 0x40400000, 0xC1A00000, 0x3DD00000, 0, 0x42C00000, 0x40E00000, 0x3F000000] := by decide +kernel

/-- R229: the worked KBF4 elements: −12 and 0.0625. -/
theorem test_kbf4 :
    let s := { dev { core0 with tens := [(5, ⟨0x0112000000000000, 0x0001000000000020, 0, 0⟩)] } with
      cv := member { full with shp := 1, v := [(8, pack 4 [0b0111, 0b1001]), (9, pack 16 [0x7C82])] } }
    read (ran (.vfcvtiOut false 4 8 5 .f32) s) 4 32 2 = [0xC1400000, 0x3D800000] := by decide +kernel

/-- R279: ten words take three counter values. -/
theorem test_vrng_counter :
    (ran (.vrng false 6 .b32) (inConvoy { four with shp := 9 })).cv.sregs.any (fun e => e.1 == 0x28 && e.2 == 3) = true := by decide +kernel

/-! ### Cross-lane -/

def lanes : State :=
  inConvoy { four with
    shp := 7, k := [(0, BitVec.allOnes 512), (2, 0b10110101)]
    v := [(4, pack 32 [5, 2 ^ 32 - 2, 7, 1, 4, 9, 2 ^ 32 - 3, 6]), (6, pack 32 [100, 100, 100, 100, 100, 100, 100, 100]),
          (7, pack 32 [100, 100, 100, 100, 100, 100, 100, 100]), (9, pack 32 [7, 0, 8, 3, 255, 2, 2, 0]), (10, pack 32 [5, 7, 4, 9, 6, 0, 0, 0]),
          (11, pack 32 [7, 7, 7, 7, 7, 7, 7, 7])] } { mask := some (2, false) }

/-- R284, R286, R288, R289: the worked set. -/
theorem test_cross_lane_set :
    read (ran (.vscan false 6 4 .i32) lanes) 6 32 8 = [5, 100, 12, 100, 16, 25, 100, 31] ∧
      read (ran (.vrsum false 7 4 .i32) lanes) 7 32 8 = [31, 100, 100, 100, 100, 100, 100, 100] ∧
      read (ran (.vperm false 8 4 9 .b32) { lanes with cv := { lanes.cv with pfx := {} } }) 8 32 8 = [6, 5, 0, 1, 0, 7, 7, 5] ∧
      read (ran (.vcomp false 10 4 .b32) lanes) 10 32 8 = [5, 7, 4, 9, 6, 0, 0, 0] ∧
      read (ran (.vexpd false 11 10 .i32) lanes) 11 32 8 = [5, 7, 7, 7, 4, 9, 7, 6] := by decide +kernel

/-- R285, R287: slides, a transposition of 2 × 4 and an interleaving. -/
theorem test_moves :
    let s := inConvoy { eight with g := [(5, 3)], v := [(4, pack 32 [0, 1, 2, 3, 4, 5, 6, 7]), (6, pack 32 [10, 11, 12, 13, 14, 15, 16, 17])] }
    read (ran (.vslup false 7 4 5 .b32) s) 7 32 8 = [0, 0, 0, 0, 1, 2, 3, 4] ∧ read (ran (.vsldn false 7 4 5 .b32) s) 7 32 8 = [3, 4, 5, 6, 7, 0, 0, 0] ∧
      read (ran (.vtrans false 7 4 .b32) s) 7 32 8 = [0, 4, 1, 5, 2, 6, 3, 7] ∧
      read (ran (.vzip false 7 4 6 .b32) s) 7 32 8 = [0, 10, 1, 11, 2, 12, 3, 13] ∧
      read (ran (.vunzip false 7 4 .b32) s) 7 32 8 = [0, 2, 4, 6, 1, 3, 5, 7] := by decide +kernel

/-! ### Memory -/

/-- R13: the worked placement of PA 0x0001_4020_A680: die 6, slice 12, die offset 0x2804_1680. -/
theorem test_home_of_a_pa : homeDie State.reset 0x14020A680 = 6 ∧ homeSlice 0x14020A680 = 12 ∧ dieOffset 0x14020A680 = 0x28041680 := by decide

/-- Bytes 1 to 16 in the SRAM at VA 0x100. -/
def bytes16 (r : MtRegs) : State := { inConvoy r with arrays := tsetRange 0 [] (sramBase + 0x100) (leBytes 16 0x100F0E0D0C0B0A090807060504030201) }

/-- R295, R296: a contiguous load from [g5 + 2], a strided one with rows 4 bytes apart, and one by halfword indices. -/
theorem test_loads :
    let s := bytes16 { shp := 0x101, g := [(5, 0x100), (6, 4)], v := [(7, pack 16 [3, 0, 0, 1])] }
    read (ran (.vld false 4 5 .b16 1) s) 4 16 5 = [0x0403, 0x0605, 0x0807, 0x0A09, 0] ∧
      read (ran (.vlds false 4 5 6 .b16) s) 4 16 4 = [0x0201, 0x0403, 0x0605, 0x0807] ∧
      read (ran (.vldx false 4 5 7 .b16) s) 4 16 4 = [0x0807, 0x0201, 0x0201, 0x0403] := by decide +kernel

/-- R103: of two elements at one address the later one's bytes are stored. R102: a later member of the convoy reads them. -/
theorem test_store_then_load :
    let s := bytes16 { shp := 1, g := [(5, 0x100)], v := [(4, pack 16 [0xAAAA, 0xBBBB])] }
    read (ran (.vld false 8 5 .b16 0) (ran (.vstx false 4 5 7 .b16) s)) 8 16 2 = [0xBBBB, 0x0403] := by decide +kernel

/-- R303: sign and zero extension of the byte 0x90, and the bytes of a doubleword store. -/
theorem test_scalar_accesses :
    let s := { paged with arrays := [(sramBase + 0x100, 0x90)] }
    (ran (.gld false 9 5 true .b8 0) s).cv.rg 9 = 0xFFFFFFFFFFFFFF90 ∧ (ran (.gld false 9 5 false .b8 0) s).cv.rg 9 = 0x90 ∧
      (ran (.gst false 5 5 .b64 0) s).cv.stores.map (fun x => (x.pa, x.bytes)) = [(sramBase + 0x100, [0, 1, 0, 0, 0, 0, 0, 0])] := by decide +kernel

/-- R304, R306: an atomic minimum, signed, on a word; the old value is written, the new one staged. -/
theorem test_gamo :
    let s := { paged with arrays := [(sramBase + 0x100, 5)], cv := { paged.cv with work := { paged.cv.work with g := [(5, 0x100), (10, -1)] } } }
    let t := ran (.gamo false 9 5 10 false .min) s
    t.cv.rg 9 = 5 ∧ t.cv.stores.map (fun x => (x.bytes, x.atomic)) = [([0xFF, 0xFF, 0xFF, 0xFF], true)] := by decide +kernel

/-- R38: the worked record of eight elements: 1, 2, 4 and 7 lie in spans that are not valid, 5 lies beyond 2 TiB, 6 is masked off. -/
def scattered : State :=
  { dev core0 with
    span := [(4, 0x2000000000000011)]
    cv := member { four with
      shp := 7, k := [(0, 0b10111111)]
      v := [(6, pack 64 ([0x08000040, 0x0A000100, 0x06000200, 0x08001000, 0x0A000FC0, 0x20000000000, 0x12000000, 0x06000000].map (· / 8)))] } }
theorem test_span_fault_record :
    let t := ran (.vldx false 4 0 6 .b64) scattered
    let r := (t.cv.cands.map Prod.snd).headD []
    kindOf r = 3 ∧ (r.getD 2 0).getLsbD 43 = true ∧ (r.getD 2 0).getLsbD 42 = false ∧ (r.getD 2 0).toNat / 2 ^ 32 % 1024 = 2 ∧
      (r.getD 2 0).toNat / 2 ^ 30 % 4 = 0 ∧ r.getD 4 0 = 0xB6 ∧ r.getD 12 0 = BitVec.ofNat 64 (3 + 5 * 2 ^ 32) ∧ r.getD 13 0 = 0 ∧
      t.cv.work.v = scattered.cv.work.v := by decide +kernel

/-- R297: the load stops at the first element of a span that is not valid; where the first active element is refused it faults. -/
theorem test_vldff :
    let s := inConvoy { four with shp := 15, g := [(5, 0x1FFFFD0)] }
    (ran (.vldff false 4 5 .b32 0) s).cv.work.ffi = 12 ∧ found (ran (.vldff false 4 5 .b32 0) s) = [] ∧
      found (ran (.vldff false 4 5 .b32 0) (inConvoy { four with shp := 15, g := [(5, 0x1FFFFD0)], k := [(0, 0xF000)] })) = [3] := by decide +kernel

/-- R60, R62: a store enters the L1, which its core sees and the arrays do not; a release writes it to its home slice. -/
theorem test_store_and_release :
    let s := commitStore (dev core0) 0 0 { pa := sramBase, bytes := [7] }
    let t := releaseWork s 0 .die
    seenByte s 0 sramBase = 7 ∧ homeByte s sramBase = 0 ∧ homeByte t sramBase = 7 ∧ t.arrByte sramBase = 0 := by decide +kernel

/-- R126, R127: worked example 7 in deterministic mode. Sender B arrives first, and its release closes no batch; the reader's access
closes it in the order of the senders, and leaves 0.0. -/
def batch : State :=
  let pkt (sid : Nat) (neg : Bool) : VrstPkt :=
    { sid := sid, core := sid / 64, line := sramBase / 128, bf := false, rm := .rne, elems := [(0, .fin neg 1 24, 0)], batch := true }
  { dev core0 with arrays := [(sramBase + 2, 0x80), (sramBase + 3, 0x3F)], vrst := [pkt 131 true, pkt 67 false] }

theorem test_batch :
    releaseWork batch 2 .dev = batch ∧ homeNum batch sramBase 4 = 0x3F800000 ∧
      homeNum (closeLine batch (sramBase / 128)) sramBase 4 = 0 ∧ (closeLine batch (sramBase / 128)).vrst = [] := by decide +kernel

/-! ### Reversible -/

def rev : State := inConvoy { four with k := [(0, BitVec.allOnes 512), (2, 0b1011)], v := [(4, pack 8 [17, 17, 17, 17]), (5, pack 8 [100, 249, 55, 3]), (6, pack 8 [3, 20, 9, 0])] } { mask := some (2, false) }

/-- R321 to R329: the worked undo: products, the frame's header, what the undo restores, and the order fault of an undo of four
elements. -/
theorem test_rmul_umul :
    let t := ran (.rmul false 4 5 6 .i8) rev
    let cleared := { t with cv := { t.cv with work := { t.cv.work with v := tset 0 t.cv.work.v 5 0 }, pfx := { mask := some (2, false) } } }
    let u := ran (.umul false 4 5 6 .i8) cleared
    read t 4 8 4 = [44, 116, 17, 0] ∧ t.cv.work.tsd = 0x0000010000000018 ∧ leNat (trange 0 t.cv.talus 16 8) = 0x0010003001500010 ∧
      read u 5 8 4 = [100, 249, 0, 3] ∧ u.cv.work.tsd = 0 ∧
      found (ran (.umul false 4 5 6 .i8) { cleared with cv := { cleared.cv with pfx := {} } }) = [9] := by decide +kernel

/-- R326, R327: the rows of `rmul.bf16`, and that their undo gives back the exact bits. -/
theorem test_rmul_bf16 :
    let a := [0x3F81, 0x4040, 0x4040, 0x7180, 0x0D80, 0x8000, 0x7F81]
    let s := inConvoy { four with shp := 6, v := [(5, pack 16 a), (6, pack 16 [0x3F81, 0x3F00, 0, 0x7180, 0x2B80, 0x4000, 0x3F80])] }
    let t := ran (.rmul false 4 5 6 .bf16) s
    read t 4 16 7 = [0x3F82, 0x3FC0, 0, 0x7F80, 0, 0x8000, 0x7FC0] ∧ t.cv.work.fst = 0x17 ∧
      (List.range 7).map (fun k => leNat (trange 0 t.cv.talus (8 + 2 * k) 2)) = [0x3880, 0, 0x4040, 0x7180, 0x0D80, 0x8000, 0x7F81] ∧
      read (ran (.umul false 4 5 6 .bf16) { t with cv := { t.cv with work := { t.cv.work with v := tset 0 t.cv.work.v 5 0 } } }) 5 16 7 = a := by
  decide +kernel

/-! ### Engines -/

/-- R86, R359, R265: the worked program max(in0 × 2.0, in1), with its flags. -/
theorem test_bank_program :
    let b := { command with esz := 4, ops := [0, 4, 0x0A, 1, 0x0C], consts := [0x40000000, 0, 0, 0], fin := [0, 0, 0, 0], fout := 0 }
    bankElem b [0x3FC00000, 0x40800000] = (0x40800000, 0) ∧ bankElem b [0x7FC00000, 0xBF800000] = (0xBF800000, 0) ∧
      bankElem b [0x7F000000, 0x40A00000] = (0x7F800000, 5) := by decide +kernel

/-- R84, R87: the worked placement of offset 0x12_3456 of the SRAM: array tile 36 lies in bank 36, and 4 MiB on in the same bank. -/
theorem test_bank_of_a_tile : bankOf command 36 = 36 ∧ bankOf command (36 + 128) = 36 := by decide

/-- R351 to R353: rows (1, 1, 1, 1) and (2, 2, 2, 2) of BF16 times a column of ones: 4.0 and 8.0. -/
def product : Core :=
  { queued 1 (.mmac 0 1 tScr ⟨0x0221000000000900, 0x0001000000000001, 4, 1⟩ none 0 4 false false 32) with
    scratch := tsetRange 0 [] 0x800 (leBytes 16 0x40004000400040003F803F803F803F80) ++ tsetRange 0 [] 0x900 (leBytes 8 0x3F803F803F803F80) }
theorem test_mmac :
    let t := ran .mmacEntry (dev product)
    tget 0 (t.core 0).acc 0 = 0x40800000 ∧ tget 0 (t.core 0).acc 256 = 0x41000000 ∧ tget 0 (t.core 0).acc 1 = 0 := by decide +kernel

/-- R355, R55: eight elements of a tile move from one scratchpad tile to another, with the slot's tag to follow. -/
theorem test_cpy :
    let c := { queued 0 (.cpy tScr sZero) 0x101 with scratch := [(0, 9), (15, 7)] }
    let t := ran .cpyEntry (dev c)
    tget 0 (t.core 0).scratch 0x800 = 9 ∧ tget 0 (t.core 0).scratch 0x80F = 7 ∧ (running (t.core 0) 0).map (fun e => e.tags) = some [1] := by decide +kernel

/-! ### Control thread -/

/-- R144: division by zero and the overflow of −2^63 / −1; a 32-bit sum that wraps is extended. -/
theorem test_riscv_corners :
    rvMul .div false 7 0 = -1 ∧ rvMul .rem false 7 0 = 7 ∧ rvMul .div false 0x8000000000000000 (-1) = 0x8000000000000000 ∧
      rvMul .rem false 0x8000000000000000 (-1) = 0 ∧ rvAlu .add true 0x7FFFFFFF 1 = 0xFFFFFFFF80000000 ∧ rvMul .divu true 0xFFFFFFFF 1 = -1 := by decide

/-- R385: an `ecall` of U mode with a7 = 1 traps with cause 8 to mtvec, saves the pc and the mode, and `mret` returns. -/
theorem test_ecall_and_mret :
    let s := thread { machine := false, x := regs, pc := 0x90000, mtvec := 0x1000, mstatus := 8 }
    let t := ran .ecallEndPart s
    t.ct.pc = 0x1000 ∧ t.ct.mepc = 0x90000 ∧ t.ct.mcause = 8 ∧ t.ct.machine = true ∧ t.ct.mstatus = 0x80 ∧
      (ran (.ctRiscvInstruction .mret .full) t).ct.pc = 0x90000 ∧ (ran (.ctRiscvInstruction .mret .full) t).ct.machine = false := by decide +kernel

/-- R376, R377: a lode queued for micro-thread 0, and the code of a ready one read by `mt.stat`; absent contexts read 7. -/
theorem test_thread_requests :
    let s := thread { x := regs }
    ((((ran (.mtBcast 5 7) s).core 0).mt 0).lodeq = [(0x80, none)]) ∧ (ran (.mtStat 9 false) s).ct.rx 9 = 0x0000FFFFFFFFFFF8 ∧
      ((ran (.mtPut 0 3 5) s).core 0).pending = [.put 0 3 0x80] := by decide +kernel

/-- R23, R60: a store of the control thread enters the L1, and its load reads it back, extended. -/
theorem test_ct_store_load :
    let s := thread { x := [(5, -2), (8, 0x10000000100)] }
    let t := ran (.ctLoadStore .sw 5 8 4 .full) s
    seenByte t 0 0x10000000104 = 0xFE ∧ homeByte t 0x10000000104 = 0 ∧ (ran (.ctLoadStore .lw 9 8 4 .full) t).ct.rx 9 = 0xFFFFFFFFFFFFFFFE := by decide +kernel

/-- R122, R124: an AMO adds at the home and gives the old value; SC with the reservation writes and gives 0, without it gives 1. -/
theorem test_ct_atomics :
    let s := thread { x := [(5, 3), (8, 0x10000000100)] }
    let t := ran (.ctAmo .add false false false 9 8 5) (ran (.ctAmo .add false false false 9 8 5) s)
    t.ct.rx 9 = 3 ∧ homeByte t 0x10000000100 = 6 ∧ (ran (.ctSc false false false 9 8 5) s).ct.rx 9 = 1 ∧
      (ran (.ctSc false false false 9 8 5) (ran (.ctLr false false false 9 8) s)).ct.rx 9 = 0 := by decide +kernel

/-- R380, R387: mret is illegal in U mode. -/
theorem test_illegal_in_user_mode : (ran (.ctRiscvInstruction .mret .full) (thread { machine := false })).ct.mcause = 2 := by decide +kernel

/-! ### Convoys, faults, scheduler -/

/-- R162, R212: a `nop` issues; an unassigned opcode is kind 1 of cause OPC; `vadd.i64` of 512 elements is kind 2. -/
theorem test_issue :
    (ran .convoyIssue (dev (ready 0x78000000))).cv.live = true ∧
      kindOf ((ran .convoyIssue (dev (ready 0x7C000000))).core 0 |>.mt 0).record = 1 ∧
      kindOf ((ran .convoyIssue (dev (ready 0x00102863))).core 0 |>.mt 0).record = 2 := by decide +kernel

/-- R382: `trap 5` faults when its convoy retires, with its code in word 2, and goes on behind it. -/
theorem test_trap :
    let t := ran .convoyRetire (ran (.trap false 5) (inConvoy four))
    kindOf ((t.core 0).mt 0).record = 14 ∧ ((t.core 0).mt 0).record.getD 2 0 = 5 ∧ ((t.core 0).mt 0).next = 4 := by decide +kernel

/-- R392, R48: micro-thread 2's v5 with P = 64 has the pool offset 0x1_0A08 for its second word. -/
theorem test_poisoned_register :
    let l : CoreLaunch := { pool := 2, n := 4, ctl := 0x1000 }
    let s := ran (.doubleBitError (.reg 0 2 5 1)) (dev { launch := some l })
    (s.core 0).poolPoison = [0x10A08] ∧ l.p = 64 := by decide +kernel

/-- R179, R182: the record at HEAD of the published queue is read, of index 0, and no reason refuses it. -/
theorem test_record_at_head :
    let h := headRecord published 0 0
    h.1.map Prod.fst = some 0 ∧ (judge h.2 0 0 0 ((h.1.map Prod.snd).getD 0)).1 = .fine [] 0 ∧ (judge h.2 0 0 0 0).1 = .refused 3 := by decide +kernel

/-- R168, R290, R291: a value sent in a ring of one enters the sender's own FIFO. -/
theorem test_link :
    let t := ran .convoyRetire (ran (.vlsnd false 5) (inConvoy { four with v := [(5, 7)] }))
    (((t.core 0).mt 0).fifo.map (fun v => v.val)) = [7] ∧ ((ran (.vlrcv false 6) (inConvoy four)).cv.work.fst = 0x40) := by decide +kernel

/-- R411, log 12: SHA-384 of the empty message. -/
theorem test_sha384_empty : (sha384 []).take 8 = [0x38, 0xB0, 0x60, 0xA7, 0x51, 0xAC, 0x96, 0x38] := by decide +kernel

/-- R35, R36: a span write stands in every die's store at once, busy until it completes. -/
theorem test_span_update :
    let t := ran (.spanUpdate 0x71) { dev core0 with spidx := 5 }
    tget 0 t.span 5 = 0x71 ∧ tget 0 t.span (2 ^ 20 + 5) = 0x71 ∧ t.spBusy = true ∧ (ran .spanUpdateComplete t).spBusy = false := by decide +kernel

/-- A placed word is what the next step runs: `gaddi g10, g1, 1`, and `mt.stat x15, 1` on the control thread (R377: no context from 16 on is launched). -/
theorem test_placed_words :
    (match step (State.reset.withFetchWord 32 0x12280801) with
      | .next t => t.cv.rg 10 == 1
      | _ => false) = true ∧
    (match step (State.reset.withFetchWord 32 0x0200678B) with
      | .next t => t.ct.pc == 4 && t.ct.rx 15 == 0x0000FFFFFFFFFFFF
      | _ => false) = true := by decide +kernel

end Sys2Proof.Tests
end

section
/-! PROOF of O7: `vshape` and `gsubbr` (R211, R260, R261). -/

namespace Sys2Proof.Proofs

open Sys2Proof Sys2Proof.Machine Sys2Proof.Claims

/-! ## What exec runs -/

theorem exec_vshapeImm (c : Bool) (r k : BitVec 7) (s : State) : exec (.vshapeImm c r k) s = execVshapeImm c r k s := by
  rfl

theorem exec_vshapeReg (c : Bool) (a b : GName) (s : State) : exec (.vshapeReg c a b) s = execVshapeReg c a b s := by
  rfl

theorem exec_gsubbr (a : GName) (disp : BitVec 18) (s : State) : exec (.gsubbr a disp) s = execGsubbr a disp s := by
  rfl

/-! ## The layout of SHP (R261) -/

theorem shpOf_succ (r k : Nat) : shpOf (r + 1) (k + 1) = BitVec.ofNat 32 (r * 256 + k) := by
  simp only [shpOf, Nat.add_sub_cancel]

theorem shpRows_shpOf {r k : Nat} (hr : 1 ≤ r) (hr' : r ≤ 128) (hk : 1 ≤ k) (hk' : k ≤ 128) : shpRows (shpOf r k) = r := by
  simp only [shpRows, shpOf, bits, BitVec.toNat_ofNat]
  omega

theorem shpCols_shpOf {k : Nat} (r : Nat) (hk : 1 ≤ k) (hk' : k ≤ 128) : shpCols (shpOf r k) = k := by
  simp only [shpCols, shpOf, bits, BitVec.toNat_ofNat]
  omega

/-! ## Fault records (R381) -/

/-- Word 0 of a record has its kind in the top byte: the fields below it do not carry into it. -/
theorem kindOf_mkRecord {kind sub : Nat} (hk : kind < 256) (hs : sub < 256) (memb widx : Nat) (retry : Bool) (head : Word64)
    (body : List Nat) : kindOf (mkRecord kind sub memb widx retry head body) = kind := by
  simp only [kindOf, mkRecord, List.cons_append, List.take_succ_cons, List.getD_cons_zero, BitVec.toNat_ofNat]
  have hm : min memb 7 ≤ 7 := Nat.min_le_right memb 7
  have hr : (if retry then 2 ^ 39 else 0) ≤ 2 ^ 39 := by split <;> omega
  omega

/-! ## vshape -/

/-- SHP written in the convoy's working registers, where it governs from the next convoy on (R211). -/
def writeShp (s : State) (x : Word32) : State := s.modCv (fun cv => { cv with work := { cv.work with shp := x } })

/-- A member whose work is to write SHP leaves the shape in force, and all but SHP, as they are (R211). -/
theorem shpWrite_effect {s : State} {i : Instr} {work : State → State} {x : Word32} (he : exec i s = asMember s i work) (h : Clean s)
    (hw : work s = writeShp s x) :
    ∃ t, exec i s = .next t ∧ RegsOnly s t ∧ t.cv.shp = s.cv.shp ∧ t.cv.work = { s.cv.work with shp := x } := by
  refine ⟨endMember (writeShp s x), by rw [he, asMember_clean s i work h, hw], ⟨⟨rfl, rfl, rfl⟩, ?_⟩, rfl, rfl⟩
  have hh : s.cv.hide { s.cv.work with shp := x } = s.cv.hidden := hide_same s.cv _ ⟨rfl, rfl, rfl, rfl, rfl, rfl⟩
  simp only [endMember_cv, writeShp, modCv_cv, hh]

/-- Rows and columns within R261's limits: SHP is written with them. -/
theorem vshapeReg_accepted {s : State} {c : Bool} {a b : GName} (h : Clean s) (hr : 1 ≤ (s.cv.rg a).toNat) (hr' : (s.cv.rg a).toNat ≤ 128)
    (hk : 1 ≤ (s.cv.rg b).toNat) (hk' : (s.cv.rg b).toNat ≤ 128) (hp : (s.cv.rg a).toNat * (s.cv.rg b).toNat ≤ 512) :
    ∃ t, exec (.vshapeReg c a b) s = .next t ∧ RegsOnly s t ∧ t.cv.shp = s.cv.shp ∧
      t.cv.work = { s.cv.work with shp := shpOf (s.cv.rg a).toNat (s.cv.rg b).toNat } :=
  shpWrite_effect (exec_vshapeReg c a b s) h (if_neg (by omega))

/-- Rows or columns outside R261's limits: the member only adds its shape fault to those the convoy weighs (R318). -/
theorem vshapeReg_refused {s : State} {c : Bool} {a b : GName} (h : Clean s)
    (bad : (s.cv.rg a).toNat = 0 ∨ 128 < (s.cv.rg a).toNat ∨ (s.cv.rg b).toNat = 0 ∨ 128 < (s.cv.rg b).toNat ∨
      512 < (s.cv.rg a).toNat * (s.cv.rg b).toNat) :
    exec (.vshapeReg c a b) s = .next (endMember (shapeFault s (s.cv.rg a).toNat (s.cv.rg b).toNat)) := by
  rw [exec_vshapeReg, execVshapeReg, asMember_clean s _ _ h]
  simp only [if_pos bad]

/-! ## gsubbr -/

/-- The value that `gsubbr` writes (R260). -/
def loopCount (cv : Convoy) (a : GName) : Word64 := if a = 0 then 0 else cv.rg a - cv.work.grc.setWidth 64

/-- A transfer changes where the convoy goes on and nothing else. -/
theorem branchTo_eq (cv : Convoy) (take : Bool) (n disp : Nat) :
    branchTo cv take n disp =
      { cv with ctl := if take then .jump (cv.wordVa + BitVec.ofInt 64 (sxt n disp * 4)) cv.word else cv.ctl } := by
  cases take <;> rfl

/-- The address of a transfer is the claims' one (R204). -/
theorem wordVa_add_disp (s : State) {n : Nat} (hn : 0 < n) (disp : BitVec n) :
    s.cv.wordVa + BitVec.ofInt 64 (sxt n disp.toNat * 4) = target s disp := by
  rw [sxt_eq_toInt n disp.toNat hn, BitVec.ofNat_toNat, BitVec.setWidth_eq]
  rfl

/-- A write to a g register leaves the other tables and registers (R203). -/
theorem regs_wg_frame (r : MtRegs) (n : GName) (x : Word64) : r.wg n x = { r with g := (r.wg n x).g } := by
  unfold MtRegs.wg
  split <;> rfl

/-- A g register read after a write, g0 first (R203). -/
theorem rg_wg_zero_first (r : MtRegs) (d n : GName) (x : Word64) :
    (r.wg d x).rg n = if n = 0 then 0 else if n = d then x else r.rg n := by
  by_cases h0 : n = 0
  · rw [if_pos h0, h0, rg_zero]
  · rw [if_neg h0, rg_wg]
    by_cases hd : n = d
    · rw [if_pos hd, if_pos hd, if_neg (hd ▸ h0)]
    · rw [if_neg hd, if_neg hd]

/-- The member's whole effect: the count is written, and the branch taken where it is positive. -/
theorem exec_gsubbr_clean {s : State} (a : GName) (disp : BitVec 18) (h : Clean s) :
    exec (.gsubbr a disp) s = .next (endMember (s.modCv (fun cv =>
      { cv.wg a (loopCount s.cv a) with
        ctl := if BitVec.slt 0 (loopCount s.cv a) then .jump (target s disp) s.cv.word else s.cv.ctl }))) := by
  rw [exec_gsubbr, execGsubbr, asMember_clean s _ _ h, ← wordVa_add_disp s (by decide) disp]
  simp only [State.modCv, branchTo_eq, BitVec.ofNat_toNat]
  rfl

/-! ## The word of gsubbr (R201, R212) -/

/-- A J word with its C bit clear, written as its fields. -/
theorem wordJ_eq_encJ (op : BitVec 6) (d : BitVec 7) (disp : BitVec 18) : (0#1 ++ op ++ d ++ disp : Word32) = encJ op d disp := by
  have e : (0#1 ++ op ++ d ++ disp : Word32) =
      0#1 ++ op ++ d ++ (disp.extractLsb' 11 7 ++ disp.extractLsb' 4 7 ++ disp.extractLsb' 0 4 : BitVec 18) := by
    rw [split_disp]
  rw [e]
  calc (0#1 ++ op ++ d ++ (disp.extractLsb' 11 7 ++ disp.extractLsb' 4 7 ++ disp.extractLsb' 0 4 : BitVec 18) : Word32)
      = 0#1 ++ op ++ d ++ (disp.extractLsb' 11 7 ++ disp.extractLsb' 4 7) ++ disp.extractLsb' 0 4 := BitVec.append_assoc.symm
    _ = 0#1 ++ op ++ d ++ disp.extractLsb' 11 7 ++ disp.extractLsb' 4 7 ++ disp.extractLsb' 0 4 :=
      congrArg (· ++ disp.extractLsb' 0 4) BitVec.append_assoc.symm

/-- Bit 6 of the register field alone decides between the instruction and cause REG. -/
theorem decodeMt_gsubbrWord (b : BitVec 1) (a : GName) (disp : BitVec 18) :
    decodeMt (0#1 ++ 0x1D#6 ++ b ++ a ++ disp) = if b[0] then .error .reg else .ok (.gsubbr a disp) := by
  have e : (0#1 ++ 0x1D#6 ++ b ++ a ++ disp : Word32) = encJ 0x1D#6 (b ++ a) disp :=
    (congrArg (· ++ disp) BitVec.append_assoc).trans (wordJ_eq_encJ 0x1D#6 (b ++ a) disp)
  have hd : decodeWord (encJ 0x1D#6 (b ++ a) disp) = checked false false b[0] (.gsubbr a disp) := by
    rw [encJ, decodeWord_encR]
    show checked false false (badG (b ++ a)) (.gsubbr (gOf (b ++ a)) _) = _
    rw [badG, setQ_b6, gOf, setQ_0_6, split_disp]
  show decodeMt (0#1 ++ 0x1D#6 ++ b ++ a ++ disp : Word32) = _
  rw [e, decodeMt, hd]
  cases b[0] <;> rfl

/-! ## The obligation -/

/-- Settles O7: each form's work is written out for a clean member, and the words of `gsubbr` are read by fields. -/
theorem shapeFormsAndCountedBranch : Obligations.ShapeFormsAndCountedBranch := by
  unfold Obligations.ShapeFormsAndCountedBranch
  refine ⟨fun s c r k a b h => ⟨?_, fun hr hr' hk hk' hp => ?_, fun bad => ?_⟩, fun s a disp h => ?_, fun tens p a disp => ⟨rfl, rfl, ?_, ?_⟩⟩
  · rw [← shpOf_succ]
    exact shpWrite_effect (exec_vshapeImm c r k s) h rfl
  · obtain ⟨t, ht, hregs, hshp, hwork⟩ := vshapeReg_accepted (c := c) h hr hr' hk hk' hp
    refine ⟨t, ht, hregs, hshp, ?_, ?_, ?_⟩ <;> rw [hwork]
    · exact shpRows_shpOf hr hr' hk hk'
    · exact shpCols_shpOf _ hk hk'
  · exact ⟨_, _, vshapeReg_refused h bad, rfl, rfl, kindOf_mkRecord (by decide) (by decide) ..⟩
  · refine ⟨_, exec_gsubbr_clean a disp h, ⟨rfl, rfl, rfl⟩, fun n => rg_wg_zero_first s.cv.work a n _, rfl, ?_⟩
    simp only [endMember_cv, modCv_cv, wg_work]
    rw [← regs_wg_frame]
    rfl
  · exact decodeMt_gsubbrWord 0#1 a disp
  · exact decodeMt_gsubbrWord 1#1 a disp

end Sys2Proof.Proofs
end

section
/-! REFUTATION of O8: the dimensions that `tcoll` merges (R262), where a zero dimension stands behind a product of 2^48 or more. -/

namespace Sys2Proof.Proofs

open Sys2Proof Sys2Proof.Machine Sys2Proof.Claims

/-! ## What tcoll does -/

theorem exec_tcoll (c : Bool) (d : GName) (t : TName) (s : State) : exec (.tcoll c d t) s = execTcoll c d t s := by
  rfl

/-- The member's whole effect: the two lengths are written, and the rewritten descriptor is staged. -/
theorem exec_tcoll_clean {s : State} (c : Bool) (d : GName) (t : TName) (h : Clean s) :
    exec (.tcoll c d t) s = .next (endMember (s.modCv (fun cv =>
      ((cv.wg d (BitVec.ofNat 64 (collapse (seeTens s t)).1)).wg (d + 1) (BitVec.ofNat 64 (collapse (seeTens s t)).2.1)).stageTens t
        (collapse (seeTens s t)).2.2))) := by
  rw [exec_tcoll, execTcoll, asMember_clean s _ _ h]

theorem gName_ne_succ (d : GName) : d ≠ d + 1 := fun h => absurd (left_eq_add.mp h) (by decide)

/-- gd holds the granted length, which the write of the register behind it leaves (R262). -/
theorem rg_tcoll {s u : State} {c : Bool} {d : GName} {t : TName} (h : Clean s) (hd : d ≠ 0) (hu : exec (.tcoll c d t) s = .next u) :
    u.cv.rg d = BitVec.ofNat 64 (collapse (seeTens s t)).1 := by
  rw [exec_tcoll_clean c d t h] at hu
  injection hu with hu
  rw [← hu]
  show ((s.cv.work.wg d _).wg (d + 1) _).rg d = _
  rw [rg_wg_zero_first, if_neg hd, if_neg (gName_ne_succ d), rg_wg_zero_first, if_neg hd, if_pos rfl]

/-! ## The descriptor -/

/-- Rank 5, dense throughout (R344): n_0 to n_3 are 2^15, n_4 is 0, s_0 to s_2 are 1, 2^15 and 2^30. The product of the dimensions is
below 2^48 up to dimension 2, 2^60 up to dimension 3, and 0 up to dimension 4. R345 calls it malformed for its zero, so no `tdef` brings it;
the obligation speaks of every state. -/
def zeroOuter : TDesc := ⟨0x0500000000000000, 0x0001000000008000, 0x0000800080008000, 0x4000000000008000⟩

/-- A clean state whose core's table holds it as t1. -/
def holdsZeroOuter : State := { State.reset with cores := [(0, { tens := [(1, zeroOuter)] })] }

theorem clean_holdsZeroOuter : Clean holdsZeroOuter := ⟨rfl, rfl⟩

theorem seeTens_holdsZeroOuter : seeTens holdsZeroOuter 1 = zeroOuter := by
  rfl

/-- The machine stops before the first product that is too large: it merges dimensions 0 to 2. -/
theorem granted_zeroOuter : (collapse zeroOuter).1 = 2 ^ 45 := by
  decide

/-- Dimensions 0 to 4 meet the three conditions of R262, and 4 is the largest of all. -/
theorem dense_zeroOuter : zeroOuter.stride 0 = 1 ∧ (∀ k, k < 4 → zeroOuter.stride (k + 1) = zeroOuter.stride k * zeroOuter.dim k) ∧
    ((List.range 5).map (fun i => zeroOuter.dim (0 + i))).prod < 2 ^ 48 := by
  decide

/-! ## The obligation -/

/-- Refutes O8, in its clause on `tcoll`: R262 merges dimensions 0 to m for the largest m for which they are dense. In `zeroOuter` that is 4,
with the granted length 0, but the machine takes an m only where every smaller one is dense too, and writes 2^45. -/
theorem not_descriptorForms : ¬ Obligations.DescriptorForms := by
  unfold Obligations.DescriptorForms
  intro ⟨_, tcoll⟩
  obtain ⟨_, merges⟩ := tcoll holdsZeroOuter false 1 1 4 clean_holdsZeroOuter (by decide) (by decide)
  rw [seeTens_holdsZeroOuter] at merges
  have scaled : ¬ zeroOuter.isScaled := by decide
  have largest : ∀ j, 4 < j → ¬ j < zeroOuter.rank := fun j hj hr => absurd (show j < 5 from hr) (by omega)
  obtain ⟨u, hu, claimed, _⟩ := merges (by decide) (by decide) (by decide) (fun h => absurd dense_zeroOuter.1 (h.resolve_left scaled))
    (fun _ _ => ⟨dense_zeroOuter, fun j hj hr => absurd hr (largest j hj)⟩)
  have written := rg_tcoll clean_holdsZeroOuter (by decide) hu
  rw [seeTens_holdsZeroOuter, granted_zeroOuter, claimed] at written
  exact absurd written (by decide)

end Sys2Proof.Proofs
end

section
/-! PROOF of O28: control transfers, the other control forms, the system forms and the P words (R206, R364 to R366, R371 to R374). -/

namespace Sys2Proof.Proofs

open Sys2Proof Sys2Proof.Machine Sys2Proof.Claims

/-! ## What exec runs -/

theorem exec_br (disp : BitVec 18) (s : State) : exec (.br disp) s = execBr disp s := by
  rfl

theorem exec_jal (a : GName) (disp : BitVec 18) (s : State) : exec (.jal a disp) s = execJal a disp s := by
  rfl

theorem exec_bcc (a : GName) (cond : GCond) (disp : BitVec 15) (s : State) : exec (.bcc a cond disp) s = execBcc a cond disp s := by
  rfl

theorem exec_bk (k : KName) (inv : Bool) (disp : BitVec 15) (s : State) : exec (.bk k inv disp) s = execBk k inv disp s := by
  rfl

theorem exec_jr (c : Bool) (a : GName) (s : State) : exec (.jr c a) s = execJr c a s := by
  rfl

theorem exec_lfetch (c : Bool) (a : GName) (s : State) : exec (.lfetch c a) s = execLfetch c a s := by
  rfl

theorem exec_nop (c : Bool) (s : State) : exec (.nop c) s = execNop c s := by
  rfl

theorem exec_stop (c : Bool) (s : State) : exec (.stop c) s = execStop c s := by
  rfl

theorem exec_yield (c : Bool) (s : State) : exec (.yield c) s = execYield c s := by
  rfl

theorem exec_trap (c : Bool) (code : BitVec 11) (s : State) : exec (.trap c code) s = execTrap c code s := by
  rfl

theorem exec_brk (c : Bool) (code : BitVec 11) (s : State) : exec (.brk c code) s = execBrk c code s := by
  rfl

theorem exec_wbase (c : Bool) (n : BitVec 11) (s : State) : exec (.wbase c n) s = execWbase c n s := by
  rfl

theorem exec_fclr (c : Bool) (flags : BitVec 7) (s : State) : exec (.fclr c flags) s = execFclr c flags s := by
  rfl

theorem exec_poolq (c : Bool) (d : GName) (query : BitVec 11) (s : State) : exec (.poolq c d query) s = execPoolq c d query s := by
  rfl

theorem exec_maskSelect (inv : Bool) (k : KName) (s : State) : exec (.maskSelect inv k) s = takePfx s (.maskSelect inv k) := by
  rfl

theorem exec_rounding (v : VName) (mode : RMode) (s : State) : exec (.rounding v mode) s = takePfx s (.rounding v mode) := by
  rfl

theorem exec_saturateAndZeroing (sgn zero sat : Bool) (s : State) :
    exec (.saturateAndZeroing sgn zero sat) s = takePfx s (.saturateAndZeroing sgn zero sat) := by
  rfl

theorem exec_immediateExtension (imm : BitVec 21) (s : State) :
    exec (.immediateExtension imm) s = takePfx s (.immediateExtension imm) := by
  rfl

theorem exec_secondType (code : BitVec 5) (s : State) : exec (.secondType code) s = takePfx s (.secondType code) := by
  rfl

/-! ## Members that change their convoy alone -/

/-- A member whose work is `f` on its convoy does `f`, where `f` leaves the count of members. -/
theorem does_of_work {s : State} {i : Instr} {work : State → State} {f : Convoy → Convoy} (he : exec i s = asMember s i work) (h : Clean s)
    (hw : work s = s.modCv f) (hm : (f s.cv).member = s.cv.member) : Does s i f := by
  unfold Does
  rw [he, asMember_clean s i work h, hw, ← hm]
  rfl

/-! ## Transfers (R364) -/

/-- A transfer to w + 4x goes on at the claims' address, where it is taken (R204). -/
theorem branchTo_disp (s : State) {n : Nat} (hn : 0 < n) (disp : BitVec n) (take : Bool) :
    branchTo s.cv take n disp.toNat = if take then { s.cv with ctl := .jump (target s disp) s.cv.word } else s.cv := by
  rw [← wordVa_add_disp s hn disp]
  rfl

/-- A branch whose condition is `take` jumps where it holds and does nothing where it does not. -/
theorem does_branch {s : State} {i : Instr} {n : Nat} {disp : BitVec n} {cond : Convoy → Bool} {take : Bool}
    (he : exec i s = asMember s i (fun s => s.modCv (fun cv => branchTo cv (cond cv) n disp.toNat))) (h : Clean s) (hn : 0 < n)
    (hc : cond s.cv = take) : Does s i (fun cv => if take then { cv with ctl := .jump (target s disp) cv.word } else cv) := by
  refine does_of_work he h ?_ (by cases take <;> rfl)
  simp only [State.modCv, branchTo_disp s hn, hc]

/-- The conditions of `bcc` on a register read as signed are the claims' (R364). -/
theorem gcond_eq (cond : GCond) (x : Word64) : gcond cond x = (match cond with
    | .eqz => x == 0
    | .nez => x != 0
    | .ltz => x.msb
    | .gez => !x.msb
    | .gtz => BitVec.slt 0 x
    | .lez => BitVec.sle x 0) := by
  cases cond with
  | eqz | nez | gtz | lez => rfl
  | ltz => exact BitVec.msb_eq_toInt.symm
  | gez =>
    show decide (0 ≤ x.toInt) = !x.msb
    rw [BitVec.msb_eq_toInt, ← decide_not]
    exact decide_eq_decide.mpr Int.not_lt.symm

/-- `jal` writes the address behind its word, and jumps from its word (R364). -/
theorem exec_jal_clean {s : State} (a : GName) (disp : BitVec 18) (h : Clean s) :
    exec (.jal a disp) s = .next (endMember (s.modCv (fun cv =>
      { cv with ctl := .jump (target s disp) s.cv.word, work := cv.work.wg a (after s) }))) := by
  rw [exec_jal, execJal, asMember_clean s _ _ h]
  simp only [State.modCv, branchTo_disp s (by decide : 0 < 18) disp, if_true]
  rfl

/-! ## System forms (R371 to R374) -/

/-- A window base in registers is its immediate times 8 (R372). -/
theorem windowBase_eq (n : BitVec 11) : BitVec.ofNat 32 (8 * n.toNat) = n.setWidth 32 * 8 := by
  rw [BitVec.ofNat_mul, BitVec.ofNat_toNat, BitVec.mul_comm]
  rfl

/-- A fault that a member adds keeps the rest of its state (R318). -/
theorem finds_of_addFault {s : State} {i : Instr} {work : State → State} {phase kind sub widx : Nat} {body : List Nat}
    {ok : List Word64 → Prop} (he : exec i s = asMember s i work) (h : Clean s) (hw : work s = addFault s phase kind sub widx body)
    (hok : ok (mkRecord kind sub s.cv.nmemb widx ((s.core s.cv.core).mt s.cv.mt).retry s.cv.head body)) : Finds s i phase ok :=
  ⟨endMember (addFault s phase kind sub widx body), _, by rw [he, asMember_clean s i work h, hw], hok, rfl, fun _ => rfl⟩

/-- Word 2 of a record is the first word of its body (R381). -/
theorem getD_mkRecord_two (kind sub memb widx : Nat) (retry : Bool) (head : Word64) (x : Nat) (body : List Nat) :
    (mkRecord kind sub memb widx retry head (x :: body)).getD 2 0 = BitVec.ofNat 64 x := by
  rfl

/-- The machine's answers to `poolq` are the claims', in the order of R374. -/
theorem poolFacts_eq (s : State) : poolFacts s = (List.range 13).map (fun n => (BitVec.ofNat 11 n, poolFact s n)) := by
  rfl

theorem poolFact_of_mem {s : State} {q : BitVec 11 × Nat} (hq : q ∈ poolFacts s) : poolFact s q.1.toNat = q.2 := by
  rw [poolFacts_eq, List.mem_map] at hq
  obtain ⟨n, hn, rfl⟩ := hq
  have hlt : n < 2 ^ 11 := Nat.lt_trans (List.mem_range.mp hn) (by decide)
  rw [BitVec.toNat_ofNat, Nat.mod_eq_of_lt hlt]

/-- `poolq` is a scalar member that writes its fact. -/
theorem exec_poolq_clean {s : State} (c : Bool) (d : GName) (query : BitVec 11) (h : Clean s) :
    exec (.poolq c d query) s = gOp s (.poolq c d query) d (fun _ => BitVec.ofNat 64 (poolFact s query.toNat)) := by
  rw [exec_poolq, execPoolq, gOp, asMember_clean s _ _ h, asMember_clean s _ _ h]

/-- An I word written as its fields. -/
theorem wordI_eq_encI (c : Bool) (op : BitVec 6) (x : BitVec 1) (d : GName) (a : BitVec 7) (imm : BitVec 11) :
    (BitVec.ofBool c ++ op ++ x ++ d ++ a ++ imm : Word32) = encI c op (x ++ d) a imm := by
  have fields : (BitVec.ofBool c ++ op ++ x ++ d : BitVec 14) = BitVec.ofBool c ++ op ++ (x ++ d : BitVec 7) := BitVec.append_assoc
  calc (BitVec.ofBool c ++ op ++ x ++ d ++ a ++ imm : Word32)
      = BitVec.ofBool c ++ op ++ (x ++ d : BitVec 7) ++ a ++ imm := by rw [fields]
    _ = BitVec.ofBool c ++ op ++ (x ++ d : BitVec 7) ++ a ++ (imm.extractLsb' 4 7 ++ imm.extractLsb' 0 4 : BitVec 11) := by rw [split_imm]
    _ = BitVec.ofBool c ++ op ++ (x ++ d : BitVec 7) ++ a ++ imm.extractLsb' 4 7 ++ imm.extractLsb' 0 4 := BitVec.append_assoc.symm

/-- In a word of `poolq` a query that is not assigned goes before an operand out of range (R212, R374). -/
theorem decSys_poolq (c : Bool) (d : BitVec 7) (query : BitVec 11) :
    decSys c d 48 query = checked false (decide (13 ≤ query.toNat)) (badG d) (.poolq c (gOf d) query) := by
  simp [decSys, nz]

theorem decodeMt_poolqWord (c : Bool) (d : GName) {query : BitVec 11} (hq : 13 ≤ query.toNat) :
    decodeMt (BitVec.ofBool c ++ 0x3D#6 ++ 0#1 ++ d ++ 48#7 ++ query) = .error .rsv := by
  have fields : decodeWord (encI c 0x3D#6 (0#1 ++ d) 48#7 query) = decSys c (0#1 ++ d) 48 query := by
    rw [encI, decodeWord_encR]
    show decSys c (0#1 ++ d) 48 (query.extractLsb' 4 7 ++ query.extractLsb' 0 4) = _
    rw [split_imm]
  rw [wordI_eq_encI, decodeMt, fields, decSys_poolq, decide_eq_true hq]
  rfl

/-! ## P words (R206) -/

/-- A P word that joins those read is kept, and nothing else changes. -/
theorem takePfx_of_addPfx {s : State} {i : Instr} {p : Pfx} (h : addPfx s.cv.pfx i = some p) :
    takePfx s i = .next { s with cv := { s.cv with pfx := p } } := by
  simp only [takePfx, State.modCv, h, Option.getD_some]

/-! A P word of a kind not read yet joins those read (R207). -/

theorem addPfx_maskSelect {p : Pfx} (free : p.mask = none) (inv : Bool) (k : KName) :
    addPfx p (.maskSelect inv k) = some { p with mask := some (k, inv) } := by
  simp [addPfx, free]

theorem addPfx_rounding {p : Pfx} (free : p.rm = none) (v : VName) (mode : RMode) :
    addPfx p (.rounding v mode) = some { p with rm := some (mode, v) } := by
  simp [addPfx, free]

theorem addPfx_saturateAndZeroing {p : Pfx} (freeSat : p.sat = false) (freeZero : p.zero = false) (sgn zero sat : Bool) :
    addPfx p (.saturateAndZeroing sgn zero sat) = some { p with sat := sat, zero := zero, sgn := sgn } := by
  simp [addPfx, freeSat, freeZero]

theorem addPfx_immediateExtension {p : Pfx} (free : p.ext = none) (imm : BitVec 21) :
    addPfx p (.immediateExtension imm) = some { p with ext := some imm } := by
  simp [addPfx, free]

theorem addPfx_secondType {p : Pfx} (free : p.ty = none) (code : BitVec 5) :
    addPfx p (.secondType code) = some { p with ty := some code } := by
  simp [addPfx, free]

/-! ## The obligation -/

/-- Settles O28: each form's work is a change of the convoy that a clean member makes; a P word joins those read. -/
theorem controlForms : Obligations.ControlForms := by
  unfold Obligations.ControlForms
  refine ⟨fun s c inv a k cond disp near h => ⟨?br, ?jal, ?bcc, ?bk, ?jr, ?lfetch, ?nop, ?stop, ?yield⟩,
    fun s c d code flags q h => ⟨?trap, fun skip => ?brkSkipped, fun run armed => ?brkArmed, fun run unarmed => ?brkFault, ?wbase, ?fclr,
      fun hq => ?poolq, decodeMt_poolqWord c d⟩,
    fun s inv sgn zero sat k v mode imm code => ⟨fun free => ?mask, fun free => ?rounding, fun freeSat freeZero => ?saturate,
      fun free => ?extension, fun free => ?secondType⟩⟩
  case br => exact does_branch (exec_br disp s) h (by decide) rfl
  case jal =>
    refine ⟨_, exec_jal_clean a disp h, rfl, ?_, fun n => rg_wg_zero_first s.cv.work a n _⟩
    simp only [endMember_cv, modCv_cv]
    rw [← regs_wg_frame]
  case bcc => exact does_branch (exec_bcc a cond near s) h (by decide) (gcond_eq cond _)
  case bk => exact does_branch (exec_bk k inv near s) h (by decide) rfl
  case jr => exact does_of_work (exec_jr c a s) h rfl rfl
  case lfetch => exact does_of_work (exec_lfetch c a s) h rfl rfl
  case nop => exact does_of_work (exec_nop c s) h rfl rfl
  case stop => exact does_of_work (exec_stop c s) h rfl rfl
  case yield => exact does_of_work (exec_yield c s) h rfl rfl
  case trap => exact does_of_work (exec_trap c code s) h rfl rfl
  case brkSkipped => exact does_of_work (exec_brk c code s) h (if_pos skip) rfl
  case brkArmed =>
    exact does_of_work (exec_brk c code s) h ((if_neg (Bool.eq_false_iff.mp run)).trans (if_pos armed)) rfl
  case brkFault =>
    refine finds_of_addFault (exec_brk c code s) h
      ((if_neg (Bool.eq_false_iff.mp run)).trans (if_neg (Bool.eq_false_iff.mp unarmed))) ⟨kindOf_mkRecord (by decide) (by decide) .., ?_⟩
    rw [getD_mkRecord_two, BitVec.ofNat_toNat]
  case wbase =>
    refine does_of_work (exec_wbase c code s) h ?_ rfl
    simp only [windowBase_eq]
  case fclr => exact does_of_work (exec_fclr c flags s) h rfl rfl
  case poolq => exact gOp_writes (exec_poolq_clean c d q.1 h) h (by rw [poolFact_of_mem hq])
  case mask => exact (exec_maskSelect inv k s).trans (takePfx_of_addPfx (addPfx_maskSelect free inv k))
  case rounding => exact (exec_rounding v mode s).trans (takePfx_of_addPfx (addPfx_rounding free v mode))
  case saturate =>
    exact (exec_saturateAndZeroing sgn zero sat s).trans (takePfx_of_addPfx (addPfx_saturateAndZeroing freeSat freeZero sgn zero sat))
  case extension => exact (exec_immediateExtension imm s).trans (takePfx_of_addPfx (addPfx_immediateExtension free imm))
  case secondType => exact (exec_secondType code s).trans (takePfx_of_addPfx (addPfx_secondType free code))

end Sys2Proof.Proofs
end
